-- ==== Sys2Proof/Word.lean ====
section
/-! DEFINITION. The word types of HUFFCORE and the records its arrays hold (10_state.md R41, R43, R45). -/

namespace Sys2Proof

/-- One DMEM byte (20_memory.md R72). -/
abbrev Byte := BitVec 8

/-- A 32-bit register or command word (00_scope.md R7). -/
abbrev Word := BitVec 32

/-- A 64-bit count: TOTAL, EMIT and a node's frequency. -/
abbrev DWord := BitVec 64

/-- A symbol, 0..255 (30_encoding.md R102). -/
abbrev Sym := BitVec 8

/-- A node index, 0..511 (30_encoding.md R103). -/
abbrev NodeIx := BitVec 9

/-- A 24-bit host byte address (20_memory.md R70). -/
abbrev Addr := BitVec 24

/-- The empty-tree marker 0x1FF: no node (00_scope.md R6). -/
abbrev nilIx : NodeIx := 0x1FF#9

/-- One entry of the node arena, as the tagged union of R41: a Leaf holds its symbol, an Internal its
two children; the fields R41 fixes for the other tag are computed by `Node.sym`, `Node.left`, `Node.right`. -/
inductive Node where
  | leaf (sym : Sym) (freq : DWord)
  | internal (freq : DWord) (left right : NodeIx)
deriving DecidableEq, Repr, Inhabited

/-- One entry of the code table (R43). -/
structure CodeEntry where
  valid : Bool
  len   : BitVec 7
  code  : DWord
deriving DecidableEq, Repr, Inhabited

/-- The value of a code-table entry with no code (R43). -/
abbrev CodeEntry.invalid : CodeEntry := { valid := false, len := 0, code := 0 }

/-- One (node, depth, path) triple of the walk stack (R45). -/
structure WalkEntry where
  node  : NodeIx
  depth : BitVec 7
  path  : DWord
deriving DecidableEq, Repr, Inhabited

/-- The code generator's scratch state (R45): VISITED as the list of the node indices whose bit is 1, and the
walk stack, its top first. -/
structure Walk where
  visited : List NodeIx
  stack   : List WalkEntry
deriving DecidableEq, Repr, Inhabited

end Sys2Proof
end

