-- ==== Sys2Proof/Syntax.lean ====
section
/-! DEFINITION. The 23 commands of command set 1.0, one constructor per row of the opcode table (30_encoding.md R107).
Operands stand as the numbers R106 assembles: SYM = word[7:0], NA = word[8:0], NB = word[17:9]. -/

namespace Sys2Proof

inductive Instr where
  | nop
  | clear
  | freqClear
  | freqCount
  | pqClear
  | pqInsert (na : NodeIx)
  | pqExtract
  | pqSize
  | nodeClear
  | nodeLeaf (sym : Sym)
  | nodeJoin (na nb : NodeIx)
  | treeBuild
  | treeSetroot (na : NodeIx)
  | codeGen
  | packInit
  | packHeader
  | packSym (sym : Sym)
  | packData
  | packFlush
  | hdrParse
  | unpack
  | compress
  | decompress
deriving DecidableEq, Repr

/-- The five command formats (R101 to R105). -/
inductive Format where
  | n | s | i | j | m
deriving DecidableEq, Repr

/-- The command's format (R107). -/
def Instr.format : Instr → Format
  | .nop => .n
  | .clear => .n
  | .freqClear => .n
  | .freqCount => .m
  | .pqClear => .n
  | .pqInsert _ => .i
  | .pqExtract => .n
  | .pqSize => .n
  | .nodeClear => .n
  | .nodeLeaf _ => .s
  | .nodeJoin _ _ => .j
  | .treeBuild => .n
  | .treeSetroot _ => .i
  | .codeGen => .n
  | .packInit => .m
  | .packHeader => .n
  | .packSym _ => .s
  | .packData => .m
  | .packFlush => .n
  | .hdrParse => .m
  | .unpack => .m
  | .compress => .m
  | .decompress => .m

end Sys2Proof
end

