-- ==== Sys2Proof/WellFormed.lean ====
section
/-! DEFINITION. When a command word is a command: its OPC is listed and every bit its format marks "must be zero" is 0
(30_encoding.md R108). The term checked is the command as its two fields, `RawCommand`. -/

namespace Sys2Proof

/-- A command word as its fields: OPC = bits 31:24 and the operand field, bits 23:0 (R100). -/
structure RawCommand where
  opc     : BitVec 8
  operand : BitVec 24
deriving DecidableEq, Repr

/-- The must-be-zero bits of the operand field, per format (R110). -/
def Format.mbz : Format → BitVec 24
  | .n => 0xFFFFFF#24
  | .m => 0xFFFFFF#24
  | .s => 0xFFFF00#24
  | .i => 0xFFFE00#24
  | .j => 0xFC0000#24

/-- The format of a listed OPC, or none where the OPC is not in the table of R107. -/
def formatOf (opc : BitVec 8) : Option Format :=
  match opc.toNat with
  | 0x00 => some .n
  | 0x01 => some .n
  | 0x10 => some .n
  | 0x11 => some .m
  | 0x20 => some .n
  | 0x21 => some .i
  | 0x22 => some .n
  | 0x23 => some .n
  | 0x30 => some .n
  | 0x31 => some .s
  | 0x32 => some .j
  | 0x40 => some .n
  | 0x41 => some .i
  | 0x50 => some .n
  | 0x60 => some .m
  | 0x61 => some .n
  | 0x62 => some .s
  | 0x63 => some .m
  | 0x64 => some .n
  | 0x70 => some .m
  | 0x71 => some .m
  | 0x80 => some .m
  | 0x81 => some .m
  | _ => none

/-- First check of R108: the OPC is in the table. -/
def RawCommand.opcodeListed (r : RawCommand) : Bool := (formatOf r.opc).isSome

/-- Second check of R108: no must-be-zero bit of the format is 1. -/
def RawCommand.operandClear (r : RawCommand) : Bool :=
  match formatOf r.opc with
  | some f => r.operand &&& f.mbz == 0
  | none => true

/-- A well-formed command: both checks of R108. -/
def RawCommand.WellFormed (r : RawCommand) : Bool := r.opcodeListed && r.operandClear

/-- OPC of each command (R107). -/
def Instr.opc : Instr → BitVec 8
  | .nop => 0x00#8
  | .clear => 0x01#8
  | .freqClear => 0x10#8
  | .freqCount => 0x11#8
  | .pqClear => 0x20#8
  | .pqInsert _ => 0x21#8
  | .pqExtract => 0x22#8
  | .pqSize => 0x23#8
  | .nodeClear => 0x30#8
  | .nodeLeaf _ => 0x31#8
  | .nodeJoin _ _ => 0x32#8
  | .treeBuild => 0x40#8
  | .treeSetroot _ => 0x41#8
  | .codeGen => 0x50#8
  | .packInit => 0x60#8
  | .packHeader => 0x61#8
  | .packSym _ => 0x62#8
  | .packData => 0x63#8
  | .packFlush => 0x64#8
  | .hdrParse => 0x70#8
  | .unpack => 0x71#8
  | .compress => 0x80#8
  | .decompress => 0x81#8

/-- The operand field of each command (R101 to R105): SYM in 7:0, NA in 8:0, NB in 17:9, every other bit 0. -/
def Instr.operand : Instr → BitVec 24
  | .pqInsert na => 0#15 ++ na
  | .nodeLeaf sym => 0#16 ++ sym
  | .nodeJoin na nb => 0#6 ++ nb ++ na
  | .treeSetroot na => 0#15 ++ na
  | .packSym sym => 0#16 ++ sym
  | .nop | .clear | .freqClear | .freqCount | .pqClear | .pqExtract | .pqSize | .nodeClear | .treeBuild | .codeGen
  | .packInit | .packHeader | .packData | .packFlush | .hdrParse | .unpack | .compress | .decompress => 0#24

/-- The command as its two fields. -/
def Instr.raw (i : Instr) : RawCommand := { opc := i.opc, operand := i.operand }

/-- A command is well formed when its fields are (its operand types already hold exactly the values R102 to R104
give, so every command is; Laws/Encoding.lean proves it). -/
def Instr.WellFormed (i : Instr) : Bool := i.raw.WellFormed

/-- One row of R107's second table: a word w selects it when (w AND mask) = pattern. -/
structure TableRow where
  mnemonic : String
  pattern  : Word
  mask     : Word
deriving DecidableEq, Repr

/-- The match and mask values of R107's second table. -/
def opcodeTable : List TableRow :=
  [ { mnemonic := "NOP", pattern := 0x00000000#32, mask := 0xFFFFFFFF#32 },
    { mnemonic := "CLEAR", pattern := 0x01000000#32, mask := 0xFFFFFFFF#32 },
    { mnemonic := "FREQ_CLEAR", pattern := 0x10000000#32, mask := 0xFFFFFFFF#32 },
    { mnemonic := "FREQ_COUNT", pattern := 0x11000000#32, mask := 0xFFFFFFFF#32 },
    { mnemonic := "PQ_CLEAR", pattern := 0x20000000#32, mask := 0xFFFFFFFF#32 },
    { mnemonic := "PQ_INSERT", pattern := 0x21000000#32, mask := 0xFFFFFE00#32 },
    { mnemonic := "PQ_EXTRACT", pattern := 0x22000000#32, mask := 0xFFFFFFFF#32 },
    { mnemonic := "PQ_SIZE", pattern := 0x23000000#32, mask := 0xFFFFFFFF#32 },
    { mnemonic := "NODE_CLEAR", pattern := 0x30000000#32, mask := 0xFFFFFFFF#32 },
    { mnemonic := "NODE_LEAF", pattern := 0x31000000#32, mask := 0xFFFFFF00#32 },
    { mnemonic := "NODE_JOIN", pattern := 0x32000000#32, mask := 0xFFFC0000#32 },
    { mnemonic := "TREE_BUILD", pattern := 0x40000000#32, mask := 0xFFFFFFFF#32 } ]
  ++
  [ { mnemonic := "TREE_SETROOT", pattern := 0x41000000#32, mask := 0xFFFFFE00#32 },
    { mnemonic := "CODE_GEN", pattern := 0x50000000#32, mask := 0xFFFFFFFF#32 },
    { mnemonic := "PACK_INIT", pattern := 0x60000000#32, mask := 0xFFFFFFFF#32 },
    { mnemonic := "PACK_HEADER", pattern := 0x61000000#32, mask := 0xFFFFFFFF#32 },
    { mnemonic := "PACK_SYM", pattern := 0x62000000#32, mask := 0xFFFFFF00#32 },
    { mnemonic := "PACK_DATA", pattern := 0x63000000#32, mask := 0xFFFFFFFF#32 },
    { mnemonic := "PACK_FLUSH", pattern := 0x64000000#32, mask := 0xFFFFFFFF#32 },
    { mnemonic := "HDR_PARSE", pattern := 0x70000000#32, mask := 0xFFFFFFFF#32 },
    { mnemonic := "UNPACK", pattern := 0x71000000#32, mask := 0xFFFFFFFF#32 },
    { mnemonic := "COMPRESS", pattern := 0x80000000#32, mask := 0xFFFFFFFF#32 },
    { mnemonic := "DECOMPRESS", pattern := 0x81000000#32, mask := 0xFFFFFFFF#32 } ]

/-- The row a word selects. -/
def TableRow.selectedBy (r : TableRow) (w : Word) : Bool := w &&& r.mask == r.pattern

/-- The mnemonic of each command, as the table spells it (R107). -/
def Instr.mnemonic : Instr → String
  | .nop => "NOP"
  | .clear => "CLEAR"
  | .freqClear => "FREQ_CLEAR"
  | .freqCount => "FREQ_COUNT"
  | .pqClear => "PQ_CLEAR"
  | .pqInsert _ => "PQ_INSERT"
  | .pqExtract => "PQ_EXTRACT"
  | .pqSize => "PQ_SIZE"
  | .nodeClear => "NODE_CLEAR"
  | .nodeLeaf _ => "NODE_LEAF"
  | .nodeJoin _ _ => "NODE_JOIN"
  | .treeBuild => "TREE_BUILD"
  | .treeSetroot _ => "TREE_SETROOT"
  | .codeGen => "CODE_GEN"
  | .packInit => "PACK_INIT"
  | .packHeader => "PACK_HEADER"
  | .packSym _ => "PACK_SYM"
  | .packData => "PACK_DATA"
  | .packFlush => "PACK_FLUSH"
  | .hdrParse => "HDR_PARSE"
  | .unpack => "UNPACK"
  | .compress => "COMPRESS"
  | .decompress => "DECOMPRESS"

end Sys2Proof
end

