-- ==== Sys2Proof/Decode.lean ====
section
/-! DEFINITION. The decoder of 30_encoding.md R110, total on all 2^32 words, and the encoder. -/

namespace Sys2Proof

/-- Why a word is no command; both raise ILLEGAL_CMD(word) (R108). `short` is for fewer than the four bytes of a word. -/
inductive DecodeError where
  | unknownOpcode (opc : BitVec 8)
  | mustBeZero (bits : BitVec 24)
  | short
deriving DecidableEq, Repr

/-- OPC of a word (R100). -/
def opcOf (w : Word) : BitVec 8 := w.extractLsb' 24 8

/-- Operand field of a word (R100). -/
def operandOf (w : Word) : BitVec 24 := w.extractLsb' 0 24

/-- SYM = word[7:0] (R106). -/
def symOf (w : Word) : Sym := w.extractLsb' 0 8

/-- NA = word[8:0] (R106). -/
def naOf (w : Word) : NodeIx := w.extractLsb' 0 9

/-- NB = word[17:9] (R106). -/
def nbOf (w : Word) : NodeIx := w.extractLsb' 9 9

/-- The word's two fields. -/
def rawOf (w : Word) : RawCommand := { opc := opcOf w, operand := operandOf w }

/-- The row of R107 that OPC selects, with the operands of R106, before the must-be-zero check. -/
def rowOf (w : Word) : Option Instr :=
  match (opcOf w).toNat with
  | 0x00 => some .nop
  | 0x01 => some .clear
  | 0x10 => some .freqClear
  | 0x11 => some .freqCount
  | 0x20 => some .pqClear
  | 0x21 => some (.pqInsert (naOf w))
  | 0x22 => some .pqExtract
  | 0x23 => some .pqSize
  | 0x30 => some .nodeClear
  | 0x31 => some (.nodeLeaf (symOf w))
  | 0x32 => some (.nodeJoin (naOf w) (nbOf w))
  | 0x40 => some .treeBuild
  | 0x41 => some (.treeSetroot (naOf w))
  | 0x50 => some .codeGen
  | 0x60 => some .packInit
  | 0x61 => some .packHeader
  | 0x62 => some (.packSym (symOf w))
  | 0x63 => some .packData
  | 0x64 => some .packFlush
  | 0x70 => some .hdrParse
  | 0x71 => some .unpack
  | 0x80 => some .compress
  | 0x81 => some .decompress
  | _ => none

/-- Decode a command word (R110): OPC first, then the must-be-zero bits, then the operands. -/
def decode (w : Word) : Except DecodeError Instr :=
  match rowOf w with
  | none => .error (.unknownOpcode (opcOf w))
  | some i =>
    if operandOf w &&& i.format.mbz = 0 then .ok i
    else .error (.mustBeZero (operandOf w &&& i.format.mbz))

/-- A word from its four bytes, the first byte least significant (DESIGN CHOICE, log 14: R74 gives registers no
byte order, since only whole words reach them; only `decodeTableWord` goes through bytes). -/
def wordOfBytes (b0 b1 b2 b3 : Byte) : Word := b3 ++ b2 ++ b1 ++ b0

/-- Decode the command at the head of a byte list, total on any bytes: every command has one length, 32 bits (R100). -/
def decodeBytes : List Byte → Except DecodeError (Instr × List Byte)
  | b0 :: b1 :: b2 :: b3 :: rest =>
    match decode (wordOfBytes b0 b1 b2 b3) with
    | .ok i => .ok (i, rest)
    | .error e => .error e
  | _ => .error .short

/-- The encoder: OPC in bits 31:24, the operand field in bits 23:0 (R100). -/
def encode (i : Instr) : Word := i.opc ++ i.operand

/-- The four bytes of a word, the first least significant (log 14). -/
def bytesOfWord (w : Word) : List Byte :=
  [w.extractLsb' 0 8, w.extractLsb' 8 8, w.extractLsb' 16 8, w.extractLsb' 24 8]

/-- The instruction the decoder reads from the opcode-table word w of nbits bits. -/
def decodeTableWord (nbits w : Nat) : Option Instr :=
  match decodeBytes (bytesOfWord (BitVec.ofNat 32 (w % 2 ^ nbits))) with
  | .ok (i, _) => some i
  | .error _ => none

end Sys2Proof
end

