-- ==== Sys2Proof/Config.lean ====
section
/-! DEFINITION. The fixed parameters of HUFFCORE (00_scope.md R6), its identity (10_state.md R21), and the free
values that stand for what the spec calls UNSPEC (10_state.md R50, 93_implementation_defined.md section 2). -/

namespace Sys2Proof

/-- NODE_CAP: 511 nodes, indices 0..510 (R6). -/
abbrev Config.nodeCap : Nat := 511

/-- HEAP_CAP: 512 entries (R6). -/
abbrev Config.heapCap : Nat := 512

/-- MAX_CODE_LEN: 64 bits (R6). -/
abbrev Config.maxCodeLen : Nat := 64

/-- HDR_BYTES: 1032 (R6). -/
abbrev Config.hdrBytes : Nat := 1032

/-- What ID reads: "HUFF" (R21). -/
abbrev Config.idValue : Word := 0x48554646#32

/-- What VERSION reads: 1.0 (R21). -/
abbrev Config.versionValue : Word := 0x00010000#32

/-- DMEM_SIZE for the parameter k: 2^(12 + k), so that the twelve values of k are exactly the powers of two from
2^12 to 2^23 that R6 allows. -/
abbrev Config.dmemSize (k : Fin 12) : Nat := 2 ^ (12 + k.val)

/-- DESIGN CHOICE (log 2): State.reset is that of the reference configuration, DMEM_SIZE = 2^20 (R6). Safe: every
meaning works for every k, and no statement about all states rests on this value. -/
abbrev Config.referenceDmemLog : Fin 12 := 8

/-! Free values: no body, so nothing can be proved of what they are. `epoch` counts reset assertions, `draw` counts
draws; the second argument is the location. -/

/-- DMEM[a] after a reset, until it is written (R50, U2; log 3). -/
opaque Config.unspecDmem (epoch : Nat) (a : Nat) : Byte

/-- CMDWORD at reset (R50, U3; log 4). -/
opaque Config.unspecCmdword (epoch : Nat) : Word

/-- TOTAL at reset (R50, U3; log 4). -/
opaque Config.unspecTotal (epoch : Nat) : DWord

/-- FREQ at reset (R50, U3; log 4). -/
opaque Config.unspecFreq (epoch : Nat) : Vector Word 256

/-- CODE at reset (R50, U3; log 4). -/
opaque Config.unspecCode (epoch : Nat) : Vector CodeEntry 256

/-- VISITED and the walk stack at reset (R50, U6; log 7). -/
opaque Config.unspecWalkAtReset (epoch : Nat) : Walk

/-- VISITED and the walk stack after a walk (R45, U6; log 7). -/
opaque Config.unspecWalk (draw : Nat) : Walk

/-- What a bus read that the spec leaves open returns, in the bits its location has (R79, R80, R82, U4, U5, U7; log 5,
log 8). -/
opaque Config.unspecRead (draw : Nat) : Word

/-- Which of the running command's phases a STATUS read while busy reports (R27, U8; log 8). -/
opaque Config.unspecPhase (draw : Nat) : Nat

/-- Whether a transaction issued while reset is asserted is answered BERR (R280, U9; log 9). -/
opaque Config.unspecBerr (draw : Nat) : Bool

/-- A node at an index the arena has not allocated (R41; log 6). -/
opaque Config.unspecNode (i : NodeIx) : Node

/-- A heap slot at or above PQ_SIZE (R42; log 6). -/
opaque Config.unspecSlot (k : Nat) : NodeIx

end Sys2Proof
end

