-- ==== Sys2Proof/Machine/State.lean ====
section
/-! DEFINITION. The state of HUFFCORE (10_state.md R20), its reset, and the reasons a step can stop. -/

namespace Sys2Proof.Machine

/-- A fault of the machine. HUFFCORE has none: every error is a completion reported in STATUS (60_exceptions.md R252,
R257) and every command terminates (70_reset_and_hazards.md R291), so no constructor exists. -/
inductive Fault where
deriving DecidableEq, Repr

/-- A refusal. -/
inductive Refusal where
  /-- Raised by an arm of exec that has no meaning yet. Every arm has one, so nothing raises it. Safe. -/
  | notModelled (mnemonic : String)
deriving DecidableEq, Repr

/-- STATUS.PHASE (R27). -/
inductive Phase where
  | idle | init | exec | freq | tbLeaf | tbMerge | cgWalk | pkHdr | pkData | pkFlush | hpParse | upBits
deriving DecidableEq, Repr

/-- CTRL (R22); its reserved bits read 0 and ignore writes. -/
structure Ctrl where
  tiebrk : Bool
  ieDone : Bool
  ieErr  : Bool
deriving DecidableEq, Repr

/-- STATUS (R23), but for IRQ, which is computed (R47). -/
structure Status where
  busy    : Bool
  done    : Bool
  err     : Bool
  cmdOvr  : Bool
  wign    : Bool
  phase   : Phase
  errcode : BitVec 8
deriving DecidableEq, Repr

/-- The packer (R33, R44): output pointer, byte count, and the pending bits as a BBLEN-bit number in the
71-bit shift register. -/
structure Packer where
  optr  : Word
  ocnt  : Word
  bblen : BitVec 3
  bbuf  : BitVec 71
deriving DecidableEq, Repr

/-- The unpacker (R34). -/
structure Unpacker where
  iptr   : Word
  bitpos : BitVec 3
  cursor : NodeIx
  emit   : DWord
deriving DecidableEq, Repr

/-- The two transaction sizes (20_memory.md R70): B is 8 bits, W is 32 bits. -/
inductive Size where
  | b | w
deriving DecidableEq, Repr

/-- A host transaction (R70). -/
inductive Txn where
  | rd (size : Size) (addr : Addr)
  | wr (size : Size) (addr : Addr) (data : Word)
deriving DecidableEq, Repr

/-- The response to a transaction (R70): a read's data, a write's OK, or the bus error. -/
inductive Response where
  | data (rdata : Word)
  | ok
  | berr
deriving DecidableEq, Repr

/-- One entry of the total order of steps (R86) that the outside fixes: a host transaction, the core's turn, or the
platform's reset input going to its asserted or released level (log 1, log 9). -/
inductive Event where
  | host (t : Txn)
  | core
  | resetAssert
  | resetRelease
deriving DecidableEq, Repr

/-- The model's own fields, not the spec's (log 1, log 9, log 13): what the outside will do, oldest first; the response
to the latest transaction; the reset input's level; the counters of free values. -/
structure Env where
  events   : List Event
  response : Option Response
  rst      : Bool
  draws    : Nat
  epoch    : Nat
deriving DecidableEq, Repr

/-- The state (R20). `nodes` is NODE[0..NODE_COUNT-1] and `heap` is HEAP[0..PQ_SIZE-1]: NODE_COUNT and PQ_SIZE are
their lengths, and an entry beyond holds UNSPEC (R41, R42; log 5). `dmem` lists the DMEM bytes written since reset. -/
structure State where
  dmemLog : Fin 12
  ctrl    : Ctrl
  status  : Status
  cmdword : Word
  src     : Word
  len     : Word
  dst     : Word
  result  : Word
  errinfo : Word
  root    : NodeIx
  total   : DWord
  pk      : Packer
  up      : Unpacker
  freq    : Vector Word 256
  nodes   : List Node
  heap    : List NodeIx
  code    : Vector CodeEntry 256
  walk    : Walk
  dmem    : List Host.Cell
  env     : Env
deriving DecidableEq, Repr

/-- The "at reset" column of R50, for a DMEM_SIZE parameter and the reset's number; UNSPEC entries are free values. -/
def State.atReset (k : Fin 12) (epoch : Nat) (env : Env) : State :=
  { dmemLog := k
    ctrl := { tiebrk := false, ieDone := false, ieErr := false }
    status :=
      { busy := true, done := false, err := false, cmdOvr := false, wign := false, phase := .init, errcode := 0 }
    cmdword := Config.unspecCmdword epoch
    src := 0
    len := 0
    dst := 0
    result := 0
    errinfo := 0
    root := nilIx
    total := Config.unspecTotal epoch
    pk := { optr := 0, ocnt := 0, bblen := 0, bbuf := 0 }
    up := { iptr := 0, bitpos := 0, cursor := nilIx, emit := 0 }
    freq := Config.unspecFreq epoch
    nodes := []
    heap := []
    code := Config.unspecCode epoch
    walk := Config.unspecWalkAtReset epoch
    dmem := []
    env := env }

/-- The machine right after reset deasserts (R50, 70_reset_and_hazards.md R280), in the reference configuration (log 2),
with nothing scheduled from outside (log 13). -/
def State.reset : State :=
  State.atReset Config.referenceDmemLog 0
    { events := [], response := none, rst := false, draws := 0, epoch := 0 }

end Sys2Proof.Machine
end

