-- ==== Sys2Proof/Machine/Flags.lean ====
section
/-! DEFINITION. STATUS and CTRL as the words the host reads and writes (10_state.md R22, R23, R27, R47), and the error codes
with their detail words (60_exceptions.md R250, R251). -/

namespace Sys2Proof.Machine

/-- The error causes of R250, each with the operands its ERRINFO reports (R251). BOUNDS and ARITH_OVERFLOW carry the
detail word itself, as a natural number. -/
inductive Error where
  | illegalCmd (word : Word)
  | emptyQueue
  | queueFull (n : NodeIx)
  | nodeFull
  | badNode (n : NodeIx)
  | arithOverflow (info : Nat)
  | bounds (offset : Nat)
  | badTree (n : NodeIx)
  | noCode (s : Sym)
  | malformedHeader (sub : Fin 4)
  | codeTooLong (n : NodeIx)
  | sequence (bblen : BitVec 3)
deriving DecidableEq, Repr

/-- The code OK (R250). -/
abbrev okCode : BitVec 8 := 0x00#8

/-- STATUS.ERRCODE of each cause (R250). -/
def Error.code : Error → BitVec 8
  | .illegalCmd _ => 0x01#8
  | .emptyQueue => 0x02#8
  | .queueFull _ => 0x03#8
  | .nodeFull => 0x04#8
  | .badNode _ => 0x05#8
  | .arithOverflow _ => 0x06#8
  | .bounds _ => 0x07#8
  | .badTree _ => 0x08#8
  | .noCode _ => 0x09#8
  | .malformedHeader _ => 0x0A#8
  | .codeTooLong _ => 0x0B#8
  | .sequence _ => 0x0C#8

/-- ERRINFO of each cause (R251), narrowed to the register's 32 bits (log 15). -/
def Error.info : Error → Word
  | .illegalCmd w => w
  | .emptyQueue => 0
  | .queueFull n => n.zeroExtend 32
  | .nodeFull => BitVec.ofNat 32 Config.nodeCap
  | .badNode n => n.zeroExtend 32
  | .arithOverflow x => BitVec.ofNat 32 x
  | .bounds x => BitVec.ofNat 32 x
  | .badTree n => n.zeroExtend 32
  | .noCode s => s.zeroExtend 32
  | .malformedHeader k => BitVec.ofNat 32 k.val
  | .codeTooLong n => n.zeroExtend 32
  | .sequence b => b.zeroExtend 32

/-- The value STATUS.PHASE reports for a phase (R27). -/
def Phase.value : Phase → Nat
  | .idle => 0
  | .init => 1
  | .exec => 2
  | .freq => 3
  | .tbLeaf => 4
  | .tbMerge => 5
  | .cgWalk => 6
  | .pkHdr => 7
  | .pkData => 8
  | .pkFlush => 9
  | .hpParse => 10
  | .upBits => 11

/-- The phases a command passes through, first phase first (R27). -/
def phasesOf : Instr → List Phase
  | .freqCount => [.freq]
  | .treeBuild => [.tbLeaf, .tbMerge]
  | .codeGen => [.cgWalk]
  | .packHeader => [.pkHdr]
  | .packData => [.pkData]
  | .packFlush => [.pkFlush]
  | .hdrParse => [.hpParse]
  | .unpack => [.upBits]
  | .compress => [.freq, .tbLeaf, .tbMerge, .cgWalk, .pkHdr, .pkData, .pkFlush]
  | .decompress => [.hpParse, .tbLeaf, .tbMerge, .upBits]
  | .nop | .clear | .freqClear | .pqClear | .pqInsert _ | .pqExtract | .pqSize | .nodeClear | .nodeLeaf _
  | .nodeJoin _ _ | .treeSetroot _ | .packInit | .packSym _ => [.exec]

/-- The irq output, also STATUS.IRQ (R47). -/
def State.irq (s : State) : Bool := (s.status.done && s.ctrl.ieDone) || (s.status.err && s.ctrl.ieErr)

/-- CTRL as read: TIEBRK, IE_DONE, IE_ERR in bits 0, 1, 2 (R22). -/
def Ctrl.toWord (c : Ctrl) : Word :=
  BitVec.ofNat 32 (c.tiebrk.toNat + 2 * c.ieDone.toNat + 4 * c.ieErr.toNat)

/-- CTRL as a write of w leaves it (R22). -/
def Ctrl.ofWord (w : Word) : Ctrl :=
  { tiebrk := w.getLsbD 0, ieDone := w.getLsbD 1, ieErr := w.getLsbD 2 }

/-- STATUS as read with PHASE reported as p (R23). -/
def State.statusWord (s : State) (p : Phase) : Word :=
  BitVec.ofNat 32
    (s.status.busy.toNat + 2 * s.status.done.toNat + 4 * s.status.err.toNat + 8 * s.status.cmdOvr.toNat
      + 16 * s.status.wign.toNat + 32 * s.irq.toNat + 256 * p.value + 65536 * s.status.errcode.toNat)

/-- STATUS after a host write of w: a 1 in bits 1 to 4 clears DONE, ERR, CMD_OVR, WIGN; nothing else changes (R23). -/
def Status.writeOneToClear (st : Status) (w : Word) : Status :=
  { st with
    done := st.done && !w.getLsbD 1
    err := st.err && !w.getLsbD 2
    cmdOvr := st.cmdOvr && !w.getLsbD 3
    wign := st.wign && !w.getLsbD 4 }

/-- STATUS after `finish(code)` (60_exceptions.md R252): ERR is sticky. -/
def Status.finish (st : Status) (code : BitVec 8) : Status :=
  { st with busy := false, done := true, err := st.err || code != okCode, phase := .idle, errcode := code }

end Sys2Proof.Machine
end

