-- ==== Sys2Proof/Machine/Memory.lean ====
section
/-! DEFINITION. DMEM as a list of cells (20_memory.md R72): the bytes written since reset, addresses strictly rising. An
unlisted address has no listed value: `State.byte` then reads its free value (R50; log 3). -/

namespace Sys2Proof.Machine

/-- The canonical form: addresses strictly rising. A listed cell is always a byte and an unlisted address reads as no
listed value, so no entry can equal what an unlisted address reads as. -/
abbrev Memory.wf (m : List Host.Cell) : Prop := m.Pairwise (fun x y => x.1 < y.1)

/-- What address a is listed with; none for an unlisted address. -/
def Memory.lookup : List Host.Cell → Nat → Option Byte
  | [], _ => none
  | (b, v) :: m, a => if a = b then some v else Memory.lookup m a

/-- The memory with byte v at address a. -/
def Memory.store : List Host.Cell → Nat → Byte → List Host.Cell
  | [], a, v => [(a, v)]
  | (b, w) :: m, a, v =>
    if a < b then (a, v) :: (b, w) :: m
    else if a = b then (a, v) :: m
    else (b, w) :: Memory.store m a v

/-- DMEM_SIZE of this machine (00_scope.md R6; log 2). -/
abbrev State.dmemSize (s : State) : Nat := Config.dmemSize s.dmemLog

/-- DMEM[a]: the last byte written there since reset, or the location's free value (R50, R86; log 3). -/
def State.byte (s : State) (a : Nat) : Byte :=
  match Memory.lookup s.dmem a with
  | some v => v
  | none => Config.unspecDmem s.env.epoch a

/-- DMEM[a] <- v. -/
def State.setByte (s : State) (a : Nat) (v : Byte) : State := { s with dmem := Memory.store s.dmem a v }

end Sys2Proof.Machine
end

