-- ==== Sys2Proof/Machine/Ops.lean ====
section
/-! DEFINITION. The pseudocode primitives (00_scope.md R10): running a command to its end or to the raise that ends it, its
completion (60_exceptions.md R252, R253), and the DMEM primitives (20_memory.md R76, R84). HUFFCORE has no trap and no
return from one (R257, R258): `complete` is the one operation that ends every command, failed or not, and the host's
acknowledgement is `Status.writeOneToClear`. -/

namespace Sys2Proof.Machine

/-- How the machine answers a command or a step. -/
abbrev Out := Host.Outcome State Fault Refusal

/-- What a piece of a command's pseudocode does: it goes on with a value and a state, or it raises an error, and the
state is the one reached at the raising statement (R253). -/
inductive Res (α : Type) where
  | ok (a : α) (s : State)
  | raised (e : Error) (s : State)
deriving Repr

/-- Statement after statement; a raise skips the rest (R253). -/
def Res.andThen {α β : Type} (r : Res α) (f : α → State → Res β) : Res β :=
  match r with
  | .ok a s => f a s
  | .raised e s => .raised e s

/-- A state change made whether the piece succeeds or raises. -/
def Res.mapState {α : Type} (r : Res α) (f : State → State) : Res α :=
  match r with
  | .ok a s => .ok a (f s)
  | .raised e s => .raised e (f s)

/-- A state change made only when the piece raises. -/
def Res.onRaise {α : Type} (r : Res α) (f : State → State) : Res α :=
  match r with
  | .ok a s => .ok a s
  | .raised e s => .raised e (f s)

/-- `finish(code)` with its info (R252). RESULT is not touched. -/
def State.finish (s : State) (code : BitVec 8) (info : Word) : State :=
  { s with status := s.status.finish code, errinfo := info }

/-- Command completion (R252, R253): `finish(OK)`, or `finish(E)` with E's detail word. -/
def complete (r : Res Unit) : State :=
  match r with
  | .ok _ s => s.finish okCode 0
  | .raised e s => s.finish e.code e.info

/-- `CheckRange(a, n)`: BOUNDS(max(a, DMEM_SIZE)) when a + n > DMEM_SIZE, summed without wrap-around (R10). -/
def checkRange (a n : Nat) (s : State) : Res Unit :=
  if s.dmemSize < a + n then .raised (.bounds (max a s.dmemSize)) s else .ok () s

/-- `MemRead(a, 1)` (R10). -/
def memRead (a : Nat) (s : State) : Res Byte :=
  if s.dmemSize ≤ a then .raised (.bounds a) s else .ok (s.byte a) s

/-- `MemWrite(a, 1, v)` (R10). -/
def memWrite (a : Nat) (v : Byte) (s : State) : Res Unit :=
  if s.dmemSize ≤ a then .raised (.bounds a) s else .ok () (s.setByte a v)

/-- The n bytes from a on, as one big-endian number (R76). -/
def State.bigEndian (s : State) (a : Nat) : Nat → Nat
  | 0 => 0
  | n + 1 => s.bigEndian a n * 256 + (s.byte (a + n)).toNat

/-- `MemRead(a, n)` for a header field of n bytes (R76). -/
def memReadBE (a n : Nat) (s : State) : Res Nat :=
  (checkRange a n s).andThen fun _ s => .ok (s.bigEndian a n) s

/-- Bytes k, k+1, …, n-1 of the n-byte big-endian form of v, written from a on in ascending order; the first argument
counts the bytes still to write (R76). -/
def State.putBigEndian (a n v : Nat) : Nat → State → State
  | 0, s => s
  | j + 1, s =>
    let k := n - (j + 1)
    State.putBigEndian a n v j (s.setByte (a + k) (BitVec.ofNat 8 (v >>> (8 * (n - 1 - k)))))

/-- `MemWrite(a, n, v)` for a header field of n bytes (R76). -/
def memWriteBE (a n v : Nat) (s : State) : Res Unit :=
  (checkRange a n s).andThen fun _ s => .ok () (State.putBigEndian a n v n s)

end Sys2Proof.Machine
end

