-- ==== Sys2Proof/Machine/Operands.lean ====
section
/-! DEFINITION. The operand forms of the commands (30_encoding.md R105, R106) and the accesses to the internal arrays
(10_state.md R40 to R43). -/

namespace Sys2Proof.Machine

/-- SRC as a DMEM offset: the register's 32 bits as an unsigned number (R25, R106). -/
def State.srcOffset (s : State) : Nat := s.src.toNat

/-- LEN as a byte count (R25, R106). -/
def State.byteCount (s : State) : Nat := s.len.toNat

/-- DST as a DMEM offset (R25, R106). -/
def State.dstOffset (s : State) : Nat := s.dst.toNat

/-- NODE_COUNT (R30). -/
abbrev State.nodeCount (s : State) : Nat := s.nodes.length

/-- PQ_SIZE (R30). -/
abbrev State.pqSize (s : State) : Nat := s.heap.length

/-- NODE[i]; an unallocated entry holds UNSPEC, and no command reads one (R41; log 6). -/
def State.node (s : State) (i : NodeIx) : Node := (s.nodes[i.toNat]?).getD (Config.unspecNode i)

/-- HEAP[k]; a slot at or above PQ_SIZE holds UNSPEC, and no command reads one (R42; log 6). -/
def slot (h : List NodeIx) (k : Nat) : NodeIx := (h[k]?).getD (Config.unspecSlot k)

/-- FREQ[s] (R40). -/
def State.freqAt (s : State) (sym : Sym) : Word := s.freq[sym.toNat]'(sym.isLt)

/-- FREQ[s] <- v (R40). -/
def State.setFreq (s : State) (sym : Sym) (v : Word) : State :=
  { s with freq := s.freq.set sym.toNat v sym.isLt }

/-- CODE[s] (R43). -/
def State.codeAt (s : State) (sym : Sym) : CodeEntry := s.code[sym.toNat]'(sym.isLt)

/-- CODE[s] <- e (R43). -/
def State.setCode (s : State) (sym : Sym) (e : CodeEntry) : State :=
  { s with code := s.code.set sym.toNat e sym.isLt }

end Sys2Proof.Machine

namespace Sys2Proof

/-- NODE[i].tag, true for Internal (R41). -/
def Node.isInternal : Node → Bool
  | .leaf _ _ => false
  | .internal _ _ _ => true

/-- NODE[i].sym: 0 for an Internal (R41). -/
def Node.sym : Node → Sym
  | .leaf s _ => s
  | .internal _ _ _ => 0

/-- NODE[i].freq (R41). -/
def Node.freq : Node → DWord
  | .leaf _ f => f
  | .internal f _ _ => f

/-- NODE[i].left: NIL for a Leaf (R41). -/
def Node.left : Node → NodeIx
  | .leaf _ _ => nilIx
  | .internal _ l _ => l

/-- NODE[i].right: NIL for a Leaf (R41). -/
def Node.right : Node → NodeIx
  | .leaf _ _ => nilIx
  | .internal _ _ r => r

end Sys2Proof
end

