-- ==== Sys2Proof/Machine/Bus.lean ====
section
/-! DEFINITION. The host port (20_memory.md R70 to R83): the address map, the registers and windows as the host reads and
writes them, idle and busy, and reset (70_reset_and_hazards.md R280). -/

namespace Sys2Proof.Machine

/-- What a host address reaches (R71): a register by its offset, a word of a window, a DMEM offset, or nothing. -/
inductive Region where
  | reg (offset : Nat)
  | freq (sym : Sym)
  | code (sym : Sym) (word : Nat)
  | node (i : Nat) (word : Nat)
  | heap (k : Nat)
  | dmem (offset : Nat)
  | reserved
deriving DecidableEq, Repr

/-- The address map (R71, R78 to R81). -/
def State.region (s : State) (a : Nat) : Region :=
  if a < 0x000058 then .reg a
  else if a < 0x000400 then .reserved
  else if a < 0x000800 then .freq (BitVec.ofNat 8 ((a - 0x000400) / 4))
  else if a < 0x001000 then .reserved
  else if a < 0x002000 then .code (BitVec.ofNat 8 ((a - 0x001000) / 16)) (a % 16 / 4)
  else if a < 0x004000 then .node ((a - 0x002000) / 16) (a % 16 / 4)
  else if a < 0x004800 then .heap ((a - 0x004000) / 4)
  else if a < 0x800000 then .reserved
  else if a < 0x800000 + s.dmemSize then .dmem (a - 0x800000)
  else .reserved

/-- The address and size check, made before the busy gating (R73): false means BERR. -/
def State.accepts (s : State) (size : Size) (addr : Addr) : Bool :=
  match s.region addr.toNat, size with
  | .reserved, _ => false
  | .dmem _, .b => true
  | .dmem _, .w => addr.toNat % 4 == 0
  | .reg _, .b | .freq _, .b | .code _ _, .b | .node _ _, .b | .heap _, .b => false
  | .reg _, .w | .freq _, .w | .code _ _, .w | .node _ _, .w | .heap _, .w => addr.toNat % 4 == 0

/-- PK_BITS: BBLEN in 2:0, the pending bits left-justified in 15:8 (10_state.md R33). -/
def Packer.bitsWord (p : Packer) : Word :=
  BitVec.ofNat 32 (p.bblen.toNat + 256 * (p.bbuf.toNat <<< (8 - p.bblen.toNat) % 256))

/-- UP_STATE: BITPOS in 2:0, CURSOR in 24:16 (10_state.md R34). -/
def Unpacker.stateWord (u : Unpacker) : Word := BitVec.ofNat 32 (u.bitpos.toNat + 65536 * u.cursor.toNat)

/-- The register at an offset of the register block, read while idle (10_state.md section 2). -/
def State.readReg (s : State) (offset : Nat) : Word :=
  match offset with
  | 0x000 => Config.idValue
  | 0x004 => Config.versionValue
  | 0x008 => s.ctrl.toWord
  | 0x00C => s.statusWord .idle
  | 0x010 => 0
  | 0x014 => s.src
  | 0x018 => s.len
  | 0x01C => s.dst
  | 0x020 => s.result
  | 0x024 => s.errinfo
  | 0x028 => s.root.zeroExtend 32
  | 0x02C => BitVec.ofNat 32 s.nodeCount
  | 0x030 => BitVec.ofNat 32 s.pqSize
  | 0x034 => s.total.extractLsb' 0 32
  | 0x038 => s.total.extractLsb' 32 32
  | 0x03C => s.pk.optr
  | 0x040 => s.pk.ocnt
  | 0x044 => s.pk.bitsWord
  | 0x048 => s.up.iptr
  | 0x04C => s.up.stateWord
  | 0x050 => s.up.emit.extractLsb' 0 32
  | 0x054 => s.up.emit.extractLsb' 32 32
  | _ => 0

/-- A word of a CODE window entry (R78). -/
def CodeEntry.windowWord (e : CodeEntry) (word : Nat) : Word :=
  match word with
  | 0 => BitVec.ofNat 32 (e.len.toNat + 2 ^ 31 * e.valid.toNat)
  | 1 => 0
  | 2 => e.code.extractLsb' 0 32
  | _ => e.code.extractLsb' 32 32

/-- A word of a NODE window slot (R79). -/
def Node.windowWord (n : Node) (word : Nat) : Word :=
  match word with
  | 0 => BitVec.ofNat 32 (n.isInternal.toNat + 256 * n.sym.toNat)
  | 1 => BitVec.ofNat 32 (n.left.toNat + 65536 * n.right.toNat)
  | 2 => n.freq.extractLsb' 0 32
  | _ => n.freq.extractLsb' 32 32

/-- Four DMEM bytes as the little-endian bus carries them (R74). -/
def State.littleEndian (s : State) (a : Nat) : Word := s.byte (a + 3) ++ s.byte (a + 2) ++ s.byte (a + 1) ++ s.byte a

/-- The bits a NODE window word has (R79). -/
def Node.windowBits (word : Nat) : Word :=
  match word with
  | 0 => 0x0000FF01#32
  | 1 => 0x01FF01FF#32
  | _ => 0xFFFFFFFF#32

/-- The bits a CODE window word has (R78). -/
def CodeEntry.windowBits (word : Nat) : Word :=
  match word with
  | 0 => 0x8000007F#32
  | 1 => 0
  | _ => 0xFFFFFFFF#32

/-- The bits that what is read there has. Every other bit reads 0 in every read, one of UNSPEC too: the reserved bits of
registers and windows and NODE slot 511 are stuck at 0 (93_implementation_defined.md V3 to V5, R77 to R80, 10_state.md R22,
R23, R30, R33, R34), and bits 31:8 of an 8-bit read are 0 (R70). -/
def Region.openBits (r : Region) (size : Size) : Word :=
  match size with
  | .b => 0x000000FF#32
  | .w =>
    match r with
    | .reg 0x008 => 0x00000007#32
    | .reg 0x00C => 0x00FF0F3F#32
    | .reg 0x028 => 0x000001FF#32
    | .reg 0x02C | .reg 0x030 => 0x000003FF#32
    | .reg 0x044 => 0x0000FF07#32
    | .reg 0x04C => 0x01FF0007#32
    | .code _ word => CodeEntry.windowBits word
    | .node i word => if i = Config.nodeCap then 0 else Node.windowBits word
    | .heap _ => 0x000001FF#32
    | .reg _ | .freq _ | .dmem _ | .reserved => 0xFFFFFFFF#32

/-- What an accepted read returns while idle; none where the spec leaves it UNSPEC: an unallocated NODE entry but slot
511, a HEAP slot at or above PQ_SIZE (R78 to R81; log 5). -/
def State.readIdle (s : State) (size : Size) (r : Region) : Option Word :=
  match r with
  | .reg offset => some (s.readReg offset)
  | .freq sym => some (s.freqAt sym)
  | .code sym word => some (CodeEntry.windowWord (s.codeAt sym) word)
  | .node i word => if i = Config.nodeCap then some 0 else (s.nodes[i]?).map fun n => Node.windowWord n word
  | .heap k => (s.heap[k]?).map fun n => n.zeroExtend 32
  | .dmem a =>
    match size with
    | .b => some ((s.byte a).zeroExtend 32)
    | .w => some (s.littleEndian a)
  | .reserved => none

/-- The phases the running command passes through (10_state.md R27): INIT alone after reset, EXEC for an illegal word. -/
def State.runningPhases (s : State) (decoded : Option Instr) : List Phase :=
  if s.status.phase = .init then [.init]
  else
    match decoded with
    | some i => phasesOf i
    | none => [.exec]

/-- The phase a STATUS read reports while busy: one of the running command's, which one is a free value (R27, U8;
log 8). -/
def State.drawnPhase (s : State) (decoded : Option Instr) : Phase :=
  let ps := s.runningPhases decoded
  (ps[Config.unspecPhase s.env.draws % ps.length]?).getD .exec

/-- What an accepted read returns while busy: exact for ID, VERSION, CTRL and STATUS, UNSPEC (none) for the rest
(R82). -/
def State.readBusy (s : State) (decoded : Option Instr) (r : Region) : Option Word :=
  match r with
  | .reg 0x000 => some Config.idValue
  | .reg 0x004 => some Config.versionValue
  | .reg 0x008 => some s.ctrl.toWord
  | .reg 0x00C => some (s.statusWord (s.drawnPhase decoded))
  | _ => none

/-- The host write to CMD while idle (10_state.md R24). -/
def State.startCommand (s : State) (w : Word) (first : Phase) : State :=
  { s with cmdword := w, status := { s.status with busy := true, phase := first } }

/-- A host write to the register at an offset, while idle; one to a read-only register changes nothing (R73, R22 to
R25, R32). `first` is the first phase of the command a write to CMD starts. -/
def State.writeReg (s : State) (offset : Nat) (w : Word) (first : Phase) : State :=
  match offset with
  | 0x008 => { s with ctrl := Ctrl.ofWord w }
  | 0x00C => { s with status := s.status.writeOneToClear w }
  | 0x010 => s.startCommand w first
  | 0x014 => { s with src := w }
  | 0x018 => { s with len := w }
  | 0x01C => { s with dst := w }
  | 0x034 => { s with total := s.total.extractLsb' 32 32 ++ w }
  | 0x038 => { s with total := w ++ s.total.extractLsb' 0 32 }
  | _ => s

/-- Four DMEM bytes written as the little-endian bus carries them (R74). -/
def State.putLittleEndian (s : State) (a : Nat) (w : Word) : State :=
  (((s.setByte a (w.extractLsb' 0 8)).setByte (a + 1) (w.extractLsb' 8 8)).setByte (a + 2) (w.extractLsb' 16 8)).setByte
    (a + 3) (w.extractLsb' 24 8)

/-- An accepted write while idle (R72, R73, R81). -/
def State.writeIdle (s : State) (size : Size) (r : Region) (w : Word) (first : Phase) : State :=
  match r with
  | .reg offset => s.writeReg offset w first
  | .freq sym => s.setFreq sym w
  | .dmem a =>
    match size with
    | .b => s.setByte a (w.extractLsb' 0 8)
    | .w => s.putLittleEndian a w
  | .code _ _ | .node _ _ | .heap _ | .reserved => s

/-- STATUS.WIGN <- 1. -/
def State.setWign (s : State) : State := { s with status := { s.status with wign := true } }

/-- An accepted write while busy (R82, 70_reset_and_hazards.md R283, R284). -/
def State.writeBusy (s : State) (r : Region) (w : Word) : State :=
  match r with
  | .reg 0x00C => { s with status := s.status.writeOneToClear w }
  | .reg 0x010 => { s with status := { s.status with cmdOvr := true } }
  | .reg 0x008 | .reg 0x014 | .reg 0x018 | .reg 0x01C | .reg 0x034 | .reg 0x038 => s.setWign
  | .freq _ | .dmem _ => s.setWign
  | .reg _ | .code _ _ | .node _ _ | .heap _ | .reserved => s

/-- The transaction's response, kept in the model's own field. -/
def State.respond (s : State) (r : Response) : State := { s with env := { s.env with response := some r } }

/-- One free value drawn. -/
def State.draw (s : State) : State := { s with env := { s.env with draws := s.env.draws + 1 } }

/-- A free value for a read of the location: one drawn word, in the bits the location has (log 5, log 8). -/
def State.drawnWord (s : State) (size : Size) (r : Region) : Word := Config.unspecRead s.env.draws &&& r.openBits size

/-- A read's response: the value, or a free value where the spec leaves it UNSPEC. -/
def State.respondRead (s : State) (size : Size) (r : Region) (v : Option Word) : State :=
  match v with
  | some w => s.respond (.data w)
  | none => (s.respond (.data (s.drawnWord size r))).draw

/-- A transaction issued while reset is asserted: an UNSPEC response and no effect (70 R280, U9; log 9). -/
def State.respondInReset (s : State) (t : Txn) : State :=
  let good : Response :=
    match t with
    | .rd size addr => .data (s.drawnWord size (s.region addr.toNat))
    | .wr _ _ _ => .ok
  (s.respond (if Config.unspecBerr s.env.draws then .berr else good)).draw

/-- One host transaction (R70, R73, R82). The running command and the first phase of a command word are given by the
caller. A read while busy always uses up a draw, since STATUS draws its PHASE. -/
def State.transact (s : State) (running : Option Instr) (firstPhase : Word → Phase) (t : Txn) : State :=
  if s.env.rst then s.respondInReset t
  else
    match t with
    | .rd size addr =>
      if s.accepts size addr then
        let r := s.region addr.toNat
        if s.status.busy then (s.respondRead size r (s.readBusy running r)).draw
        else s.respondRead size r (s.readIdle size r)
      else s.respond .berr
    | .wr size addr w =>
      if s.accepts size addr then
        let r := s.region addr.toNat
        (if s.status.busy then s.writeBusy r w else s.writeIdle size r w (firstPhase w)).respond .ok
      else s.respond .berr

/-- The reset input asserted (70 R280): every piece of state takes its at-reset value, UNSPEC ones a new free value. -/
def State.assertReset (s : State) : State :=
  State.atReset s.dmemLog (s.env.epoch + 1) { s.env with rst := true, epoch := s.env.epoch + 1 }

/-- The reset input released (70 R280): the core is left busy with INIT. -/
def State.releaseReset (s : State) : State := { s with env := { s.env with rst := false } }

end Sys2Proof.Machine
end

