-- ==== Sys2Proof/Machine/CodeGen.lean ====
section
/-! DEFINITION. The code-table generator (44_codegen.md). -/

namespace Sys2Proof.Machine

/-- CODE all invalid and RESULT 0, the start of CODE_GEN (R190). -/
def State.clearCodes (s : State) : State := { s with code := Vector.replicate 256 .invalid, result := 0 }

/-- One code assigned: RESULT counts it (R190, R191). -/
def State.assignCode (s : State) (sym : Sym) (len : BitVec 7) (code : DWord) : State :=
  { s.setCode sym { valid := true, len := len, code := code } with result := s.result + 1 }

/-- The walk's loop (R191). Every turn but the last visits a node not visited before and there are 512 indices, so 513
turns are enough (log 12). -/
def walkLoop : Nat → State → Res Unit
  | 0, s => .ok () s
  | fuel + 1, s =>
    match s.walk.stack with
    | [] => .ok () s
    | e :: rest =>
      if e.node ∈ s.walk.visited then .raised (.badTree e.node) { s with walk := { s.walk with stack := rest } }
      else
        let s1 := { s with walk := { visited := e.node :: s.walk.visited, stack := rest } }
        match s1.node e.node with
        | .leaf sym _ =>
          if (s1.codeAt sym).valid then .raised (.badTree e.node) s1
          else walkLoop fuel (s1.assignCode sym e.depth e.path)
        | .internal _ l r =>
          if e.depth.toNat = Config.maxCodeLen then .raised (.codeTooLong e.node) s1
          else
            walkLoop fuel
              { s1 with
                walk :=
                  { visited := s1.walk.visited
                    stack :=
                      { node := l, depth := e.depth + 1, path := 2 * e.path }
                        :: { node := r, depth := e.depth + 1, path := 2 * e.path + 1 } :: rest } }

/-- The scratch state left by a walk holds UNSPEC between commands (R45; log 7). -/
def State.releaseWalk (s : State) : State :=
  { s with walk := Config.unspecWalk s.env.draws, env := { s.env with draws := s.env.draws + 1 } }

/-- `walk()` (R191). -/
def codeWalk (s : State) : Res Unit :=
  (walkLoop 513 { s with walk := { visited := [], stack := [{ node := s.root, depth := 0, path := 0 }] } }).mapState
    State.releaseWalk

/-- CODE_GEN's body (R190), with the 1-bit code of a root leaf (R192). -/
def codeGen (s : State) : Res Unit :=
  let s := s.clearCodes
  if s.root = nilIx then .ok () s
  else
    match s.node s.root with
    | .leaf sym _ => .ok () (s.assignCode sym 1 0)
    | .internal _ _ _ => codeWalk s

/-- CODE_GEN (R190). -/
def execCodeGen (s : State) : Out := .next (complete (codeGen s))

end Sys2Proof.Machine
end

