-- ==== Sys2Proof/Machine/Frequency.lean ====
section
/-! DEFINITION. Frequency table commands (41_frequency.md). -/

namespace Sys2Proof.Machine

/-- FREQ_CLEAR's effects (R140). -/
def State.clearFreq (s : State) : State := { s with freq := Vector.replicate 256 0, total := 0 }

/-- FREQ_CLEAR (R140). -/
def execFreqClear (s : State) : Out := .next (complete (.ok () s.clearFreq))

/-- Count byte b: FREQ[b] and TOTAL up by one, RESULT = bytes counted so far (R141). -/
def State.countByte (s : State) (b : Byte) (counted : Nat) : State :=
  { s.setFreq b (s.freqAt b + 1) with total := s.total + 1, result := BitVec.ofNat 32 counted }

/-- The loop of FREQ_COUNT from byte i on, with n bytes still to count (R141). -/
def countLoop (src : Nat) : Nat → Nat → State → Res Unit
  | 0, _, s => .ok () s
  | n + 1, i, s =>
    (memRead (src + i) s).andThen fun b s =>
      if (s.freqAt b).toNat = 2 ^ 32 - 1 then .raised (.arithOverflow (src + i)) s
      else if s.total.toNat = 2 ^ 64 - 1 then .raised (.arithOverflow (src + i)) s
      else countLoop src n (i + 1) (s.countByte b (i + 1))

/-- FREQ_COUNT over (src, len) (R141). -/
def freqCount (src len : Nat) (s : State) : Res Unit :=
  (checkRange src len s).andThen fun _ s => countLoop src len 0 { s with result := 0 }

/-- FREQ_COUNT (R141). -/
def execFreqCount (s : State) : Out := .next (complete (freqCount s.srcOffset s.byteCount s))

end Sys2Proof.Machine
end

