-- ==== Sys2Proof/Machine/Pack.lean ====
section
/-! DEFINITION. The bitstream packer (45_pack.md). -/

namespace Sys2Proof.Machine

/-- OPTR and OCNT past n more bytes (R201, R203, R206). -/
def State.advancePacker (s : State) (n : Word) : State :=
  { s with pk := { s.pk with optr := s.pk.optr + n, ocnt := s.pk.ocnt + n } }

/-- BBLEN <- n, BBUF <- acc. -/
def State.setPending (s : State) (n acc : Nat) : State :=
  { s with pk := { s.pk with bblen := BitVec.ofNat 3 n, bbuf := BitVec.ofNat 71 acc } }

/-- The while loop of append (R201): write the oldest 8 of n bits while there are 8; the answer is what is left. With
(BBLEN + L) div 8 turns it stops exactly where the loop does (log 12). -/
def drainBytes : Nat → Nat → Nat → State → Res (Nat × Nat)
  | 0, n, acc, s => .ok (n, acc) s
  | fuel + 1, n, acc, s =>
    if 8 ≤ n then
      (memWrite s.pk.optr.toNat (BitVec.ofNat 8 (acc >>> (n - 8))) s).andThen fun _ s =>
        drainBytes fuel (n - 8) (acc % 2 ^ (n - 8)) (s.advancePacker 1)
    else .ok (n, acc) s

/-- `append(c, L)` (R201). -/
def append (c l : Nat) (s : State) : Res Unit :=
  let k := (s.pk.bblen.toNat + l) / 8
  (checkRange s.pk.optr.toNat k s).andThen fun _ s =>
    (drainBytes k (s.pk.bblen.toNat + l) (s.pk.bbuf.toNat <<< l ||| c) s).andThen fun r s =>
      .ok () (s.setPending r.1 r.2)

/-- PACK_INIT's effects (R202). -/
def State.initPacker (s : State) (dst : Word) : State :=
  { s with pk := { optr := dst, ocnt := 0, bblen := 0, bbuf := 0 } }

/-- PACK_INIT (R202). -/
def execPackInit (s : State) : Out := .next (complete (.ok () (s.initPacker s.dst)))

/-- The FREQ words of the header for the symbols 256-n, …, 255, big-endian from a on (R203, R207). -/
def headerLoop (a : Nat) : Nat → State → Res Unit
  | 0, s => .ok () s
  | n + 1, s =>
    let k := 256 - (n + 1)
    (memWriteBE (a + 4 * k) 4 (s.freqAt (BitVec.ofNat 8 k)).toNat s).andThen fun _ s => headerLoop a n s

/-- PACK_HEADER's body (R203). -/
def packHeader (s : State) : Res Unit :=
  if s.pk.bblen ≠ 0 then .raised (.sequence s.pk.bblen) s
  else
    let a := s.pk.optr.toNat
    (checkRange a Config.hdrBytes s).andThen fun _ s =>
      (headerLoop a 256 s).andThen fun _ s =>
        (memWriteBE (a + 1024) 8 s.total.toNat s).andThen fun _ s =>
          .ok () (s.advancePacker (BitVec.ofNat 32 Config.hdrBytes))

/-- PACK_HEADER (R203). -/
def execPackHeader (s : State) : Out := .next (complete (packHeader s))

/-- Append the code of one symbol: NO_CODE before BOUNDS (R204, R205, 60_exceptions.md R254). -/
def packSymbol (sym : Sym) (s : State) : Res Unit :=
  if (s.codeAt sym).valid then append (s.codeAt sym).code.toNat (s.codeAt sym).len.toNat s
  else .raised (.noCode sym) s

/-- PACK_SYM (R204). -/
def execPackSym (sym : Sym) (s : State) : Out := .next (complete (packSymbol sym s))

/-- The loop of PACK_DATA from byte i on, with n bytes still to pack (R205). -/
def packLoop (src : Nat) : Nat → Nat → State → Res Unit
  | 0, _, s => .ok () s
  | n + 1, i, s =>
    (memRead (src + i) s).andThen fun b s =>
      (packSymbol b s).andThen fun _ s => packLoop src n (i + 1) { s with result := BitVec.ofNat 32 (i + 1) }

/-- PACK_DATA over (src, len) (R205). -/
def packData (src len : Nat) (s : State) : Res Unit :=
  (checkRange src len s).andThen fun _ s => packLoop src len 0 { s with result := 0 }

/-- PACK_DATA (R205). -/
def execPackData (s : State) : Out := .next (complete (packData s.srcOffset s.byteCount s))

/-- The padding byte of PACK_FLUSH, where bits are pending (R206). -/
def flushPending (s : State) : Res Unit :=
  if s.pk.bblen = 0 then .ok () s
  else
    (checkRange s.pk.optr.toNat 1 s).andThen fun _ s =>
      (memWrite s.pk.optr.toNat (BitVec.ofNat 8 (s.pk.bbuf.toNat <<< (8 - s.pk.bblen.toNat))) s).andThen fun _ s =>
        .ok () ((s.advancePacker 1).setPending 0 0)

/-- PACK_FLUSH's body (R206). -/
def packFlush (s : State) : Res Unit :=
  (flushPending s).andThen fun _ s => .ok () { s with result := s.pk.ocnt }

/-- PACK_FLUSH (R206). -/
def execPackFlush (s : State) : Out := .next (complete (packFlush s))

end Sys2Proof.Machine
end

