-- ==== Sys2Proof/Machine/Heap.lean ====
section
/-! DEFINITION. The priority-queue heap (42_heap.md). -/

namespace Sys2Proof.Machine

/-- `less(a, b)` under CTRL.TIEBRK (R151). -/
def State.less (s : State) (a b : NodeIx) : Bool :=
  let fa := (s.node a).freq.toNat
  let fb := (s.node b).freq.toNat
  if s.ctrl.tiebrk then decide (fa < fb ∨ (fa = fb ∧ a.toNat < b.toNat)) else decide (fa < fb)

/-- The while loop of heap_insert from slot k (R152). Each turn lowers k, so k turns are enough (log 12). -/
def siftUp (lt : NodeIx → NodeIx → Bool) : Nat → Nat → List NodeIx → List NodeIx
  | 0, _, h => h
  | fuel + 1, k, h =>
    if k = 0 then h
    else
      let p := (k - 1) / 2
      if lt (slot h k) (slot h p) then siftUp lt fuel p (h.swap k p) else h

/-- The heap after heap_insert of n below capacity (R152). -/
def pushHeap (lt : NodeIx → NodeIx → Bool) (h : List NodeIx) (n : NodeIx) : List NodeIx :=
  siftUp lt h.length h.length (h ++ [n])

/-- `heap_insert(n)` (R152). -/
def heapInsert (n : NodeIx) (s : State) : Res Unit :=
  if s.pqSize = Config.heapCap then .raised (.queueFull n) s
  else .ok () { s with heap := pushHeap s.less s.heap n }

/-- The loop of heap_extract from slot k (R153). Each turn raises k, so PQ_SIZE turns are enough (log 12). -/
def siftDown (lt : NodeIx → NodeIx → Bool) : Nat → Nat → List NodeIx → List NodeIx
  | 0, _, h => h
  | fuel + 1, k, h =>
    let l := 2 * k + 1
    let rt := 2 * k + 2
    if h.length ≤ l then h
    else
      let c := if rt < h.length ∧ lt (slot h rt) (slot h l) then rt else l
      if lt (slot h c) (slot h k) then siftDown lt fuel c (h.swap c k) else h

/-- The heap after heap_extract from a non-empty heap (R153): the last element moves to the root and sifts down. -/
def popHeap (lt : NodeIx → NodeIx → Bool) (h : List NodeIx) : List NodeIx :=
  let n := h.length - 1
  if 0 < n then siftDown lt n 0 ((h.take n).set 0 (slot h n)) else []

/-- `heap_extract()` (R153). -/
def heapExtract (s : State) : Res NodeIx :=
  if s.pqSize = 0 then .raised .emptyQueue s
  else .ok (slot s.heap 0) { s with heap := popHeap s.less s.heap }

/-- PQ_CLEAR (R154). -/
def execPqClear (s : State) : Out := .next (complete (.ok () { s with heap := [] }))

/-- PQ_INSERT's body (R155). -/
def pqInsert (na : NodeIx) (s : State) : Res Unit :=
  if s.nodeCount ≤ na.toNat then .raised (.badNode na) s else heapInsert na s

/-- PQ_INSERT (R155). -/
def execPqInsert (na : NodeIx) (s : State) : Out := .next (complete (pqInsert na s))

/-- PQ_EXTRACT's body (R156): RESULT is the index, zero-extended. -/
def pqExtract (s : State) : Res Unit :=
  (heapExtract s).andThen fun r s => .ok () { s with result := r.zeroExtend 32 }

/-- PQ_EXTRACT (R156). -/
def execPqExtract (s : State) : Out := .next (complete (pqExtract s))

/-- PQ_SIZE (R157). -/
def execPqSize (s : State) : Out := .next (complete (.ok () { s with result := BitVec.ofNat 32 s.pqSize }))

end Sys2Proof.Machine
end

