-- ==== Sys2Proof/Machine/Tree.lean ====
section
/-! DEFINITION. The node arena and the tree builder (43_tree.md). -/

namespace Sys2Proof.Machine

/-- The index the next node gets: NODE_COUNT (R170). -/
def State.nextNode (s : State) : NodeIx := BitVec.ofNat 9 s.nodeCount

/-- NODE[NODE_COUNT] <- n; NODE_COUNT up by one (R170). -/
def State.addNode (s : State) (n : Node) : State := { s with nodes := s.nodes ++ [n] }

/-- `new_leaf(s)` (R170). -/
def newLeaf (sym : Sym) (s : State) : Res NodeIx :=
  if s.nodeCount = Config.nodeCap then .raised .nodeFull s
  else .ok s.nextNode (s.addNode (.leaf sym ((s.freqAt sym).zeroExtend 64)))

/-- `new_join(a, b)`, its checks in their written order (R170, 60_exceptions.md R254). -/
def newJoin (a b : NodeIx) (s : State) : Res NodeIx :=
  if s.nodeCount ≤ a.toNat then .raised (.badNode a) s
  else if s.nodeCount ≤ b.toNat then .raised (.badNode b) s
  else if s.nodeCount = Config.nodeCap then .raised .nodeFull s
  else
    let f := (s.node a).freq.toNat + (s.node b).freq.toNat
    if 2 ^ 64 ≤ f then .raised (.arithOverflow (b.toNat <<< 9 ||| a.toNat)) s
    else .ok s.nextNode (s.addNode (.internal (BitVec.ofNat 64 f) a b))

/-- The arena, the heap and the root emptied: NODE_CLEAR (R171) and TB_INIT (R175). -/
def State.clearTree (s : State) : State := { s with nodes := [], heap := [], root := nilIx }

/-- NODE_CLEAR (R171). -/
def execNodeClear (s : State) : Out := .next (complete (.ok () s.clearTree))

/-- RESULT <- a new node's index. -/
def storeIndex (r : Res NodeIx) : Res Unit :=
  r.andThen fun k s => .ok () { s with result := k.zeroExtend 32 }

/-- NODE_LEAF (R172). -/
def execNodeLeaf (sym : Sym) (s : State) : Out := .next (complete (storeIndex (newLeaf sym s)))

/-- NODE_JOIN (R173). -/
def execNodeJoin (na nb : NodeIx) (s : State) : Out := .next (complete (storeIndex (newJoin na nb s)))

/-- TB_LEAF (R176): the symbols 256-n, …, 255 still to visit, with the leaves made so far; the answer is the number of
leaves. -/
def leafLoop : Nat → Nat → State → Res Nat
  | 0, leaves, s => .ok leaves s
  | n + 1, leaves, s =>
    let sym : Sym := BitVec.ofNat 8 (256 - (n + 1))
    if 0 < (s.freqAt sym).toNat then
      (newLeaf sym s).andThen fun k s => (heapInsert k s).andThen fun _ s => leafLoop n (leaves + 1) s
    else leafLoop n leaves s

/-- TB_MERGE (R177). Each turn lowers PQ_SIZE, so PQ_SIZE turns are enough (log 12). -/
def mergeLoop : Nat → State → Res Unit
  | 0, s => .ok () s
  | fuel + 1, s =>
    if 1 < s.pqSize then
      (heapExtract s).andThen fun a s =>
        (heapExtract s).andThen fun b s =>
          (newJoin a b s).andThen fun k s => (heapInsert k s).andThen fun _ s => mergeLoop fuel s
    else .ok () s

/-- TB_DONE (R178). -/
def State.takeRoot (s : State) (leaves : Nat) : State :=
  { s with
    root := if s.pqSize = 1 then slot s.heap 0 else s.root
    heap := if s.pqSize = 1 then [] else s.heap
    result := BitVec.ofNat 32 leaves }

/-- TREE_BUILD's four phases (R174 to R178). -/
def treeBuild (s : State) : Res Unit :=
  (leafLoop 256 0 s.clearTree).andThen fun leaves s =>
    (mergeLoop s.pqSize s).andThen fun _ s => .ok () (s.takeRoot leaves)

/-- TREE_BUILD (R174). -/
def execTreeBuild (s : State) : Out := .next (complete (treeBuild s))

/-- TREE_SETROOT's body (R179). -/
def treeSetroot (na : NodeIx) (s : State) : Res Unit :=
  if s.nodeCount ≤ na.toNat then .raised (.badNode na) s else .ok () { s with root := na }

/-- TREE_SETROOT (R179). -/
def execTreeSetroot (na : NodeIx) (s : State) : Out := .next (complete (treeSetroot na s))

end Sys2Proof.Machine
end

