-- ==== Sys2Proof/Machine/Unpack.lean ====
section
/-! DEFINITION. The header parser and the bitstream unpacker (46_unpack.md). -/

namespace Sys2Proof.Machine

/-- FREQ[k] <- MemRead(SRC + 4k, 4) for the symbols 256-n, …, 255 (R220). -/
def loadLoop (src : Nat) : Nat → State → Res Unit
  | 0, s => .ok () s
  | n + 1, s =>
    let k := 256 - (n + 1)
    (memReadBE (src + 4 * k) 4 s).andThen fun v s =>
      loadLoop src n (s.setFreq (BitVec.ofNat 8 k) (BitVec.ofNat 32 v))

/-- The 256 counts summed exactly (R221). -/
def State.freqSum (s : State) : Nat := (s.freq.toList.map BitVec.toNat).sum

/-- `check_header()` (R221). -/
def checkHeader (s : State) : Res Unit :=
  if s.freqSum = s.total.toNat then .ok () s else .raised (.malformedHeader 1) s

/-- HDR_PARSE over (src, len) (R220). -/
def hdrParse (src len : Nat) (s : State) : Res Unit :=
  (checkRange src len s).andThen fun _ s =>
    if len < Config.hdrBytes then .raised (.malformedHeader 0) s
    else
      (loadLoop src 256 s).andThen fun _ s =>
        (memReadBE (src + 1024) 8 s).andThen fun v s =>
          (checkHeader { s with total := BitVec.ofNat 64 v }).andThen fun _ s =>
            .ok () { s with result := s.total.truncate 32 }

/-- HDR_PARSE (R220). -/
def execHdrParse (s : State) : Out := .next (complete (hdrParse s.srcOffset s.byteCount s))

/-- One bit consumed: BITPOS, and IPTR past a byte's last bit (R223). BITPOS is 3 bits wide, so 7 + 1 is 0. -/
def State.consumeBit (s : State) : State :=
  { s with
    up :=
      { s.up with
        bitpos := s.up.bitpos + 1
        iptr := if s.up.bitpos = 7 then s.up.iptr + 1 else s.up.iptr } }

/-- `next_bit()`, MSB-first (R223). -/
def nextBit (iend : Nat) (s : State) : Res Bool :=
  if s.up.iptr.toNat = iend then .raised (.malformedHeader 2) s
  else
    (memRead s.up.iptr.toNat s).andThen fun b s => .ok (b.getLsbD (7 - s.up.bitpos.toNat)) s.consumeBit

/-- EMIT up by one, RESULT = EMIT[31:0] (R224). -/
def State.countSymbol (s : State) : State :=
  { s with up := { s.up with emit := s.up.emit + 1 }, result := (s.up.emit + 1).truncate 32 }

/-- `emit(s)` (R224). With write = false, the verify pass of DECOMPRESS, it writes no DMEM byte and checks none
(47_codec.md R241; log 16). -/
def emitSymbol (write : Bool) (dst : Nat) (sym : Sym) (s : State) : Res Unit :=
  (if write then memWrite (dst + s.up.emit.toNat) sym s else .ok () s).andThen fun _ s =>
    .ok () s.countSymbol

/-- CURSOR <- n. -/
def State.setCursor (s : State) (n : NodeIx) : State := { s with up := { s.up with cursor := n } }

/-- `step(b)`: with an internal root the cursor moves and a leaf emits (R224); with a leaf root every bit emits (R225). -/
def stepBit (write : Bool) (dst : Nat) (b : Bool) (s : State) : Res Unit :=
  match s.node s.root with
  | .leaf sym _ => emitSymbol write dst sym s
  | .internal _ _ _ =>
    let c := if b then (s.node s.up.cursor).right else (s.node s.up.cursor).left
    let s := s.setCursor c
    match s.node c with
    | .leaf sym _ => (emitSymbol write dst sym s).andThen fun _ s => .ok () (s.setCursor s.root)
    | .internal _ _ _ => .ok () s

/-- The while loop of UNPACK (R222, R226). Every turn consumes a bit or raises, so 8 · LEN + 1 turns are enough
(log 12). -/
def unpackLoop (write : Bool) (iend dst : Nat) : Nat → State → Res Unit
  | 0, s => .ok () s
  | fuel + 1, s =>
    if s.up.emit.toNat < s.total.toNat then
      (nextBit iend s).andThen fun b s =>
        (stepBit write dst b s).andThen fun _ s => unpackLoop write iend dst fuel s
    else .ok () s

/-- The unpacker at the start of a stream (R222). -/
def State.initUnpacker (s : State) (src : Nat) : State :=
  { s with
    up := { iptr := BitVec.ofNat 32 src, bitpos := 0, emit := 0, cursor := s.root }
    result := 0 }

/-- UNPACK over (src, len, dst) (R222). -/
def unpack (write : Bool) (src len dst : Nat) (s : State) : Res Unit :=
  (checkRange src len s).andThen fun _ s =>
    let s := s.initUnpacker src
    if s.total = 0 then .ok () s
    else if s.root = nilIx then .raised (.malformedHeader 3) s
    else unpackLoop write (src + len) dst (8 * len + 1) s

/-- UNPACK (R222). -/
def execUnpack (s : State) : Out := .next (complete (unpack true s.srcOffset s.byteCount s.dstOffset s))

end Sys2Proof.Machine
end

