-- ==== Sys2Proof/Machine/Codec.lean ====
section
/-! DEFINITION. The codec sequencer (47_codec.md): each line has exactly the effect of the command it names. -/

namespace Sys2Proof.Machine

/-- The bit length of the packed data: the sum over s of FREQ[s] · CODE[s].len where a code exists (R240). -/
def State.packedBits (s : State) : Nat :=
  ((List.range 256).map fun k =>
    let sym : Sym := BitVec.ofNat 8 k
    if (s.codeAt sym).valid then (s.freqAt sym).toNat * (s.codeAt sym).len.toNat else 0).sum

/-- N, the length of the whole file (R240). -/
def State.fileBytes (s : State) : Nat := Config.hdrBytes + (s.packedBits + 7) / 8

/-- RESULT <- 0, on any error of COMPRESS or DECOMPRESS (R240, R241). -/
def State.zeroResult (s : State) : State := { s with result := 0 }

/-- The lines of COMPRESS (R240). -/
def compressLines (src len : Nat) (dst : Word) (s : State) : Res Unit :=
  (checkRange src len s).andThen fun _ s =>
    (freqCount src len s.clearFreq).andThen fun _ s =>
      (treeBuild s).andThen fun _ s =>
        (codeGen s).andThen fun _ s =>
          (checkRange dst.toNat s.fileBytes s).andThen fun _ s =>
            (packHeader (s.initPacker dst)).andThen fun _ s =>
              (packData src len s).andThen fun _ s => packFlush s

/-- COMPRESS's body: PACK_FLUSH's RESULT <- OCNT is the last line's (R206, R240). -/
def compress (s : State) : Res Unit :=
  (compressLines s.srcOffset s.byteCount s.dst s).onRaise State.zeroResult

/-- COMPRESS (R240). -/
def execCompress (s : State) : Out := .next (complete (compress s))

/-- The lines of DECOMPRESS (R241): the verify pass, then the output check, then the write pass, whose RESULT is
EMIT[31:0]. -/
def decompressLines (src len dst : Nat) (s : State) : Res Unit :=
  (checkRange src len s).andThen fun _ s =>
    (hdrParse src len s).andThen fun _ s =>
      (treeBuild s).andThen fun _ s =>
        (unpack false (src + Config.hdrBytes) (len - Config.hdrBytes) dst s).andThen fun _ s =>
          (checkRange dst s.total.toNat s).andThen fun _ s =>
            (unpack true (src + Config.hdrBytes) (len - Config.hdrBytes) dst s).andThen fun _ s =>
              .ok () { s with result := s.up.emit.truncate 32 }

/-- DECOMPRESS's body (R241). -/
def decompress (s : State) : Res Unit :=
  (decompressLines s.srcOffset s.byteCount s.dstOffset s).onRaise State.zeroResult

/-- DECOMPRESS (R241). -/
def execDecompress (s : State) : Out := .next (complete (decompress s))

end Sys2Proof.Machine
end

