-- ==== Sys2Proof/Machine/Control.lean ====
section
/-! DEFINITION. Control commands (40_control.md). -/

namespace Sys2Proof.Machine

/-- NOP (R130): completion only. -/
def execNop (s : State) : Out := .next (complete (.ok () s))

/-- Every line of CLEAR but finish (R131). -/
def State.clearDatapath (s : State) : State :=
  { s with
    freq := Vector.replicate 256 0
    code := Vector.replicate 256 .invalid
    total := 0
    nodes := []
    heap := []
    root := nilIx
    pk := { optr := 0, ocnt := 0, bblen := 0, bbuf := 0 }
    up := { iptr := 0, bitpos := 0, cursor := nilIx, emit := 0 }
    result := 0 }

/-- CLEAR (R131). -/
def execClear (s : State) : Out := .next (complete (.ok () s.clearDatapath))

/-- INIT, the core's first step after reset (70_reset_and_hazards.md R281): CLEAR's datapath effects, then idle, without
finish. -/
def State.initialise (s : State) : State :=
  { s.clearDatapath with status := { s.status with phase := .idle, busy := false } }

end Sys2Proof.Machine
end

