-- ==== Sys2Proof/Machine/Dispatch.lean ====
section
/-! DEFINITION. One arm per command: the one call of its meaning (30_encoding.md R110, last line). -/

namespace Sys2Proof.Machine

def exec (i : Instr) (s : State) : Host.Outcome State Fault Refusal :=
  match i with
  | .nop => Sys2Proof.Machine.execNop s
  | .clear => Sys2Proof.Machine.execClear s
  | .freqClear => Sys2Proof.Machine.execFreqClear s
  | .freqCount => Sys2Proof.Machine.execFreqCount s
  | .pqClear => Sys2Proof.Machine.execPqClear s
  | .pqInsert na => Sys2Proof.Machine.execPqInsert na s
  | .pqExtract => Sys2Proof.Machine.execPqExtract s
  | .pqSize => Sys2Proof.Machine.execPqSize s
  | .nodeClear => Sys2Proof.Machine.execNodeClear s
  | .nodeLeaf sym => Sys2Proof.Machine.execNodeLeaf sym s
  | .nodeJoin na nb => Sys2Proof.Machine.execNodeJoin na nb s
  | .treeBuild => Sys2Proof.Machine.execTreeBuild s
  | .treeSetroot na => Sys2Proof.Machine.execTreeSetroot na s
  | .codeGen => Sys2Proof.Machine.execCodeGen s
  | .packInit => Sys2Proof.Machine.execPackInit s
  | .packHeader => Sys2Proof.Machine.execPackHeader s
  | .packSym sym => Sys2Proof.Machine.execPackSym sym s
  | .packData => Sys2Proof.Machine.execPackData s
  | .packFlush => Sys2Proof.Machine.execPackFlush s
  | .hdrParse => Sys2Proof.Machine.execHdrParse s
  | .unpack => Sys2Proof.Machine.execUnpack s
  | .compress => Sys2Proof.Machine.execCompress s
  | .decompress => Sys2Proof.Machine.execDecompress s

end Sys2Proof.Machine
end

