-- ==== Sys2Proof/Machine/Sequencer.lean ====
section
/-! DEFINITION. The core's step (10_state.md R31) and the total order of steps (20_memory.md R86). -/

namespace Sys2Proof.Machine

/-- The command a word decodes to, none for an illegal word (30_encoding.md R108). -/
def decoded (w : Word) : Option Instr :=
  match decode w with
  | .ok i => some i
  | .error _ => none

/-- STATUS.PHASE after a CMD write of w: the first phase of its command, EXEC for an illegal word (R24, R27). -/
def firstPhase (w : Word) : Phase :=
  match decoded w with
  | some i => (phasesOf i).headD .exec
  | none => .exec

/-- The command in CMDWORD run to its completion; an illegal word raises ILLEGAL_CMD and nothing else (R108, R110). -/
def runCommand (s : State) : Out :=
  match decode s.cmdword with
  | .ok i => exec i s
  | .error _ => .next (complete (.raised (.illegalCmd s.cmdword) s))

/-- The core's one step, enabled when BUSY = 1 and reset is released: INIT after reset, else the command in CMDWORD
(R31, 70_reset_and_hazards.md R281). Where it is not enabled nothing changes (60_exceptions.md R265; log 10). -/
def coreStep (s : State) : Out :=
  if s.env.rst then .next s
  else if !s.status.busy then .next s
  else if s.status.phase = .init then .next s.initialise
  else runCommand s

/-- One host transaction, with the running command's decoding for STATUS.PHASE. -/
def hostStep (t : Txn) (s : State) : State := s.transact (decoded s.cmdword) firstPhase t

/-- One event of the total order (log 1). -/
def runEvent (e : Event) (s : State) : Out :=
  match e with
  | .host t => .next (hostStep t s)
  | .core => coreStep s
  | .resetAssert => .next s.assertReset
  | .resetRelease => .next s.releaseReset

/-- The rest of the events. -/
def State.withEvents (s : State) (es : List Event) : State := { s with env := { s.env with events := es } }

/-- The next step of the total order: the oldest event, or the core's turn where none stands (log 1, log 10). -/
def nextStep (s : State) : Out :=
  match s.env.events with
  | [] => coreStep s
  | e :: es => runEvent e (s.withEvents es)

/-- The state a CMD write of w would leave, whatever ran before: w latched, the core busy with it, reset released, and
the core's turn next (log 11). -/
def State.latchCommand (s : State) (w : Word) : State :=
  let t := s.startCommand w (firstPhase w)
  { t with env := { t.env with rst := false, events := .core :: t.env.events } }

end Sys2Proof.Machine
end

