-- ==== Sys2Proof/Machine/Step.lean ====
section
/-! DEFINITION. One step of the machine. -/

namespace Sys2Proof.Machine

/-- One step of the total order of host transactions and core steps (20_memory.md R86). -/
def step : State → Host.Outcome State Fault Refusal := fun s => nextStep s

/-- s with the command word w (its low nbits bits, the rest 0) latched in CMDWORD, so that the next step runs it. HUFFCORE
fetches from no memory: a command comes only from a CMD write (20_memory.md R89), and this stands for one (log 11). -/
def State.withFetchWord (s : State) (nbits w : Nat) : State := s.latchCommand (BitVec.ofNat 32 (w % 2 ^ nbits))

end Sys2Proof.Machine
end

