-- ==== Sys2Proof/Safety.lean ====
section
/-! DEFINITION. What the claims about HUFFCORE are said in: the invariant every step keeps, the heap order (42_heap.md R150),
bit sequences (00_scope.md R9), and the tree as paths from a node (43_tree.md, 44_codegen.md). -/

namespace Sys2Proof.Machine

/-- Both children of an internal node are nodes made before it (10_state.md R41). -/
def childrenBelow (k : Nat) : Node → Prop
  | .leaf _ _ => True
  | .internal _ l r => l.toNat < k ∧ r.toNat < k

/-- A code-table entry as R43 (10_state.md) bounds it. -/
def codeEntryOk (e : CodeEntry) : Prop :=
  if e.valid then 1 ≤ e.len.toNat ∧ e.len.toNat ≤ 64 ∧ e.code.toNat < 2 ^ e.len.toNat else e.len = 0 ∧ e.code = 0

/-- The invariant of HUFFCORE: what the rules of 10_state.md say always holds between steps. -/
structure State.Inv (s : State) : Prop where
  /-- DMEM is in its canonical form. -/
  memoryForm : Memory.wf s.dmem
  /-- Every listed cell lies in DMEM (20_memory.md R72). -/
  memoryInside : ∀ c ∈ s.dmem, c.1 < s.dmemSize
  /-- NODE_COUNT <= 511 (R30). -/
  arenaBound : s.nodeCount ≤ Config.nodeCap
  /-- Each child index is smaller than the node's own index (R41). -/
  arenaBelow : ∀ k n, s.nodes[k]? = some n → childrenBelow k n
  /-- PQ_SIZE <= 512 (R30). -/
  heapBound : s.pqSize ≤ Config.heapCap
  /-- A heap entry names an allocated node (R42, 42_heap.md R155). -/
  heapAllocated : ∀ n ∈ s.heap, n.toNat < s.nodeCount
  /-- ROOT is NIL or an allocated node (R30). -/
  rootAllocated : s.root = nilIx ∨ s.root.toNat < s.nodeCount
  /-- Once INIT has run, CODE is as R43 says. -/
  codes : s.status.phase ≠ .init → ∀ sym, codeEntryOk (s.codeAt sym)
  /-- BBUF is a BBLEN-bit number (R33). -/
  pending : s.pk.bbuf.toNat < 2 ^ s.pk.bblen.toNat
  /-- PHASE is IDLE exactly while idle (R27). -/
  idlePhase : s.status.busy = false ↔ s.status.phase = .idle
  /-- ERRCODE is one of the 13 codes (60_exceptions.md R250). -/
  errorCode : s.status.errcode.toNat ≤ 0x0C
  /-- ERRINFO is 0 after a successful completion (R29). -/
  okInfo : s.status.errcode = okCode → s.errinfo = 0

/-- The heap invariant (42_heap.md R150): no element is strictly smaller than its parent. -/
def HeapOrdered (lt : NodeIx → NodeIx → Bool) (h : List NodeIx) : Prop :=
  ∀ k, 1 ≤ k → k < h.length → lt (slot h k) (slot h ((k - 1) / 2)) = false

/-- The symbols with a positive count, ascending (43_tree.md R176). -/
def State.positive (s : State) : List Sym :=
  ((List.range 256).map fun k => (BitVec.ofNat 8 k : Sym)).filter fun k => decide (0 < (s.freqAt k).toNat)

/-- The children of a node. -/
def childList : Node → List NodeIx
  | .leaf _ _ => []
  | .internal _ l r => [l, r]

/-- The len-bit form of v, most significant bit first (00_scope.md R9). -/
def bitsOf (len v : Nat) : List Bool := (List.range len).map fun j => v.testBit (len - 1 - j)

/-- The number whose binary form, most significant bit first, is the sequence (00_scope.md R9). -/
def valueOf (l : List Bool) : Nat := l.foldl (fun v b => 2 * v + b.toNat) 0

/-- The bits of the n bytes from a on, each byte's bit 7 first (20_memory.md R75). -/
def State.bitsAt (s : State) (a n : Nat) : List Bool := (List.range n).flatMap fun j => bitsOf 8 (s.byte (a + j)).toNat

/-- The packer's pending bits, first bit first (10_state.md R33). -/
def State.pendingBits (s : State) : List Bool := bitsOf s.pk.bblen.toNat s.pk.bbuf.toNat

/-- The code of a symbol as a bit sequence (10_state.md R43). -/
def State.codeBits (s : State) (sym : Sym) : List Bool := bitsOf (s.codeAt sym).len.toNat (s.codeAt sym).code.toNat

/-- The n bytes from a on. -/
def State.bytesAt (s : State) (a n : Nat) : List Byte := (List.range n).map fun j => s.byte (a + j)

/-- `Reach s n p m`: following p from node n, left at a 0 and right at a 1, leads to node m (44_codegen.md R191,
46_unpack.md R224). -/
inductive Reach (s : State) : NodeIx → List Bool → NodeIx → Prop where
  | here (n : NodeIx) : Reach s n [] n
  | left {n l r : NodeIx} {f : DWord} {p : List Bool} {m : NodeIx} :
      s.node n = .internal f l r → Reach s l p m → Reach s n (false :: p) m
  | right {n l r : NodeIx} {f : DWord} {p : List Bool} {m : NodeIx} :
      s.node n = .internal f l r → Reach s r p m → Reach s n (true :: p) m

/-- `LeafAt s n p sym`: following p from node n leads to a leaf of the symbol. -/
def LeafAt (s : State) (n : NodeIx) (p : List Bool) (sym : Sym) : Prop := ∃ m f, Reach s n p m ∧ s.node m = .leaf sym f

/-- The nodes under n form a tree fit for codes (44_codegen.md R190, R191): no node is reached by two paths, no symbol has
two leaves, and every internal node lies at a depth below 64. -/
structure ProperTree (s : State) (n : NodeIx) : Prop where
  noSharing : ∀ p q m, Reach s n p m → Reach s n q m → p = q
  oneLeaf : ∀ p q sym, LeafAt s n p sym → LeafAt s n q sym → p = q
  depth : ∀ p m, Reach s n p m → (s.node m).isInternal = true → p.length < 64

/-- The pre-order, left-first order of the walk (44_codegen.md R191): a node before those under it, the left subtree before
the right one. -/
inductive Before : List Bool → List Bool → Prop where
  | above (b : Bool) (p : List Bool) : Before [] (b :: p)
  | left (q p : List Bool) : Before (false :: q) (true :: p)
  | under {q p : List Bool} (b : Bool) : Before q p → Before (b :: q) (b :: p)

/-- Where the walk meets node n at p, n was visited before or is a leaf whose symbol has a code already: BAD_TREE(n)
(44_codegen.md R191). -/
def State.badTreeAt (s : State) (p : List Bool) (n : NodeIx) : Prop :=
  Reach s s.root p n ∧ ∃ q, Before q p ∧
    (Reach s s.root q n ∨ ∃ sym f, s.node n = .leaf sym f ∧ LeafAt s s.root q sym)

/-- Where the walk meets node n at p, n is an internal node at depth 64: CODE_TOO_LONG(n) (44_codegen.md R191). -/
def State.tooLongAt (s : State) (p : List Bool) (n : NodeIx) : Prop :=
  Reach s s.root p n ∧ p.length = 64 ∧ (s.node n).isInternal = true

/-- The table holds the path codes of exactly the leaves at the paths that are `assigned` (44_codegen.md R191). -/
def State.holdsCodesOf (t s : State) (assigned : List Bool → Prop) : Prop :=
  (∀ (q : List Bool) (sym : Sym), assigned q → LeafAt s s.root q sym →
    t.codeAt sym = { valid := true, len := BitVec.ofNat 7 q.length, code := BitVec.ofNat 64 (valueOf q) }) ∧
  (∀ sym : Sym, (¬ ∃ q, assigned q ∧ LeafAt s s.root q sym) → t.codeAt sym = { valid := false, len := 0, code := 0 }) ∧
  t.result.toNat = (t.code.toList.filter fun e => e.valid).length

/-- A state the core may run its command in: reset released, busy, past INIT (10_state.md R31). -/
def State.ready (s : State) : Prop := s.env.rst = false ∧ s.status.busy = true ∧ s.status.phase ≠ .init

/-- The core's turn comes next, and `rest` is what stands after it (log 1). -/
def State.coreTurn (s : State) (rest : List Event) : Prop :=
  (s.env.events = [] ∧ rest = []) ∨ s.env.events = .core :: rest

/-- The state a completion with an error code and detail leaves (60_exceptions.md R252), written out field by field. -/
def State.finished (s : State) (code : BitVec 8) (info : Word) : State :=
  { s with
    status :=
      { busy := false, done := true, err := s.status.err || code != okCode, cmdOvr := s.status.cmdOvr
        wign := s.status.wign, phase := .idle, errcode := code }
    errinfo := info }

/-- A word with this OPC and a 1 anywhere in its operand field raises ILLEGAL_CMD with the word as detail and changes
nothing else (30_encoding.md R108, for the formats N and M). -/
def RejectsOperand (opc : BitVec 8) : Prop :=
  ∀ (s : State) (rest : List Event), s.ready → s.coreTurn rest → opcOf s.cmdword = opc → operandOf s.cmdword ≠ 0 →
    step s = .next ((s.withEvents rest).finished 0x01#8 s.cmdword)

/-- The indices k successive PQ_EXTRACT commands return in RESULT (42_heap.md R158). -/
def extractRun : Nat → State → List NodeIx
  | 0, _ => []
  | k + 1, s =>
    match exec .pqExtract s with
    | .next t => t.result.truncate 9 :: extractRun k t
    | .fault _ => []
    | .refused _ => []

/-- The while loop of heap_insert (42_heap.md R152) from slot k, as the loop runs, with no bound on its turns. -/
inductive SiftUp (lt : NodeIx → NodeIx → Bool) : Nat → List NodeIx → List NodeIx → Prop where
  | root (h : List NodeIx) : SiftUp lt 0 h h
  | stop {k : Nat} {h : List NodeIx} :
      0 < k → lt (slot h k) (slot h ((k - 1) / 2)) = false → SiftUp lt k h h
  | swap {k : Nat} {h h' : List NodeIx} :
      0 < k → lt (slot h k) (slot h ((k - 1) / 2)) = true → SiftUp lt ((k - 1) / 2) (h.swap k ((k - 1) / 2)) h' →
        SiftUp lt k h h'

/-- The child that the loop of heap_extract compares (42_heap.md R153): the right one only if strictly smaller. -/
def lesserChild (lt : NodeIx → NodeIx → Bool) (h : List NodeIx) (k : Nat) : Nat :=
  if 2 * k + 2 < h.length ∧ lt (slot h (2 * k + 2)) (slot h (2 * k + 1)) = true then 2 * k + 2 else 2 * k + 1

/-- The loop of heap_extract (42_heap.md R153) from slot k, as it runs, with no bound on its turns. -/
inductive SiftDown (lt : NodeIx → NodeIx → Bool) : Nat → List NodeIx → List NodeIx → Prop where
  | leaf {k : Nat} {h : List NodeIx} : h.length ≤ 2 * k + 1 → SiftDown lt k h h
  | stop {k : Nat} {h : List NodeIx} :
      2 * k + 1 < h.length → lt (slot h (lesserChild lt h k)) (slot h k) = false → SiftDown lt k h h
  | swap {k : Nat} {h h' : List NodeIx} :
      2 * k + 1 < h.length → lt (slot h (lesserChild lt h k)) (slot h k) = true →
        SiftDown lt (lesserChild lt h k) (h.swap (lesserChild lt h k) k) h' → SiftDown lt k h h'

/-- The codes of R250's table that a command may complete with besides OK (60_exceptions.md R250, "raised by"). -/
def raisable : Instr → List (BitVec 8)
  | .nop | .clear | .freqClear | .pqClear | .pqSize | .nodeClear | .packInit | .treeBuild => []
  | .freqCount => [0x06#8, 0x07#8]
  | .pqInsert _ => [0x03#8, 0x05#8]
  | .pqExtract => [0x02#8]
  | .nodeLeaf _ => [0x04#8]
  | .nodeJoin _ _ => [0x04#8, 0x05#8, 0x06#8]
  | .treeSetroot _ => [0x05#8]
  | .codeGen => [0x08#8, 0x0B#8]
  | .packHeader => [0x07#8, 0x0C#8]
  | .packSym _ | .packData | .compress => [0x07#8, 0x09#8]
  | .packFlush => [0x07#8]
  | .hdrParse | .unpack | .decompress => [0x07#8, 0x0A#8]

/-- The first k bytes of the input region can be counted: no count passes its width (41_frequency.md R141). -/
def State.countable (s : State) (k : Nat) : Prop :=
  (∀ sym, (s.freqAt sym).toNat + (s.bytesAt s.src.toNat k).count sym < 2 ^ 32) ∧ s.total.toNat + k < 2 ^ 64

/-- u's table is s's with the first k bytes of the input region counted (41_frequency.md R141). -/
def State.counted (s : State) (k : Nat) (u : State) : Prop :=
  (∀ sym, (u.freqAt sym).toNat = (s.freqAt sym).toNat + (s.bytesAt s.src.toNat k).count sym) ∧
    u.total.toNat = s.total.toNat + k

/-- A frequency as a number. -/
def State.weight (s : State) (n : NodeIx) : Nat := (s.node n).freq.toNat

/-- What a TREE_BUILD over s's counts leaves in u (43_tree.md R174 to R178, R181). -/
structure BuiltTree (s u : State) : Prop where
  /-- The leaf of the i-th positive symbol is node i. -/
  leaves : ∀ (i : Nat) (sym : Sym), s.positive[i]? = some sym → u.nodes[i]? = some (Node.leaf sym ((s.freqAt sym).zeroExtend 64))
  /-- With n leaves there are 2n - 1 nodes, or none. -/
  size : u.nodes.length = 2 * s.positive.length - 1
  /-- Every other node is internal, over two earlier nodes, and weighs what they weigh together. -/
  joins : ∀ (k : Nat) (nd : Node), s.positive.length ≤ k → u.nodes[k]? = some nd → ∃ f l r, nd = .internal f l r ∧ l.toNat < k ∧ r.toNat < k ∧
    f.toNat = u.weight l + u.weight r
  /-- Every node but the last is the child of exactly one node, once. -/
  once : (u.nodes.flatMap childList).Perm ((List.range (u.nodes.length - 1)).map fun k => BitVec.ofNat 9 k)
  /-- The last node is the root; with no leaves there is none. -/
  root : u.root = if s.positive = [] then nilIx else BitVec.ofNat 9 (u.nodes.length - 1)
  /-- The root weighs the sum of the counts. -/
  rootWeight : s.positive ≠ [] → u.weight u.root = s.freqSum

/-- NODE_LEAF, then PQ_INSERT of the index it leaves in RESULT, for each symbol in turn, each command without error
(43_tree.md R176). -/
inductive LeafRun : List Sym → State → State → Prop where
  | done (s : State) : LeafRun [] s s
  | leaf {sym : Sym} {rest : List Sym} {s t u v : State} :
      exec (.nodeLeaf sym) s = .next t → t.status.errcode = 0x00#8 →
      exec (.pqInsert (t.result.truncate 9)) t = .next u → u.status.errcode = 0x00#8 →
      LeafRun rest u v → LeafRun (sym :: rest) s v

/-- While PQ_SIZE > 1: PQ_EXTRACT, PQ_EXTRACT, NODE_JOIN of the two indices, the first one on the left, PQ_INSERT of the
index it leaves in RESULT, each command without error (43_tree.md R177). -/
inductive MergeRun : State → State → Prop where
  | done {s : State} : s.pqSize ≤ 1 → MergeRun s s
  | join {s t u v w x : State} : 1 < s.pqSize →
      exec .pqExtract s = .next t → t.status.errcode = 0x00#8 →
      exec .pqExtract t = .next u → u.status.errcode = 0x00#8 →
      exec (.nodeJoin (t.result.truncate 9) (u.result.truncate 9)) u = .next v → v.status.errcode = 0x00#8 →
      exec (.pqInsert (v.result.truncate 9)) v = .next w → w.status.errcode = 0x00#8 →
      MergeRun w x → MergeRun s x

/-- Node j stands in no join made before node k. -/
def State.unjoinedBefore (s : State) (k : Nat) (j : NodeIx) : Prop :=
  j.toNat < k ∧ ∀ (m : Nat) (nd : Node), m < k → s.nodes[m]? = some nd → j ∉ childList nd

/-- The bit paths by which the unpacker emits sym from the root: the path to a leaf of sym, or any single bit where the root
itself is that leaf (46_unpack.md R224, R225). -/
def State.emits (s : State) (p : List Bool) (sym : Sym) : Prop :=
  ((s.node s.root).isInternal = true ∧ LeafAt s s.root p sym) ∨ (p.length = 1 ∧ ∃ f, s.node s.root = Node.leaf sym f)

/-- `Spells s bits bytes`: bits are paths that emit the bytes, one after the other (46_unpack.md R227). -/
inductive Spells (s : State) : List Bool → List Byte → Prop where
  | nil : Spells s [] []
  | cons {p bits : List Bool} {b : Byte} {bytes : List Byte} :
      s.emits p b → Spells s bits bytes → Spells s (p ++ bits) (b :: bytes)

/-- The unpacker past the first n bits from byte a on (46_unpack.md R223, R226). -/
def unpackerAt (a n : Nat) (cursor : NodeIx) (emit : Nat) : Unpacker :=
  { iptr := BitVec.ofNat 32 (a + n / 8), bitpos := BitVec.ofNat 3 (n % 8), cursor := cursor, emit := BitVec.ofNat 64 emit }

/-- The regions [a, a+n) and [b, b+m) share no byte. -/
def apart (a n b m : Nat) : Prop := ∀ x, a ≤ x → x < a + n → b ≤ x → x < b + m → False

/-- Every byte outside [a, a+n) is as in s. -/
def State.sameBytesBut (s : State) (a n : Nat) (u : State) : Prop := ∀ x, ¬ (a ≤ x ∧ x < a + n) → u.byte x = s.byte x

/-- The 256 counts of a header at a, big-endian (46_unpack.md R220, 45_pack.md R207). -/
def State.headerFreq (s : State) (a : Nat) : Vector Word 256 :=
  Vector.ofFn fun k => BitVec.ofNat 32 (s.bigEndian (a + 4 * k.val) 4)

/-- The original length of a header at a (46_unpack.md R220, 45_pack.md R207). -/
def State.headerTotal (s : State) (a : Nat) : Nat := s.bigEndian (a + 1024) 8

/-- The bytes [a, a+1032) hold the header of u's FREQ and TOTAL, big-endian (45_pack.md R207). -/
def State.holdsHeader (t : State) (a : Nat) (u : State) : Prop :=
  (∀ sym : Sym, t.bigEndian (a + 4 * sym.toNat) 4 = (u.freqAt sym).toNat) ∧ t.bigEndian (a + 1024) 8 = u.total.toNat

/-- The packer's stream invariant (45_pack.md R200): P is what was packed since PACK_INIT at dst0. -/
structure StreamInv (s : State) (dst0 : Nat) (P : List Bool) : Prop where
  length : P.length = 8 * s.pk.ocnt.toNat + s.pk.bblen.toNat
  pointer : s.pk.optr.toNat = dst0 + s.pk.ocnt.toNat
  pending : s.pendingBits = P.drop (8 * s.pk.ocnt.toNat)
  number : s.pk.bbuf.toNat < 2 ^ s.pk.bblen.toNat
  written : s.bitsAt dst0 s.pk.ocnt.toNat = P.take (8 * s.pk.ocnt.toNat)

/-- The "at reset" column of R50 (10_state.md), for every entry it does not leave UNSPEC. -/
structure AtReset (t : State) : Prop where
  ctrl : t.ctrl = { tiebrk := false, ieDone := false, ieErr := false }
  status : t.status =
    { busy := true, done := false, err := false, cmdOvr := false, wign := false, phase := .init, errcode := 0 }
  operands : t.src = 0 ∧ t.len = 0 ∧ t.dst = 0
  results : t.result = 0 ∧ t.errinfo = 0
  tree : t.root = 0x1FF#9 ∧ t.nodes = [] ∧ t.heap = []
  packer : t.pk = { optr := 0, ocnt := 0, bblen := 0, bbuf := 0 }
  unpacker : t.up = { iptr := 0, bitpos := 0, cursor := 0x1FF#9, emit := 0 }
  memory : t.dmem = []

/-- The host's turn comes next with this transaction, and `rest` is what stands after it (log 1). -/
def State.hostTurn (s : State) (t : Txn) (rest : List Event) : Prop := s.env.events = .host t :: rest

/-- A word read of the address answers w and changes nothing else, whatever comes after it (20_memory.md R70, R83). -/
def ReadsWord (s : State) (addr : Addr) (w : Word) : Prop :=
  ∀ rest, s.hostTurn (.rd .w addr) rest → step s = .next ((s.withEvents rest).respond (.data w))

/-- A read of this size answers some word with no 1 outside `bits` and changes nothing but the counter of free values,
whatever comes after it (20_memory.md R70, R82; log 5, log 8). -/
def ReadsWithin (s : State) (size : Size) (addr : Addr) (bits : Word) : Prop :=
  ∀ rest, s.hostTurn (.rd size addr) rest → ∃ w n, w &&& ~~~bits = 0 ∧ step s = .next
    { (s.withEvents rest).respond (.data w) with
      env := { ((s.withEvents rest).respond (.data w)).env with draws := n } }

/-- The reserved bits of every window word read 0 (20_memory.md R77 to R80; 93_implementation_defined.md V4, V5). -/
def WindowsKeepReservedBits (s : State) : Prop :=
  (∀ sym : Sym, ReadsWithin s .w (BitVec.ofNat 24 (0x001000 + 16 * sym.toNat)) 0x8000007F#32 ∧
    ReadsWithin s .w (BitVec.ofNat 24 (0x001004 + 16 * sym.toNat)) 0) ∧
  (∀ i < 511, ReadsWithin s .w (BitVec.ofNat 24 (0x002000 + 16 * i)) 0x0000FF01#32 ∧
    ReadsWithin s .w (BitVec.ofNat 24 (0x002004 + 16 * i)) 0x01FF01FF#32) ∧
  (∀ k < 4, ReadsWithin s .w (BitVec.ofNat 24 (0x003FF0 + 4 * k)) 0) ∧
  (∀ k < 512, ReadsWithin s .w (BitVec.ofNat 24 (0x004000 + 4 * k)) 0x000001FF#32)

/-- A word write of v to the address answers OK and leaves t but for the response, whatever comes after it (20_memory.md
R70). -/
def WritesWord (s : State) (addr : Addr) (v : Word) (t : State → State) : Prop :=
  ∀ rest, s.hostTurn (.wr .w addr v) rest → step s = .next ((t (s.withEvents rest)).respond .ok)

/-- The address lies in a range that R71's map reserves. -/
def State.reservedAddr (s : State) (a : Nat) : Prop :=
  (0x000058 ≤ a ∧ a ≤ 0x0003FF) ∨ (0x000800 ≤ a ∧ a ≤ 0x000FFF) ∨ (0x004800 ≤ a ∧ a ≤ 0x7FFFFF) ∨ 0x800000 + s.dmemSize ≤ a

end Sys2Proof.Machine
end

