-- ==== Sys2Proof/Certificates/Slice0/Obligations.lean ====
section
/-! DEFINITION. What is claimed of HUFFCORE, from the numbered rules of the spec. -/

open Sys2Proof Sys2Proof.Machine

/-! Encoding and decoding -/

/-- Decoding an encoded command gives it back with every operand value, from the word and from its bytes, and each word
decodes to at most the command that encodes to it (30_encoding.md R100 to R106, R110). The bytes' order is the model's
choice (log 14). -/
def Obligations.DecodeEncodeRoundTrip : Prop :=
  (∀ i : Instr, i.WellFormed = true → decode (encode i) = .ok i ∧
    ∀ rest : List Byte, decodeBytes (bytesOfWord (encode i) ++ rest) = .ok (i, rest)) ∧
  (∀ (w : Word) (i : Instr), decode w = .ok i → encode i = w)

/-- Every word is exactly one row of the opcode table or illegal; it is illegal exactly when its OPC is unlisted or a
must-be-zero bit is 1; an illegal word raises ILLEGAL_CMD(word) and changes nothing but what finish writes; and every OPC
that R109 lists is illegal whatever the other bits (30_encoding.md R108, R109). -/
def Obligations.EveryWordIsOneRowOrIllegal : Prop :=
  (∀ w : Word, (∃ i, decode w = .ok i) ↔ ∃ r ∈ opcodeTable, r.selectedBy w = true) ∧
  (∀ (w : Word) (i : Instr), decode w = .ok i →
    ∀ r ∈ opcodeTable, (r.selectedBy w = true ↔ r.mnemonic = i.mnemonic)) ∧
  (∀ w : Word, (∃ i, decode w = .ok i) ↔ ∃ f, formatOf (opcOf w) = some f ∧ operandOf w &&& f.mbz = 0) ∧
  (∀ (s : State) (rest : List Event), s.ready → s.coreTurn rest → (¬ ∃ i, decode s.cmdword = .ok i) →
    step s = .next ((s.withEvents rest).finished 0x01#8 s.cmdword)) ∧
  (∀ (w : Word) (lo hi : Nat), (lo, hi) ∈ [(0x02, 0x0F), (0x12, 0x1F), (0x24, 0x2F), (0x33, 0x3F), (0x42, 0x4F),
      (0x51, 0x5F), (0x65, 0x6F), (0x72, 0x7F), (0x82, 0xFF)] → lo ≤ (opcOf w).toNat → (opcOf w).toNat ≤ hi →
    ¬ ∃ i, decode w = .ok i)

/-- Words of the spec's own encoding vectors decode to the commands it names (95_test_vectors.md section 2). -/
def Obligations.SpecWordsDecode : Prop :=
  decode 0x00000000#32 = .ok .nop ∧ decode 0x11000000#32 = .ok .freqCount ∧
  decode 0x210001FF#32 = .ok (.pqInsert 0x1FF#9) ∧ decode 0x31000041#32 = .ok (.nodeLeaf 0x41#8) ∧
  decode 0x32000202#32 = .ok (.nodeJoin 2#9 1#9) ∧ decode 0x32000600#32 = .ok (.nodeJoin 0#9 3#9) ∧
  decode 0x41000004#32 = .ok (.treeSetroot 4#9) ∧ decode 0x62000043#32 = .ok (.packSym 0x43#8) ∧
  decode 0x70000000#32 = .ok .hdrParse ∧ decode 0x81000000#32 = .ok .decompress

/-! The step, reset, and what holds of the whole machine -/

/-- When the core's turn comes and the word in CMDWORD decodes to a command, the step is that command's effect
(10_state.md R31, 30_encoding.md R110); and a word placed by withFetchWord is run by the very next step, with nothing else
changed but CMDWORD, BUSY, PHASE and the reset level (the model's own stand-in for a CMD write, log 11). -/
def Obligations.StepRunsDecodedCommand : Prop :=
  (∀ (s : State) (rest : List Event) (i : Instr), s.ready → s.coreTurn rest → decode s.cmdword = .ok i →
    step s = exec i (s.withEvents rest)) ∧
  (∀ (s : State) (nbits w : Nat) (i : Instr), decodeTableWord nbits w = some i →
    ∃ p, p ≠ Phase.init ∧
      step (s.withFetchWord nbits w) = exec i
        { s with
          cmdword := BitVec.ofNat 32 (w % 2 ^ nbits)
          status := { s.status with busy := true, phase := p }
          env := { s.env with rst := false } })

/-- Asserting reset gives every piece of state its value at reset, with the irq low, whatever ran before, and State.reset
has those values too; while it is asserted no host transaction and no core turn changes any state but the model's own
fields; releasing it changes nothing but the reset level (10_state.md R50, 70_reset_and_hazards.md R280). The UNSPEC values
are free. That reset is two events of their own is the model's choice (log 9). -/
def Obligations.ResetGivesResetValues : Prop :=
  (∀ (s : State) (rest : List Event), s.env.events = .resetAssert :: rest →
    ∃ t, step s = .next t ∧ AtReset t ∧ t.irq = false ∧ t.dmemLog = s.dmemLog ∧ t.env.rst = true ∧ t.env.events = rest) ∧
  (∀ (s : State) (rest : List Event), s.env.events = .resetRelease :: rest →
    step s = .next { s with env := { s.env with rst := false, events := rest } }) ∧
  (∀ (s : State) (rest : List Event), s.env.rst = true →
    (∀ t, s.hostTurn t rest → ∃ u, step s = .next u ∧ u = { s with env := u.env } ∧ u.env.rst = true) ∧
    (s.coreTurn rest → step s = .next (s.withEvents rest))) ∧
  AtReset State.reset ∧ State.reset.irq = false

/-- INIT is the core's first step after reset: CLEAR's datapath effects, PHASE to IDLE and BUSY to 0, without finish: DONE,
ERR, ERRCODE and ERRINFO stay (70_reset_and_hazards.md R281). -/
def Obligations.InitClearsTheDatapath : Prop :=
  ∀ (s : State) (rest : List Event), s.env.rst = false → s.status.busy = true → s.status.phase = .init → s.coreTurn rest →
    step s = .next
      { s with
        status := { s.status with busy := false, phase := .idle }
        freq := Vector.replicate 256 0
        code := Vector.replicate 256 { valid := false, len := 0, code := 0 }
        total := 0
        nodes := []
        heap := []
        root := 0x1FF#9
        pk := { optr := 0, ocnt := 0, bblen := 0, bbuf := 0 }
        up := { iptr := 0, bitpos := 0, cursor := 0x1FF#9, emit := 0 }
        result := 0
        env := { s.env with events := rest } }

/-- The invariant holds in every reset state. -/
def Obligations.ResetMeetsInvariant : Prop :=
  State.reset.Inv ∧ ∀ (k : Fin 12) (epoch : Nat) (env : Env), (State.atReset k epoch env).Inv

/-- Every step keeps the invariant: DMEM's canonical form and bounds, the arena's and the heap's bounds and references
(10_state.md R30, R41, R42), the code table's form (R43), the pending bits (R33), PHASE against BUSY (R27), the error codes
(60_exceptions.md R250) and ERRINFO (R29). -/
def Obligations.StepKeepsInvariant : Prop :=
  ∀ s t : State, s.Inv → step s = .next t → t.Inv

/-- Every command, whether it succeeds or fails, ends with finish: BUSY 0, DONE 1, ERR sticky, PHASE IDLE, the code in
ERRCODE, ERRINFO 0 on success, CMD_OVR and WIGN as before (60_exceptions.md R252); so BUSY returns to 0 and no step of the
machine stops (70_reset_and_hazards.md R291). -/
def Obligations.EveryCommandEndsWithFinish : Prop :=
  (∀ (i : Instr) (s : State), ∃ t, exec i s = .next t ∧
    t.status =
      { busy := false, done := true, err := s.status.err || t.status.errcode != 0x00#8, cmdOvr := s.status.cmdOvr
        wign := s.status.wign, phase := .idle, errcode := t.status.errcode } ∧
    (t.status.errcode = 0x00#8 → t.errinfo = 0)) ∧
  (∀ s : State, ∃ t, step s = .next t ∧
    ∀ rest, s.env.rst = false → s.coreTurn rest → t.status.busy = false)

/-- No command completes with a code that R250's column "raised by" does not list for it: TREE_BUILD raises nothing, and
COMPRESS nothing but BOUNDS and NO_CODE (60_exceptions.md R250, 43_tree.md R181, 44_codegen.md R193). -/
def Obligations.ErrorCodesByCommand : Prop :=
  ∀ (i : Instr) (s t : State), exec i s = .next t →
    t.status.errcode = 0x00#8 ∨ t.status.errcode ∈ raisable i

/-- What each command may write: every register, array and DMEM byte is unchanged by every command that its rule does not
name as a writer; no command writes SRC, LEN, DST or CTRL (10_state.md R25, R28, R30, R32, R33, R34, R40, R41, R42, R43;
60_exceptions.md R260). Of the commands that store, the packing ones store only from OPTR up to the OPTR they leave,
COMPRESS from DST up to the OPTR it leaves, UNPACK and DECOMPRESS the EMIT bytes from DST on (20_memory.md R85). -/
def Obligations.OnlyNamedCommandsWrite : Prop :=
  ∀ (i : Instr) (s t : State), exec i s = .next t →
    (t.ctrl = s.ctrl ∧ t.cmdword = s.cmdword ∧ t.src = s.src ∧ t.len = s.len ∧ t.dst = s.dst ∧ t.dmemLog = s.dmemLog ∧
      t.env = { s.env with draws := t.env.draws }) ∧
    (i.mnemonic ∉ ["CLEAR", "FREQ_COUNT", "PQ_EXTRACT", "PQ_SIZE", "NODE_LEAF", "NODE_JOIN", "TREE_BUILD", "CODE_GEN",
        "PACK_DATA", "PACK_FLUSH", "HDR_PARSE", "UNPACK", "COMPRESS", "DECOMPRESS"] → t.result = s.result) ∧
    (i.mnemonic ∉ ["CLEAR", "NODE_CLEAR", "TREE_BUILD", "TREE_SETROOT", "COMPRESS", "DECOMPRESS"] → t.root = s.root) ∧
    (i.mnemonic ∉ ["CLEAR", "NODE_CLEAR", "NODE_LEAF", "NODE_JOIN", "TREE_BUILD", "COMPRESS", "DECOMPRESS"] →
      t.nodes = s.nodes) ∧
    (i.mnemonic ∉ ["CLEAR", "PQ_CLEAR", "PQ_INSERT", "PQ_EXTRACT", "NODE_CLEAR", "TREE_BUILD", "COMPRESS", "DECOMPRESS"] →
      t.heap = s.heap) ∧
    (i.mnemonic ∉ ["CLEAR", "FREQ_CLEAR", "FREQ_COUNT", "HDR_PARSE", "COMPRESS", "DECOMPRESS"] →
      t.freq = s.freq ∧ t.total = s.total) ∧
    (i.mnemonic ∉ ["CLEAR", "CODE_GEN", "COMPRESS"] → t.code = s.code) ∧
    (i.mnemonic ∉ ["CODE_GEN", "COMPRESS"] → t.walk = s.walk ∧ t.env = s.env) ∧
    (i.mnemonic ∉ ["CLEAR", "PACK_INIT", "PACK_HEADER", "PACK_SYM", "PACK_DATA", "PACK_FLUSH", "COMPRESS"] →
      t.pk = s.pk) ∧
    (i.mnemonic ∉ ["CLEAR", "UNPACK", "DECOMPRESS"] → t.up = s.up) ∧
    (i.mnemonic ∉ ["PACK_HEADER", "PACK_SYM", "PACK_DATA", "PACK_FLUSH", "UNPACK", "COMPRESS", "DECOMPRESS"] →
      t.dmem = s.dmem) ∧
    (i.mnemonic ∈ ["PACK_HEADER", "PACK_SYM", "PACK_DATA", "PACK_FLUSH"] →
      s.sameBytesBut s.pk.optr.toNat (t.pk.optr.toNat - s.pk.optr.toNat) t) ∧
    (i.mnemonic = "COMPRESS" → s.sameBytesBut s.dst.toNat (t.pk.optr.toNat - s.dst.toNat) t) ∧
    (i.mnemonic ∈ ["UNPACK", "DECOMPRESS"] → s.sameBytesBut s.dst.toNat t.up.emit.toNat t)

/-- Once created, a node never changes until NODE_CLEAR, TREE_BUILD or CLEAR (or a codec command, which runs TREE_BUILD)
empties the arena, and only NODE_LEAF and NODE_JOIN add one besides (43_tree.md R170); a host transaction changes none. -/
def Obligations.NodesNeverChange : Prop :=
  (∀ (i : Instr) (s t : State), i.mnemonic ∉ ["CLEAR", "NODE_CLEAR", "TREE_BUILD", "COMPRESS", "DECOMPRESS"] →
    exec i s = .next t →
      (∃ new, t.nodes = s.nodes ++ new ∧ new.length ≤ 1 ∧ (i.mnemonic ∉ ["NODE_LEAF", "NODE_JOIN"] → new = []))) ∧
  (∀ (s u : State) (t : Txn) (rest : List Event), s.env.rst = false → s.hostTurn t rest → step s = .next u →
    u.nodes = s.nodes)

/-- No command's loop is cut short by the bound the model gives it: more turns change nothing (70_reset_and_hazards.md
R291; the bounds are the model's, log 12). -/
def Obligations.LoopsRunToTheirEnd : Prop :=
  (∀ (lt : NodeIx → NodeIx → Bool) (h : List NodeIx) (n : NodeIx) (more : Nat),
    siftUp lt (h.length + more) h.length (h ++ [n]) = siftUp lt h.length h.length (h ++ [n])) ∧
  (∀ (lt : NodeIx → NodeIx → Bool) (h : List NodeIx) (more : Nat),
    siftDown lt (h.length + more) 0 h = siftDown lt h.length 0 h) ∧
  (∀ (s : State) (more : Nat), mergeLoop (s.pqSize + more) s = mergeLoop s.pqSize s) ∧
  (∀ (s : State) (stack : List WalkEntry) (more : Nat),
    walkLoop (513 + more) { s with walk := { visited := [], stack := stack } } =
      walkLoop 513 { s with walk := { visited := [], stack := stack } }) ∧
  (∀ (s : State) (n acc more : Nat), drainBytes (n / 8 + more) n acc s = drainBytes (n / 8) n acc s) ∧
  (∀ (s : State) (write : Bool) (src len dst more : Nat), src + len ≤ s.dmemSize →
    unpackLoop write (src + len) dst (8 * len + 1 + more) (s.initUnpacker src) =
      unpackLoop write (src + len) dst (8 * len + 1) (s.initUnpacker src))

/-! Control and frequency commands -/

/-- NOP changes nothing but the completion bookkeeping; a word of OPC 0x00 with an operand bit set is not a NOP; a NOP
issued while busy is dropped (40_control.md R130). -/
def Obligations.NopDoesNothing : Prop :=
  decode 0x00000000#32 = .ok .nop ∧ RejectsOperand 0x00#8 ∧
  (∀ s : State, exec .nop s = .next (s.finished 0x00#8 0)) ∧
  (∀ s : State, s.env.rst = false → s.status.busy = true →
    WritesWord s 0x000010#24 0x00000000#32 fun u => { u with status := { u.status with cmdOvr := true } })

/-- CLEAR puts every piece of datapath state in its after-INIT value and changes no register, flag or DMEM byte besides
(40_control.md R131). -/
def Obligations.ClearResetsTheDatapath : Prop :=
  decode 0x01000000#32 = .ok .clear ∧ RejectsOperand 0x01#8 ∧
  ∀ s : State, exec .clear s = .next
    (({ s with
        freq := Vector.replicate 256 0
        code := Vector.replicate 256 { valid := false, len := 0, code := 0 }
        total := 0
        nodes := []
        heap := []
        root := 0x1FF#9
        pk := { optr := 0, ocnt := 0, bblen := 0, bbuf := 0 }
        up := { iptr := 0, bitpos := 0, cursor := 0x1FF#9, emit := 0 }
        result := 0 } : State).finished 0x00#8 0)

/-- FREQ_CLEAR zeroes the frequency table and the original length, and nothing else (41_frequency.md R140). -/
def Obligations.FreqClearZeroesTheTable : Prop :=
  decode 0x10000000#32 = .ok .freqClear ∧ RejectsOperand 0x10#8 ∧
  ∀ s : State, exec .freqClear s = .next (({ s with freq := Vector.replicate 256 0, total := 0 } : State).finished 0x00#8 0)

/-- FREQ_COUNT adds the byte counts of [SRC, SRC+LEN) to FREQ and TOTAL: out of range it changes nothing; a byte whose
count, or TOTAL, is full stops it there with the earlier bytes counted; nothing else changes (41_frequency.md R141). -/
def Obligations.FreqCountTallies : Prop :=
  decode 0x11000000#32 = .ok .freqCount ∧
  ∀ s : State,
    (s.dmemSize < s.src.toNat + s.len.toNat →
      exec .freqCount s = .next (s.finished 0x07#8 (BitVec.ofNat 32 (max s.src.toNat s.dmemSize)))) ∧
    (s.src.toNat + s.len.toNat ≤ s.dmemSize → s.countable s.len.toNat →
      ∃ u : State, exec .freqCount s = .next (u.finished 0x00#8 0) ∧
        u = { s with freq := u.freq, total := u.total, result := s.len } ∧ s.counted s.len.toNat u) ∧
    (∀ k, s.src.toNat + s.len.toNat ≤ s.dmemSize → k < s.len.toNat → s.countable k → ¬ s.countable (k + 1) →
      ∃ u : State, exec .freqCount s = .next (u.finished 0x06#8 (BitVec.ofNat 32 (s.src.toNat + k))) ∧
        u = { s with freq := u.freq, total := u.total, result := BitVec.ofNat 32 k } ∧ s.counted k u)

/-- After FREQ_CLEAR then a successful FREQ_COUNT over n bytes, the counts sum to TOTAL = n and FREQ[s] is the number of
bytes equal to s (41_frequency.md R142). -/
def Obligations.FrequencyConservation : Prop :=
  ∀ (s t u : State) (src len : Word), exec .freqClear s = .next t →
    exec .freqCount { t with src := src, len := len } = .next u → u.status.errcode = 0x00#8 →
      u.freqSum = len.toNat ∧ u.total.toNat = len.toNat ∧
      ∀ sym : Sym, (u.freqAt sym).toNat = (s.bytesAt src.toNat len.toNat).count sym

/-! The heap -/

/-- PQ_CLEAR empties the heap and nothing else (42_heap.md R154). -/
def Obligations.PqClearEmptiesTheHeap : Prop :=
  decode 0x20000000#32 = .ok .pqClear ∧ RejectsOperand 0x20#8 ∧
  ∀ s : State, exec .pqClear s = .next (({ s with heap := [] } : State).finished 0x00#8 0)

/-- PQ_INSERT: BAD_NODE first, then QUEUE_FULL, with nothing changed; else the node goes to slot PQ_SIZE and sifts up as
R152's loop runs (42_heap.md R152, R155). -/
def Obligations.PqInsertSiftsUp : Prop :=
  ∀ (s : State) (na : NodeIx),
    decode (0x21000000#32 ||| na.zeroExtend 32) = .ok (.pqInsert na) ∧
    (s.nodeCount ≤ na.toNat → exec (.pqInsert na) s = .next (s.finished 0x05#8 (na.zeroExtend 32))) ∧
    (na.toNat < s.nodeCount → s.pqSize = 512 → exec (.pqInsert na) s = .next (s.finished 0x03#8 (na.zeroExtend 32))) ∧
    (na.toNat < s.nodeCount → s.pqSize ≠ 512 → ∃ h,
      exec (.pqInsert na) s = .next (({ s with heap := h } : State).finished 0x00#8 0) ∧
      SiftUp s.less s.pqSize (s.heap ++ [na]) h ∧ h.length = s.pqSize + 1)

/-- PQ_EXTRACT: EMPTY_QUEUE on an empty heap, with nothing changed; else RESULT is the root's index, the last element takes
its place and sifts down as R153's loop runs (42_heap.md R153, R156). -/
def Obligations.PqExtractSiftsDown : Prop :=
  decode 0x22000000#32 = .ok .pqExtract ∧
  ∀ s : State,
    (s.pqSize = 0 → exec .pqExtract s = .next (s.finished 0x02#8 0)) ∧
    (∀ (r : NodeIx) (rest : List NodeIx), s.heap = r :: rest → ∃ h,
      exec .pqExtract s = .next (({ s with heap := h, result := r.zeroExtend 32 } : State).finished 0x00#8 0) ∧
      h.length = rest.length ∧
      (∀ (last : NodeIx) (front : List NodeIx), rest = front ++ [last] → SiftDown s.less 0 (last :: front) h))

/-- PQ_SIZE reports the element count in RESULT and changes nothing else (42_heap.md R157). -/
def Obligations.PqSizeReportsTheCount : Prop :=
  decode 0x23000000#32 = .ok .pqSize ∧ RejectsOperand 0x23#8 ∧
  ∀ s : State, exec .pqSize s = .next (({ s with result := BitVec.ofNat 32 s.heap.length } : State).finished 0x00#8 0)

/-- The heap invariant is kept by every insert and extract under the comparison in force (42_heap.md R150), and an insert
adds exactly its node, an extract removes exactly the node it returns. -/
def Obligations.HeapInvariantIsKept : Prop :=
  (∀ (s t : State) (na : NodeIx), HeapOrdered s.less s.heap → exec (.pqInsert na) s = .next t →
    HeapOrdered t.less t.heap ∧ (t.status.errcode = 0x00#8 → t.heap.Perm (na :: s.heap))) ∧
  (∀ s t : State, HeapOrdered s.less s.heap → exec .pqExtract s = .next t →
    HeapOrdered t.less t.heap ∧ (t.status.errcode = 0x00#8 → s.heap.Perm (t.result.truncate 9 :: t.heap)))

/-- From an ordered heap, successive PQ_EXTRACTs return the elements with non-decreasing frequencies; under TIEBRK = 1 the
(freq, index) pairs strictly increase (42_heap.md R158), where no index stands in two slots (the premise the model's reader
adds: two copies of one index give equal pairs). -/
def Obligations.ExtractsComeOutInOrder : Prop :=
  ∀ s : State, HeapOrdered s.less s.heap →
    (extractRun s.pqSize s).Perm s.heap ∧
    (extractRun s.pqSize s).Pairwise (fun a b => s.weight a ≤ s.weight b) ∧
    (s.ctrl.tiebrk = true → s.heap.Nodup →
      (extractRun s.pqSize s).Pairwise fun a b => s.weight a < s.weight b ∨ (s.weight a = s.weight b ∧ a.toNat < b.toNat))

/-- Under TIEBRK = 1 the heap's output order is independent of insertion order (42_heap.md R151): two ordered heaps with the
same elements over the same nodes come out the same. -/
def Obligations.CanonicalOrderIgnoresInsertion : Prop :=
  ∀ s t : State, s.ctrl.tiebrk = true → t.ctrl.tiebrk = true → t.nodes = s.nodes → t.heap.Perm s.heap →
    (∀ n ∈ s.heap, n.toNat < s.nodeCount) → HeapOrdered s.less s.heap → HeapOrdered t.less t.heap →
      extractRun t.pqSize t = extractRun s.pqSize s

/-! Nodes and the tree builder -/

/-- NODE_CLEAR empties the arena, the heap and the root, and nothing else (43_tree.md R171). -/
def Obligations.NodeClearEmptiesTheArena : Prop :=
  decode 0x30000000#32 = .ok .nodeClear ∧ RejectsOperand 0x30#8 ∧
  ∀ s : State, exec .nodeClear s = .next (({ s with nodes := [], heap := [], root := 0x1FF#9 } : State).finished 0x00#8 0)

/-- NODE_LEAF: NODE_FULL(511) when the arena is full, with nothing changed; else the leaf of the symbol with its current
count gets index NODE_COUNT, which is RESULT (43_tree.md R172). -/
def Obligations.NodeLeafAllocates : Prop :=
  ∀ (s : State) (sym : Sym),
    decode (0x31000000#32 ||| sym.zeroExtend 32) = .ok (.nodeLeaf sym) ∧
    (s.nodeCount = 511 → exec (.nodeLeaf sym) s = .next (s.finished 0x04#8 511#32)) ∧
    (s.nodeCount < 511 → exec (.nodeLeaf sym) s = .next
      (({ s with
          nodes := s.nodes ++ [.leaf sym ((s.freqAt sym).zeroExtend 64)]
          result := BitVec.ofNat 32 s.nodeCount } : State).finished 0x00#8 0))

/-- NODE_JOIN: its four checks in their order, each with nothing changed; else the internal node over NA and NB, weighing
the sum, gets index NODE_COUNT, which is RESULT (43_tree.md R173). -/
def Obligations.NodeJoinAllocates : Prop :=
  ∀ (s : State) (na nb : NodeIx),
    decode (0x32000000#32 ||| nb.zeroExtend 32 <<< 9 ||| na.zeroExtend 32) = .ok (.nodeJoin na nb) ∧
    (s.nodeCount ≤ na.toNat → exec (.nodeJoin na nb) s = .next (s.finished 0x05#8 (na.zeroExtend 32))) ∧
    (na.toNat < s.nodeCount → s.nodeCount ≤ nb.toNat →
      exec (.nodeJoin na nb) s = .next (s.finished 0x05#8 (nb.zeroExtend 32))) ∧
    (na.toNat < s.nodeCount → nb.toNat < s.nodeCount → s.nodeCount = 511 →
      exec (.nodeJoin na nb) s = .next (s.finished 0x04#8 511#32)) ∧
    (na.toNat < s.nodeCount → nb.toNat < s.nodeCount → s.nodeCount < 511 → 2 ^ 64 ≤ s.weight na + s.weight nb →
      exec (.nodeJoin na nb) s = .next (s.finished 0x06#8 (nb.zeroExtend 32 <<< 9 ||| na.zeroExtend 32))) ∧
    (na.toNat < s.nodeCount → nb.toNat < s.nodeCount → s.nodeCount < 511 → s.weight na + s.weight nb < 2 ^ 64 →
      exec (.nodeJoin na nb) s = .next
        (({ s with
            nodes := s.nodes ++ [.internal (BitVec.ofNat 64 (s.weight na + s.weight nb)) na nb]
            result := BitVec.ofNat 32 s.nodeCount } : State).finished 0x00#8 0))

/-- TREE_SETROOT: BAD_NODE for an index not allocated, NIL included, with nothing changed; else ROOT is the node
(43_tree.md R179). -/
def Obligations.TreeSetrootSetsTheRoot : Prop :=
  ∀ (s : State) (na : NodeIx),
    decode (0x41000000#32 ||| na.zeroExtend 32) = .ok (.treeSetroot na) ∧
    (s.nodeCount ≤ na.toNat → exec (.treeSetroot na) s = .next (s.finished 0x05#8 (na.zeroExtend 32))) ∧
    (na.toNat < s.nodeCount → exec (.treeSetroot na) s = .next (({ s with root := na } : State).finished 0x00#8 0))

/-- TREE_BUILD never raises. It leaves a strict binary tree with one leaf per symbol of positive count in ascending order,
each other node over two earlier nodes and weighing their sum, every node but the root the child of exactly one node, the
root the last node and weighing the sum of the counts, the heap empty and RESULT the leaf count; with no positive count
the empty tree. It changes nothing else (43_tree.md R174 to R178, R181). -/
def Obligations.TreeBuildMakesATree : Prop :=
  decode 0x40000000#32 = .ok .treeBuild ∧
  ∀ s : State, ∃ u : State, exec .treeBuild s = .next (u.finished 0x00#8 0) ∧
    u = { s with nodes := u.nodes, heap := [], root := u.root, result := BitVec.ofNat 32 s.positive.length } ∧
    BuiltTree s u

/-- TREE_BUILD is the commands its phases name: NODE_CLEAR; NODE_LEAF and PQ_INSERT for each symbol of positive count,
ascending; while two nodes are queued PQ_EXTRACT, PQ_EXTRACT, NODE_JOIN with the first extracted on the left, PQ_INSERT; the
last node is the root. So ties go as those commands leave them (43_tree.md R175 to R178; 42_heap.md R151 to R153). And the
two nodes a join takes are the least that stand in no join yet. -/
def Obligations.TreeBuildJoinsTheTwoLeast : Prop :=
  (∀ s t : State, exec .treeBuild s = .next t → ∃ s0 s1 s2 : State,
    exec .nodeClear s = .next s0 ∧ LeafRun s.positive s0 s1 ∧ MergeRun s1 s2 ∧
    t = { s2 with
      root := if s2.pqSize = 1 then slot s2.heap 0 else nilIx
      heap := []
      result := BitVec.ofNat 32 s.positive.length }) ∧
  ∀ s t : State, exec .treeBuild s = .next t →
    ∀ (k : Nat) (f : DWord) (l r : NodeIx), t.nodes[k]? = some (.internal f l r) →
      t.unjoinedBefore k l ∧ t.unjoinedBefore k r ∧ l ≠ r ∧ t.less r l = false ∧
      ∀ j, t.unjoinedBefore k j → j ≠ l → j ≠ r → t.less j r = false

/-- The state TREE_BUILD produces is a function of FREQ and CTRL.TIEBRK alone (43_tree.md R180). -/
def Obligations.TreeBuildIsDeterministic : Prop :=
  ∀ s t u v : State, s.freq = t.freq → s.ctrl.tiebrk = t.ctrl.tiebrk → exec .treeBuild s = .next u →
    exec .treeBuild t = .next v →
      u.root = v.root ∧ u.nodes = v.nodes ∧ u.result = v.result ∧ u.heap = [] ∧ v.heap = []

/-! The code-table generator -/

/-- CODE_GEN on the empty tree gives an all-invalid table and RESULT 0; on a root leaf it gives the 1-bit code 0 to the
leaf's symbol and no other, and RESULT 1 (44_codegen.md R190, R192). -/
def Obligations.CodeGenWithoutAWalk : Prop :=
  decode 0x50000000#32 = .ok .codeGen ∧
  (∀ s : State, s.root = nilIx → exec .codeGen s = .next
    (({ s with code := Vector.replicate 256 { valid := false, len := 0, code := 0 }, result := 0 } : State).finished 0x00#8 0)) ∧
  (∀ (s : State) (sym : Sym) (f : DWord), s.root ≠ nilIx → s.node s.root = .leaf sym f →
    ∃ u : State, exec .codeGen s = .next (u.finished 0x00#8 0) ∧ u = { s with code := u.code, result := 1 } ∧
      ∀ x, u.codeAt x = if x = sym then { valid := true, len := 1, code := 0 } else { valid := false, len := 0, code := 0 })

/-- From a proper tree CODE_GEN gives each symbol with a leaf its path, left 0 and right 1, as its code, each other symbol
none, and in RESULT the number of codes; it changes only CODE, RESULT and the walk's scratch state (44_codegen.md R190,
R191). -/
def Obligations.CodeGenAssignsPathCodes : Prop :=
  ∀ s : State, s.root ≠ nilIx → (s.node s.root).isInternal = true → ProperTree s s.root →
    ∃ u : State, exec .codeGen s = .next (u.finished 0x00#8 0) ∧
      u = { s with code := u.code, result := u.result, walk := u.walk, env := { s.env with draws := u.env.draws } } ∧
      (∀ (p : List Bool) (sym : Sym), LeafAt s s.root p sym →
        u.codeAt sym = { valid := true, len := BitVec.ofNat 7 p.length, code := BitVec.ofNat 64 (valueOf p) }) ∧
      (∀ sym : Sym, (¬ ∃ p, LeafAt s s.root p sym) → u.codeAt sym = { valid := false, len := 0, code := 0 }) ∧
      u.result.toNat = (u.code.toList.filter fun e => e.valid).length

/-- CODE_GEN succeeds on a walked tree only if it is proper. Else it stops at the first path p, in the walk's order, where
R191 raises: BAD_TREE(n) where the node n met there was visited before or is a leaf whose symbol has a code, CODE_TOO_LONG(n)
where n is else an internal node at depth 64; CODE then holds the path codes of exactly the leaves before p, and RESULT is
their number. Every code it keeps is a path to a leaf (44_codegen.md R190, R191). -/
def Obligations.CodeGenRejectsImproperTrees : Prop :=
  ∀ s t : State, s.Inv → s.root ≠ nilIx → (s.node s.root).isInternal = true → exec .codeGen s = .next t →
    (t.status.errcode = 0x00#8 → ProperTree s s.root) ∧
    (t.status.errcode ≠ 0x00#8 → ∃ (p : List Bool) (n : NodeIx), t.errinfo = n.zeroExtend 32 ∧
      ((t.status.errcode = 0x08#8 ∧ s.badTreeAt p n) ∨ (t.status.errcode = 0x0B#8 ∧ s.tooLongAt p n ∧ ¬ s.badTreeAt p n)) ∧
      (∀ (q : List Bool) (m : NodeIx), Before q p → ¬ s.badTreeAt q m ∧ ¬ s.tooLongAt q m) ∧
      t.holdsCodesOf s fun q => Before q p) ∧
    (∀ sym : Sym, (t.codeAt sym).valid = true → LeafAt s s.root (t.codeBits sym) sym)

/-- For a tree built by TREE_BUILD, CODE_GEN succeeds with one code per symbol of positive count. For two leaves or more no
valid code is a prefix of another, the Kraft sum is exactly 1, and every length is between 1 and n - 1; for one leaf the
code is 0; for none there is no code (44_codegen.md R193). -/
def Obligations.BuiltTreesHavePrefixFreeCodes : Prop :=
  ∀ s t : State, exec .treeBuild s = .next t → ∃ u : State, exec .codeGen t = .next u ∧ u.status.errcode = 0x00#8 ∧
    u.result = BitVec.ofNat 32 s.positive.length ∧
    (∀ sym : Sym, (u.codeAt sym).valid = true ↔ 0 < (s.freqAt sym).toNat) ∧
    (2 ≤ s.positive.length →
      (∀ a b : Sym, (u.codeAt a).valid = true → (u.codeAt b).valid = true → u.codeBits a <+: u.codeBits b → a = b) ∧
      ((u.code.toList.filter fun e => e.valid).map fun e => 2 ^ (64 - e.len.toNat)).sum = 2 ^ 64 ∧
      ∀ sym : Sym, (u.codeAt sym).valid = true →
        1 ≤ (u.codeAt sym).len.toNat ∧ (u.codeAt sym).len.toNat ≤ s.positive.length - 1) ∧
    (∀ sym : Sym, s.positive = [sym] → u.codeBits sym = [false])

/-! The packer -/

/-- PACK_INIT starts a new stream at DST and touches nothing else (45_pack.md R202). -/
def Obligations.PackInitStartsAStream : Prop :=
  decode 0x60000000#32 = .ok .packInit ∧ RejectsOperand 0x60#8 ∧
  ∀ s : State, exec .packInit s = .next
    (({ s with pk := { optr := s.dst, ocnt := 0, bblen := 0, bbuf := 0 } } : State).finished 0x00#8 0)

/-- PACK_HEADER: SEQUENCE where bits are pending, then BOUNDS where 1032 bytes do not fit, each with nothing changed; else
the 256 counts and the length stand big-endian at OPTR, OPTR and OCNT pass them, and nothing else changes (45_pack.md R203,
R207). -/
def Obligations.PackHeaderWritesTheHeader : Prop :=
  decode 0x61000000#32 = .ok .packHeader ∧
  ∀ s : State,
    (s.pk.bblen ≠ 0 → exec .packHeader s = .next (s.finished 0x0C#8 (s.pk.bblen.zeroExtend 32))) ∧
    (s.pk.bblen = 0 → s.dmemSize < s.pk.optr.toNat + 1032 →
      exec .packHeader s = .next (s.finished 0x07#8 (BitVec.ofNat 32 (max s.pk.optr.toNat s.dmemSize)))) ∧
    (s.pk.bblen = 0 → s.pk.optr.toNat + 1032 ≤ s.dmemSize →
      ∃ u : State, exec .packHeader s = .next (u.finished 0x00#8 0) ∧
        u = { s with pk := { s.pk with optr := s.pk.optr + 1032, ocnt := s.pk.ocnt + 1032 }, dmem := u.dmem } ∧
        u.holdsHeader s.pk.optr.toNat s ∧ s.sameBytesBut s.pk.optr.toNat 1032 u)

/-- PACK_SYM: NO_CODE for a symbol without a code, then BOUNDS where the bytes the code completes do not fit, each with
nothing changed; else the pending bits followed by the code are the bytes written at OPTR, most significant bit first, and
the bits left pending; nothing else changes (45_pack.md R201, R204). -/
def Obligations.PackSymAppendsTheCode : Prop :=
  ∀ (s : State) (sym : Sym),
    decode (0x62000000#32 ||| sym.zeroExtend 32) = .ok (.packSym sym) ∧
    ((s.codeAt sym).valid = false → exec (.packSym sym) s = .next (s.finished 0x09#8 (sym.zeroExtend 32))) ∧
    ∀ k, k = (s.pk.bblen.toNat + (s.codeAt sym).len.toNat) / 8 → (s.codeAt sym).valid = true →
      (s.dmemSize < s.pk.optr.toNat + k →
        exec (.packSym sym) s = .next (s.finished 0x07#8 (BitVec.ofNat 32 (max s.pk.optr.toNat s.dmemSize)))) ∧
      (s.pk.optr.toNat + k ≤ s.dmemSize → s.pk.bbuf.toNat < 2 ^ s.pk.bblen.toNat → codeEntryOk (s.codeAt sym) →
        ∃ u : State, exec (.packSym sym) s = .next (u.finished 0x00#8 0) ∧
          u = { s with
            pk := { optr := s.pk.optr + BitVec.ofNat 32 k, ocnt := s.pk.ocnt + BitVec.ofNat 32 k
                    bblen := BitVec.ofNat 3 ((s.pk.bblen.toNat + (s.codeAt sym).len.toNat) % 8), bbuf := u.pk.bbuf }
            dmem := u.dmem } ∧
          u.pk.bbuf.toNat < 2 ^ u.pk.bblen.toNat ∧
          u.bitsAt s.pk.optr.toNat k ++ u.pendingBits = s.pendingBits ++ s.codeBits sym ∧
          s.sameBytesBut s.pk.optr.toNat k u)

/-- PACK_DATA packs its bytes one after the other, each as PACK_SYM does, reading each byte as the earlier ones left it; its
RESULT counts the bytes packed, and it stops at the first that fails; out of range it changes nothing; with LEN = 0 it only
sets RESULT to 0 (45_pack.md R205). -/
def Obligations.PackDataPacksByteByByte : Prop :=
  decode 0x63000000#32 = .ok .packData ∧
  ∀ s : State,
    (s.dmemSize < s.src.toNat + s.len.toNat →
      exec .packData s = .next (s.finished 0x07#8 (BitVec.ofNat 32 (max s.src.toNat s.dmemSize)))) ∧
    (s.src.toNat ≤ s.dmemSize → s.len = 0 → exec .packData s = .next (({ s with result := 0 } : State).finished 0x00#8 0)) ∧
    ∀ (k : Nat) (t : State), s.src.toNat + (k + 1) ≤ s.dmemSize →
      exec .packData { s with len := BitVec.ofNat 32 k } = .next t →
        (t.status.errcode ≠ 0x00#8 →
          exec .packData { s with len := BitVec.ofNat 32 (k + 1) } = .next { t with len := BitVec.ofNat 32 (k + 1) }) ∧
        (t.status.errcode = 0x00#8 → ∀ v, exec (.packSym (t.byte (s.src.toNat + k))) t = .next v →
          exec .packData { s with len := BitVec.ofNat 32 (k + 1) } = .next
            { v with
              len := BitVec.ofNat 32 (k + 1)
              result := if v.status.errcode = 0x00#8 then BitVec.ofNat 32 (k + 1) else BitVec.ofNat 32 k })

/-- PACK_FLUSH: with bits pending and no room for a byte, BOUNDS with nothing changed; with bits pending, they are padded on
the right with zeros to one byte at OPTR; with none, nothing is written; RESULT is the bytes written since PACK_INIT
(45_pack.md R206). -/
def Obligations.PackFlushPadsToAByte : Prop :=
  decode 0x64000000#32 = .ok .packFlush ∧
  ∀ s : State,
    (s.pk.bblen = 0 → exec .packFlush s = .next (({ s with result := s.pk.ocnt } : State).finished 0x00#8 0)) ∧
    (s.pk.bblen ≠ 0 → s.dmemSize < s.pk.optr.toNat + 1 →
      exec .packFlush s = .next (s.finished 0x07#8 (BitVec.ofNat 32 (max s.pk.optr.toNat s.dmemSize)))) ∧
    (s.pk.bblen ≠ 0 → s.pk.optr.toNat + 1 ≤ s.dmemSize → s.pk.bbuf.toNat < 2 ^ s.pk.bblen.toNat →
      ∃ u : State, exec .packFlush s = .next (u.finished 0x00#8 0) ∧
        u = { s with
          pk := { optr := s.pk.optr + 1, ocnt := s.pk.ocnt + 1, bblen := 0, bbuf := 0 }
          result := s.pk.ocnt + 1
          dmem := u.dmem } ∧
        u.bitsAt s.pk.optr.toNat 1 = s.pendingBits ++ List.replicate (8 - s.pk.bblen.toNat) false ∧
        s.sameBytesBut s.pk.optr.toNat 1 u)

/-- The packer's stream, after every packing command: PACK_INIT starts an empty one; PACK_HEADER, PACK_SYM and PACK_FLUSH
extend it by what R200 says they contribute, or, where they fail, by nothing; PACK_DATA by the codes of the bytes RESULT
counts, each as it stood when it was read, whether it succeeds or fails, and by nothing where its region is out of range
(45_pack.md R200, R205). -/
def Obligations.PackerKeepsTheStream : Prop :=
  (∀ s t : State, exec .packInit s = .next t → StreamInv t s.dst.toNat []) ∧
  (∀ (s t : State) (dst0 : Nat) (P : List Bool), s.Inv → s.status.phase ≠ .init → StreamInv s dst0 P →
    (exec .packHeader s = .next t →
      (t.status.errcode = 0x00#8 →
        StreamInv t dst0 (P ++ t.bitsAt s.pk.optr.toNat 1032) ∧ t.holdsHeader s.pk.optr.toNat s) ∧
      (t.status.errcode ≠ 0x00#8 → StreamInv t dst0 P)) ∧
    (∀ sym, exec (.packSym sym) s = .next t →
      (t.status.errcode = 0x00#8 → StreamInv t dst0 (P ++ s.codeBits sym)) ∧
      (t.status.errcode ≠ 0x00#8 → StreamInv t dst0 P)) ∧
    (exec .packData s = .next t →
      (s.dmemSize < s.src.toNat + s.len.toNat → StreamInv t dst0 P) ∧
      (s.src.toNat + s.len.toNat ≤ s.dmemSize → ∃ bytes : List Byte,
        bytes.length = t.result.toNat ∧ t.result.toNat ≤ s.len.toNat ∧ (t.status.errcode = 0x00#8 → t.result = s.len) ∧
        StreamInv t dst0 (P ++ bytes.flatMap s.codeBits) ∧
        (apart s.src.toNat s.len.toNat s.pk.optr.toNat (t.pk.optr.toNat - s.pk.optr.toNat) →
          bytes = s.bytesAt s.src.toNat t.result.toNat))) ∧
    (exec .packFlush s = .next t →
      (t.status.errcode = 0x00#8 → StreamInv t dst0 (P ++ List.replicate ((8 - s.pk.bblen.toNat) % 8) false)) ∧
      (t.status.errcode ≠ 0x00#8 → StreamInv t dst0 P)))

/-- PACK_DATA then PACK_FLUSH from a byte boundary write ceil((sum of the code lengths) / 8) bytes (45_pack.md R208), and
PACK_DATA succeeds wherever the region is in range, every byte of it has a code, its output fits and lies apart from it. -/
def Obligations.PackedLength : Prop :=
  ∀ (s : State) (n : Nat), s.Inv → s.status.phase ≠ .init → s.pk.bblen = 0 →
    s.src.toNat + s.len.toNat ≤ s.dmemSize →
    (∀ b ∈ s.bytesAt s.src.toNat s.len.toNat, (s.codeAt b).valid = true) →
    n = (((s.bytesAt s.src.toNat s.len.toNat).map fun b => (s.codeAt b).len.toNat).sum + 7) / 8 →
    s.pk.optr.toNat + n ≤ s.dmemSize → apart s.src.toNat s.len.toNat s.pk.optr.toNat n →
      ∃ t u, exec .packData s = .next t ∧ t.status.errcode = 0x00#8 ∧ t.result = s.len ∧
        exec .packFlush t = .next u ∧ u.status.errcode = 0x00#8 ∧
        u.pk.optr = s.pk.optr + BitVec.ofNat 32 n ∧ u.pk.ocnt = s.pk.ocnt + BitVec.ofNat 32 n ∧
        s.sameBytesBut s.pk.optr.toNat n u

/-! The header parser and the unpacker -/

/-- HDR_PARSE: BOUNDS, then MALFORMED_HEADER(0), with nothing changed; else FREQ and TOTAL are loaded big-endian, and
MALFORMED_HEADER(1) is raised where the counts' exact sum is not TOTAL, else RESULT is TOTAL[31:0]; nothing else changes
(46_unpack.md R220, R221). -/
def Obligations.HdrParseLoadsTheHeader : Prop :=
  decode 0x70000000#32 = .ok .hdrParse ∧
  ∀ (s loaded : State), loaded = { s with
      freq := s.headerFreq s.src.toNat, total := BitVec.ofNat 64 (s.headerTotal s.src.toNat) } →
    (s.dmemSize < s.src.toNat + s.len.toNat →
      exec .hdrParse s = .next (s.finished 0x07#8 (BitVec.ofNat 32 (max s.src.toNat s.dmemSize)))) ∧
    (s.src.toNat + s.len.toNat ≤ s.dmemSize → s.len.toNat < 1032 →
      exec .hdrParse s = .next (s.finished 0x0A#8 0)) ∧
    (s.src.toNat + s.len.toNat ≤ s.dmemSize → 1032 ≤ s.len.toNat → loaded.freqSum ≠ loaded.total.toNat →
      exec .hdrParse s = .next (loaded.finished 0x0A#8 1)) ∧
    (s.src.toNat + s.len.toNat ≤ s.dmemSize → 1032 ≤ s.len.toNat → loaded.freqSum = loaded.total.toNat →
      exec .hdrParse s = .next (({ loaded with result := loaded.total.truncate 32 } : State).finished 0x00#8 0))

/-- UNPACK's checks before any bit is read: BOUNDS with nothing changed; TOTAL = 0 finishes; TOTAL > 0 with no tree raises
MALFORMED_HEADER(3) (46_unpack.md R222). -/
def Obligations.UnpackChecksBeforeDecoding : Prop :=
  decode 0x71000000#32 = .ok .unpack ∧
  ∀ (s started : State), started = { s with
      up := { iptr := s.src, bitpos := 0, cursor := s.root, emit := 0 }, result := 0 } →
    (s.dmemSize < s.src.toNat + s.len.toNat →
      exec .unpack s = .next (s.finished 0x07#8 (BitVec.ofNat 32 (max s.src.toNat s.dmemSize)))) ∧
    (s.src.toNat + s.len.toNat ≤ s.dmemSize → s.total = 0 → exec .unpack s = .next (started.finished 0x00#8 0)) ∧
    (s.src.toNat + s.len.toNat ≤ s.dmemSize → s.total ≠ 0 → s.root = nilIx →
      exec .unpack s = .next (started.finished 0x0A#8 3))

/-- UNPACK decodes: where the stream spells TOTAL bytes over the tree at ROOT, and the output fits and lies apart from the
stream, it writes exactly those bytes from DST on, stops just past the last bit it needed and ignores what follows
(46_unpack.md R222 to R226). Apart or not, it takes one symbol after the other, each from the stream's bits as the bytes
written so far have left them (20_memory.md R85): UNPACK of k + 1 symbols is UNPACK of k, and where that succeeds one symbol
more, the end of the stream, or the byte that does not fit. -/
def Obligations.UnpackDecodesTheStream : Prop :=
  (∀ (s : State) (bytes : List Byte) (bits after : List Bool),
    s.src.toNat + s.len.toNat ≤ s.dmemSize → s.root ≠ nilIx → s.bitsAt s.src.toNat s.len.toNat = bits ++ after →
    Spells s bits bytes → s.total.toNat = bytes.length → s.dst.toNat + bytes.length ≤ s.dmemSize →
    apart s.src.toNat s.len.toNat s.dst.toNat bytes.length →
      ∃ u : State, exec .unpack s = .next (u.finished 0x00#8 0) ∧
        u = { s with
          up := unpackerAt s.src.toNat bits.length s.root bytes.length
          result := BitVec.ofNat 32 bytes.length
          dmem := u.dmem } ∧
        u.bytesAt s.dst.toNat bytes.length = bytes ∧ s.sameBytesBut s.dst.toNat bytes.length u) ∧
  ∀ (s t : State) (k : Nat), s.src.toNat + s.len.toNat ≤ s.dmemSize → s.root ≠ nilIx → k + 1 < 2 ^ 64 →
    exec .unpack { s with total := BitVec.ofNat 64 k } = .next t →
      (t.status.errcode ≠ 0x00#8 → exec .unpack { s with total := BitVec.ofNat 64 (k + 1) } = .next
        { t with total := BitVec.ofNat 64 (k + 1) }) ∧
      (t.status.errcode = 0x00#8 → ∃ (n : Nat) (later : List Bool), n ≤ 8 * s.len.toNat ∧
        t.up = unpackerAt s.src.toNat n s.root k ∧ later = (t.bitsAt s.src.toNat s.len.toNat).drop n ∧
        (∀ (p after : List Bool) (sym : Sym), later = p ++ after → s.emits p sym → s.dst.toNat + k < s.dmemSize →
          ∃ u : State, exec .unpack { s with total := BitVec.ofNat 64 (k + 1) } = .next (u.finished 0x00#8 0) ∧
            u = { t with
              total := BitVec.ofNat 64 (k + 1), up := unpackerAt s.src.toNat (n + p.length) s.root (k + 1)
              result := BitVec.ofNat 32 (k + 1), dmem := u.dmem } ∧
            u.byte (s.dst.toNat + k) = sym ∧ t.sameBytesBut (s.dst.toNat + k) 1 u) ∧
        (∀ (p after : List Bool) (sym : Sym) (c : NodeIx), later = p ++ after → s.emits p sym →
          ((s.node s.root).isInternal = true → Reach s s.root p c) → ((s.node s.root).isInternal = false → c = s.root) →
          s.dmemSize ≤ s.dst.toNat + k →
            exec .unpack { s with total := BitVec.ofNat 64 (k + 1) } = .next
              (({ t with
                  total := BitVec.ofNat 64 (k + 1), up := unpackerAt s.src.toNat (n + p.length) c k } : State).finished
                0x07#8 (BitVec.ofNat 32 (s.dst.toNat + k)))) ∧
        ∀ c : NodeIx, Reach s s.root later c → (later ≠ [] → (s.node c).isInternal = true) →
          exec .unpack { s with total := BitVec.ofNat 64 (k + 1) } = .next
            (({ t with
                total := BitVec.ofNat 64 (k + 1), up := unpackerAt s.src.toNat (8 * s.len.toNat) c k } : State).finished
              0x0A#8 2))

/-- UNPACK's errors while decoding. Where the stream ends inside a code before TOTAL symbols, it raises MALFORMED_HEADER(2)
with the symbols so far written and the cursor where the bits led; where a symbol's byte does not fit, it raises BOUNDS with
that code's bits consumed, the cursor on its leaf and the symbol not counted (46_unpack.md R222 to R224). -/
def Obligations.UnpackStopsWhereTheStreamFails : Prop :=
  ∀ (s : State) (bytes : List Byte) (bits : List Bool),
    s.src.toNat + s.len.toNat ≤ s.dmemSize → s.root ≠ nilIx → Spells s bits bytes → bytes.length < s.total.toNat →
    apart s.src.toNat s.len.toNat s.dst.toNat bytes.length →
    (∀ (p : List Bool) (c : NodeIx), s.bitsAt s.src.toNat s.len.toNat = bits ++ p → Reach s s.root p c →
      (p ≠ [] → (s.node c).isInternal = true) → s.dst.toNat + bytes.length ≤ s.dmemSize →
        ∃ u : State, exec .unpack s = .next (u.finished 0x0A#8 2) ∧
          u = { s with
            up := unpackerAt s.src.toNat (8 * s.len.toNat) c bytes.length
            result := BitVec.ofNat 32 bytes.length
            dmem := u.dmem } ∧
          u.bytesAt s.dst.toNat bytes.length = bytes ∧ s.sameBytesBut s.dst.toNat bytes.length u) ∧
    (∀ (p after : List Bool) (sym : Sym) (c : NodeIx), s.bitsAt s.src.toNat s.len.toNat = bits ++ p ++ after →
      s.emits p sym → ((s.node s.root).isInternal = true → Reach s s.root p c) →
      ((s.node s.root).isInternal = false → c = s.root) → s.dmemSize ≤ s.dst.toNat + bytes.length →
      (bytes = [] ∨ s.dst.toNat + bytes.length = s.dmemSize) →
        ∃ u : State, exec .unpack s = .next (u.finished 0x07#8 (BitVec.ofNat 32 (s.dst.toNat + bytes.length))) ∧
          u = { s with
            up := unpackerAt s.src.toNat (bits.length + p.length) c bytes.length
            result := BitVec.ofNat 32 bytes.length
            dmem := u.dmem } ∧
          u.bytesAt s.dst.toNat bytes.length = bytes ∧ s.sameBytesBut s.dst.toNat bytes.length u)

/-- Decoding reverses packing: with the codes CODE_GEN made from the tree at ROOT without error, a stream that holds the
codes of m bytes followed by any bits unpacks, with TOTAL = m, to exactly those bytes, consuming exactly their codes' bits
(46_unpack.md R227; the output must fit and lie apart from the stream, 20_memory.md R85). -/
def Obligations.DecodingReversesPacking : Prop :=
  ∀ (r t s : State) (bytes : List Byte) (after : List Bool), r.Inv → exec .codeGen r = .next t →
    t.status.errcode = 0x00#8 → s.code = t.code → s.nodes = t.nodes → s.root = t.root →
    (∀ b ∈ bytes, (t.codeAt b).valid = true) → s.src.toNat + s.len.toNat ≤ s.dmemSize →
    s.bitsAt s.src.toNat s.len.toNat = bytes.flatMap t.codeBits ++ after → s.total.toNat = bytes.length →
    s.dst.toNat + bytes.length ≤ s.dmemSize → apart s.src.toNat s.len.toNat s.dst.toNat bytes.length →
      ∃ u : State, exec .unpack s = .next (u.finished 0x00#8 0) ∧ u.bytesAt s.dst.toNat bytes.length = bytes ∧
        s.sameBytesBut s.dst.toNat bytes.length u ∧
        u.up = unpackerAt s.src.toNat (bytes.flatMap t.codeBits).length s.root bytes.length

/-! The codec -/

/-- COMPRESS. The state v that FREQ_CLEAR, FREQ_COUNT, TREE_BUILD and CODE_GEN leave fixes the file's length N = 1032 +
ceil(B / 8), B the packed data's bits, at most 1032 + 8 · LEN. Where N bytes fit at DST and lie apart from the input, it
completes: the header of the input's counts and then the input's codes, padded with zeros, stand at DST, nothing outside the
file changes, RESULT is N, and FREQ, TOTAL, the tree and CODE are v's, which describe the input. Room for the longest file is
always enough (47_codec.md R240, R243). -/
def Obligations.CompressWritesTheFile : Prop :=
  decode 0x80000000#32 = .ok .compress ∧
  (∀ s : State, s.src.toNat + s.len.toNat ≤ s.dmemSize → ∃ (s1 s2 s3 v : State) (n : Nat),
    exec .freqClear s = .next s1 ∧ exec .freqCount s1 = .next s2 ∧ exec .treeBuild s2 = .next s3 ∧
    exec .codeGen s3 = .next v ∧ n = 1032 + (v.packedBits + 7) / 8 ∧ n ≤ 1032 + 8 * s.len.toNat ∧
    (∀ sym : Sym, (v.freqAt sym).toNat = (s.bytesAt s.src.toNat s.len.toNat).count sym) ∧
    v.total = BitVec.ofNat 64 s.len.toNat ∧ BuiltTree v v ∧
    (∀ b ∈ s.bytesAt s.src.toNat s.len.toNat, (v.codeAt b).valid = true) ∧
    v.packedBits = ((s.bytesAt s.src.toNat s.len.toNat).flatMap v.codeBits).length ∧
    (s.dst.toNat + n ≤ s.dmemSize → apart s.src.toNat s.len.toNat s.dst.toNat n →
      ∃ (u : State) (pad : List Bool), exec .compress s = .next (u.finished 0x00#8 0) ∧
        u = { s with
          freq := v.freq, total := v.total, nodes := v.nodes, heap := [], root := v.root, code := v.code, walk := v.walk
          env := { s.env with draws := v.env.draws }
          pk := { optr := s.dst + BitVec.ofNat 32 n, ocnt := BitVec.ofNat 32 n, bblen := 0, bbuf := 0 }
          result := BitVec.ofNat 32 n, dmem := u.dmem } ∧
        u.holdsHeader s.dst.toNat v ∧
        u.bitsAt (s.dst.toNat + 1032) (n - 1032) = (s.bytesAt s.src.toNat s.len.toNat).flatMap v.codeBits ++ pad ∧
        (∀ b ∈ pad, b = false) ∧ pad.length < 8 ∧ s.sameBytesBut s.dst.toNat n u)) ∧
  (∀ s : State, s.src.toNat + s.len.toNat ≤ s.dmemSize → s.dst.toNat + (1032 + 8 * s.len.toNat) ≤ s.dmemSize →
    apart s.src.toNat s.len.toNat s.dst.toNat (1032 + 8 * s.len.toNat) →
      ∃ u : State, exec .compress s = .next (u.finished 0x00#8 0) ∧ u.result.toNat = u.fileBytes ∧
        s.sameBytesBut s.dst.toNat u.fileBytes u)

/-- Each line of COMPRESS has exactly the effect of the command it names: run in order, where every one succeeds and the
whole output fits, they leave what COMPRESS leaves; where the input is out of range nothing changes but RESULT <- 0; where
the output does not fit, DMEM and the packer stay and RESULT is 0 (47_codec.md R240). -/
def Obligations.CompressIsItsCommands : Prop :=
  ∀ s : State,
    (s.dmemSize < s.src.toNat + s.len.toNat →
      exec .compress s = .next (({ s with result := 0 } : State).finished 0x07#8
        (BitVec.ofNat 32 (max s.src.toNat s.dmemSize)))) ∧
    ∀ s1 s2 s3 s4, s.src.toNat + s.len.toNat ≤ s.dmemSize → exec .freqClear s = .next s1 → exec .freqCount s1 = .next s2 →
      exec .treeBuild s2 = .next s3 → exec .codeGen s3 = .next s4 →
        (s.dmemSize < s.dst.toNat + s4.fileBytes →
          exec .compress s = .next (({ s4 with result := 0 } : State).finished 0x07#8
            (BitVec.ofNat 32 (max s.dst.toNat s.dmemSize)))) ∧
        (∀ s5 s6 s7 s8, s.dst.toNat + s4.fileBytes ≤ s.dmemSize → exec .packInit s4 = .next s5 →
          exec .packHeader s5 = .next s6 → exec .packData s6 = .next s7 → exec .packFlush s7 = .next s8 →
            (s7.status.errcode = 0x00#8 → s8.status.errcode = 0x00#8 → exec .compress s = .next s8) ∧
            (s7.status.errcode ≠ 0x00#8 → exec .compress s = .next { s7 with result := 0 }) ∧
            (s7.status.errcode = 0x00#8 → s8.status.errcode ≠ 0x00#8 → exec .compress s = .next { s8 with result := 0 }))

/-- DECOMPRESS of a well-formed file: where the header's counts sum to its length and the bits behind it spell that many
bytes over the tree TREE_BUILD makes of those counts, and the output fits and lies apart from the file, it completes with
exactly those bytes at DST and the length in RESULT; CODE and the packer stay (47_codec.md R241). Eight bytes a symbol are
always enough: with as many behind the header it completes, and the bits do spell that many bytes (44_codegen.md R193). -/
def Obligations.DecompressWritesTheBytes : Prop :=
  decode 0x81000000#32 = .ok .decompress ∧
  ∀ s : State, s.src.toNat + s.len.toNat ≤ s.dmemSize → 1032 ≤ s.len.toNat →
    ({ s with freq := s.headerFreq s.src.toNat } : State).freqSum = s.headerTotal s.src.toNat →
    ∃ v : State, exec .treeBuild { s with freq := s.headerFreq s.src.toNat } = .next v ∧
      (∀ (bytes : List Byte) (bits after : List Bool), bytes.length = s.headerTotal s.src.toNat →
        s.bitsAt (s.src.toNat + 1032) (s.len.toNat - 1032) = bits ++ after → Spells v bits bytes →
        s.dst.toNat + bytes.length ≤ s.dmemSize → apart s.src.toNat s.len.toNat s.dst.toNat bytes.length →
          ∃ u : State, exec .decompress s = .next (u.finished 0x00#8 0) ∧
            u = { s with
              freq := s.headerFreq s.src.toNat, total := BitVec.ofNat 64 bytes.length, nodes := v.nodes, heap := []
              root := v.root, up := unpackerAt (s.src.toNat + 1032) bits.length v.root bytes.length
              result := BitVec.ofNat 32 bytes.length, dmem := u.dmem } ∧
            u.bytesAt s.dst.toNat bytes.length = bytes ∧ s.sameBytesBut s.dst.toNat bytes.length u) ∧
      (1032 + 8 * s.headerTotal s.src.toNat ≤ s.len.toNat → s.dst.toNat + s.headerTotal s.src.toNat ≤ s.dmemSize →
        apart s.src.toNat s.len.toNat s.dst.toNat (s.headerTotal s.src.toNat) →
          ∃ (u : State) (bytes : List Byte) (bits after : List Bool), exec .decompress s = .next (u.finished 0x00#8 0) ∧
            u.result = BitVec.ofNat 32 (s.headerTotal s.src.toNat) ∧ bytes.length = s.headerTotal s.src.toNat ∧
            s.bitsAt (s.src.toNat + 1032) (s.len.toNat - 1032) = bits ++ after ∧ Spells v bits bytes ∧
            u.bytesAt s.dst.toNat bytes.length = bytes ∧ s.sameBytesBut s.dst.toNat bytes.length u)

/-- DECOMPRESS's errors, each with RESULT 0: BOUNDS of the input with nothing else changed, MALFORMED_HEADER(0) for a region
shorter than a header, MALFORMED_HEADER(1) for counts that do not sum to the length, with FREQ and TOTAL loaded;
MALFORMED_HEADER(2) where the bits end before the length, and BOUNDS where the output does not fit, each with the tree built
and the unpacker as the verify pass left it. Besides, only with the declared output overlapping the file can one write an
output byte (47_codec.md R241, 60_exceptions.md R253). -/
def Obligations.FailedDecompressWritesNothing : Prop :=
  ∀ s : State,
    (s.dmemSize < s.src.toNat + s.len.toNat →
      exec .decompress s = .next (({ s with result := 0 } : State).finished 0x07#8
        (BitVec.ofNat 32 (max s.src.toNat s.dmemSize)))) ∧
    (s.src.toNat + s.len.toNat ≤ s.dmemSize → s.len.toNat < 1032 →
      exec .decompress s = .next (({ s with result := 0 } : State).finished 0x0A#8 0)) ∧
    (∀ loaded : State, loaded = { s with
        freq := s.headerFreq s.src.toNat, total := BitVec.ofNat 64 (s.headerTotal s.src.toNat), result := 0 } →
      s.src.toNat + s.len.toNat ≤ s.dmemSize → 1032 ≤ s.len.toNat →
        (loaded.freqSum ≠ loaded.total.toNat → exec .decompress s = .next (loaded.finished 0x0A#8 1)) ∧
        (∀ (v : State) (bytes : List Byte) (bits : List Bool), loaded.freqSum = loaded.total.toNat →
          exec .treeBuild loaded = .next v → Spells v bits bytes →
            (∀ (p : List Bool) (c : NodeIx), bytes.length < s.headerTotal s.src.toNat →
              s.bitsAt (s.src.toNat + 1032) (s.len.toNat - 1032) = bits ++ p → Reach v v.root p c →
              (p ≠ [] → (v.node c).isInternal = true) →
                exec .decompress s = .next
                  (({ loaded with
                      nodes := v.nodes, heap := [], root := v.root
                      up := unpackerAt (s.src.toNat + 1032) (8 * (s.len.toNat - 1032)) c bytes.length } : State).finished
                    0x0A#8 2)) ∧
            (∀ after : List Bool, bytes.length = s.headerTotal s.src.toNat →
              s.bitsAt (s.src.toNat + 1032) (s.len.toNat - 1032) = bits ++ after →
              s.dmemSize < s.dst.toNat + bytes.length →
                exec .decompress s = .next
                  (({ loaded with
                      nodes := v.nodes, heap := [], root := v.root
                      up := unpackerAt (s.src.toNat + 1032) bits.length v.root bytes.length } : State).finished
                    0x07#8 (BitVec.ofNat 32 (max s.dst.toNat s.dmemSize)))))) ∧
    (∀ t : State, exec .decompress s = .next t → t.status.errcode ≠ 0x00#8 → t.result = 0 ∧
      (apart s.src.toNat s.len.toNat s.dst.toNat (s.headerTotal s.src.toNat) → t.dmem = s.dmem))

/-- Round trip: what COMPRESS wrote, DECOMPRESS under the same TIEBRK turns back into the original bytes, whatever the host
and the core did in between, as long as the file's bytes are still there (47_codec.md R242). -/
def Obligations.RoundTrip : Prop :=
  ∀ (s t r : State) (e : Word), exec .compress s = .next t → t.status.errcode = 0x00#8 →
    apart s.src.toNat s.len.toNat s.dst.toNat t.result.toNat →
    r.ctrl.tiebrk = s.ctrl.tiebrk → r.dmemLog = s.dmemLog →
    r.bytesAt s.dst.toNat t.result.toNat = t.bytesAt s.dst.toNat t.result.toNat →
    r.src = s.dst → r.len = t.result → r.dst = e → e.toNat + s.len.toNat ≤ s.dmemSize →
    apart e.toNat s.len.toNat s.dst.toNat t.result.toNat →
      ∃ u, exec .decompress r = .next u ∧ u.status.errcode = 0x00#8 ∧ u.result = s.len ∧
        u.bytesAt e.toNat s.len.toNat = s.bytesAt s.src.toNat s.len.toNat

/-! The host port -/

/-- A transaction gets BERR and changes no state, idle or busy, exactly when its address is reserved, it is a byte access
outside the DMEM window, or it is a word access at an address that is no multiple of 4; a write to a read-only register or
window is accepted and ignored, and sets no WIGN (20_memory.md R73). -/
def Obligations.BusErrorsChangeNothing : Prop :=
  ∀ (s : State) (rest : List Event) (size : Size) (addr : Addr) (data : Word), s.env.rst = false →
    (∀ t, (t = .rd size addr ∨ t = .wr size addr data) → s.hostTurn t rest →
      ((s.reservedAddr addr.toNat ∨ (size = .b ∧ addr.toNat < 0x800000) ∨ (size = .w ∧ addr.toNat % 4 ≠ 0)) →
        step s = .next ((s.withEvents rest).respond .berr)) ∧
      (¬ (s.reservedAddr addr.toNat ∨ (size = .b ∧ addr.toNat < 0x800000) ∨ (size = .w ∧ addr.toNat % 4 ≠ 0)) →
        ∃ u r, step s = .next u ∧ u.env.response = some r ∧ r ≠ .berr)) ∧
    (size = .w → addr.toNat % 4 = 0 →
      (addr.toNat ∈ [0x000, 0x004, 0x020, 0x024, 0x028, 0x02C, 0x030, 0x03C, 0x040, 0x044, 0x048, 0x04C, 0x050, 0x054] ∨
        (0x001000 ≤ addr.toNat ∧ addr.toNat < 0x004800)) →
      WritesWord s addr data fun u => u)

/-- While busy: ID, VERSION, CTRL and STATUS read exactly, with PHASE one of the running command's phases; every other read
changes nothing and answers a free value, but NODE slot 511 reads 0 (R79) and a byte read has 0 in bits 31:8 (R70); writes to CMD are dropped and set CMD_OVR, writes to STATUS clear, writes to
CTRL, SRC, LEN, DST, TOTAL and the FREQ and DMEM windows, byte writes among them, are ignored and set WIGN, and writes to
read-only registers and windows are ignored without it (20_memory.md R82, 70_reset_and_hazards.md R283, R284, R285). -/
def Obligations.BusyAccessesAreGated : Prop :=
  ∀ s : State, s.env.rst = false → s.status.busy = true →
    (∀ rest, s.hostTurn (.rd .w 0x00000C#24) rest → ∃ p n, p ∈ s.runningPhases (decoded s.cmdword) ∧
      step s = .next { (s.withEvents rest).respond (.data (s.statusWord p)) with
        env := { ((s.withEvents rest).respond (.data (s.statusWord p))).env with draws := n } }) ∧
    (∀ a w, (a, w) ∈ [(0x000000#24, 0x48554646#32), (0x000004#24, 0x00010000#32), (0x000008#24, s.ctrl.toWord)] →
      ∀ rest, s.hostTurn (.rd .w a) rest → ∃ n, step s = .next { (s.withEvents rest).respond (.data w) with
        env := { ((s.withEvents rest).respond (.data w)).env with draws := n } }) ∧
    (∀ a : Addr, ¬ s.reservedAddr a.toNat → a.toNat % 4 = 0 → ReadsWithin s .w a 0xFFFFFFFF#32) ∧
    (∀ k < 4, ReadsWithin s .w (BitVec.ofNat 24 (0x003FF0 + 4 * k)) 0) ∧
    (∀ w, WritesWord s 0x000010#24 w fun u => { u with status := { u.status with cmdOvr := true } }) ∧
    (∀ w, WritesWord s 0x00000C#24 w fun u => { u with status := u.status.writeOneToClear w }) ∧
    (∀ (a : Addr) (w : Word),
      (a.toNat ∈ [0x008, 0x014, 0x018, 0x01C, 0x034, 0x038] ∨ (0x000400 ≤ a.toNat ∧ a.toNat < 0x000800 ∧ a.toNat % 4 = 0) ∨
        (0x800000 ≤ a.toNat ∧ a.toNat < 0x800000 + s.dmemSize ∧ a.toNat % 4 = 0)) →
      WritesWord s a w fun u => { u with status := { u.status with wign := true } }) ∧
    (∀ (a : Addr) (w : Word),
      (a.toNat ∈ [0x000, 0x004, 0x020, 0x024, 0x028, 0x02C, 0x030, 0x03C, 0x040, 0x044, 0x048, 0x04C, 0x050, 0x054] ∨
        (0x001000 ≤ a.toNat ∧ a.toNat < 0x004800 ∧ a.toNat % 4 = 0)) →
      WritesWord s a w fun u => u) ∧
    (∀ (a : Addr) (rest : List Event), 0x800000 ≤ a.toNat → a.toNat < 0x800000 + s.dmemSize →
      ReadsWithin s .b a 0x000000FF#32 ∧
      (∀ w, s.hostTurn (.wr .b a w) rest → step s = .next
        (({ s.withEvents rest with status := { s.status with wign := true } } : State).respond .ok)))

/-- What the host writes while idle: CMD latches the word, sets BUSY and PHASE; CTRL its three bits; STATUS clears each W1C
bit written 1 and nothing else; SRC, LEN, DST, TOTAL and FREQ take the word (10_state.md R22 to R25, R32; 20_memory.md
R81). -/
def Obligations.IdleWritesReachTheirRegister : Prop :=
  ∀ (s : State) (w : Word), s.env.rst = false → s.status.busy = false →
    (∃ p, p ≠ Phase.init ∧ (∀ i, decode w = .ok i → (phasesOf i).head? = some p) ∧
      ((¬ ∃ i, decode w = .ok i) → p = .exec) ∧
      WritesWord s 0x000010#24 w fun u => { u with cmdword := w, status := { u.status with busy := true, phase := p } }) ∧
    WritesWord s 0x000008#24 w (fun u => { u with
      ctrl := { tiebrk := w.getLsbD 0, ieDone := w.getLsbD 1, ieErr := w.getLsbD 2 } }) ∧
    WritesWord s 0x00000C#24 w (fun u => { u with status := { u.status with
      done := u.status.done && !w.getLsbD 1, err := u.status.err && !w.getLsbD 2
      cmdOvr := u.status.cmdOvr && !w.getLsbD 3, wign := u.status.wign && !w.getLsbD 4 } }) ∧
    WritesWord s 0x000014#24 w (fun u => { u with src := w }) ∧
    WritesWord s 0x000018#24 w (fun u => { u with len := w }) ∧
    WritesWord s 0x00001C#24 w (fun u => { u with dst := w }) ∧
    WritesWord s 0x000034#24 w (fun u => { u with total := u.total.extractLsb' 32 32 ++ w }) ∧
    WritesWord s 0x000038#24 w (fun u => { u with total := w ++ u.total.extractLsb' 0 32 }) ∧
    (∀ sym : Sym, WritesWord s (BitVec.ofNat 24 (0x000400 + 4 * sym.toNat)) w fun u =>
      { u with freq := u.freq.set sym.toNat w sym.isLt })

/-- What each register reads while idle, with reserved bits 0, STATUS.PHASE 0 and STATUS.IRQ the level (DONE and IE_DONE) or
(ERR and IE_ERR) (10_state.md R21 to R34, R47; 60_exceptions.md R255). While busy, where the reads are UNSPEC, the reserved
bits of registers and windows read 0 too: the model's reading of 93_implementation_defined.md V3 to V5 (log 8). -/
def Obligations.IdleRegisterReads : Prop :=
  (∀ s : State, s.env.rst = false → s.status.busy = true →
    (∀ a bits, (a, bits) ∈ [(0x000028#24, 0x000001FF#32), (0x00002C#24, 0x000003FF#32), (0x000030#24, 0x000003FF#32),
      (0x000044#24, 0x0000FF07#32), (0x00004C#24, 0x01FF0007#32)] → ReadsWithin s .w a bits) ∧
    WindowsKeepReservedBits s) ∧
  ∀ s : State, s.env.rst = false → s.status.busy = false → s.Inv →
    ReadsWord s 0x000000#24 0x48554646#32 ∧ ReadsWord s 0x000004#24 0x00010000#32 ∧ ReadsWord s 0x000010#24 0 ∧
    (∃ w : Word, ReadsWord s 0x000008#24 w ∧ ∀ j, w.getLsbD j =
      if j = 0 then s.ctrl.tiebrk else if j = 1 then s.ctrl.ieDone else if j = 2 then s.ctrl.ieErr else false) ∧
    (∃ w : Word, ReadsWord s 0x00000C#24 w ∧ w.getLsbD 0 = false ∧ w.getLsbD 1 = s.status.done ∧
      w.getLsbD 2 = s.status.err ∧ w.getLsbD 3 = s.status.cmdOvr ∧ w.getLsbD 4 = s.status.wign ∧
      w.getLsbD 5 = ((s.status.done && s.ctrl.ieDone) || (s.status.err && s.ctrl.ieErr)) ∧ w.extractLsb' 6 10 = 0 ∧
      w.extractLsb' 16 8 = s.status.errcode ∧ w.extractLsb' 24 8 = 0) ∧
    ReadsWord s 0x000014#24 s.src ∧ ReadsWord s 0x000018#24 s.len ∧ ReadsWord s 0x00001C#24 s.dst ∧
    ReadsWord s 0x000020#24 s.result ∧ ReadsWord s 0x000024#24 s.errinfo ∧
    ReadsWord s 0x000028#24 (s.root.zeroExtend 32) ∧ ReadsWord s 0x00002C#24 (BitVec.ofNat 32 s.nodes.length) ∧
    ReadsWord s 0x000030#24 (BitVec.ofNat 32 s.heap.length) ∧
    ReadsWord s 0x000034#24 (s.total.extractLsb' 0 32) ∧ ReadsWord s 0x000038#24 (s.total.extractLsb' 32 32) ∧
    ReadsWord s 0x00003C#24 s.pk.optr ∧ ReadsWord s 0x000040#24 s.pk.ocnt ∧
    (∃ w : Word, ReadsWord s 0x000044#24 w ∧ w.extractLsb' 0 3 = s.pk.bblen ∧ w.extractLsb' 3 5 = 0 ∧
      w.extractLsb' 16 16 = 0 ∧
      bitsOf 8 (w.extractLsb' 8 8).toNat = s.pendingBits ++ List.replicate (8 - s.pk.bblen.toNat) false) ∧
    ReadsWord s 0x000048#24 s.up.iptr ∧
    ReadsWord s 0x00004C#24 (0#7 ++ s.up.cursor ++ 0#13 ++ s.up.bitpos) ∧
    ReadsWord s 0x000050#24 (s.up.emit.extractLsb' 0 32) ∧ ReadsWord s 0x000054#24 (s.up.emit.extractLsb' 32 32)

/-- The array windows while idle: FREQ, CODE, allocated NODE slots and slot 511, occupied HEAP words, laid out as R78 to R81
say, with reserved words and bits 0; an unallocated NODE entry or a HEAP word at or above PQ_SIZE answers some value, its
reserved bits 0 too. Slot 511 reads 0 while busy too (20_memory.md R77 to R81). -/
def Obligations.WindowsShowTheArrays : Prop :=
  (∀ s : State, s.env.rst = false → ∀ k < 4, ReadsWithin s .w (BitVec.ofNat 24 (0x003FF0 + 4 * k)) 0) ∧
  ∀ s : State, s.env.rst = false → s.status.busy = false →
    (∀ sym : Sym, ReadsWord s (BitVec.ofNat 24 (0x000400 + 4 * sym.toNat)) (s.freqAt sym) ∧
      ReadsWord s (BitVec.ofNat 24 (0x001000 + 16 * sym.toNat))
        (BitVec.ofBool (s.codeAt sym).valid ++ 0#24 ++ (s.codeAt sym).len) ∧
      ReadsWord s (BitVec.ofNat 24 (0x001004 + 16 * sym.toNat)) 0 ∧
      ReadsWord s (BitVec.ofNat 24 (0x001008 + 16 * sym.toNat)) ((s.codeAt sym).code.extractLsb' 0 32) ∧
      ReadsWord s (BitVec.ofNat 24 (0x00100C + 16 * sym.toNat)) ((s.codeAt sym).code.extractLsb' 32 32)) ∧
    (∀ i : NodeIx, i.toNat < s.nodeCount → i ≠ nilIx →
      ReadsWord s (BitVec.ofNat 24 (0x002000 + 16 * i.toNat))
        (0#16 ++ (s.node i).sym ++ 0#7 ++ BitVec.ofBool (s.node i).isInternal) ∧
      ReadsWord s (BitVec.ofNat 24 (0x002004 + 16 * i.toNat)) (0#7 ++ (s.node i).right ++ 0#7 ++ (s.node i).left) ∧
      ReadsWord s (BitVec.ofNat 24 (0x002008 + 16 * i.toNat)) ((s.node i).freq.extractLsb' 0 32) ∧
      ReadsWord s (BitVec.ofNat 24 (0x00200C + 16 * i.toNat)) ((s.node i).freq.extractLsb' 32 32)) ∧
    (∀ k < 4, ReadsWord s (BitVec.ofNat 24 (0x003FF0 + 4 * k)) 0) ∧
    (∀ (k : Nat) (n : NodeIx), k < 512 → s.heap[k]? = some n →
      ReadsWord s (BitVec.ofNat 24 (0x004000 + 4 * k)) (n.zeroExtend 32)) ∧
    (∀ a : Addr, 0x002000 ≤ a.toNat → a.toNat < 0x004800 → a.toNat % 4 = 0 → ReadsWithin s .w a 0xFFFFFFFF#32) ∧
    WindowsKeepReservedBits s

/-- The DMEM window while idle: a byte access moves one byte; a word access moves four, the lowest address in bits 7:0; a
write leaves every other byte alone and touches nothing else (20_memory.md R72, R74, R83). -/
def Obligations.DmemWindowIsLittleEndian : Prop :=
  ∀ (s : State) (a : Nat), s.env.rst = false → s.status.busy = false → a < s.dmemSize →
    (∀ rest, s.hostTurn (.rd .b (BitVec.ofNat 24 (0x800000 + a))) rest →
      step s = .next ((s.withEvents rest).respond (.data (0#24 ++ s.byte a)))) ∧
    (∀ rest w, s.hostTurn (.wr .b (BitVec.ofNat 24 (0x800000 + a)) w) rest →
      ∃ u, step s = .next (u.respond .ok) ∧ u = { s.withEvents rest with dmem := u.dmem } ∧
        u.byte a = w.extractLsb' 0 8 ∧ s.sameBytesBut a 1 u) ∧
    (a % 4 = 0 →
      ReadsWord s (BitVec.ofNat 24 (0x800000 + a)) (s.byte (a + 3) ++ s.byte (a + 2) ++ s.byte (a + 1) ++ s.byte a) ∧
      ∀ rest w, s.hostTurn (.wr .w (BitVec.ofNat 24 (0x800000 + a)) w) rest →
        ∃ u, step s = .next (u.respond .ok) ∧ u = { s.withEvents rest with dmem := u.dmem } ∧
          u.byte (a + 3) ++ u.byte (a + 2) ++ u.byte (a + 1) ++ u.byte a = w ∧ s.sameBytesBut a 4 u)

/-- Idle keeps every piece of state: while BUSY = 0, no core turn changes anything, and of all host transactions only a
write to CMD ends idle (60_exceptions.md R265). -/
def Obligations.IdleKeepsItsState : Prop :=
  ∀ (s : State) (rest : List Event), s.env.rst = false → s.status.busy = false →
    (s.coreTurn rest → step s = .next (s.withEvents rest)) ∧
    (∀ t u, s.hostTurn t rest → step s = .next u → (∀ size w, t ≠ .wr size 0x000010#24 w) → u.status.busy = false) ∧
    (∀ size addr u, s.hostTurn (.rd size addr) rest → step s = .next u → u = { s with env := u.env })
end

