-- ==== Sys2Proof/Laws/State.lean ====
section
/-! SUPPORT. One lemma per field and update of State, and per accessor and update that leaves it alone: each is true by
unfolding, so that no later proof unfolds a record update. -/

namespace Sys2Proof.Machine

variable (s : State)

/-! `setByte` writes dmem and nothing else. -/

@[simp] theorem State.setByte_dmemLog (a : Nat) (v : Byte) : (s.setByte a v).dmemLog = s.dmemLog := rfl
@[simp] theorem State.setByte_ctrl (a : Nat) (v : Byte) : (s.setByte a v).ctrl = s.ctrl := rfl
@[simp] theorem State.setByte_status (a : Nat) (v : Byte) : (s.setByte a v).status = s.status := rfl
@[simp] theorem State.setByte_cmdword (a : Nat) (v : Byte) : (s.setByte a v).cmdword = s.cmdword := rfl
@[simp] theorem State.setByte_src (a : Nat) (v : Byte) : (s.setByte a v).src = s.src := rfl
@[simp] theorem State.setByte_len (a : Nat) (v : Byte) : (s.setByte a v).len = s.len := rfl
@[simp] theorem State.setByte_dst (a : Nat) (v : Byte) : (s.setByte a v).dst = s.dst := rfl
@[simp] theorem State.setByte_result (a : Nat) (v : Byte) : (s.setByte a v).result = s.result := rfl
@[simp] theorem State.setByte_errinfo (a : Nat) (v : Byte) : (s.setByte a v).errinfo = s.errinfo := rfl
@[simp] theorem State.setByte_root (a : Nat) (v : Byte) : (s.setByte a v).root = s.root := rfl
@[simp] theorem State.setByte_total (a : Nat) (v : Byte) : (s.setByte a v).total = s.total := rfl
@[simp] theorem State.setByte_pk (a : Nat) (v : Byte) : (s.setByte a v).pk = s.pk := rfl
@[simp] theorem State.setByte_up (a : Nat) (v : Byte) : (s.setByte a v).up = s.up := rfl
@[simp] theorem State.setByte_freq (a : Nat) (v : Byte) : (s.setByte a v).freq = s.freq := rfl
@[simp] theorem State.setByte_nodes (a : Nat) (v : Byte) : (s.setByte a v).nodes = s.nodes := rfl
@[simp] theorem State.setByte_heap (a : Nat) (v : Byte) : (s.setByte a v).heap = s.heap := rfl
@[simp] theorem State.setByte_code (a : Nat) (v : Byte) : (s.setByte a v).code = s.code := rfl
@[simp] theorem State.setByte_walk (a : Nat) (v : Byte) : (s.setByte a v).walk = s.walk := rfl
@[simp] theorem State.setByte_env (a : Nat) (v : Byte) : (s.setByte a v).env = s.env := rfl
@[simp] theorem State.setByte_node (a : Nat) (v : Byte) (x : NodeIx) : (s.setByte a v).node x = s.node x := rfl
@[simp] theorem State.setByte_freqAt (a : Nat) (v : Byte) (x : Sym) : (s.setByte a v).freqAt x = s.freqAt x := rfl
@[simp] theorem State.setByte_codeAt (a : Nat) (v : Byte) (x : Sym) : (s.setByte a v).codeAt x = s.codeAt x := rfl
@[simp] theorem State.setByte_less (a : Nat) (v : Byte) (x y : NodeIx) : (s.setByte a v).less x y = s.less x y := rfl
@[simp] theorem State.setByte_freqSum (a : Nat) (v : Byte) : (s.setByte a v).freqSum = s.freqSum := rfl

/-! `setFreq` writes freq and nothing else. -/

@[simp] theorem State.setFreq_dmemLog (k : Sym) (v : Word) : (s.setFreq k v).dmemLog = s.dmemLog := rfl
@[simp] theorem State.setFreq_ctrl (k : Sym) (v : Word) : (s.setFreq k v).ctrl = s.ctrl := rfl
@[simp] theorem State.setFreq_status (k : Sym) (v : Word) : (s.setFreq k v).status = s.status := rfl
@[simp] theorem State.setFreq_cmdword (k : Sym) (v : Word) : (s.setFreq k v).cmdword = s.cmdword := rfl
@[simp] theorem State.setFreq_src (k : Sym) (v : Word) : (s.setFreq k v).src = s.src := rfl
@[simp] theorem State.setFreq_len (k : Sym) (v : Word) : (s.setFreq k v).len = s.len := rfl
@[simp] theorem State.setFreq_dst (k : Sym) (v : Word) : (s.setFreq k v).dst = s.dst := rfl
@[simp] theorem State.setFreq_result (k : Sym) (v : Word) : (s.setFreq k v).result = s.result := rfl
@[simp] theorem State.setFreq_errinfo (k : Sym) (v : Word) : (s.setFreq k v).errinfo = s.errinfo := rfl
@[simp] theorem State.setFreq_root (k : Sym) (v : Word) : (s.setFreq k v).root = s.root := rfl
@[simp] theorem State.setFreq_total (k : Sym) (v : Word) : (s.setFreq k v).total = s.total := rfl
@[simp] theorem State.setFreq_pk (k : Sym) (v : Word) : (s.setFreq k v).pk = s.pk := rfl
@[simp] theorem State.setFreq_up (k : Sym) (v : Word) : (s.setFreq k v).up = s.up := rfl
@[simp] theorem State.setFreq_nodes (k : Sym) (v : Word) : (s.setFreq k v).nodes = s.nodes := rfl
@[simp] theorem State.setFreq_heap (k : Sym) (v : Word) : (s.setFreq k v).heap = s.heap := rfl
@[simp] theorem State.setFreq_code (k : Sym) (v : Word) : (s.setFreq k v).code = s.code := rfl
@[simp] theorem State.setFreq_walk (k : Sym) (v : Word) : (s.setFreq k v).walk = s.walk := rfl
@[simp] theorem State.setFreq_dmem (k : Sym) (v : Word) : (s.setFreq k v).dmem = s.dmem := rfl
@[simp] theorem State.setFreq_env (k : Sym) (v : Word) : (s.setFreq k v).env = s.env := rfl
@[simp] theorem State.setFreq_byte (k : Sym) (v : Word) (x : Nat) : (s.setFreq k v).byte x = s.byte x := rfl
@[simp] theorem State.setFreq_node (k : Sym) (v : Word) (x : NodeIx) : (s.setFreq k v).node x = s.node x := rfl
@[simp] theorem State.setFreq_codeAt (k : Sym) (v : Word) (x : Sym) : (s.setFreq k v).codeAt x = s.codeAt x := rfl
@[simp] theorem State.setFreq_less (k : Sym) (v : Word) (x y : NodeIx) : (s.setFreq k v).less x y = s.less x y := rfl

/-! `setCode` writes code and nothing else. -/

@[simp] theorem State.setCode_dmemLog (k : Sym) (e : CodeEntry) : (s.setCode k e).dmemLog = s.dmemLog := rfl
@[simp] theorem State.setCode_ctrl (k : Sym) (e : CodeEntry) : (s.setCode k e).ctrl = s.ctrl := rfl
@[simp] theorem State.setCode_status (k : Sym) (e : CodeEntry) : (s.setCode k e).status = s.status := rfl
@[simp] theorem State.setCode_cmdword (k : Sym) (e : CodeEntry) : (s.setCode k e).cmdword = s.cmdword := rfl
@[simp] theorem State.setCode_src (k : Sym) (e : CodeEntry) : (s.setCode k e).src = s.src := rfl
@[simp] theorem State.setCode_len (k : Sym) (e : CodeEntry) : (s.setCode k e).len = s.len := rfl
@[simp] theorem State.setCode_dst (k : Sym) (e : CodeEntry) : (s.setCode k e).dst = s.dst := rfl
@[simp] theorem State.setCode_result (k : Sym) (e : CodeEntry) : (s.setCode k e).result = s.result := rfl
@[simp] theorem State.setCode_errinfo (k : Sym) (e : CodeEntry) : (s.setCode k e).errinfo = s.errinfo := rfl
@[simp] theorem State.setCode_root (k : Sym) (e : CodeEntry) : (s.setCode k e).root = s.root := rfl
@[simp] theorem State.setCode_total (k : Sym) (e : CodeEntry) : (s.setCode k e).total = s.total := rfl
@[simp] theorem State.setCode_pk (k : Sym) (e : CodeEntry) : (s.setCode k e).pk = s.pk := rfl
@[simp] theorem State.setCode_up (k : Sym) (e : CodeEntry) : (s.setCode k e).up = s.up := rfl
@[simp] theorem State.setCode_freq (k : Sym) (e : CodeEntry) : (s.setCode k e).freq = s.freq := rfl
@[simp] theorem State.setCode_nodes (k : Sym) (e : CodeEntry) : (s.setCode k e).nodes = s.nodes := rfl
@[simp] theorem State.setCode_heap (k : Sym) (e : CodeEntry) : (s.setCode k e).heap = s.heap := rfl
@[simp] theorem State.setCode_walk (k : Sym) (e : CodeEntry) : (s.setCode k e).walk = s.walk := rfl
@[simp] theorem State.setCode_dmem (k : Sym) (e : CodeEntry) : (s.setCode k e).dmem = s.dmem := rfl
@[simp] theorem State.setCode_env (k : Sym) (e : CodeEntry) : (s.setCode k e).env = s.env := rfl
@[simp] theorem State.setCode_byte (k : Sym) (e : CodeEntry) (x : Nat) : (s.setCode k e).byte x = s.byte x := rfl
@[simp] theorem State.setCode_node (k : Sym) (e : CodeEntry) (x : NodeIx) : (s.setCode k e).node x = s.node x := rfl
@[simp] theorem State.setCode_freqAt (k : Sym) (e : CodeEntry) (x : Sym) : (s.setCode k e).freqAt x = s.freqAt x := rfl
@[simp] theorem State.setCode_less (k : Sym) (e : CodeEntry) (x y : NodeIx) : (s.setCode k e).less x y = s.less x y := rfl
@[simp] theorem State.setCode_freqSum (k : Sym) (e : CodeEntry) : (s.setCode k e).freqSum = s.freqSum := rfl

/-! `countByte` writes freq, total, result and nothing else. -/

@[simp] theorem State.countByte_dmemLog (b : Byte) (n : Nat) : (s.countByte b n).dmemLog = s.dmemLog := rfl
@[simp] theorem State.countByte_ctrl (b : Byte) (n : Nat) : (s.countByte b n).ctrl = s.ctrl := rfl
@[simp] theorem State.countByte_status (b : Byte) (n : Nat) : (s.countByte b n).status = s.status := rfl
@[simp] theorem State.countByte_cmdword (b : Byte) (n : Nat) : (s.countByte b n).cmdword = s.cmdword := rfl
@[simp] theorem State.countByte_src (b : Byte) (n : Nat) : (s.countByte b n).src = s.src := rfl
@[simp] theorem State.countByte_len (b : Byte) (n : Nat) : (s.countByte b n).len = s.len := rfl
@[simp] theorem State.countByte_dst (b : Byte) (n : Nat) : (s.countByte b n).dst = s.dst := rfl
@[simp] theorem State.countByte_errinfo (b : Byte) (n : Nat) : (s.countByte b n).errinfo = s.errinfo := rfl
@[simp] theorem State.countByte_root (b : Byte) (n : Nat) : (s.countByte b n).root = s.root := rfl
@[simp] theorem State.countByte_pk (b : Byte) (n : Nat) : (s.countByte b n).pk = s.pk := rfl
@[simp] theorem State.countByte_up (b : Byte) (n : Nat) : (s.countByte b n).up = s.up := rfl
@[simp] theorem State.countByte_nodes (b : Byte) (n : Nat) : (s.countByte b n).nodes = s.nodes := rfl
@[simp] theorem State.countByte_heap (b : Byte) (n : Nat) : (s.countByte b n).heap = s.heap := rfl
@[simp] theorem State.countByte_code (b : Byte) (n : Nat) : (s.countByte b n).code = s.code := rfl
@[simp] theorem State.countByte_walk (b : Byte) (n : Nat) : (s.countByte b n).walk = s.walk := rfl
@[simp] theorem State.countByte_dmem (b : Byte) (n : Nat) : (s.countByte b n).dmem = s.dmem := rfl
@[simp] theorem State.countByte_env (b : Byte) (n : Nat) : (s.countByte b n).env = s.env := rfl
@[simp] theorem State.countByte_byte (b : Byte) (n : Nat) (x : Nat) : (s.countByte b n).byte x = s.byte x := rfl
@[simp] theorem State.countByte_node (b : Byte) (n : Nat) (x : NodeIx) : (s.countByte b n).node x = s.node x := rfl
@[simp] theorem State.countByte_codeAt (b : Byte) (n : Nat) (x : Sym) : (s.countByte b n).codeAt x = s.codeAt x := rfl
@[simp] theorem State.countByte_less (b : Byte) (n : Nat) (x y : NodeIx) : (s.countByte b n).less x y = s.less x y := rfl

/-! `clearFreq` writes freq, total and nothing else. -/

@[simp] theorem State.clearFreq_dmemLog : (s.clearFreq).dmemLog = s.dmemLog := rfl
@[simp] theorem State.clearFreq_ctrl : (s.clearFreq).ctrl = s.ctrl := rfl
@[simp] theorem State.clearFreq_status : (s.clearFreq).status = s.status := rfl
@[simp] theorem State.clearFreq_cmdword : (s.clearFreq).cmdword = s.cmdword := rfl
@[simp] theorem State.clearFreq_src : (s.clearFreq).src = s.src := rfl
@[simp] theorem State.clearFreq_len : (s.clearFreq).len = s.len := rfl
@[simp] theorem State.clearFreq_dst : (s.clearFreq).dst = s.dst := rfl
@[simp] theorem State.clearFreq_result : (s.clearFreq).result = s.result := rfl
@[simp] theorem State.clearFreq_errinfo : (s.clearFreq).errinfo = s.errinfo := rfl
@[simp] theorem State.clearFreq_root : (s.clearFreq).root = s.root := rfl
@[simp] theorem State.clearFreq_pk : (s.clearFreq).pk = s.pk := rfl
@[simp] theorem State.clearFreq_up : (s.clearFreq).up = s.up := rfl
@[simp] theorem State.clearFreq_nodes : (s.clearFreq).nodes = s.nodes := rfl
@[simp] theorem State.clearFreq_heap : (s.clearFreq).heap = s.heap := rfl
@[simp] theorem State.clearFreq_code : (s.clearFreq).code = s.code := rfl
@[simp] theorem State.clearFreq_walk : (s.clearFreq).walk = s.walk := rfl
@[simp] theorem State.clearFreq_dmem : (s.clearFreq).dmem = s.dmem := rfl
@[simp] theorem State.clearFreq_env : (s.clearFreq).env = s.env := rfl
@[simp] theorem State.clearFreq_byte (x : Nat) : (s.clearFreq).byte x = s.byte x := rfl
@[simp] theorem State.clearFreq_node (x : NodeIx) : (s.clearFreq).node x = s.node x := rfl
@[simp] theorem State.clearFreq_codeAt (x : Sym) : (s.clearFreq).codeAt x = s.codeAt x := rfl
@[simp] theorem State.clearFreq_less (x y : NodeIx) : (s.clearFreq).less x y = s.less x y := rfl

/-! `clearDatapath` writes freq, code, total, nodes, heap, root, pk, up, result and nothing else. -/

@[simp] theorem State.clearDatapath_dmemLog : (s.clearDatapath).dmemLog = s.dmemLog := rfl
@[simp] theorem State.clearDatapath_ctrl : (s.clearDatapath).ctrl = s.ctrl := rfl
@[simp] theorem State.clearDatapath_status : (s.clearDatapath).status = s.status := rfl
@[simp] theorem State.clearDatapath_cmdword : (s.clearDatapath).cmdword = s.cmdword := rfl
@[simp] theorem State.clearDatapath_src : (s.clearDatapath).src = s.src := rfl
@[simp] theorem State.clearDatapath_len : (s.clearDatapath).len = s.len := rfl
@[simp] theorem State.clearDatapath_dst : (s.clearDatapath).dst = s.dst := rfl
@[simp] theorem State.clearDatapath_errinfo : (s.clearDatapath).errinfo = s.errinfo := rfl
@[simp] theorem State.clearDatapath_walk : (s.clearDatapath).walk = s.walk := rfl
@[simp] theorem State.clearDatapath_dmem : (s.clearDatapath).dmem = s.dmem := rfl
@[simp] theorem State.clearDatapath_env : (s.clearDatapath).env = s.env := rfl
@[simp] theorem State.clearDatapath_byte (x : Nat) : (s.clearDatapath).byte x = s.byte x := rfl

/-! `addNode` writes nodes and nothing else. -/

@[simp] theorem State.addNode_dmemLog (n : Node) : (s.addNode n).dmemLog = s.dmemLog := rfl
@[simp] theorem State.addNode_ctrl (n : Node) : (s.addNode n).ctrl = s.ctrl := rfl
@[simp] theorem State.addNode_status (n : Node) : (s.addNode n).status = s.status := rfl
@[simp] theorem State.addNode_cmdword (n : Node) : (s.addNode n).cmdword = s.cmdword := rfl
@[simp] theorem State.addNode_src (n : Node) : (s.addNode n).src = s.src := rfl
@[simp] theorem State.addNode_len (n : Node) : (s.addNode n).len = s.len := rfl
@[simp] theorem State.addNode_dst (n : Node) : (s.addNode n).dst = s.dst := rfl
@[simp] theorem State.addNode_result (n : Node) : (s.addNode n).result = s.result := rfl
@[simp] theorem State.addNode_errinfo (n : Node) : (s.addNode n).errinfo = s.errinfo := rfl
@[simp] theorem State.addNode_root (n : Node) : (s.addNode n).root = s.root := rfl
@[simp] theorem State.addNode_total (n : Node) : (s.addNode n).total = s.total := rfl
@[simp] theorem State.addNode_pk (n : Node) : (s.addNode n).pk = s.pk := rfl
@[simp] theorem State.addNode_up (n : Node) : (s.addNode n).up = s.up := rfl
@[simp] theorem State.addNode_freq (n : Node) : (s.addNode n).freq = s.freq := rfl
@[simp] theorem State.addNode_heap (n : Node) : (s.addNode n).heap = s.heap := rfl
@[simp] theorem State.addNode_code (n : Node) : (s.addNode n).code = s.code := rfl
@[simp] theorem State.addNode_walk (n : Node) : (s.addNode n).walk = s.walk := rfl
@[simp] theorem State.addNode_dmem (n : Node) : (s.addNode n).dmem = s.dmem := rfl
@[simp] theorem State.addNode_env (n : Node) : (s.addNode n).env = s.env := rfl
@[simp] theorem State.addNode_byte (n : Node) (x : Nat) : (s.addNode n).byte x = s.byte x := rfl
@[simp] theorem State.addNode_freqAt (n : Node) (x : Sym) : (s.addNode n).freqAt x = s.freqAt x := rfl
@[simp] theorem State.addNode_codeAt (n : Node) (x : Sym) : (s.addNode n).codeAt x = s.codeAt x := rfl
@[simp] theorem State.addNode_freqSum (n : Node) : (s.addNode n).freqSum = s.freqSum := rfl

/-! `clearTree` writes nodes, heap, root and nothing else. -/

@[simp] theorem State.clearTree_dmemLog : (s.clearTree).dmemLog = s.dmemLog := rfl
@[simp] theorem State.clearTree_ctrl : (s.clearTree).ctrl = s.ctrl := rfl
@[simp] theorem State.clearTree_status : (s.clearTree).status = s.status := rfl
@[simp] theorem State.clearTree_cmdword : (s.clearTree).cmdword = s.cmdword := rfl
@[simp] theorem State.clearTree_src : (s.clearTree).src = s.src := rfl
@[simp] theorem State.clearTree_len : (s.clearTree).len = s.len := rfl
@[simp] theorem State.clearTree_dst : (s.clearTree).dst = s.dst := rfl
@[simp] theorem State.clearTree_result : (s.clearTree).result = s.result := rfl
@[simp] theorem State.clearTree_errinfo : (s.clearTree).errinfo = s.errinfo := rfl
@[simp] theorem State.clearTree_total : (s.clearTree).total = s.total := rfl
@[simp] theorem State.clearTree_pk : (s.clearTree).pk = s.pk := rfl
@[simp] theorem State.clearTree_up : (s.clearTree).up = s.up := rfl
@[simp] theorem State.clearTree_freq : (s.clearTree).freq = s.freq := rfl
@[simp] theorem State.clearTree_code : (s.clearTree).code = s.code := rfl
@[simp] theorem State.clearTree_walk : (s.clearTree).walk = s.walk := rfl
@[simp] theorem State.clearTree_dmem : (s.clearTree).dmem = s.dmem := rfl
@[simp] theorem State.clearTree_env : (s.clearTree).env = s.env := rfl
@[simp] theorem State.clearTree_byte (x : Nat) : (s.clearTree).byte x = s.byte x := rfl
@[simp] theorem State.clearTree_freqAt (x : Sym) : (s.clearTree).freqAt x = s.freqAt x := rfl
@[simp] theorem State.clearTree_codeAt (x : Sym) : (s.clearTree).codeAt x = s.codeAt x := rfl
@[simp] theorem State.clearTree_freqSum  : (s.clearTree).freqSum = s.freqSum := rfl

/-! `takeRoot` writes root, heap, result and nothing else. -/

@[simp] theorem State.takeRoot_dmemLog (n : Nat) : (s.takeRoot n).dmemLog = s.dmemLog := rfl
@[simp] theorem State.takeRoot_ctrl (n : Nat) : (s.takeRoot n).ctrl = s.ctrl := rfl
@[simp] theorem State.takeRoot_status (n : Nat) : (s.takeRoot n).status = s.status := rfl
@[simp] theorem State.takeRoot_cmdword (n : Nat) : (s.takeRoot n).cmdword = s.cmdword := rfl
@[simp] theorem State.takeRoot_src (n : Nat) : (s.takeRoot n).src = s.src := rfl
@[simp] theorem State.takeRoot_len (n : Nat) : (s.takeRoot n).len = s.len := rfl
@[simp] theorem State.takeRoot_dst (n : Nat) : (s.takeRoot n).dst = s.dst := rfl
@[simp] theorem State.takeRoot_errinfo (n : Nat) : (s.takeRoot n).errinfo = s.errinfo := rfl
@[simp] theorem State.takeRoot_total (n : Nat) : (s.takeRoot n).total = s.total := rfl
@[simp] theorem State.takeRoot_pk (n : Nat) : (s.takeRoot n).pk = s.pk := rfl
@[simp] theorem State.takeRoot_up (n : Nat) : (s.takeRoot n).up = s.up := rfl
@[simp] theorem State.takeRoot_freq (n : Nat) : (s.takeRoot n).freq = s.freq := rfl
@[simp] theorem State.takeRoot_nodes (n : Nat) : (s.takeRoot n).nodes = s.nodes := rfl
@[simp] theorem State.takeRoot_code (n : Nat) : (s.takeRoot n).code = s.code := rfl
@[simp] theorem State.takeRoot_walk (n : Nat) : (s.takeRoot n).walk = s.walk := rfl
@[simp] theorem State.takeRoot_dmem (n : Nat) : (s.takeRoot n).dmem = s.dmem := rfl
@[simp] theorem State.takeRoot_env (n : Nat) : (s.takeRoot n).env = s.env := rfl
@[simp] theorem State.takeRoot_byte (n : Nat) (x : Nat) : (s.takeRoot n).byte x = s.byte x := rfl
@[simp] theorem State.takeRoot_node (n : Nat) (x : NodeIx) : (s.takeRoot n).node x = s.node x := rfl
@[simp] theorem State.takeRoot_freqAt (n : Nat) (x : Sym) : (s.takeRoot n).freqAt x = s.freqAt x := rfl
@[simp] theorem State.takeRoot_codeAt (n : Nat) (x : Sym) : (s.takeRoot n).codeAt x = s.codeAt x := rfl
@[simp] theorem State.takeRoot_less (n : Nat) (x y : NodeIx) : (s.takeRoot n).less x y = s.less x y := rfl
@[simp] theorem State.takeRoot_freqSum (n : Nat) : (s.takeRoot n).freqSum = s.freqSum := rfl

/-! `clearCodes` writes code, result and nothing else. -/

@[simp] theorem State.clearCodes_dmemLog : (s.clearCodes).dmemLog = s.dmemLog := rfl
@[simp] theorem State.clearCodes_ctrl : (s.clearCodes).ctrl = s.ctrl := rfl
@[simp] theorem State.clearCodes_status : (s.clearCodes).status = s.status := rfl
@[simp] theorem State.clearCodes_cmdword : (s.clearCodes).cmdword = s.cmdword := rfl
@[simp] theorem State.clearCodes_src : (s.clearCodes).src = s.src := rfl
@[simp] theorem State.clearCodes_len : (s.clearCodes).len = s.len := rfl
@[simp] theorem State.clearCodes_dst : (s.clearCodes).dst = s.dst := rfl
@[simp] theorem State.clearCodes_errinfo : (s.clearCodes).errinfo = s.errinfo := rfl
@[simp] theorem State.clearCodes_root : (s.clearCodes).root = s.root := rfl
@[simp] theorem State.clearCodes_total : (s.clearCodes).total = s.total := rfl
@[simp] theorem State.clearCodes_pk : (s.clearCodes).pk = s.pk := rfl
@[simp] theorem State.clearCodes_up : (s.clearCodes).up = s.up := rfl
@[simp] theorem State.clearCodes_freq : (s.clearCodes).freq = s.freq := rfl
@[simp] theorem State.clearCodes_nodes : (s.clearCodes).nodes = s.nodes := rfl
@[simp] theorem State.clearCodes_heap : (s.clearCodes).heap = s.heap := rfl
@[simp] theorem State.clearCodes_walk : (s.clearCodes).walk = s.walk := rfl
@[simp] theorem State.clearCodes_dmem : (s.clearCodes).dmem = s.dmem := rfl
@[simp] theorem State.clearCodes_env : (s.clearCodes).env = s.env := rfl
@[simp] theorem State.clearCodes_byte (x : Nat) : (s.clearCodes).byte x = s.byte x := rfl
@[simp] theorem State.clearCodes_node (x : NodeIx) : (s.clearCodes).node x = s.node x := rfl
@[simp] theorem State.clearCodes_freqAt (x : Sym) : (s.clearCodes).freqAt x = s.freqAt x := rfl
@[simp] theorem State.clearCodes_less (x y : NodeIx) : (s.clearCodes).less x y = s.less x y := rfl
@[simp] theorem State.clearCodes_freqSum  : (s.clearCodes).freqSum = s.freqSum := rfl

/-! `assignCode` writes code, result and nothing else. -/

@[simp] theorem State.assignCode_dmemLog (k : Sym) (l : BitVec 7) (c : DWord) : (s.assignCode k l c).dmemLog = s.dmemLog := rfl
@[simp] theorem State.assignCode_ctrl (k : Sym) (l : BitVec 7) (c : DWord) : (s.assignCode k l c).ctrl = s.ctrl := rfl
@[simp] theorem State.assignCode_status (k : Sym) (l : BitVec 7) (c : DWord) : (s.assignCode k l c).status = s.status := rfl
@[simp] theorem State.assignCode_cmdword (k : Sym) (l : BitVec 7) (c : DWord) : (s.assignCode k l c).cmdword = s.cmdword := rfl
@[simp] theorem State.assignCode_src (k : Sym) (l : BitVec 7) (c : DWord) : (s.assignCode k l c).src = s.src := rfl
@[simp] theorem State.assignCode_len (k : Sym) (l : BitVec 7) (c : DWord) : (s.assignCode k l c).len = s.len := rfl
@[simp] theorem State.assignCode_dst (k : Sym) (l : BitVec 7) (c : DWord) : (s.assignCode k l c).dst = s.dst := rfl
@[simp] theorem State.assignCode_errinfo (k : Sym) (l : BitVec 7) (c : DWord) : (s.assignCode k l c).errinfo = s.errinfo := rfl
@[simp] theorem State.assignCode_root (k : Sym) (l : BitVec 7) (c : DWord) : (s.assignCode k l c).root = s.root := rfl
@[simp] theorem State.assignCode_total (k : Sym) (l : BitVec 7) (c : DWord) : (s.assignCode k l c).total = s.total := rfl
@[simp] theorem State.assignCode_pk (k : Sym) (l : BitVec 7) (c : DWord) : (s.assignCode k l c).pk = s.pk := rfl
@[simp] theorem State.assignCode_up (k : Sym) (l : BitVec 7) (c : DWord) : (s.assignCode k l c).up = s.up := rfl
@[simp] theorem State.assignCode_freq (k : Sym) (l : BitVec 7) (c : DWord) : (s.assignCode k l c).freq = s.freq := rfl
@[simp] theorem State.assignCode_nodes (k : Sym) (l : BitVec 7) (c : DWord) : (s.assignCode k l c).nodes = s.nodes := rfl
@[simp] theorem State.assignCode_heap (k : Sym) (l : BitVec 7) (c : DWord) : (s.assignCode k l c).heap = s.heap := rfl
@[simp] theorem State.assignCode_walk (k : Sym) (l : BitVec 7) (c : DWord) : (s.assignCode k l c).walk = s.walk := rfl
@[simp] theorem State.assignCode_dmem (k : Sym) (l : BitVec 7) (c : DWord) : (s.assignCode k l c).dmem = s.dmem := rfl
@[simp] theorem State.assignCode_env (k : Sym) (l : BitVec 7) (c : DWord) : (s.assignCode k l c).env = s.env := rfl
@[simp] theorem State.assignCode_byte (k : Sym) (l : BitVec 7) (c : DWord) (x : Nat) : (s.assignCode k l c).byte x = s.byte x := rfl
@[simp] theorem State.assignCode_node (k : Sym) (l : BitVec 7) (c : DWord) (x : NodeIx) : (s.assignCode k l c).node x = s.node x := rfl
@[simp] theorem State.assignCode_freqAt (k : Sym) (l : BitVec 7) (c : DWord) (x : Sym) : (s.assignCode k l c).freqAt x = s.freqAt x := rfl
@[simp] theorem State.assignCode_less (k : Sym) (l : BitVec 7) (c : DWord) (x y : NodeIx) : (s.assignCode k l c).less x y = s.less x y := rfl
@[simp] theorem State.assignCode_freqSum (k : Sym) (l : BitVec 7) (c : DWord) : (s.assignCode k l c).freqSum = s.freqSum := rfl

/-! `releaseWalk` writes walk, env and nothing else. -/

@[simp] theorem State.releaseWalk_dmemLog : (s.releaseWalk).dmemLog = s.dmemLog := rfl
@[simp] theorem State.releaseWalk_ctrl : (s.releaseWalk).ctrl = s.ctrl := rfl
@[simp] theorem State.releaseWalk_status : (s.releaseWalk).status = s.status := rfl
@[simp] theorem State.releaseWalk_cmdword : (s.releaseWalk).cmdword = s.cmdword := rfl
@[simp] theorem State.releaseWalk_src : (s.releaseWalk).src = s.src := rfl
@[simp] theorem State.releaseWalk_len : (s.releaseWalk).len = s.len := rfl
@[simp] theorem State.releaseWalk_dst : (s.releaseWalk).dst = s.dst := rfl
@[simp] theorem State.releaseWalk_result : (s.releaseWalk).result = s.result := rfl
@[simp] theorem State.releaseWalk_errinfo : (s.releaseWalk).errinfo = s.errinfo := rfl
@[simp] theorem State.releaseWalk_root : (s.releaseWalk).root = s.root := rfl
@[simp] theorem State.releaseWalk_total : (s.releaseWalk).total = s.total := rfl
@[simp] theorem State.releaseWalk_pk : (s.releaseWalk).pk = s.pk := rfl
@[simp] theorem State.releaseWalk_up : (s.releaseWalk).up = s.up := rfl
@[simp] theorem State.releaseWalk_freq : (s.releaseWalk).freq = s.freq := rfl
@[simp] theorem State.releaseWalk_nodes : (s.releaseWalk).nodes = s.nodes := rfl
@[simp] theorem State.releaseWalk_heap : (s.releaseWalk).heap = s.heap := rfl
@[simp] theorem State.releaseWalk_code : (s.releaseWalk).code = s.code := rfl
@[simp] theorem State.releaseWalk_dmem : (s.releaseWalk).dmem = s.dmem := rfl
@[simp] theorem State.releaseWalk_byte (x : Nat) : (s.releaseWalk).byte x = s.byte x := rfl
@[simp] theorem State.releaseWalk_node (x : NodeIx) : (s.releaseWalk).node x = s.node x := rfl
@[simp] theorem State.releaseWalk_freqAt (x : Sym) : (s.releaseWalk).freqAt x = s.freqAt x := rfl
@[simp] theorem State.releaseWalk_codeAt (x : Sym) : (s.releaseWalk).codeAt x = s.codeAt x := rfl
@[simp] theorem State.releaseWalk_less (x y : NodeIx) : (s.releaseWalk).less x y = s.less x y := rfl
@[simp] theorem State.releaseWalk_freqSum  : (s.releaseWalk).freqSum = s.freqSum := rfl

/-! `advancePacker` writes pk and nothing else. -/

@[simp] theorem State.advancePacker_dmemLog (n : Word) : (s.advancePacker n).dmemLog = s.dmemLog := rfl
@[simp] theorem State.advancePacker_ctrl (n : Word) : (s.advancePacker n).ctrl = s.ctrl := rfl
@[simp] theorem State.advancePacker_status (n : Word) : (s.advancePacker n).status = s.status := rfl
@[simp] theorem State.advancePacker_cmdword (n : Word) : (s.advancePacker n).cmdword = s.cmdword := rfl
@[simp] theorem State.advancePacker_src (n : Word) : (s.advancePacker n).src = s.src := rfl
@[simp] theorem State.advancePacker_len (n : Word) : (s.advancePacker n).len = s.len := rfl
@[simp] theorem State.advancePacker_dst (n : Word) : (s.advancePacker n).dst = s.dst := rfl
@[simp] theorem State.advancePacker_result (n : Word) : (s.advancePacker n).result = s.result := rfl
@[simp] theorem State.advancePacker_errinfo (n : Word) : (s.advancePacker n).errinfo = s.errinfo := rfl
@[simp] theorem State.advancePacker_root (n : Word) : (s.advancePacker n).root = s.root := rfl
@[simp] theorem State.advancePacker_total (n : Word) : (s.advancePacker n).total = s.total := rfl
@[simp] theorem State.advancePacker_up (n : Word) : (s.advancePacker n).up = s.up := rfl
@[simp] theorem State.advancePacker_freq (n : Word) : (s.advancePacker n).freq = s.freq := rfl
@[simp] theorem State.advancePacker_nodes (n : Word) : (s.advancePacker n).nodes = s.nodes := rfl
@[simp] theorem State.advancePacker_heap (n : Word) : (s.advancePacker n).heap = s.heap := rfl
@[simp] theorem State.advancePacker_code (n : Word) : (s.advancePacker n).code = s.code := rfl
@[simp] theorem State.advancePacker_walk (n : Word) : (s.advancePacker n).walk = s.walk := rfl
@[simp] theorem State.advancePacker_dmem (n : Word) : (s.advancePacker n).dmem = s.dmem := rfl
@[simp] theorem State.advancePacker_env (n : Word) : (s.advancePacker n).env = s.env := rfl
@[simp] theorem State.advancePacker_byte (n : Word) (x : Nat) : (s.advancePacker n).byte x = s.byte x := rfl
@[simp] theorem State.advancePacker_node (n : Word) (x : NodeIx) : (s.advancePacker n).node x = s.node x := rfl
@[simp] theorem State.advancePacker_freqAt (n : Word) (x : Sym) : (s.advancePacker n).freqAt x = s.freqAt x := rfl
@[simp] theorem State.advancePacker_codeAt (n : Word) (x : Sym) : (s.advancePacker n).codeAt x = s.codeAt x := rfl
@[simp] theorem State.advancePacker_less (n : Word) (x y : NodeIx) : (s.advancePacker n).less x y = s.less x y := rfl
@[simp] theorem State.advancePacker_freqSum (n : Word) : (s.advancePacker n).freqSum = s.freqSum := rfl

/-! `setPending` writes pk and nothing else. -/

@[simp] theorem State.setPending_dmemLog (n acc : Nat) : (s.setPending n acc).dmemLog = s.dmemLog := rfl
@[simp] theorem State.setPending_ctrl (n acc : Nat) : (s.setPending n acc).ctrl = s.ctrl := rfl
@[simp] theorem State.setPending_status (n acc : Nat) : (s.setPending n acc).status = s.status := rfl
@[simp] theorem State.setPending_cmdword (n acc : Nat) : (s.setPending n acc).cmdword = s.cmdword := rfl
@[simp] theorem State.setPending_src (n acc : Nat) : (s.setPending n acc).src = s.src := rfl
@[simp] theorem State.setPending_len (n acc : Nat) : (s.setPending n acc).len = s.len := rfl
@[simp] theorem State.setPending_dst (n acc : Nat) : (s.setPending n acc).dst = s.dst := rfl
@[simp] theorem State.setPending_result (n acc : Nat) : (s.setPending n acc).result = s.result := rfl
@[simp] theorem State.setPending_errinfo (n acc : Nat) : (s.setPending n acc).errinfo = s.errinfo := rfl
@[simp] theorem State.setPending_root (n acc : Nat) : (s.setPending n acc).root = s.root := rfl
@[simp] theorem State.setPending_total (n acc : Nat) : (s.setPending n acc).total = s.total := rfl
@[simp] theorem State.setPending_up (n acc : Nat) : (s.setPending n acc).up = s.up := rfl
@[simp] theorem State.setPending_freq (n acc : Nat) : (s.setPending n acc).freq = s.freq := rfl
@[simp] theorem State.setPending_nodes (n acc : Nat) : (s.setPending n acc).nodes = s.nodes := rfl
@[simp] theorem State.setPending_heap (n acc : Nat) : (s.setPending n acc).heap = s.heap := rfl
@[simp] theorem State.setPending_code (n acc : Nat) : (s.setPending n acc).code = s.code := rfl
@[simp] theorem State.setPending_walk (n acc : Nat) : (s.setPending n acc).walk = s.walk := rfl
@[simp] theorem State.setPending_dmem (n acc : Nat) : (s.setPending n acc).dmem = s.dmem := rfl
@[simp] theorem State.setPending_env (n acc : Nat) : (s.setPending n acc).env = s.env := rfl
@[simp] theorem State.setPending_byte (n acc : Nat) (x : Nat) : (s.setPending n acc).byte x = s.byte x := rfl
@[simp] theorem State.setPending_node (n acc : Nat) (x : NodeIx) : (s.setPending n acc).node x = s.node x := rfl
@[simp] theorem State.setPending_freqAt (n acc : Nat) (x : Sym) : (s.setPending n acc).freqAt x = s.freqAt x := rfl
@[simp] theorem State.setPending_codeAt (n acc : Nat) (x : Sym) : (s.setPending n acc).codeAt x = s.codeAt x := rfl
@[simp] theorem State.setPending_less (n acc : Nat) (x y : NodeIx) : (s.setPending n acc).less x y = s.less x y := rfl
@[simp] theorem State.setPending_freqSum (n acc : Nat) : (s.setPending n acc).freqSum = s.freqSum := rfl

/-! `initPacker` writes pk and nothing else. -/

@[simp] theorem State.initPacker_dmemLog (d : Word) : (s.initPacker d).dmemLog = s.dmemLog := rfl
@[simp] theorem State.initPacker_ctrl (d : Word) : (s.initPacker d).ctrl = s.ctrl := rfl
@[simp] theorem State.initPacker_status (d : Word) : (s.initPacker d).status = s.status := rfl
@[simp] theorem State.initPacker_cmdword (d : Word) : (s.initPacker d).cmdword = s.cmdword := rfl
@[simp] theorem State.initPacker_src (d : Word) : (s.initPacker d).src = s.src := rfl
@[simp] theorem State.initPacker_len (d : Word) : (s.initPacker d).len = s.len := rfl
@[simp] theorem State.initPacker_dst (d : Word) : (s.initPacker d).dst = s.dst := rfl
@[simp] theorem State.initPacker_result (d : Word) : (s.initPacker d).result = s.result := rfl
@[simp] theorem State.initPacker_errinfo (d : Word) : (s.initPacker d).errinfo = s.errinfo := rfl
@[simp] theorem State.initPacker_root (d : Word) : (s.initPacker d).root = s.root := rfl
@[simp] theorem State.initPacker_total (d : Word) : (s.initPacker d).total = s.total := rfl
@[simp] theorem State.initPacker_up (d : Word) : (s.initPacker d).up = s.up := rfl
@[simp] theorem State.initPacker_freq (d : Word) : (s.initPacker d).freq = s.freq := rfl
@[simp] theorem State.initPacker_nodes (d : Word) : (s.initPacker d).nodes = s.nodes := rfl
@[simp] theorem State.initPacker_heap (d : Word) : (s.initPacker d).heap = s.heap := rfl
@[simp] theorem State.initPacker_code (d : Word) : (s.initPacker d).code = s.code := rfl
@[simp] theorem State.initPacker_walk (d : Word) : (s.initPacker d).walk = s.walk := rfl
@[simp] theorem State.initPacker_dmem (d : Word) : (s.initPacker d).dmem = s.dmem := rfl
@[simp] theorem State.initPacker_env (d : Word) : (s.initPacker d).env = s.env := rfl
@[simp] theorem State.initPacker_byte (d : Word) (x : Nat) : (s.initPacker d).byte x = s.byte x := rfl
@[simp] theorem State.initPacker_node (d : Word) (x : NodeIx) : (s.initPacker d).node x = s.node x := rfl
@[simp] theorem State.initPacker_freqAt (d : Word) (x : Sym) : (s.initPacker d).freqAt x = s.freqAt x := rfl
@[simp] theorem State.initPacker_codeAt (d : Word) (x : Sym) : (s.initPacker d).codeAt x = s.codeAt x := rfl
@[simp] theorem State.initPacker_less (d : Word) (x y : NodeIx) : (s.initPacker d).less x y = s.less x y := rfl
@[simp] theorem State.initPacker_freqSum (d : Word) : (s.initPacker d).freqSum = s.freqSum := rfl

/-! `consumeBit` writes up and nothing else. -/

@[simp] theorem State.consumeBit_dmemLog : (s.consumeBit).dmemLog = s.dmemLog := rfl
@[simp] theorem State.consumeBit_ctrl : (s.consumeBit).ctrl = s.ctrl := rfl
@[simp] theorem State.consumeBit_status : (s.consumeBit).status = s.status := rfl
@[simp] theorem State.consumeBit_cmdword : (s.consumeBit).cmdword = s.cmdword := rfl
@[simp] theorem State.consumeBit_src : (s.consumeBit).src = s.src := rfl
@[simp] theorem State.consumeBit_len : (s.consumeBit).len = s.len := rfl
@[simp] theorem State.consumeBit_dst : (s.consumeBit).dst = s.dst := rfl
@[simp] theorem State.consumeBit_result : (s.consumeBit).result = s.result := rfl
@[simp] theorem State.consumeBit_errinfo : (s.consumeBit).errinfo = s.errinfo := rfl
@[simp] theorem State.consumeBit_root : (s.consumeBit).root = s.root := rfl
@[simp] theorem State.consumeBit_total : (s.consumeBit).total = s.total := rfl
@[simp] theorem State.consumeBit_pk : (s.consumeBit).pk = s.pk := rfl
@[simp] theorem State.consumeBit_freq : (s.consumeBit).freq = s.freq := rfl
@[simp] theorem State.consumeBit_nodes : (s.consumeBit).nodes = s.nodes := rfl
@[simp] theorem State.consumeBit_heap : (s.consumeBit).heap = s.heap := rfl
@[simp] theorem State.consumeBit_code : (s.consumeBit).code = s.code := rfl
@[simp] theorem State.consumeBit_walk : (s.consumeBit).walk = s.walk := rfl
@[simp] theorem State.consumeBit_dmem : (s.consumeBit).dmem = s.dmem := rfl
@[simp] theorem State.consumeBit_env : (s.consumeBit).env = s.env := rfl
@[simp] theorem State.consumeBit_byte (x : Nat) : (s.consumeBit).byte x = s.byte x := rfl
@[simp] theorem State.consumeBit_node (x : NodeIx) : (s.consumeBit).node x = s.node x := rfl
@[simp] theorem State.consumeBit_freqAt (x : Sym) : (s.consumeBit).freqAt x = s.freqAt x := rfl
@[simp] theorem State.consumeBit_codeAt (x : Sym) : (s.consumeBit).codeAt x = s.codeAt x := rfl
@[simp] theorem State.consumeBit_less (x y : NodeIx) : (s.consumeBit).less x y = s.less x y := rfl
@[simp] theorem State.consumeBit_freqSum  : (s.consumeBit).freqSum = s.freqSum := rfl

/-! `countSymbol` writes up, result and nothing else. -/

@[simp] theorem State.countSymbol_dmemLog : (s.countSymbol).dmemLog = s.dmemLog := rfl
@[simp] theorem State.countSymbol_ctrl : (s.countSymbol).ctrl = s.ctrl := rfl
@[simp] theorem State.countSymbol_status : (s.countSymbol).status = s.status := rfl
@[simp] theorem State.countSymbol_cmdword : (s.countSymbol).cmdword = s.cmdword := rfl
@[simp] theorem State.countSymbol_src : (s.countSymbol).src = s.src := rfl
@[simp] theorem State.countSymbol_len : (s.countSymbol).len = s.len := rfl
@[simp] theorem State.countSymbol_dst : (s.countSymbol).dst = s.dst := rfl
@[simp] theorem State.countSymbol_errinfo : (s.countSymbol).errinfo = s.errinfo := rfl
@[simp] theorem State.countSymbol_root : (s.countSymbol).root = s.root := rfl
@[simp] theorem State.countSymbol_total : (s.countSymbol).total = s.total := rfl
@[simp] theorem State.countSymbol_pk : (s.countSymbol).pk = s.pk := rfl
@[simp] theorem State.countSymbol_freq : (s.countSymbol).freq = s.freq := rfl
@[simp] theorem State.countSymbol_nodes : (s.countSymbol).nodes = s.nodes := rfl
@[simp] theorem State.countSymbol_heap : (s.countSymbol).heap = s.heap := rfl
@[simp] theorem State.countSymbol_code : (s.countSymbol).code = s.code := rfl
@[simp] theorem State.countSymbol_walk : (s.countSymbol).walk = s.walk := rfl
@[simp] theorem State.countSymbol_dmem : (s.countSymbol).dmem = s.dmem := rfl
@[simp] theorem State.countSymbol_env : (s.countSymbol).env = s.env := rfl
@[simp] theorem State.countSymbol_byte (x : Nat) : (s.countSymbol).byte x = s.byte x := rfl
@[simp] theorem State.countSymbol_node (x : NodeIx) : (s.countSymbol).node x = s.node x := rfl
@[simp] theorem State.countSymbol_freqAt (x : Sym) : (s.countSymbol).freqAt x = s.freqAt x := rfl
@[simp] theorem State.countSymbol_codeAt (x : Sym) : (s.countSymbol).codeAt x = s.codeAt x := rfl
@[simp] theorem State.countSymbol_less (x y : NodeIx) : (s.countSymbol).less x y = s.less x y := rfl
@[simp] theorem State.countSymbol_freqSum  : (s.countSymbol).freqSum = s.freqSum := rfl

/-! `setCursor` writes up and nothing else. -/

@[simp] theorem State.setCursor_dmemLog (n : NodeIx) : (s.setCursor n).dmemLog = s.dmemLog := rfl
@[simp] theorem State.setCursor_ctrl (n : NodeIx) : (s.setCursor n).ctrl = s.ctrl := rfl
@[simp] theorem State.setCursor_status (n : NodeIx) : (s.setCursor n).status = s.status := rfl
@[simp] theorem State.setCursor_cmdword (n : NodeIx) : (s.setCursor n).cmdword = s.cmdword := rfl
@[simp] theorem State.setCursor_src (n : NodeIx) : (s.setCursor n).src = s.src := rfl
@[simp] theorem State.setCursor_len (n : NodeIx) : (s.setCursor n).len = s.len := rfl
@[simp] theorem State.setCursor_dst (n : NodeIx) : (s.setCursor n).dst = s.dst := rfl
@[simp] theorem State.setCursor_result (n : NodeIx) : (s.setCursor n).result = s.result := rfl
@[simp] theorem State.setCursor_errinfo (n : NodeIx) : (s.setCursor n).errinfo = s.errinfo := rfl
@[simp] theorem State.setCursor_root (n : NodeIx) : (s.setCursor n).root = s.root := rfl
@[simp] theorem State.setCursor_total (n : NodeIx) : (s.setCursor n).total = s.total := rfl
@[simp] theorem State.setCursor_pk (n : NodeIx) : (s.setCursor n).pk = s.pk := rfl
@[simp] theorem State.setCursor_freq (n : NodeIx) : (s.setCursor n).freq = s.freq := rfl
@[simp] theorem State.setCursor_nodes (n : NodeIx) : (s.setCursor n).nodes = s.nodes := rfl
@[simp] theorem State.setCursor_heap (n : NodeIx) : (s.setCursor n).heap = s.heap := rfl
@[simp] theorem State.setCursor_code (n : NodeIx) : (s.setCursor n).code = s.code := rfl
@[simp] theorem State.setCursor_walk (n : NodeIx) : (s.setCursor n).walk = s.walk := rfl
@[simp] theorem State.setCursor_dmem (n : NodeIx) : (s.setCursor n).dmem = s.dmem := rfl
@[simp] theorem State.setCursor_env (n : NodeIx) : (s.setCursor n).env = s.env := rfl
@[simp] theorem State.setCursor_byte (n : NodeIx) (x : Nat) : (s.setCursor n).byte x = s.byte x := rfl
@[simp] theorem State.setCursor_node (n : NodeIx) (x : NodeIx) : (s.setCursor n).node x = s.node x := rfl
@[simp] theorem State.setCursor_freqAt (n : NodeIx) (x : Sym) : (s.setCursor n).freqAt x = s.freqAt x := rfl
@[simp] theorem State.setCursor_codeAt (n : NodeIx) (x : Sym) : (s.setCursor n).codeAt x = s.codeAt x := rfl
@[simp] theorem State.setCursor_less (n : NodeIx) (x y : NodeIx) : (s.setCursor n).less x y = s.less x y := rfl
@[simp] theorem State.setCursor_freqSum (n : NodeIx) : (s.setCursor n).freqSum = s.freqSum := rfl

/-! `initUnpacker` writes up, result and nothing else. -/

@[simp] theorem State.initUnpacker_dmemLog (a : Nat) : (s.initUnpacker a).dmemLog = s.dmemLog := rfl
@[simp] theorem State.initUnpacker_ctrl (a : Nat) : (s.initUnpacker a).ctrl = s.ctrl := rfl
@[simp] theorem State.initUnpacker_status (a : Nat) : (s.initUnpacker a).status = s.status := rfl
@[simp] theorem State.initUnpacker_cmdword (a : Nat) : (s.initUnpacker a).cmdword = s.cmdword := rfl
@[simp] theorem State.initUnpacker_src (a : Nat) : (s.initUnpacker a).src = s.src := rfl
@[simp] theorem State.initUnpacker_len (a : Nat) : (s.initUnpacker a).len = s.len := rfl
@[simp] theorem State.initUnpacker_dst (a : Nat) : (s.initUnpacker a).dst = s.dst := rfl
@[simp] theorem State.initUnpacker_errinfo (a : Nat) : (s.initUnpacker a).errinfo = s.errinfo := rfl
@[simp] theorem State.initUnpacker_root (a : Nat) : (s.initUnpacker a).root = s.root := rfl
@[simp] theorem State.initUnpacker_total (a : Nat) : (s.initUnpacker a).total = s.total := rfl
@[simp] theorem State.initUnpacker_pk (a : Nat) : (s.initUnpacker a).pk = s.pk := rfl
@[simp] theorem State.initUnpacker_freq (a : Nat) : (s.initUnpacker a).freq = s.freq := rfl
@[simp] theorem State.initUnpacker_nodes (a : Nat) : (s.initUnpacker a).nodes = s.nodes := rfl
@[simp] theorem State.initUnpacker_heap (a : Nat) : (s.initUnpacker a).heap = s.heap := rfl
@[simp] theorem State.initUnpacker_code (a : Nat) : (s.initUnpacker a).code = s.code := rfl
@[simp] theorem State.initUnpacker_walk (a : Nat) : (s.initUnpacker a).walk = s.walk := rfl
@[simp] theorem State.initUnpacker_dmem (a : Nat) : (s.initUnpacker a).dmem = s.dmem := rfl
@[simp] theorem State.initUnpacker_env (a : Nat) : (s.initUnpacker a).env = s.env := rfl
@[simp] theorem State.initUnpacker_byte (a : Nat) (x : Nat) : (s.initUnpacker a).byte x = s.byte x := rfl
@[simp] theorem State.initUnpacker_node (a : Nat) (x : NodeIx) : (s.initUnpacker a).node x = s.node x := rfl
@[simp] theorem State.initUnpacker_freqAt (a : Nat) (x : Sym) : (s.initUnpacker a).freqAt x = s.freqAt x := rfl
@[simp] theorem State.initUnpacker_codeAt (a : Nat) (x : Sym) : (s.initUnpacker a).codeAt x = s.codeAt x := rfl
@[simp] theorem State.initUnpacker_less (a : Nat) (x y : NodeIx) : (s.initUnpacker a).less x y = s.less x y := rfl
@[simp] theorem State.initUnpacker_freqSum (a : Nat) : (s.initUnpacker a).freqSum = s.freqSum := rfl

/-! `zeroResult` writes result and nothing else. -/

@[simp] theorem State.zeroResult_dmemLog : (s.zeroResult).dmemLog = s.dmemLog := rfl
@[simp] theorem State.zeroResult_ctrl : (s.zeroResult).ctrl = s.ctrl := rfl
@[simp] theorem State.zeroResult_status : (s.zeroResult).status = s.status := rfl
@[simp] theorem State.zeroResult_cmdword : (s.zeroResult).cmdword = s.cmdword := rfl
@[simp] theorem State.zeroResult_src : (s.zeroResult).src = s.src := rfl
@[simp] theorem State.zeroResult_len : (s.zeroResult).len = s.len := rfl
@[simp] theorem State.zeroResult_dst : (s.zeroResult).dst = s.dst := rfl
@[simp] theorem State.zeroResult_errinfo : (s.zeroResult).errinfo = s.errinfo := rfl
@[simp] theorem State.zeroResult_root : (s.zeroResult).root = s.root := rfl
@[simp] theorem State.zeroResult_total : (s.zeroResult).total = s.total := rfl
@[simp] theorem State.zeroResult_pk : (s.zeroResult).pk = s.pk := rfl
@[simp] theorem State.zeroResult_up : (s.zeroResult).up = s.up := rfl
@[simp] theorem State.zeroResult_freq : (s.zeroResult).freq = s.freq := rfl
@[simp] theorem State.zeroResult_nodes : (s.zeroResult).nodes = s.nodes := rfl
@[simp] theorem State.zeroResult_heap : (s.zeroResult).heap = s.heap := rfl
@[simp] theorem State.zeroResult_code : (s.zeroResult).code = s.code := rfl
@[simp] theorem State.zeroResult_walk : (s.zeroResult).walk = s.walk := rfl
@[simp] theorem State.zeroResult_dmem : (s.zeroResult).dmem = s.dmem := rfl
@[simp] theorem State.zeroResult_env : (s.zeroResult).env = s.env := rfl
@[simp] theorem State.zeroResult_byte (x : Nat) : (s.zeroResult).byte x = s.byte x := rfl
@[simp] theorem State.zeroResult_node (x : NodeIx) : (s.zeroResult).node x = s.node x := rfl
@[simp] theorem State.zeroResult_freqAt (x : Sym) : (s.zeroResult).freqAt x = s.freqAt x := rfl
@[simp] theorem State.zeroResult_codeAt (x : Sym) : (s.zeroResult).codeAt x = s.codeAt x := rfl
@[simp] theorem State.zeroResult_less (x y : NodeIx) : (s.zeroResult).less x y = s.less x y := rfl
@[simp] theorem State.zeroResult_freqSum  : (s.zeroResult).freqSum = s.freqSum := rfl

/-! `finish` writes status, errinfo and nothing else. -/

@[simp] theorem State.finish_dmemLog (c : BitVec 8) (i : Word) : (s.finish c i).dmemLog = s.dmemLog := rfl
@[simp] theorem State.finish_ctrl (c : BitVec 8) (i : Word) : (s.finish c i).ctrl = s.ctrl := rfl
@[simp] theorem State.finish_cmdword (c : BitVec 8) (i : Word) : (s.finish c i).cmdword = s.cmdword := rfl
@[simp] theorem State.finish_src (c : BitVec 8) (i : Word) : (s.finish c i).src = s.src := rfl
@[simp] theorem State.finish_len (c : BitVec 8) (i : Word) : (s.finish c i).len = s.len := rfl
@[simp] theorem State.finish_dst (c : BitVec 8) (i : Word) : (s.finish c i).dst = s.dst := rfl
@[simp] theorem State.finish_result (c : BitVec 8) (i : Word) : (s.finish c i).result = s.result := rfl
@[simp] theorem State.finish_root (c : BitVec 8) (i : Word) : (s.finish c i).root = s.root := rfl
@[simp] theorem State.finish_total (c : BitVec 8) (i : Word) : (s.finish c i).total = s.total := rfl
@[simp] theorem State.finish_pk (c : BitVec 8) (i : Word) : (s.finish c i).pk = s.pk := rfl
@[simp] theorem State.finish_up (c : BitVec 8) (i : Word) : (s.finish c i).up = s.up := rfl
@[simp] theorem State.finish_freq (c : BitVec 8) (i : Word) : (s.finish c i).freq = s.freq := rfl
@[simp] theorem State.finish_nodes (c : BitVec 8) (i : Word) : (s.finish c i).nodes = s.nodes := rfl
@[simp] theorem State.finish_heap (c : BitVec 8) (i : Word) : (s.finish c i).heap = s.heap := rfl
@[simp] theorem State.finish_code (c : BitVec 8) (i : Word) : (s.finish c i).code = s.code := rfl
@[simp] theorem State.finish_walk (c : BitVec 8) (i : Word) : (s.finish c i).walk = s.walk := rfl
@[simp] theorem State.finish_dmem (c : BitVec 8) (i : Word) : (s.finish c i).dmem = s.dmem := rfl
@[simp] theorem State.finish_env (c : BitVec 8) (i : Word) : (s.finish c i).env = s.env := rfl
@[simp] theorem State.finish_byte (c : BitVec 8) (i : Word) (x : Nat) : (s.finish c i).byte x = s.byte x := rfl
@[simp] theorem State.finish_node (c : BitVec 8) (i : Word) (x : NodeIx) : (s.finish c i).node x = s.node x := rfl
@[simp] theorem State.finish_freqAt (c : BitVec 8) (i : Word) (x : Sym) : (s.finish c i).freqAt x = s.freqAt x := rfl
@[simp] theorem State.finish_codeAt (c : BitVec 8) (i : Word) (x : Sym) : (s.finish c i).codeAt x = s.codeAt x := rfl
@[simp] theorem State.finish_less (c : BitVec 8) (i : Word) (x y : NodeIx) : (s.finish c i).less x y = s.less x y := rfl
@[simp] theorem State.finish_freqSum (c : BitVec 8) (i : Word) : (s.finish c i).freqSum = s.freqSum := rfl

/-! `startCommand` writes cmdword, status and nothing else. -/

@[simp] theorem State.startCommand_dmemLog (w : Word) (p : Phase) : (s.startCommand w p).dmemLog = s.dmemLog := rfl
@[simp] theorem State.startCommand_ctrl (w : Word) (p : Phase) : (s.startCommand w p).ctrl = s.ctrl := rfl
@[simp] theorem State.startCommand_src (w : Word) (p : Phase) : (s.startCommand w p).src = s.src := rfl
@[simp] theorem State.startCommand_len (w : Word) (p : Phase) : (s.startCommand w p).len = s.len := rfl
@[simp] theorem State.startCommand_dst (w : Word) (p : Phase) : (s.startCommand w p).dst = s.dst := rfl
@[simp] theorem State.startCommand_result (w : Word) (p : Phase) : (s.startCommand w p).result = s.result := rfl
@[simp] theorem State.startCommand_errinfo (w : Word) (p : Phase) : (s.startCommand w p).errinfo = s.errinfo := rfl
@[simp] theorem State.startCommand_root (w : Word) (p : Phase) : (s.startCommand w p).root = s.root := rfl
@[simp] theorem State.startCommand_total (w : Word) (p : Phase) : (s.startCommand w p).total = s.total := rfl
@[simp] theorem State.startCommand_pk (w : Word) (p : Phase) : (s.startCommand w p).pk = s.pk := rfl
@[simp] theorem State.startCommand_up (w : Word) (p : Phase) : (s.startCommand w p).up = s.up := rfl
@[simp] theorem State.startCommand_freq (w : Word) (p : Phase) : (s.startCommand w p).freq = s.freq := rfl
@[simp] theorem State.startCommand_nodes (w : Word) (p : Phase) : (s.startCommand w p).nodes = s.nodes := rfl
@[simp] theorem State.startCommand_heap (w : Word) (p : Phase) : (s.startCommand w p).heap = s.heap := rfl
@[simp] theorem State.startCommand_code (w : Word) (p : Phase) : (s.startCommand w p).code = s.code := rfl
@[simp] theorem State.startCommand_walk (w : Word) (p : Phase) : (s.startCommand w p).walk = s.walk := rfl
@[simp] theorem State.startCommand_dmem (w : Word) (p : Phase) : (s.startCommand w p).dmem = s.dmem := rfl
@[simp] theorem State.startCommand_env (w : Word) (p : Phase) : (s.startCommand w p).env = s.env := rfl
@[simp] theorem State.startCommand_byte (w : Word) (p : Phase) (x : Nat) : (s.startCommand w p).byte x = s.byte x := rfl
@[simp] theorem State.startCommand_node (w : Word) (p : Phase) (x : NodeIx) : (s.startCommand w p).node x = s.node x := rfl
@[simp] theorem State.startCommand_freqAt (w : Word) (p : Phase) (x : Sym) : (s.startCommand w p).freqAt x = s.freqAt x := rfl
@[simp] theorem State.startCommand_codeAt (w : Word) (p : Phase) (x : Sym) : (s.startCommand w p).codeAt x = s.codeAt x := rfl
@[simp] theorem State.startCommand_less (w : Word) (p : Phase) (x y : NodeIx) : (s.startCommand w p).less x y = s.less x y := rfl
@[simp] theorem State.startCommand_freqSum (w : Word) (p : Phase) : (s.startCommand w p).freqSum = s.freqSum := rfl

/-! `setWign` writes status and nothing else. -/

@[simp] theorem State.setWign_dmemLog : (s.setWign).dmemLog = s.dmemLog := rfl
@[simp] theorem State.setWign_ctrl : (s.setWign).ctrl = s.ctrl := rfl
@[simp] theorem State.setWign_cmdword : (s.setWign).cmdword = s.cmdword := rfl
@[simp] theorem State.setWign_src : (s.setWign).src = s.src := rfl
@[simp] theorem State.setWign_len : (s.setWign).len = s.len := rfl
@[simp] theorem State.setWign_dst : (s.setWign).dst = s.dst := rfl
@[simp] theorem State.setWign_result : (s.setWign).result = s.result := rfl
@[simp] theorem State.setWign_errinfo : (s.setWign).errinfo = s.errinfo := rfl
@[simp] theorem State.setWign_root : (s.setWign).root = s.root := rfl
@[simp] theorem State.setWign_total : (s.setWign).total = s.total := rfl
@[simp] theorem State.setWign_pk : (s.setWign).pk = s.pk := rfl
@[simp] theorem State.setWign_up : (s.setWign).up = s.up := rfl
@[simp] theorem State.setWign_freq : (s.setWign).freq = s.freq := rfl
@[simp] theorem State.setWign_nodes : (s.setWign).nodes = s.nodes := rfl
@[simp] theorem State.setWign_heap : (s.setWign).heap = s.heap := rfl
@[simp] theorem State.setWign_code : (s.setWign).code = s.code := rfl
@[simp] theorem State.setWign_walk : (s.setWign).walk = s.walk := rfl
@[simp] theorem State.setWign_dmem : (s.setWign).dmem = s.dmem := rfl
@[simp] theorem State.setWign_env : (s.setWign).env = s.env := rfl
@[simp] theorem State.setWign_byte (x : Nat) : (s.setWign).byte x = s.byte x := rfl
@[simp] theorem State.setWign_node (x : NodeIx) : (s.setWign).node x = s.node x := rfl
@[simp] theorem State.setWign_freqAt (x : Sym) : (s.setWign).freqAt x = s.freqAt x := rfl
@[simp] theorem State.setWign_codeAt (x : Sym) : (s.setWign).codeAt x = s.codeAt x := rfl
@[simp] theorem State.setWign_less (x y : NodeIx) : (s.setWign).less x y = s.less x y := rfl
@[simp] theorem State.setWign_freqSum  : (s.setWign).freqSum = s.freqSum := rfl

/-! `respond` writes env and nothing else. -/

@[simp] theorem State.respond_dmemLog (r : Response) : (s.respond r).dmemLog = s.dmemLog := rfl
@[simp] theorem State.respond_ctrl (r : Response) : (s.respond r).ctrl = s.ctrl := rfl
@[simp] theorem State.respond_status (r : Response) : (s.respond r).status = s.status := rfl
@[simp] theorem State.respond_cmdword (r : Response) : (s.respond r).cmdword = s.cmdword := rfl
@[simp] theorem State.respond_src (r : Response) : (s.respond r).src = s.src := rfl
@[simp] theorem State.respond_len (r : Response) : (s.respond r).len = s.len := rfl
@[simp] theorem State.respond_dst (r : Response) : (s.respond r).dst = s.dst := rfl
@[simp] theorem State.respond_result (r : Response) : (s.respond r).result = s.result := rfl
@[simp] theorem State.respond_errinfo (r : Response) : (s.respond r).errinfo = s.errinfo := rfl
@[simp] theorem State.respond_root (r : Response) : (s.respond r).root = s.root := rfl
@[simp] theorem State.respond_total (r : Response) : (s.respond r).total = s.total := rfl
@[simp] theorem State.respond_pk (r : Response) : (s.respond r).pk = s.pk := rfl
@[simp] theorem State.respond_up (r : Response) : (s.respond r).up = s.up := rfl
@[simp] theorem State.respond_freq (r : Response) : (s.respond r).freq = s.freq := rfl
@[simp] theorem State.respond_nodes (r : Response) : (s.respond r).nodes = s.nodes := rfl
@[simp] theorem State.respond_heap (r : Response) : (s.respond r).heap = s.heap := rfl
@[simp] theorem State.respond_code (r : Response) : (s.respond r).code = s.code := rfl
@[simp] theorem State.respond_walk (r : Response) : (s.respond r).walk = s.walk := rfl
@[simp] theorem State.respond_dmem (r : Response) : (s.respond r).dmem = s.dmem := rfl
@[simp] theorem State.respond_byte (r : Response) (x : Nat) : (s.respond r).byte x = s.byte x := rfl
@[simp] theorem State.respond_node (r : Response) (x : NodeIx) : (s.respond r).node x = s.node x := rfl
@[simp] theorem State.respond_freqAt (r : Response) (x : Sym) : (s.respond r).freqAt x = s.freqAt x := rfl
@[simp] theorem State.respond_codeAt (r : Response) (x : Sym) : (s.respond r).codeAt x = s.codeAt x := rfl
@[simp] theorem State.respond_less (r : Response) (x y : NodeIx) : (s.respond r).less x y = s.less x y := rfl
@[simp] theorem State.respond_freqSum (r : Response) : (s.respond r).freqSum = s.freqSum := rfl

/-! `draw` writes env and nothing else. -/

@[simp] theorem State.draw_dmemLog : (s.draw).dmemLog = s.dmemLog := rfl
@[simp] theorem State.draw_ctrl : (s.draw).ctrl = s.ctrl := rfl
@[simp] theorem State.draw_status : (s.draw).status = s.status := rfl
@[simp] theorem State.draw_cmdword : (s.draw).cmdword = s.cmdword := rfl
@[simp] theorem State.draw_src : (s.draw).src = s.src := rfl
@[simp] theorem State.draw_len : (s.draw).len = s.len := rfl
@[simp] theorem State.draw_dst : (s.draw).dst = s.dst := rfl
@[simp] theorem State.draw_result : (s.draw).result = s.result := rfl
@[simp] theorem State.draw_errinfo : (s.draw).errinfo = s.errinfo := rfl
@[simp] theorem State.draw_root : (s.draw).root = s.root := rfl
@[simp] theorem State.draw_total : (s.draw).total = s.total := rfl
@[simp] theorem State.draw_pk : (s.draw).pk = s.pk := rfl
@[simp] theorem State.draw_up : (s.draw).up = s.up := rfl
@[simp] theorem State.draw_freq : (s.draw).freq = s.freq := rfl
@[simp] theorem State.draw_nodes : (s.draw).nodes = s.nodes := rfl
@[simp] theorem State.draw_heap : (s.draw).heap = s.heap := rfl
@[simp] theorem State.draw_code : (s.draw).code = s.code := rfl
@[simp] theorem State.draw_walk : (s.draw).walk = s.walk := rfl
@[simp] theorem State.draw_dmem : (s.draw).dmem = s.dmem := rfl
@[simp] theorem State.draw_byte (x : Nat) : (s.draw).byte x = s.byte x := rfl
@[simp] theorem State.draw_node (x : NodeIx) : (s.draw).node x = s.node x := rfl
@[simp] theorem State.draw_freqAt (x : Sym) : (s.draw).freqAt x = s.freqAt x := rfl
@[simp] theorem State.draw_codeAt (x : Sym) : (s.draw).codeAt x = s.codeAt x := rfl
@[simp] theorem State.draw_less (x y : NodeIx) : (s.draw).less x y = s.less x y := rfl
@[simp] theorem State.draw_freqSum  : (s.draw).freqSum = s.freqSum := rfl

/-! `withEvents` writes env and nothing else. -/

@[simp] theorem State.withEvents_dmemLog (es : List Event) : (s.withEvents es).dmemLog = s.dmemLog := rfl
@[simp] theorem State.withEvents_ctrl (es : List Event) : (s.withEvents es).ctrl = s.ctrl := rfl
@[simp] theorem State.withEvents_status (es : List Event) : (s.withEvents es).status = s.status := rfl
@[simp] theorem State.withEvents_cmdword (es : List Event) : (s.withEvents es).cmdword = s.cmdword := rfl
@[simp] theorem State.withEvents_src (es : List Event) : (s.withEvents es).src = s.src := rfl
@[simp] theorem State.withEvents_len (es : List Event) : (s.withEvents es).len = s.len := rfl
@[simp] theorem State.withEvents_dst (es : List Event) : (s.withEvents es).dst = s.dst := rfl
@[simp] theorem State.withEvents_result (es : List Event) : (s.withEvents es).result = s.result := rfl
@[simp] theorem State.withEvents_errinfo (es : List Event) : (s.withEvents es).errinfo = s.errinfo := rfl
@[simp] theorem State.withEvents_root (es : List Event) : (s.withEvents es).root = s.root := rfl
@[simp] theorem State.withEvents_total (es : List Event) : (s.withEvents es).total = s.total := rfl
@[simp] theorem State.withEvents_pk (es : List Event) : (s.withEvents es).pk = s.pk := rfl
@[simp] theorem State.withEvents_up (es : List Event) : (s.withEvents es).up = s.up := rfl
@[simp] theorem State.withEvents_freq (es : List Event) : (s.withEvents es).freq = s.freq := rfl
@[simp] theorem State.withEvents_nodes (es : List Event) : (s.withEvents es).nodes = s.nodes := rfl
@[simp] theorem State.withEvents_heap (es : List Event) : (s.withEvents es).heap = s.heap := rfl
@[simp] theorem State.withEvents_code (es : List Event) : (s.withEvents es).code = s.code := rfl
@[simp] theorem State.withEvents_walk (es : List Event) : (s.withEvents es).walk = s.walk := rfl
@[simp] theorem State.withEvents_dmem (es : List Event) : (s.withEvents es).dmem = s.dmem := rfl
@[simp] theorem State.withEvents_byte (es : List Event) (x : Nat) : (s.withEvents es).byte x = s.byte x := rfl
@[simp] theorem State.withEvents_node (es : List Event) (x : NodeIx) : (s.withEvents es).node x = s.node x := rfl
@[simp] theorem State.withEvents_freqAt (es : List Event) (x : Sym) : (s.withEvents es).freqAt x = s.freqAt x := rfl
@[simp] theorem State.withEvents_codeAt (es : List Event) (x : Sym) : (s.withEvents es).codeAt x = s.codeAt x := rfl
@[simp] theorem State.withEvents_less (es : List Event) (x y : NodeIx) : (s.withEvents es).less x y = s.less x y := rfl
@[simp] theorem State.withEvents_freqSum (es : List Event) : (s.withEvents es).freqSum = s.freqSum := rfl

/-! The fields an update writes. -/

@[simp] theorem State.setByte_dmem (a : Nat) (v : Byte) : (s.setByte a v).dmem = Memory.store s.dmem a v := rfl
@[simp] theorem State.countByte_total (b : Byte) (n : Nat) : (s.countByte b n).total = s.total + 1 := rfl
@[simp] theorem State.countByte_result (b : Byte) (n : Nat) : (s.countByte b n).result = BitVec.ofNat 32 n := rfl
@[simp] theorem State.clearFreq_total : s.clearFreq.total = 0 := rfl
@[simp] theorem State.addNode_nodes (n : Node) : (s.addNode n).nodes = s.nodes ++ [n] := rfl
@[simp] theorem State.clearTree_nodes : s.clearTree.nodes = [] := rfl
@[simp] theorem State.clearTree_heap : s.clearTree.heap = [] := rfl
@[simp] theorem State.clearTree_root : s.clearTree.root = nilIx := rfl
@[simp] theorem State.takeRoot_result (n : Nat) : (s.takeRoot n).result = BitVec.ofNat 32 n := rfl
@[simp] theorem State.clearCodes_result : s.clearCodes.result = 0 := rfl
@[simp] theorem State.assignCode_result (k : Sym) (l : BitVec 7) (c : DWord) :
    (s.assignCode k l c).result = s.result + 1 := rfl
@[simp] theorem State.releaseWalk_walk : s.releaseWalk.walk = Config.unspecWalk s.env.draws := rfl
@[simp] theorem State.releaseWalk_epoch : s.releaseWalk.env.epoch = s.env.epoch := rfl
@[simp] theorem State.releaseWalk_rst : s.releaseWalk.env.rst = s.env.rst := rfl
@[simp] theorem State.releaseWalk_events : s.releaseWalk.env.events = s.env.events := rfl
@[simp] theorem State.advancePacker_optr (n : Word) : (s.advancePacker n).pk.optr = s.pk.optr + n := rfl
@[simp] theorem State.advancePacker_ocnt (n : Word) : (s.advancePacker n).pk.ocnt = s.pk.ocnt + n := rfl
@[simp] theorem State.advancePacker_bblen (n : Word) : (s.advancePacker n).pk.bblen = s.pk.bblen := rfl
@[simp] theorem State.advancePacker_bbuf (n : Word) : (s.advancePacker n).pk.bbuf = s.pk.bbuf := rfl
@[simp] theorem State.setPending_optr (n acc : Nat) : (s.setPending n acc).pk.optr = s.pk.optr := rfl
@[simp] theorem State.setPending_ocnt (n acc : Nat) : (s.setPending n acc).pk.ocnt = s.pk.ocnt := rfl
@[simp] theorem State.setPending_bblen (n acc : Nat) : (s.setPending n acc).pk.bblen = BitVec.ofNat 3 n := rfl
@[simp] theorem State.setPending_bbuf (n acc : Nat) : (s.setPending n acc).pk.bbuf = BitVec.ofNat 71 acc := rfl
@[simp] theorem State.consumeBit_emit : s.consumeBit.up.emit = s.up.emit := rfl
@[simp] theorem State.consumeBit_cursor : s.consumeBit.up.cursor = s.up.cursor := rfl
@[simp] theorem State.consumeBit_bitpos : s.consumeBit.up.bitpos = s.up.bitpos + 1 := rfl
@[simp] theorem State.countSymbol_emit : s.countSymbol.up.emit = s.up.emit + 1 := rfl
@[simp] theorem State.countSymbol_cursor : s.countSymbol.up.cursor = s.up.cursor := rfl
@[simp] theorem State.countSymbol_iptr : s.countSymbol.up.iptr = s.up.iptr := rfl
@[simp] theorem State.countSymbol_bitpos : s.countSymbol.up.bitpos = s.up.bitpos := rfl
@[simp] theorem State.countSymbol_result : s.countSymbol.result = (s.up.emit + 1).truncate 32 := rfl
@[simp] theorem State.setCursor_cursor (n : NodeIx) : (s.setCursor n).up.cursor = n := rfl
@[simp] theorem State.setCursor_emit (n : NodeIx) : (s.setCursor n).up.emit = s.up.emit := rfl
@[simp] theorem State.setCursor_iptr (n : NodeIx) : (s.setCursor n).up.iptr = s.up.iptr := rfl
@[simp] theorem State.setCursor_bitpos (n : NodeIx) : (s.setCursor n).up.bitpos = s.up.bitpos := rfl
@[simp] theorem State.zeroResult_result : s.zeroResult.result = 0 := rfl
@[simp] theorem State.finish_errinfo (c : BitVec 8) (i : Word) : (s.finish c i).errinfo = i := rfl
@[simp] theorem State.finish_status (c : BitVec 8) (i : Word) : (s.finish c i).status = s.status.finish c := rfl
@[simp] theorem State.withEvents_epoch (es : List Event) : (s.withEvents es).env.epoch = s.env.epoch := rfl
@[simp] theorem State.withEvents_rst (es : List Event) : (s.withEvents es).env.rst = s.env.rst := rfl

/-- FREQ after one entry is written. -/
theorem State.freqAt_setFreq (k x : Sym) (v : Word) : (s.setFreq k v).freqAt x = if x = k then v else s.freqAt x := by
  simp only [State.freqAt, State.setFreq, Vector.getElem_set]
  simp [BitVec.toNat_inj, eq_comm]

/-- CODE after one entry is written. -/
theorem State.codeAt_setCode (k x : Sym) (e : CodeEntry) :
    (s.setCode k e).codeAt x = if x = k then e else s.codeAt x := by
  simp only [State.codeAt, State.setCode, Vector.getElem_set]
  simp [BitVec.toNat_inj, eq_comm]

/-- FREQ after one byte is counted (41_frequency.md R141). -/
theorem State.freqAt_countByte (b x : Sym) (n : Nat) :
    (s.countByte b n).freqAt x = if x = b then s.freqAt b + 1 else s.freqAt x := s.freqAt_setFreq b x _

/-- CODE after one code is assigned (44_codegen.md R191). -/
theorem State.codeAt_assignCode (k x : Sym) (l : BitVec 7) (c : DWord) :
    (s.assignCode k l c).codeAt x = if x = k then { valid := true, len := l, code := c } else s.codeAt x :=
  s.codeAt_setCode k x _

@[simp] theorem State.codeAt_clearCodes (x : Sym) : s.clearCodes.codeAt x = .invalid := by
  simp [State.codeAt, State.clearCodes]

@[simp] theorem State.freqAt_clearFreq (x : Sym) : s.clearFreq.freqAt x = 0 := by
  simp [State.freqAt, State.clearFreq]

/-- STATUS after finish (60_exceptions.md R252). -/
@[simp] theorem Status.finish_busy (st : Status) (c : BitVec 8) : (st.finish c).busy = false := rfl
@[simp] theorem Status.finish_done (st : Status) (c : BitVec 8) : (st.finish c).done = true := rfl
@[simp] theorem Status.finish_err (st : Status) (c : BitVec 8) : (st.finish c).err = (st.err || c != okCode) := rfl
@[simp] theorem Status.finish_phase (st : Status) (c : BitVec 8) : (st.finish c).phase = .idle := rfl
@[simp] theorem Status.finish_errcode (st : Status) (c : BitVec 8) : (st.finish c).errcode = c := rfl
@[simp] theorem Status.finish_cmdOvr (st : Status) (c : BitVec 8) : (st.finish c).cmdOvr = st.cmdOvr := rfl
@[simp] theorem Status.finish_wign (st : Status) (c : BitVec 8) : (st.finish c).wign = st.wign := rfl

end Sys2Proof.Machine
end

