-- ==== Sys2Proof/Laws/Memory.lean ====
section
/-! SUPPORT. DMEM: a read after a write, and the canonical form that every memory operation keeps. -/

namespace Sys2Proof.Machine

/-- The cells of a memory after a write are the old ones and the written one. -/
theorem Memory.mem_store {m : List Host.Cell} {a : Nat} {v : Byte} {c : Host.Cell} (h : c ∈ Memory.store m a v) :
    c = (a, v) ∨ c ∈ m := by
  induction m with
  | nil => simpa [Memory.store] using h
  | cons x m ih =>
    obtain ⟨b, w⟩ := x
    simp only [Memory.store] at h
    split at h
    · simpa using h
    · split at h
      · rcases List.mem_cons.mp h with h | h
        · exact .inl h
        · exact .inr (List.mem_cons_of_mem _ h)
      · rcases List.mem_cons.mp h with h | h
        · exact .inr (h ▸ List.mem_cons_self)
        · exact (ih h).imp id (List.mem_cons_of_mem _)

/-- A write keeps the canonical form. -/
theorem Memory.wf_store {m : List Host.Cell} (h : Memory.wf m) (a : Nat) (v : Byte) : Memory.wf (Memory.store m a v) := by
  induction m with
  | nil => simp [Memory.wf, Memory.store]
  | cons x m ih =>
    obtain ⟨b, w⟩ := x
    obtain ⟨hb, hm⟩ := List.pairwise_cons.mp h
    simp only [Memory.store]
    split
    · rename_i hab
      refine List.pairwise_cons.mpr ⟨fun c hc => ?_, h⟩
      rcases List.mem_cons.mp hc with rfl | hc
      · exact hab
      · exact lt_trans hab (hb c hc)
    · split
      · rename_i hab
        subst hab
        exact List.pairwise_cons.mpr ⟨hb, hm⟩
      · refine List.pairwise_cons.mpr ⟨fun c hc => ?_, ih hm⟩
        rcases Memory.mem_store hc with rfl | hc
        · show b < a
          omega
        · exact hb c hc

/-- A read after a write: the written byte at its address, every other address as before. -/
theorem Memory.lookup_store (m : List Host.Cell) (a x : Nat) (v : Byte) :
    Memory.lookup (Memory.store m a v) x = if x = a then some v else Memory.lookup m x := by
  induction m with
  | nil => simp [Memory.store, Memory.lookup]
  | cons c m ih =>
    obtain ⟨b, w⟩ := c
    simp only [Memory.store]
    split
    · simp only [Memory.lookup]
    · split
      · rename_i hab
        subst hab
        simp only [Memory.lookup]
        split <;> simp_all
      · simp only [Memory.lookup, ih]
        split
        · have : x ≠ a := by omega
          simp [this]
        · rfl

/-- DMEM after one byte is written (20_memory.md R86). -/
theorem State.byte_setByte (s : State) (a x : Nat) (v : Byte) :
    (s.setByte a v).byte x = if x = a then v else s.byte x := by
  simp only [State.byte, State.setByte, Memory.lookup_store]
  by_cases h : x = a <;> simp [h]

/-- The address a write names reads the written byte. -/
@[simp] theorem State.byte_setByte_same (s : State) (a : Nat) (v : Byte) : (s.setByte a v).byte a = v := by
  simp [State.byte_setByte]

/-- A byte depends on DMEM's cells and the reset's number alone. -/
theorem State.byte_congr {s t : State} (hm : t.dmem = s.dmem) (he : t.env.epoch = s.env.epoch) (a : Nat) :
    t.byte a = s.byte a := by
  simp [State.byte, hm, he]

end Sys2Proof.Machine
end

