-- ==== Sys2Proof/Laws/Ops.lean ====
section
/-! SUPPORT. The pseudocode primitives: sequencing, range checks, DMEM accesses, and completion; and how a projection of
the state that a primitive's updates leave alone is left alone by the primitive. -/

namespace Sys2Proof.Machine

/-- The state a piece of pseudocode leaves, whichever way it ends. -/
def Res.state {α : Type} : Res α → State
  | .ok _ s => s
  | .raised _ s => s

@[simp] theorem Res.state_ok {α : Type} (a : α) (s : State) : (Res.ok a s).state = s := rfl
@[simp] theorem Res.state_raised {α : Type} (e : Error) (s : State) : (Res.raised e s : Res α).state = s := rfl
@[simp] theorem Res.ok_andThen {α β : Type} (a : α) (s : State) (f : α → State → Res β) :
    (Res.ok a s).andThen f = f a s := rfl
@[simp] theorem Res.raised_andThen {α β : Type} (e : Error) (s : State) (f : α → State → Res β) :
    (Res.raised e s : Res α).andThen f = .raised e s := rfl
@[simp] theorem Res.state_mapState {α : Type} (r : Res α) (f : State → State) : (r.mapState f).state = f r.state := by
  cases r <;> rfl
@[simp] theorem Res.ok_onRaise {α : Type} (a : α) (s : State) (f : State → State) :
    (Res.ok a s).onRaise f = .ok a s := rfl
@[simp] theorem Res.raised_onRaise {α : Type} (e : Error) (s : State) (f : State → State) :
    (Res.raised e s : Res α).onRaise f = .raised e (f s) := rfl
@[simp] theorem complete_ok (s : State) : complete (.ok () s) = s.finish okCode 0 := rfl
@[simp] theorem complete_raised (e : Error) (s : State) : complete (.raised e s) = s.finish e.code e.info := rfl

/-- Sequencing that ends well ran both pieces well. -/
theorem Res.andThen_eq_ok {α β : Type} {r : Res α} {f : α → State → Res β} {b : β} {t : State}
    (h : r.andThen f = .ok b t) : ∃ a s, r = .ok a s ∧ f a s = .ok b t := by
  cases r with
  | ok a s => exact ⟨a, s, rfl, h⟩
  | raised e s => simp at h

/-- Sequencing that raises raised in one of the pieces. -/
theorem Res.andThen_eq_raised {α β : Type} {r : Res α} {f : α → State → Res β} {e : Error} {t : State}
    (h : r.andThen f = .raised e t) : r = .raised e t ∨ ∃ a s, r = .ok a s ∧ f a s = .raised e t := by
  cases r with
  | ok a s => exact .inr ⟨a, s, rfl, h⟩
  | raised e' s => simpa using h

/-- A property of states that both pieces keep is kept by the sequence. -/
theorem Res.state_andThen {α β : Type} {r : Res α} {f : α → State → Res β} {P : State → Prop} (h1 : P r.state)
    (h2 : ∀ a t, P t → P (f a t).state) : P (r.andThen f).state := by
  cases r with
  | ok a s => exact h2 a s h1
  | raised e s => exact h1

/-- A projection that both pieces leave alone is left alone by the sequence. -/
theorem Res.keeps_andThen {α β γ : Type} {r : Res α} {f : α → State → Res β} {p : State → γ} {c : γ}
    (h1 : p r.state = c) (h2 : ∀ a t, p (f a t).state = p t) : p (r.andThen f).state = c :=
  Res.state_andThen (P := fun t => p t = c) h1 fun a t ht => (h2 a t).trans ht

/-- A range inside DMEM passes its check (00_scope.md R10). -/
theorem checkRange_ok {a n : Nat} {s : State} (h : a + n ≤ s.dmemSize) : checkRange a n s = .ok () s := by
  simp [checkRange, Nat.not_lt.mpr h]

/-- A range outside DMEM raises BOUNDS (00_scope.md R10). -/
theorem checkRange_raises {a n : Nat} {s : State} (h : s.dmemSize < a + n) :
    checkRange a n s = .raised (.bounds (max a s.dmemSize)) s := by
  simp only [checkRange, if_pos h]

/-- A range check that passes leaves the state alone and says the range is inside. -/
theorem checkRange_eq_ok {a n : Nat} {s t : State} {u : Unit} (h : checkRange a n s = .ok u t) :
    t = s ∧ a + n ≤ s.dmemSize := by
  simp only [checkRange] at h
  split at h
  · simp at h
  · simp only [Res.ok.injEq] at h
    exact ⟨h.2.symm, by omega⟩

/-- A range check that raises leaves the state alone. -/
theorem checkRange_eq_raised {a n : Nat} {s t : State} {e : Error} (h : checkRange a n s = .raised e t) :
    t = s ∧ e = .bounds (max a s.dmemSize) ∧ s.dmemSize < a + n := by
  simp only [checkRange] at h
  split at h
  · simp only [Res.raised.injEq] at h
    exact ⟨h.2.symm, h.1.symm, by assumption⟩
  · simp at h

@[simp] theorem checkRange_state (a n : Nat) (s : State) : (checkRange a n s).state = s := by
  simp only [checkRange]; split <;> rfl

@[simp] theorem memRead_state (a : Nat) (s : State) : (memRead a s).state = s := by
  simp only [memRead]; split <;> rfl

/-- A byte inside DMEM is read (00_scope.md R10). -/
theorem memRead_ok {a : Nat} {s : State} (h : a < s.dmemSize) : memRead a s = .ok (s.byte a) s := by
  simp [memRead, Nat.not_le.mpr h]

/-- A read that ends well. -/
theorem memRead_eq_ok {a : Nat} {s t : State} {b : Byte} (h : memRead a s = .ok b t) :
    t = s ∧ b = s.byte a ∧ a < s.dmemSize := by
  simp only [memRead] at h
  split at h
  · simp at h
  · simp only [Res.ok.injEq] at h
    exact ⟨h.2.symm, h.1.symm, by omega⟩

/-- A byte inside DMEM is written (00_scope.md R10). -/
theorem memWrite_ok {a : Nat} {v : Byte} {s : State} (h : a < s.dmemSize) : memWrite a v s = .ok () (s.setByte a v) := by
  simp [memWrite, Nat.not_le.mpr h]

/-- A write that ends well. -/
theorem memWrite_eq_ok {a : Nat} {v : Byte} {s t : State} {u : Unit} (h : memWrite a v s = .ok u t) :
    t = s.setByte a v ∧ a < s.dmemSize := by
  simp only [memWrite] at h
  split at h
  · simp at h
  · simp only [Res.ok.injEq] at h
    exact ⟨h.2.symm, by omega⟩

/-- A write that raises leaves the state alone. -/
theorem memWrite_eq_raised {a : Nat} {v : Byte} {s t : State} {e : Error} (h : memWrite a v s = .raised e t) :
    t = s ∧ e = .bounds a ∧ s.dmemSize ≤ a := by
  simp only [memWrite] at h
  split at h
  · simp only [Res.raised.injEq] at h
    exact ⟨h.2.symm, h.1.symm, by assumption⟩
  · simp at h

section Frame

variable {γ : Type} {p : State → γ}

/-- What DMEM byte writes leave alone, memWrite leaves alone. -/
theorem memWrite_keeps (hb : ∀ s a v, p (s.setByte a v) = p s) (a : Nat) (v : Byte) (s : State) :
    p (memWrite a v s).state = p s := by
  simp only [memWrite]; split
  · rfl
  · exact hb s a v

@[simp] theorem memReadBE_state (a n : Nat) (s : State) : (memReadBE a n s).state = s := by
  simp only [memReadBE, checkRange]; split <;> rfl

theorem putBigEndian_keeps (hb : ∀ s a v, p (s.setByte a v) = p s) (a n v : Nat) :
    ∀ j s, p (State.putBigEndian a n v j s) = p s
  | 0, _ => rfl
  | j + 1, s => (putBigEndian_keeps hb a n v j _).trans (hb s _ _)

theorem memWriteBE_keeps (hb : ∀ s a v, p (s.setByte a v) = p s) (a n v : Nat) (s : State) :
    p (memWriteBE a n v s).state = p s :=
  Res.keeps_andThen (by simp) fun _ t => putBigEndian_keeps hb a n v n t

end Frame

/-- A big-endian read inside DMEM (20_memory.md R76). -/
theorem memReadBE_ok {a n : Nat} {s : State} (h : a + n ≤ s.dmemSize) :
    memReadBE a n s = .ok (s.bigEndian a n) s := by
  simp [memReadBE, checkRange_ok h]

/-- A big-endian write inside DMEM (20_memory.md R76). -/
theorem memWriteBE_ok {a n v : Nat} {s : State} (h : a + n ≤ s.dmemSize) :
    memWriteBE a n v s = .ok () (State.putBigEndian a n v n s) := by
  simp [memWriteBE, checkRange_ok h]

/-- The n bytes of a big-endian number are below 256^n. -/
theorem State.bigEndian_lt (s : State) (a n : Nat) : s.bigEndian a n < 256 ^ n := by
  induction n with
  | zero => simp [State.bigEndian]
  | succ n ih =>
    simp only [State.bigEndian, pow_succ]
    have := (s.byte (a + n)).isLt
    omega

/-- The bytes written by a partial big-endian write: the last j bytes of the field. -/
theorem State.byte_putBigEndian (a n v : Nat) :
    ∀ j s x, j ≤ n → (State.putBigEndian a n v j s).byte x
      = if a + (n - j) ≤ x ∧ x < a + n then BitVec.ofNat 8 (v >>> (8 * (a + n - 1 - x))) else s.byte x
  | 0, s, x, _ => by simp [State.putBigEndian]
  | j + 1, s, x, hj => by
    rw [State.putBigEndian, State.byte_putBigEndian a n v j _ x (by omega), State.byte_setByte]
    by_cases h1 : x = a + (n - (j + 1))
    · have h2 : ¬ (a + (n - j) ≤ x ∧ x < a + n) := by omega
      have h3 : a + (n - (j + 1)) ≤ x ∧ x < a + n := by omega
      rw [if_neg h2, if_pos h1, if_pos h3]
      congr 3; omega
    · by_cases h2 : a + (n - j) ≤ x ∧ x < a + n
      · rw [if_pos h2, if_pos (by omega)]
      · rw [if_neg h2, if_neg h1, if_neg (by omega)]

end Sys2Proof.Machine
end

