-- ==== Sys2Proof/Laws/Bits.lean ====
section
/-! SUPPORT. Bit sequences and the numbers they stand for (00_scope.md R9). -/

namespace Sys2Proof.Machine

@[simp] theorem bitsOf_length (len v : Nat) : (bitsOf len v).length = len := by simp [bitsOf]

@[simp] theorem bitsOf_zero (v : Nat) : bitsOf 0 v = [] := rfl

theorem bitsOf_getElem {len v j : Nat} (h : j < (bitsOf len v).length) : (bitsOf len v)[j] = v.testBit (len - 1 - j) := by
  simp [bitsOf]

/-- The bits of a number's two parts. -/
theorem bitsOf_add (a b v : Nat) : bitsOf (a + b) v = bitsOf a (v >>> b) ++ bitsOf b v := by
  refine List.ext_getElem (by simp) fun j h1 h2 => ?_
  have hj : j < a + b := by simpa using h1
  rw [bitsOf_getElem, List.getElem_append]
  split
  · rename_i h
    have : j < a := by simpa using h
    rw [bitsOf_getElem, Nat.testBit_shiftRight]
    congr 1; omega
  · rename_i h
    have : a ≤ j := by simpa using h
    rw [bitsOf_getElem]
    simp only [bitsOf_length]
    congr 1; omega

/-- Only the low bits matter. -/
theorem bitsOf_mod (b v : Nat) : bitsOf b (v % 2 ^ b) = bitsOf b v := by
  refine List.ext_getElem (by simp) fun j h1 h2 => ?_
  have hj : j < b := by simpa using h1
  rw [bitsOf_getElem, bitsOf_getElem, Nat.testBit_mod_two_pow]
  simp; omega

theorem valueOf_append_single (p : List Bool) (b : Bool) : valueOf (p ++ [b]) = 2 * valueOf p + b.toNat := by
  simp [valueOf, List.foldl_append]

theorem valueOf_lt (p : List Bool) : valueOf p < 2 ^ p.length := by
  induction p using List.reverseRecOn with
  | nil => simp [valueOf]
  | append_singleton p b ih =>
    rw [valueOf_append_single]
    simp only [List.length_append, List.length_singleton, pow_succ]
    have : b.toNat ≤ 1 := Bool.toNat_le b
    omega

/-- A sequence is the bits of its number. -/
theorem bitsOf_valueOf (p : List Bool) : bitsOf p.length (valueOf p) = p := by
  induction p using List.reverseRecOn with
  | nil => rfl
  | append_singleton p b ih =>
    rw [List.length_append, List.length_singleton, bitsOf_add, valueOf_append_single]
    have h1 : (2 * valueOf p + b.toNat) >>> 1 = valueOf p := by
      have : b.toNat ≤ 1 := Bool.toNat_le b
      rw [Nat.shiftRight_eq_div_pow]; omega
    rw [h1, ih]
    congr 1
    cases b <;> simp [bitsOf]

theorem bitsOf_zero_value (n : Nat) : bitsOf n 0 = List.replicate n false := by
  refine List.ext_getElem (by simp) fun j h1 h2 => ?_
  rw [bitsOf_getElem]; simp

/-- The bits of pending bits shifted behind a code, or zeros shifted in behind a number. -/
theorem bitsOf_shiftLeft (a b v : Nat) : bitsOf (a + b) (v <<< b) = bitsOf a v ++ List.replicate b false := by
  rw [bitsOf_add, Nat.shiftLeft_shiftRight, ← bitsOf_mod b]
  congr 1
  rw [Nat.shiftLeft_eq, Nat.mul_mod_left, bitsOf_zero_value]

/-- The barrel shift (45_pack.md R201). -/
theorem bitsOf_shiftLeft_or {a b v c : Nat} (hc : c < 2 ^ b) : bitsOf (a + b) (v <<< b ||| c) = bitsOf a v ++ bitsOf b c := by
  rw [bitsOf_add]
  have h1 : (v <<< b ||| c) >>> b = v := by
    rw [Nat.shiftRight_or_distrib, Nat.shiftLeft_shiftRight, Nat.shiftRight_eq_div_pow, Nat.div_eq_of_lt hc]
    simp
  have h2 : (v <<< b ||| c) % 2 ^ b = c := by
    rw [Nat.or_mod_two_pow, Nat.mod_eq_of_lt hc, Nat.shiftLeft_eq, Nat.mul_mod_left]
    simp
  rw [h1, ← bitsOf_mod b, h2]

/-- One bit of a number's bits. -/
theorem bitsOf_eight_getElem (b : Byte) {j : Nat} (h : j < 8) :
    (bitsOf 8 b.toNat)[j]'(by simpa using h) = b.getLsbD (7 - j) := by
  rw [bitsOf_getElem]
  rfl

/-! Bits of DMEM (20_memory.md R75) -/

@[simp] theorem State.bitsAt_zero (s : State) (a : Nat) : s.bitsAt a 0 = [] := rfl

theorem State.bitsAt_add (s : State) (a m n : Nat) : s.bitsAt a (m + n) = s.bitsAt a m ++ s.bitsAt (a + m) n := by
  simp only [State.bitsAt, List.range_add, List.flatMap_append, List.flatMap_map]
  congr 2
  funext j
  rw [Nat.add_assoc]

theorem State.bitsAt_one (s : State) (a : Nat) : s.bitsAt a 1 = bitsOf 8 (s.byte a).toNat := by
  simp [State.bitsAt]

@[simp] theorem State.bitsAt_length (s : State) (a n : Nat) : (s.bitsAt a n).length = 8 * n := by
  induction n with
  | zero => rfl
  | succ n ih => rw [State.bitsAt_add, List.length_append, ih, State.bitsAt_one, bitsOf_length]; omega

theorem State.bitsAt_congr {s t : State} {a n : Nat} (h : ∀ x, a ≤ x → x < a + n → t.byte x = s.byte x) :
    t.bitsAt a n = s.bitsAt a n := by
  simp only [State.bitsAt]
  refine List.flatMap_congr fun j hj => ?_
  have : j < n := List.mem_range.mp hj
  rw [h (a + j) (by omega) (by omega)]

theorem State.bytesAt_congr {s t : State} {a n : Nat} (h : ∀ x, a ≤ x → x < a + n → t.byte x = s.byte x) :
    t.bytesAt a n = s.bytesAt a n := by
  simp only [State.bytesAt]
  refine List.map_congr_left fun j hj => ?_
  have : j < n := List.mem_range.mp hj
  rw [h (a + j) (by omega) (by omega)]

@[simp] theorem State.bytesAt_length (s : State) (a n : Nat) : (s.bytesAt a n).length = n := by simp [State.bytesAt]

theorem State.bytesAt_cons (s : State) (a n : Nat) : s.bytesAt a (n + 1) = s.byte a :: s.bytesAt (a + 1) n := by
  simp only [State.bytesAt, List.range_succ_eq_map, List.map_cons, List.map_map]
  refine congrArg₂ _ (by simp) (List.map_congr_left fun j _ => ?_)
  simp only [Function.comp]
  congr 1; omega

theorem State.bytesAt_concat (s : State) (a n : Nat) : s.bytesAt a (n + 1) = s.bytesAt a n ++ [s.byte (a + n)] := by
  simp [State.bytesAt, List.range_succ]

theorem State.bigEndian_congr {s t : State} {a n : Nat} (h : ∀ x, a ≤ x → x < a + n → t.byte x = s.byte x) :
    t.bigEndian a n = s.bigEndian a n := by
  induction n with
  | zero => rfl
  | succ n ih =>
    simp only [State.bigEndian]
    rw [ih fun x h1 h2 => h x h1 (by omega), h (a + n) (by omega) (by omega)]

/-- One bit of DMEM, most significant first (20_memory.md R75). -/
theorem State.bitsAt_getElem (s : State) (a n j : Nat) (h : j < (s.bitsAt a n).length) :
    (s.bitsAt a n)[j] = (s.byte (a + j / 8)).getLsbD (7 - j % 8) := by
  have hj : j < 8 * n := by simpa using h
  have hn : n = j / 8 + (1 + (n - j / 8 - 1)) := by omega
  have h2 : (s.bitsAt a n)[j]? = some ((s.byte (a + j / 8)).getLsbD (7 - j % 8)) := by
    rw [hn, State.bitsAt_add, List.getElem?_append_right (by simp; omega), State.bitsAt_add,
      List.getElem?_append_left (by simp; omega), State.bitsAt_one]
    have hlt : j - (s.bitsAt a (j / 8)).length < (bitsOf 8 (s.byte (a + j / 8)).toNat).length := by simp; omega
    rw [List.getElem?_eq_getElem hlt, bitsOf_eight_getElem _ (by rw [bitsOf_length] at hlt; exact hlt)]
    congr 2
    simp; omega
  rw [List.getElem?_eq_getElem h] at h2
  exact Option.some.inj h2

/-- A big-endian number written is read back (20_memory.md R76). -/
theorem State.bigEndian_putBigEndian (s : State) (a n v : Nat) :
    (State.putBigEndian a n v n s).bigEndian a n = v % 256 ^ n := by
  have key : ∀ j, j ≤ n → (State.putBigEndian a n v n s).bigEndian a j = (v / 256 ^ (n - j)) % 256 ^ j := by
    intro j
    induction j with
    | zero => intro _; simp [State.bigEndian, Nat.mod_one]
    | succ j ih =>
      intro hj
      simp only [State.bigEndian]
      rw [ih (by omega), State.byte_putBigEndian a n v n s _ le_rfl, if_pos (by omega)]
      have e1 : a + n - 1 - (a + j) = n - (j + 1) := by omega
      rw [e1, BitVec.toNat_ofNat, Nat.shiftRight_eq_div_pow, pow_mul]
      have e2 : n - j = (n - (j + 1)) + 1 := by omega
      rw [e2, pow_succ, ← Nat.div_div_eq_div_mul]
      generalize v / 256 ^ (n - (j + 1)) = w
      show w / 256 % 256 ^ j * 256 + w % 256 = w % 256 ^ (j + 1)
      rw [pow_succ', Nat.mod_mul]
      ring
  have := key n le_rfl
  simpa using this

end Sys2Proof.Machine
end

