-- ==== Sys2Proof/Laws/Bus.lean ====
section
/-! SUPPORT. Host reads (20_memory.md R70, R77 to R82): whatever a read answers, exact or UNSPEC, it has no 1 outside the
bits its location has. -/

namespace Sys2Proof.Machine

theorem State.drawnWord_within (s : State) (size : Size) (r : Region) : s.drawnWord size r &&& ~~~r.openBits size = 0 := by
  simp [State.drawnWord, BitVec.and_assoc]

/-- A number with no digit beyond a mask of whole fields: the low field below 2^a, the high one below 2^b at bit c. -/
theorem fields_within {a b c k x y : Nat} {bits : Word} (hx : x < 2 ^ a) (hy : y < 2 ^ b) (ha : a ≤ c) (hk : k = 2 ^ c)
    (hbits : bits = BitVec.ofNat 32 ((2 ^ a - 1) + 2 ^ c * (2 ^ b - 1))) : BitVec.ofNat 32 (x + k * y) &&& ~~~bits = 0 := by
  rw [hk, hbits]
  have hxc : x < 2 ^ c := hx.trans_le (Nat.pow_le_pow_right (by omega) ha)
  have hac : 2 ^ a - 1 < 2 ^ c := by
    have := Nat.pow_le_pow_right (n := 2) (by omega) ha
    have := Nat.two_pow_pos a
    omega
  refine BitVec.eq_of_getLsbD_eq fun j hj => ?_
  rw [Nat.add_comm x, Nat.add_comm (2 ^ a - 1)]
  simp only [BitVec.getLsbD_and, BitVec.getLsbD_not, BitVec.getLsbD_ofNat, hj, decide_true, Bool.true_and,
    Nat.testBit_two_pow_mul_add _ hxc, Nat.testBit_two_pow_mul_add _ hac, Nat.testBit_two_pow_sub_one]
  split
  · by_cases h : j < a
    · simp [h]
    · rw [Nat.testBit_lt_two_pow (hx.trans_le (Nat.pow_le_pow_right (by omega) (by omega)))]; simp
  · by_cases h : j - c < b
    · simp [h]
    · rw [Nat.testBit_lt_two_pow (hy.trans_le (Nat.pow_le_pow_right (by omega) (by omega)))]; simp

theorem Node.windowWord_within (n : Node) (word : Nat) : Node.windowWord n word &&& ~~~Node.windowBits word = 0 := by
  have hb : n.isInternal.toNat < 2 ^ 1 := by cases n.isInternal <;> decide
  rcases word with _ | _ | _ | word
  · exact fields_within (c := 8) hb n.sym.isLt (by omega) rfl (by decide)
  · exact fields_within (c := 16) n.left.isLt n.right.isLt (by omega) rfl (by decide)
  all_goals simp [Node.windowBits]

theorem CodeEntry.windowWord_within (e : CodeEntry) (word : Nat) : CodeEntry.windowWord e word &&& ~~~CodeEntry.windowBits word = 0 := by
  have hb : e.valid.toNat < 2 ^ 1 := by cases e.valid <;> decide
  rcases word with _ | _ | _ | word
  · exact fields_within (c := 31) e.len.isLt hb (by omega) rfl (by decide)
  · simp [CodeEntry.windowWord]
  all_goals simp [CodeEntry.windowBits]

theorem zeroExtend_within {w : Nat} (x : BitVec w) : x.zeroExtend 32 &&& ~~~BitVec.ofNat 32 (2 ^ w - 1) = 0 := by
  refine BitVec.eq_of_getLsbD_eq fun j hj => ?_
  simp only [BitVec.getLsbD_and, BitVec.getLsbD_not, BitVec.getLsbD_ofNat, hj, decide_true, Bool.true_and,
    Nat.testBit_two_pow_sub_one, BitVec.getLsbD_setWidth]
  by_cases hjw : j < w
  · simp [hjw]
  · rw [BitVec.getLsbD_of_ge _ _ (by omega)]; simp

/-- An exact read of a window or of DMEM. -/
theorem State.readIdle_within {s : State} {size : Size} {r : Region} {w : Word} (hr : ∀ o, r ≠ .reg o)
    (hb : size = .b → ∃ a, r = .dmem a) (h : s.readIdle size r = some w) : w &&& ~~~r.openBits size = 0 := by
  cases size with
  | b =>
    obtain ⟨a, rfl⟩ := hb rfl
    obtain rfl := Option.some.inj h
    exact zeroExtend_within (s.byte a)
  | w =>
    cases r with
    | reg o => exact absurd rfl (hr o)
    | freq _ | dmem _ => simp [Region.openBits]
    | code sym word => obtain rfl := Option.some.inj h; exact CodeEntry.windowWord_within _ word
    | node i word =>
      simp only [State.readIdle, Region.openBits] at h ⊢
      split at h
      · obtain rfl := Option.some.inj h; simp
      · rename_i hi
        obtain ⟨n, -, rfl⟩ := Option.map_eq_some_iff.mp h
        rw [if_neg hi]; exact Node.windowWord_within n word
    | heap k =>
      obtain ⟨n, -, rfl⟩ := Option.map_eq_some_iff.mp h
      exact zeroExtend_within n
    | reserved => simp [State.readIdle] at h

/-- Only DMEM takes byte accesses (R73). -/
theorem State.dmem_of_accepts_byte {s : State} {addr : Addr} (h : s.accepts .b addr = true) :
    ∃ a, s.region addr.toNat = .dmem a := by
  unfold State.accepts at h
  split at h <;> simp_all

/-- A read's response, where an exact one stays within the location's bits. -/
theorem State.respondRead_within {s : State} {size : Size} {r : Region} {v : Option Word}
    (h : ∀ w, v = some w → w &&& ~~~r.openBits size = 0) : ∃ w n, w &&& ~~~r.openBits size = 0 ∧
      s.respondRead size r v = { s.respond (.data w) with env := { (s.respond (.data w)).env with draws := n } } := by
  cases v with
  | some w => exact ⟨w, s.env.draws, h w rfl, rfl⟩
  | none => exact ⟨_, s.env.draws + 1, s.drawnWord_within size r, rfl⟩

/-- Every accepted read answers within the bits of its location: a window or DMEM at any time, and while busy every register
but ID, VERSION, CTRL and STATUS too (R70, R77 to R82). -/
theorem readsWithin {s : State} {size : Size} {addr : Addr} (hrst : s.env.rst = false) (ha : s.accepts size addr = true)
    (hr : ∀ o, s.region addr.toNat = .reg o → s.status.busy = true ∧ o ∉ [0x000, 0x004, 0x008, 0x00C]) :
    ReadsWithin s size addr ((s.region addr.toNat).openBits size) := by
  intro rest ht
  have hstep : step s = .next (hostStep (.rd size addr) (s.withEvents rest)) := by
    show nextStep s = _
    rw [nextStep, show s.env.events = _ from ht]
    rfl
  have hreg : (s.withEvents rest).region addr.toNat = s.region addr.toNat := rfl
  rw [hstep, hostStep, State.transact, if_neg (by rw [show (s.withEvents rest).env.rst = s.env.rst from rfl, hrst]; simp)]
  simp only []
  rw [if_pos (show (s.withEvents rest).accepts size addr = true from ha), hreg]
  by_cases hbusy : s.status.busy = true
  · rw [if_pos (show (s.withEvents rest).status.busy = true from hbusy)]
    have hnone : (s.withEvents rest).readBusy (decoded (s.withEvents rest).cmdword) (s.region addr.toNat) = none := by
      generalize hg : s.region addr.toNat = r
      cases r with
      | reg o =>
        have := (hr o hg).2
        simp only [List.mem_cons, List.not_mem_nil, or_false, not_or] at this
        unfold State.readBusy
        split <;> simp_all
      | _ => rfl
    rw [hnone]
    exact ⟨_, s.env.draws + 2, (s.withEvents rest).drawnWord_within size _, rfl⟩
  · rw [if_neg (show ¬ (s.withEvents rest).status.busy = true from hbusy)]
    obtain ⟨w, n, h1, h2⟩ := (s.withEvents rest).respondRead_within (size := size) (r := s.region addr.toNat)
      (v := (s.withEvents rest).readIdle size (s.region addr.toNat))
      (fun w hw => State.readIdle_within (fun o ho => hbusy (hr o ho).1)
        (fun hb => State.dmem_of_accepts_byte (by rw [← hb]; exact ha)) hw)
    exact ⟨w, n, h1, by rw [h2]⟩

end Sys2Proof.Machine
end

