-- ==== Sys2Proof/Laws/Frames.lean ====
section
/-! SUPPORT. Frames of the command bodies: a projection p of the state that a body's own updates leave alone is left alone
by the body, whichever way it ends. Instances are read off by giving p and closing each hypothesis with rfl. -/

namespace Sys2Proof.Machine

variable {γ : Type} {p : State → γ}

/-- p does not read RESULT. -/
abbrev KeepsResult (p : State → γ) : Prop := ∀ (s : State) (r : Word), p { s with result := r } = p s

/-- p does not read HEAP. -/
abbrev KeepsHeap (p : State → γ) : Prop := ∀ (s : State) (h : List NodeIx), p { s with heap := h } = p s

/-- p does not read the packer's state. -/
abbrev KeepsPacker (p : State → γ) : Prop := ∀ (s : State) (k : Packer), p { s with pk := k } = p s

/-- p does not read the unpacker's state. -/
abbrev KeepsUnpacker (p : State → γ) : Prop := ∀ (s : State) (u : Unpacker), p { s with up := u } = p s

/-- p does not read DMEM. -/
abbrev KeepsBytes (p : State → γ) : Prop := ∀ (s : State) (a : Nat) (v : Byte), p (s.setByte a v) = p s

/-! FREQ_COUNT -/

theorem countLoop_keeps (hc : ∀ s b n, p (State.countByte s b n) = p s) (src : Nat) :
    ∀ n i s, p (countLoop src n i s).state = p s
  | 0, _, _ => rfl
  | n + 1, i, s => by
    refine Res.keeps_andThen (by simp) fun b t => ?_
    split
    · rfl
    · split
      · rfl
      · exact (countLoop_keeps hc src n _ _).trans (hc _ _ _)

theorem freqCount_keeps (hc : ∀ s b n, p (State.countByte s b n) = p s) (hr : KeepsResult p) (src len : Nat) (s : State) :
    p (freqCount src len s).state = p s :=
  Res.keeps_andThen (by simp) fun _ t => (countLoop_keeps hc src len 0 _).trans (hr t 0)

/-! The heap and the tree -/

theorem heapInsert_keeps (hh : KeepsHeap p) (n : NodeIx) (s : State) : p (heapInsert n s).state = p s := by
  unfold heapInsert; split
  · rfl
  · exact hh _ _

theorem heapExtract_keeps (hh : KeepsHeap p) (s : State) : p (heapExtract s).state = p s := by
  unfold heapExtract; split
  · rfl
  · exact hh _ _

theorem pqInsert_keeps (hh : KeepsHeap p) (n : NodeIx) (s : State) : p (pqInsert n s).state = p s := by
  unfold pqInsert; split
  · rfl
  · exact heapInsert_keeps hh n s

theorem pqExtract_keeps (hh : KeepsHeap p) (hr : KeepsResult p) (s : State) : p (pqExtract s).state = p s :=
  Res.keeps_andThen (heapExtract_keeps hh s) fun _ _ => hr _ _

theorem newLeaf_keeps (ha : ∀ s n, p (State.addNode s n) = p s) (sym : Sym) (s : State) :
    p (newLeaf sym s).state = p s := by
  unfold newLeaf; split
  · rfl
  · exact ha _ _

theorem newJoin_keeps (ha : ∀ s n, p (State.addNode s n) = p s) (a b : NodeIx) (s : State) :
    p (newJoin a b s).state = p s := by
  unfold newJoin
  split; · rfl
  split; · rfl
  split; · rfl
  dsimp only
  split
  · rfl
  · exact ha _ _

theorem storeIndex_keeps (hr : KeepsResult p) (r : Res NodeIx) : p (storeIndex r).state = p r.state :=
  Res.keeps_andThen rfl fun _ _ => hr _ _

theorem leafLoop_keeps (ha : ∀ s n, p (State.addNode s n) = p s) (hh : KeepsHeap p) :
    ∀ n leaves s, p (leafLoop n leaves s).state = p s
  | 0, _, _ => rfl
  | n + 1, leaves, s => by
    unfold leafLoop
    dsimp only
    split
    · exact Res.keeps_andThen (newLeaf_keeps ha _ s) fun k t =>
        Res.keeps_andThen (heapInsert_keeps hh k t) fun _ u => leafLoop_keeps ha hh n _ u
    · exact leafLoop_keeps ha hh n leaves s

theorem mergeLoop_keeps (ha : ∀ s n, p (State.addNode s n) = p s) (hh : KeepsHeap p) :
    ∀ n s, p (mergeLoop n s).state = p s
  | 0, _ => rfl
  | n + 1, s => by
    unfold mergeLoop
    split
    · exact Res.keeps_andThen (heapExtract_keeps hh s) fun a t =>
        Res.keeps_andThen (heapExtract_keeps hh t) fun b u =>
          Res.keeps_andThen (newJoin_keeps ha a b u) fun k v =>
            Res.keeps_andThen (heapInsert_keeps hh k v) fun _ w => mergeLoop_keeps ha hh n w
    · rfl

theorem treeBuild_keeps (ha : ∀ s n, p (State.addNode s n) = p s) (hh : KeepsHeap p)
    (hc : ∀ s, p (State.clearTree s) = p s) (ht : ∀ s n, p (State.takeRoot s n) = p s) (s : State) :
    p (treeBuild s).state = p s :=
  Res.keeps_andThen ((leafLoop_keeps ha hh 256 0 _).trans (hc s)) fun n t =>
    Res.keeps_andThen (mergeLoop_keeps ha hh _ t) fun _ u => ht u n

theorem treeSetroot_keeps (hr : ∀ (s : State) n, p { s with root := n } = p s) (na : NodeIx) (s : State) :
    p (treeSetroot na s).state = p s := by
  unfold treeSetroot; split
  · rfl
  · exact hr _ _

/-! CODE_GEN -/

/-- p does not read the walk's scratch state. -/
abbrev KeepsWalk (p : State → γ) : Prop := ∀ (s : State) (w : Walk), p { s with walk := w } = p s

theorem walkLoop_keeps (hw : KeepsWalk p) (ha : ∀ s k l c, p (State.assignCode s k l c) = p s) :
    ∀ n s, p (walkLoop n s).state = p s
  | 0, _ => rfl
  | n + 1, s => by
    unfold walkLoop
    split
    · rfl
    · split
      · exact hw _ _
      · dsimp only
        split
        · split
          · exact hw _ _
          · exact (walkLoop_keeps hw ha n _).trans ((ha _ _ _ _).trans (hw _ _))
        · split
          · exact hw _ _
          · exact (walkLoop_keeps hw ha n _).trans ((hw _ _).trans (hw s _))

theorem codeWalk_keeps (hw : KeepsWalk p) (ha : ∀ s k l c, p (State.assignCode s k l c) = p s)
    (hl : ∀ s, p (State.releaseWalk s) = p s) (s : State) : p (codeWalk s).state = p s := by
  unfold codeWalk
  rw [Res.state_mapState, hl]
  exact (walkLoop_keeps hw ha _ _).trans (hw _ _)

theorem codeGen_keeps (hw : KeepsWalk p) (ha : ∀ s k l c, p (State.assignCode s k l c) = p s)
    (hl : ∀ s, p (State.releaseWalk s) = p s) (hc : ∀ s, p (State.clearCodes s) = p s) (s : State) :
    p (codeGen s).state = p s := by
  unfold codeGen
  dsimp only
  split
  · exact hc s
  · split
    · exact (ha _ _ _ _).trans (hc s)
    · exact (codeWalk_keeps hw ha hl _).trans (hc s)

/-! The packer -/

theorem advancePacker_keeps (hp : KeepsPacker p) (s : State) (n : Word) : p (s.advancePacker n) = p s := hp s _

theorem setPending_keeps (hp : KeepsPacker p) (s : State) (n acc : Nat) : p (s.setPending n acc) = p s := hp s _

theorem drainBytes_keeps (hb : KeepsBytes p) (hp : KeepsPacker p) : ∀ f n acc s, p (drainBytes f n acc s).state = p s
  | 0, _, _, _ => rfl
  | f + 1, n, acc, s => by
    unfold drainBytes
    split
    · exact Res.keeps_andThen (memWrite_keeps hb _ _ s) fun _ t =>
        (drainBytes_keeps hb hp f _ _ _).trans (advancePacker_keeps hp t 1)
    · rfl

theorem append_keeps (hb : KeepsBytes p) (hp : KeepsPacker p) (c l : Nat) (s : State) :
    p (append c l s).state = p s := by
  refine Res.keeps_andThen (by simp) fun _ t => ?_
  exact Res.keeps_andThen (drainBytes_keeps hb hp _ _ _ t) fun r u => setPending_keeps hp u _ _

theorem packSymbol_keeps (hb : KeepsBytes p) (hp : KeepsPacker p) (sym : Sym) (s : State) :
    p (packSymbol sym s).state = p s := by
  unfold packSymbol; split
  · exact append_keeps hb hp _ _ s
  · rfl

theorem packLoop_keeps (hb : KeepsBytes p) (hp : KeepsPacker p) (hr : KeepsResult p) (src : Nat) :
    ∀ n i s, p (packLoop src n i s).state = p s
  | 0, _, _ => rfl
  | n + 1, i, s => by
    refine Res.keeps_andThen (by simp) fun b t => ?_
    exact Res.keeps_andThen (packSymbol_keeps hb hp b t) fun _ u => (packLoop_keeps hb hp hr src n _ _).trans (hr u _)

theorem packData_keeps (hb : KeepsBytes p) (hp : KeepsPacker p) (hr : KeepsResult p) (src len : Nat) (s : State) :
    p (packData src len s).state = p s :=
  Res.keeps_andThen (by simp) fun _ t => (packLoop_keeps hb hp hr src len 0 _).trans (hr t 0)

theorem headerLoop_keeps (hb : KeepsBytes p) (a : Nat) : ∀ n s, p (headerLoop a n s).state = p s
  | 0, _ => rfl
  | n + 1, s => by
    unfold headerLoop
    exact Res.keeps_andThen (memWriteBE_keeps hb _ _ _ s) fun _ t => headerLoop_keeps hb a n t

theorem packHeader_keeps (hb : KeepsBytes p) (hp : KeepsPacker p) (s : State) : p (packHeader s).state = p s := by
  unfold packHeader
  split
  · rfl
  · refine Res.keeps_andThen (by simp) fun _ t => ?_
    refine Res.keeps_andThen (headerLoop_keeps hb _ _ t) fun _ u => ?_
    exact Res.keeps_andThen (memWriteBE_keeps hb _ _ _ u) fun _ v => advancePacker_keeps hp v _

theorem flushPending_keeps (hb : KeepsBytes p) (hp : KeepsPacker p) (s : State) : p (flushPending s).state = p s := by
  unfold flushPending
  split
  · rfl
  · refine Res.keeps_andThen (by simp) fun _ t => ?_
    exact Res.keeps_andThen (memWrite_keeps hb _ _ t) fun _ u =>
      (setPending_keeps hp _ _ _).trans (advancePacker_keeps hp u 1)

theorem packFlush_keeps (hb : KeepsBytes p) (hp : KeepsPacker p) (hr : KeepsResult p) (s : State) :
    p (packFlush s).state = p s :=
  Res.keeps_andThen (flushPending_keeps hb hp s) fun _ t => hr t _

/-! The unpacker -/

theorem loadLoop_keeps (hf : ∀ s k v, p (State.setFreq s k v) = p s) (src : Nat) :
    ∀ n s, p (loadLoop src n s).state = p s
  | 0, _ => rfl
  | n + 1, s => by
    unfold loadLoop
    exact Res.keeps_andThen (by simp) fun v t => (loadLoop_keeps hf src n _).trans (hf t _ _)

@[simp] theorem checkHeader_state (s : State) : (checkHeader s).state = s := by
  unfold checkHeader; split <;> rfl

theorem hdrParse_keeps (hf : ∀ s k v, p (State.setFreq s k v) = p s) (ht : ∀ (s : State) v, p { s with total := v } = p s)
    (hr : KeepsResult p) (src len : Nat) (s : State) : p (hdrParse src len s).state = p s := by
  refine Res.keeps_andThen (by simp) fun _ t => ?_
  split
  · rfl
  · refine Res.keeps_andThen (loadLoop_keeps hf src 256 t) fun _ u => ?_
    refine Res.keeps_andThen (by simp) fun v w => ?_
    exact Res.keeps_andThen (by rw [checkHeader_state]; exact ht w _) fun _ x => hr x _

theorem consumeBit_keeps (hu : KeepsUnpacker p) (s : State) : p s.consumeBit = p s := hu s _

theorem setCursor_keeps (hu : KeepsUnpacker p) (s : State) (n : NodeIx) : p (s.setCursor n) = p s := hu s _

theorem nextBit_keeps (hu : KeepsUnpacker p) (iend : Nat) (s : State) : p (nextBit iend s).state = p s := by
  unfold nextBit
  split
  · rfl
  · exact Res.keeps_andThen (by simp) fun b t => consumeBit_keeps hu t

theorem countSymbol_keeps (hu : KeepsUnpacker p) (hr : KeepsResult p) (s : State) : p s.countSymbol = p s :=
  (hr { s with up := { s.up with emit := s.up.emit + 1 } } _).trans (hu s _)

theorem emitSymbol_keeps (hb : KeepsBytes p) (hu : KeepsUnpacker p) (hr : KeepsResult p) (w : Bool) (dst : Nat) (sym : Sym)
    (s : State) : p (emitSymbol w dst sym s).state = p s := by
  refine Res.keeps_andThen ?_ fun _ t => countSymbol_keeps hu hr t
  split
  · exact memWrite_keeps hb _ _ s
  · rfl

theorem emitSymbol_dry_keeps (hu : KeepsUnpacker p) (hr : KeepsResult p) (dst : Nat) (sym : Sym) (s : State) :
    p (emitSymbol false dst sym s).state = p s := countSymbol_keeps hu hr s

theorem stepBit_keeps (hb : KeepsBytes p) (hu : KeepsUnpacker p) (hr : KeepsResult p) (w : Bool) (dst : Nat) (b : Bool)
    (s : State) : p (stepBit w dst b s).state = p s := by
  unfold stepBit
  split
  · exact emitSymbol_keeps hb hu hr _ _ _ _
  · dsimp only
    split
    · exact Res.keeps_andThen ((emitSymbol_keeps hb hu hr _ _ _ _).trans (setCursor_keeps hu _ _)) fun _ t =>
        setCursor_keeps hu t _
    · exact setCursor_keeps hu _ _

theorem stepBit_dry_keeps (hu : KeepsUnpacker p) (hr : KeepsResult p) (dst : Nat) (b : Bool) (s : State) :
    p (stepBit false dst b s).state = p s := by
  unfold stepBit
  split
  · exact emitSymbol_dry_keeps hu hr _ _ _
  · dsimp only
    split
    · exact Res.keeps_andThen ((emitSymbol_dry_keeps hu hr _ _ _).trans (setCursor_keeps hu _ _)) fun _ t =>
        setCursor_keeps hu t _
    · exact setCursor_keeps hu _ _

theorem unpackLoop_keeps (hb : KeepsBytes p) (hu : KeepsUnpacker p) (hr : KeepsResult p) (w : Bool) (iend dst : Nat) :
    ∀ n s, p (unpackLoop w iend dst n s).state = p s
  | 0, _ => rfl
  | n + 1, s => by
    unfold unpackLoop
    split
    · exact Res.keeps_andThen (nextBit_keeps hu _ s) fun b t =>
        Res.keeps_andThen (stepBit_keeps hb hu hr w dst b t) fun _ u => unpackLoop_keeps hb hu hr w iend dst n u
    · rfl

theorem unpackLoop_dry_keeps (hu : KeepsUnpacker p) (hr : KeepsResult p) (iend dst : Nat) :
    ∀ n s, p (unpackLoop false iend dst n s).state = p s
  | 0, _ => rfl
  | n + 1, s => by
    unfold unpackLoop
    split
    · exact Res.keeps_andThen (nextBit_keeps hu _ s) fun b t =>
        Res.keeps_andThen (stepBit_dry_keeps hu hr dst b t) fun _ u => unpackLoop_dry_keeps hu hr iend dst n u
    · rfl

theorem initUnpacker_keeps (hu : KeepsUnpacker p) (hr : KeepsResult p) (s : State) (src : Nat) :
    p (s.initUnpacker src) = p s := 
  (hr { s with up := (s.initUnpacker src).up } 0).trans (hu s _)

theorem unpack_keeps (hb : KeepsBytes p) (hu : KeepsUnpacker p) (hr : KeepsResult p) (w : Bool) (src len dst : Nat)
    (s : State) : p (unpack w src len dst s).state = p s := by
  refine Res.keeps_andThen (by simp) fun _ t => ?_
  dsimp only
  split
  · exact initUnpacker_keeps hu hr t src
  · split
    · exact initUnpacker_keeps hu hr t src
    · exact (unpackLoop_keeps hb hu hr _ _ _ _ _).trans (initUnpacker_keeps hu hr t src)

/-- The verify pass of DECOMPRESS leaves alone what only DMEM writes touch (47_codec.md R241). -/
theorem unpack_dry_keeps (hu : KeepsUnpacker p) (hr : KeepsResult p) (src len dst : Nat) (s : State) :
    p (unpack false src len dst s).state = p s := by
  refine Res.keeps_andThen (by simp) fun _ t => ?_
  dsimp only
  split
  · exact initUnpacker_keeps hu hr t src
  · split
    · exact initUnpacker_keeps hu hr t src
    · exact (unpackLoop_dry_keeps hu hr _ _ _ _).trans (initUnpacker_keeps hu hr t src)

/-! The codec -/

theorem Res.state_onRaise_keeps {α : Type} (hr : ∀ s, p (State.zeroResult s) = p s) (r : Res α) :
    p (r.onRaise State.zeroResult).state = p r.state := by
  cases r with
  | ok a s => rfl
  | raised e s => exact hr s

theorem compress_keeps (hc : ∀ s b n, p (State.countByte s b n) = p s) (hcf : ∀ s, p (State.clearFreq s) = p s)
    (ha : ∀ s n, p (State.addNode s n) = p s) (hh : KeepsHeap p) (hct : ∀ s, p (State.clearTree s) = p s)
    (htr : ∀ s n, p (State.takeRoot s n) = p s) (hw : KeepsWalk p) (has : ∀ s k l c, p (State.assignCode s k l c) = p s)
    (hl : ∀ s, p (State.releaseWalk s) = p s) (hcc : ∀ s, p (State.clearCodes s) = p s) (hb : KeepsBytes p)
    (hp : KeepsPacker p) (hr : KeepsResult p) (s : State) : p (compress s).state = p s := by
  unfold compress compressLines
  rw [Res.state_onRaise_keeps fun t => hr t 0]
  refine Res.keeps_andThen (by simp) fun _ t => ?_
  refine Res.keeps_andThen ((freqCount_keeps hc hr _ _ _).trans (hcf t)) fun _ t => ?_
  refine Res.keeps_andThen (treeBuild_keeps ha hh hct htr t) fun _ t => ?_
  refine Res.keeps_andThen (codeGen_keeps hw has hl hcc t) fun _ t => ?_
  refine Res.keeps_andThen (by simp) fun _ t => ?_
  refine Res.keeps_andThen ((packHeader_keeps hb hp _).trans (hp t _)) fun _ t => ?_
  exact Res.keeps_andThen (packData_keeps hb hp hr _ _ t) fun _ t => packFlush_keeps hb hp hr t

theorem decompress_keeps (hf : ∀ s k v, p (State.setFreq s k v) = p s) (ht : ∀ (s : State) v, p { s with total := v } = p s)
    (ha : ∀ s n, p (State.addNode s n) = p s) (hh : KeepsHeap p) (hct : ∀ s, p (State.clearTree s) = p s)
    (htr : ∀ s n, p (State.takeRoot s n) = p s) (hb : KeepsBytes p) (hu : KeepsUnpacker p) (hr : KeepsResult p) (s : State) :
    p (decompress s).state = p s := by
  unfold decompress decompressLines
  rw [Res.state_onRaise_keeps fun t => hr t 0]
  refine Res.keeps_andThen (by simp) fun _ t => ?_
  refine Res.keeps_andThen (hdrParse_keeps hf ht hr _ _ t) fun _ t => ?_
  refine Res.keeps_andThen (treeBuild_keeps ha hh hct htr t) fun _ t => ?_
  refine Res.keeps_andThen (unpack_keeps hb hu hr _ _ _ _ t) fun _ t => ?_
  refine Res.keeps_andThen (by simp) fun _ t => ?_
  exact Res.keeps_andThen (unpack_keeps hb hu hr _ _ _ _ t) fun _ t => hr t _

end Sys2Proof.Machine
end

