-- ==== Sys2Proof/Laws/Heap.lean ====
section
/-! SUPPORT. The heap (42_heap.md): the key is a weak order, each primitive keeps the elements and the heap order, and the
root is least. -/

namespace Sys2Proof.Machine

/-- What the sifts need of a comparison: it never holds both ways, and not-less is transitive. -/
structure WeakOrder (lt : NodeIx → NodeIx → Bool) : Prop where
  asymm : ∀ a b, lt a b = true → lt b a = false
  trans : ∀ a b c, lt b a = false → lt c b = false → lt c a = false

theorem WeakOrder.irrefl {lt : NodeIx → NodeIx → Bool} (h : WeakOrder lt) (a : NodeIx) : lt a a = false := by
  cases hl : lt a a with
  | false => rfl
  | true => simpa [hl] using h.asymm a a hl

/-- `less` under either tie-break mode (R151). -/
theorem State.less_eq (s : State) (a b : NodeIx) :
    s.less a b = true ↔ (s.node a).freq.toNat < (s.node b).freq.toNat ∨
      (s.ctrl.tiebrk = true ∧ (s.node a).freq.toNat = (s.node b).freq.toNat ∧ a.toNat < b.toNat) := by
  unfold State.less
  cases s.ctrl.tiebrk <;> simp

theorem State.less_eq_false (s : State) (a b : NodeIx) :
    s.less a b = false ↔ (s.node b).freq.toNat ≤ (s.node a).freq.toNat ∧
      (s.ctrl.tiebrk = true → (s.node a).freq.toNat = (s.node b).freq.toNat → b.toNat ≤ a.toNat) := by
  rw [← Bool.not_eq_true, State.less_eq]
  push Not
  rfl

theorem State.less_weakOrder (s : State) : WeakOrder s.less where
  asymm a b h := by
    rw [State.less_eq] at h
    rw [State.less_eq_false]
    rcases h with h | ⟨_, h1, h2⟩
    · exact ⟨by omega, fun _ _ => by omega⟩
    · exact ⟨by omega, fun _ _ => by omega⟩
  trans a b c h1 h2 := by
    rw [State.less_eq_false] at *
    exact ⟨by omega, fun ht he => (h1.2 ht (by omega)).trans (h2.2 ht (by omega))⟩

/-- `less` reads CTRL and the nodes alone. -/
theorem State.less_congr {s t : State} (hc : t.ctrl = s.ctrl) (hn : t.nodes = s.nodes) : t.less = s.less := by
  cases s; cases t
  simp only at hc hn
  subst hc hn
  rfl

theorem slot_eq_getElem {h : List NodeIx} {k : Nat} (hk : k < h.length) : slot h k = h[k] := by
  simp [slot, hk]

theorem slot_swap {h : List NodeIx} {i j : Nat} (hi : i < h.length) (hj : j < h.length) {x : Nat} (hx : x < h.length) :
    slot (h.swap i j) x = if x = i then slot h j else if x = j then slot h i else slot h x := by
  rw [slot_eq_getElem (by simpa using hx), List.getElem_swap, slot_eq_getElem hi, slot_eq_getElem hj, slot_eq_getElem hx]
  by_cases h1 : x = i
  · simp [h1, hj]
  · by_cases h2 : x = j
    · subst h2; simp [h1, hi]
    · simp [h1, h2]

section Sift

variable {lt : NodeIx → NodeIx → Bool}

theorem siftUp_perm (lt : NodeIx → NodeIx → Bool) : ∀ fuel k h, (siftUp lt fuel k h).Perm h
  | 0, _, h => .refl h
  | fuel + 1, k, h => by
    unfold siftUp
    split
    · exact .refl h
    · dsimp only
      split
      · exact (siftUp_perm lt fuel _ _).trans (List.swap_perm h _ _)
      · exact .refl h

theorem siftDown_perm (lt : NodeIx → NodeIx → Bool) : ∀ fuel k h, (siftDown lt fuel k h).Perm h
  | 0, _, h => .refl h
  | fuel + 1, k, h => by
    unfold siftDown
    dsimp only
    split
    · exact .refl h
    · generalize (if 2 * k + 2 < h.length ∧ lt (slot h (2 * k + 2)) (slot h (2 * k + 1)) = true then 2 * k + 2
        else 2 * k + 1) = c
      split
      · exact (siftDown_perm lt fuel _ _).trans (List.swap_perm h _ _)
      · exact .refl h

/-- The sift up from slot k: every pair but (k, its parent) is in order, and the children of k are in order with k's
parent. -/
structure UpAt (lt : NodeIx → NodeIx → Bool) (h : List NodeIx) (k : Nat) : Prop where
  others : ∀ j, 1 ≤ j → j < h.length → j ≠ k → lt (slot h j) (slot h ((j - 1) / 2)) = false
  below : ∀ j, 1 ≤ j → j < h.length → (j - 1) / 2 = k → 1 ≤ k → lt (slot h j) (slot h ((k - 1) / 2)) = false

theorem siftUp_ordered (ho : WeakOrder lt) :
    ∀ fuel k h, k ≤ fuel → k < h.length → UpAt lt h k → HeapOrdered lt (siftUp lt fuel k h)
  | 0, k, h, hf, hk, hu => by
    intro j h1 h2
    exact hu.others j h1 h2 (by omega)
  | fuel + 1, k, h, hf, hk, hu => by
    unfold siftUp
    split
    · rename_i h0
      intro j h1 h2
      exact hu.others j h1 h2 (by omega)
    · rename_i h0
      dsimp only
      have hp : (k - 1) / 2 < h.length := by omega
      split
      · rename_i hlt
        apply siftUp_ordered ho fuel _ _ (by omega) (by simpa using hp)
        constructor
        · intro j h1 h2 h3
          rw [List.length_swap] at h2
          have hj2 : (j - 1) / 2 < h.length := by omega
          rw [slot_swap hk hp h2, slot_swap hk hp hj2]
          by_cases hjk : j = k
          · have e1 : (j - 1) / 2 ≠ k := by omega
            have e2 : (j - 1) / 2 = (k - 1) / 2 := by rw [hjk]
            rw [if_pos hjk, if_neg e1, if_pos e2]
            exact ho.asymm _ _ hlt
          · rw [if_neg hjk, if_neg h3]
            by_cases hj3 : (j - 1) / 2 = k
            · rw [if_pos hj3]
              exact hu.below j h1 h2 hj3 (by omega)
            · rw [if_neg hj3]
              by_cases hj4 : (j - 1) / 2 = (k - 1) / 2
              · rw [if_pos hj4]
                have := hu.others j h1 h2 hjk
                rw [hj4] at this
                exact ho.trans _ _ _ (ho.asymm _ _ hlt) this
              · rw [if_neg hj4]
                exact hu.others j h1 h2 hjk
        · intro j h1 h2 h3 h4
          rw [List.length_swap] at h2
          have hgp : ((k - 1) / 2 - 1) / 2 < h.length := by omega
          have hp' := hu.others ((k - 1) / 2) h4 hp (by omega)
          rw [slot_swap hk hp h2, slot_swap hk hp hgp]
          have e1 : ((k - 1) / 2 - 1) / 2 ≠ k := by omega
          have e2 : ((k - 1) / 2 - 1) / 2 ≠ (k - 1) / 2 := by omega
          rw [if_neg e1, if_neg e2]
          by_cases hjk : j = k
          · rw [if_pos hjk]; exact hp'
          · have e3 : j ≠ (k - 1) / 2 := by omega
            rw [if_neg hjk, if_neg e3]
            have := hu.others j h1 h2 hjk
            rw [h3] at this
            exact ho.trans _ _ _ hp' this
      · rename_i hlt
        intro j h1 h2
        by_cases hjk : j = k
        · subst hjk; simpa using hlt
        · exact hu.others j h1 h2 hjk

/-- The sift down from slot k: every pair whose parent is not k is in order, and the children of k are in order with k's
parent. -/
structure DownAt (lt : NodeIx → NodeIx → Bool) (h : List NodeIx) (k : Nat) : Prop where
  others : ∀ j, 1 ≤ j → j < h.length → (j - 1) / 2 ≠ k → lt (slot h j) (slot h ((j - 1) / 2)) = false
  below : ∀ j, 1 ≤ j → j < h.length → (j - 1) / 2 = k → 1 ≤ k → lt (slot h j) (slot h ((k - 1) / 2)) = false

theorem siftDown_ordered (ho : WeakOrder lt) :
    ∀ fuel k h, h.length ≤ k + fuel → DownAt lt h k → HeapOrdered lt (siftDown lt fuel k h)
  | 0, k, h, hf, hd => by
    intro j h1 h2
    have h2 : j < h.length := h2
    exact hd.others j h1 h2 (by omega)
  | fuel + 1, k, h, hf, hd => by
    unfold siftDown
    dsimp only
    split
    · intro j h1 h2
      exact hd.others j h1 h2 (by omega)
    · rename_i hl
      -- the chosen child c
      generalize hc : (if 2 * k + 2 < h.length ∧ lt (slot h (2 * k + 2)) (slot h (2 * k + 1)) = true then 2 * k + 2
        else 2 * k + 1) = c
      have hcl : c < h.length ∧ (c - 1) / 2 = k ∧ 1 ≤ c ∧ k < c := by
        split at hc <;> omega
      have hcmin : ∀ j, 1 ≤ j → j < h.length → (j - 1) / 2 = k → lt (slot h j) (slot h c) = false := by
        intro j h1 h2 h3
        have hj : j = 2 * k + 1 ∨ j = 2 * k + 2 := by omega
        split at hc
        · rename_i hcond
          rcases hj with rfl | rfl
          · rw [← hc]; exact ho.asymm _ _ hcond.2
          · rw [← hc]; exact ho.irrefl _
        · rename_i hcond
          rcases hj with rfl | rfl
          · rw [← hc]; exact ho.irrefl _
          · rw [← hc]
            by_contra hne
            exact hcond ⟨h2, by simpa using hne⟩
      obtain ⟨hc1, hc2, hc3, hc4⟩ := hcl
      have hk : k < h.length := by omega
      split
      · rename_i hlt
        apply siftDown_ordered ho fuel c _ (by rw [List.length_swap]; omega)
        constructor
        · intro j h1 h2 h3
          rw [List.length_swap] at h2
          have hj2 : (j - 1) / 2 < h.length := by omega
          rw [slot_swap hc1 hk h2, slot_swap hc1 hk hj2]
          rw [if_neg h3]
          by_cases hjk : (j - 1) / 2 = k
          · rw [if_pos hjk]
            by_cases hjc : j = c
            · rw [if_pos hjc]; exact ho.asymm _ _ hlt
            · have : j ≠ k := by omega
              rw [if_neg hjc, if_neg this]
              exact hcmin j h1 h2 hjk
          · rw [if_neg hjk]
            by_cases hjc : j = c
            · exfalso; exact hjk (hjc ▸ hc2)
            · rw [if_neg hjc]
              by_cases hjk2 : j = k
              · rw [if_pos hjk2, hjk2]
                exact hd.below c hc3 hc1 hc2 (by omega)
              · rw [if_neg hjk2]
                exact hd.others j h1 h2 hjk
        · intro j h1 h2 h3 h4
          rw [List.length_swap] at h2
          rw [slot_swap hc1 hk h2, slot_swap hc1 hk (by omega : (c - 1) / 2 < h.length)]
          have e1 : j ≠ c := by omega
          have e2 : j ≠ k := by omega
          have e3 : (c - 1) / 2 ≠ c := by omega
          rw [if_neg e1, if_neg e2, if_neg e3, if_pos hc2]
          have := hd.others j h1 h2 (by omega)
          rwa [h3] at this
      · rename_i hlt
        intro j h1 h2
        by_cases hjk : (j - 1) / 2 = k
        · rw [hjk]
          exact ho.trans _ _ _ (by simpa using hlt) (hcmin j h1 h2 hjk)
        · exact hd.others j h1 h2 hjk

/-- The heap after an insert holds the old elements and the new one (R152). -/
theorem pushHeap_perm (lt : NodeIx → NodeIx → Bool) (h : List NodeIx) (n : NodeIx) : (pushHeap lt h n).Perm (n :: h) :=
  (siftUp_perm lt _ _ _).trans (List.perm_append_singleton n h)

theorem slot_append_left {h : List NodeIx} {n : NodeIx} {k : Nat} (hk : k < h.length) : slot (h ++ [n]) k = slot h k := by
  simp [slot, List.getElem?_append, hk]

/-- An insert keeps the heap order (R150, R152). -/
theorem pushHeap_ordered (ho : WeakOrder lt) {h : List NodeIx} (hh : HeapOrdered lt h) (n : NodeIx) :
    HeapOrdered lt (pushHeap lt h n) := by
  refine siftUp_ordered ho _ _ _ le_rfl (by simp) ⟨fun j h1 h2 h3 => ?_, fun j h1 h2 h3 _ => ?_⟩
  · have hj : j < h.length := by simp at h2; omega
    rw [slot_append_left hj, slot_append_left (by omega)]
    exact hh j h1 hj
  · simp at h2; omega

/-- In an ordered heap the root is least (R150). -/
theorem HeapOrdered.root_least (ho : WeakOrder lt) {h : List NodeIx} (hh : HeapOrdered lt h) :
    ∀ k, k < h.length → lt (slot h k) (slot h 0) = false := by
  intro k
  induction k using Nat.strong_induction_on with
  | _ k ih =>
    intro hk
    by_cases h0 : k = 0
    · subst h0; exact ho.irrefl _
    · exact ho.trans _ _ _ (ih ((k - 1) / 2) (by omega) (by omega)) (hh k (by omega) hk)

theorem HeapOrdered.root_least_mem (ho : WeakOrder lt) {h : List NodeIx} (hh : HeapOrdered lt h) {m : NodeIx}
    (hm : m ∈ h) : lt m (slot h 0) = false := by
  obtain ⟨k, hk, rfl⟩ := List.getElem_of_mem hm
  have := hh.root_least ho k hk
  rwa [slot_eq_getElem hk] at this

/-- Extracting takes the root and keeps the other elements (R153). -/
theorem popHeap_perm (lt : NodeIx → NodeIx → Bool) {h : List NodeIx} (hne : h ≠ []) :
    h.Perm (slot h 0 :: popHeap lt h) := by
  obtain ⟨r, rest, rfl⟩ := List.exists_cons_of_ne_nil hne
  have h0 : slot (r :: rest) 0 = r := by simp [slot]
  rw [h0]
  refine List.Perm.cons r ?_
  unfold popHeap
  dsimp only
  by_cases hr : rest = []
  · subst hr; simp
  · have hlen : 0 < rest.length := List.length_pos_iff.mpr hr
    have e : 0 < (r :: rest).length - 1 := by simp; exact hlen
    rw [if_pos e]
    refine .trans ?_ (siftDown_perm lt _ _ _).symm
    have e2 : (r :: rest).length - 1 = rest.length := by simp
    rw [e2]
    have e3 : slot (r :: rest) rest.length = rest[rest.length - 1] := by
      rw [slot_eq_getElem (by simp)]
      rw [List.getElem_cons]
      simp [show rest.length ≠ 0 by omega]
    rw [e3]
    have e4 : ((r :: rest).take rest.length).set 0 rest[rest.length - 1] = rest[rest.length - 1] :: rest.dropLast := by
      obtain ⟨m, hm⟩ : ∃ m, rest.length = m + 1 := ⟨rest.length - 1, by omega⟩
      rw [List.dropLast_eq_take]
      simp [hm]
    rw [e4]
    have e5 : rest = rest.dropLast ++ [rest[rest.length - 1]] := by
      rw [← List.getLast_eq_getElem hr, List.dropLast_append_getLast hr]
    conv_lhs => rw [e5]
    exact List.perm_append_singleton _ _

/-- Extracting keeps the heap order (R150, R153). -/
theorem popHeap_ordered (ho : WeakOrder lt) {h : List NodeIx} (hh : HeapOrdered lt h) : HeapOrdered lt (popHeap lt h) := by
  unfold popHeap
  dsimp only
  split
  · rename_i hn
    have hs : ∀ j, 1 ≤ j → j < h.length - 1 → slot ((h.take (h.length - 1)).set 0 (slot h (h.length - 1))) j = slot h j := by
      intro j h1 h2
      have : j ≠ 0 := by omega
      have hj : j < h.length := by omega
      simp [slot, this.symm, h2, hj]
    refine siftDown_ordered ho _ _ _ (by simp) ⟨fun j h1 h2 h3 => ?_, fun j h1 h2 h3 h4 => by omega⟩
    have hj : j < h.length - 1 := by simp at h2; omega
    rw [hs j h1 hj, hs _ (by omega) (by omega)]
    exact hh j h1 (by omega)
  · intro k h1 h2; simp at h2

theorem popHeap_length (lt : NodeIx → NodeIx → Bool) (h : List NodeIx) : (popHeap lt h).length = h.length - 1 := by
  by_cases hne : h = []
  · subst hne; simp [popHeap]
  · have := (popHeap_perm lt hne).length_eq
    simp at this; omega

theorem pushHeap_length (lt : NodeIx → NodeIx → Bool) (h : List NodeIx) (n : NodeIx) :
    (pushHeap lt h n).length = h.length + 1 := by
  simpa using (pushHeap_perm lt h n).length_eq

end Sift

end Sys2Proof.Machine
end

