-- ==== Sys2Proof/Laws/Tree.lean ====
section
/-! SUPPORT. The node arena and the tree builder (43_tree.md): what new_leaf and new_join do, and the invariant of a
TREE_BUILD in progress (`Forest`), from which R178, R180, R181 and the depth bound of 44_codegen.md R193 follow. -/

namespace Sys2Proof.Machine

theorem toNat_ofNat9 {k : Nat} (h : k < 512) : (BitVec.ofNat 9 k).toNat = k := by simp; omega

theorem ofNat9_inj {j k : Nat} (hj : j < 512) (hk : k < 512) (h : BitVec.ofNat 9 j = BitVec.ofNat 9 k) : j = k := by
  have := congrArg BitVec.toNat h
  rwa [toNat_ofNat9 hj, toNat_ofNat9 hk] at this

/-- NODE[i] of an allocated index (10_state.md R41). -/
theorem State.node_of_getElem? {s : State} {i : NodeIx} {n : Node} (h : s.nodes[i.toNat]? = some n) : s.node i = n := by
  simp [State.node, h]

theorem State.getElem?_of_lt {s : State} {i : NodeIx} (h : i.toNat < s.nodeCount) : s.nodes[i.toNat]? = some (s.node i) := by
  simp [State.node, List.getElem?_eq_getElem h]

/-- Adding a node leaves every allocated node as it is (R170). -/
theorem State.node_addNode_old {s : State} (n : Node) {i : NodeIx} (h : i.toNat < s.nodeCount) :
    (s.addNode n).node i = s.node i := by
  simp [State.node, List.getElem?_append_left h]

/-- The added node stands at NODE_COUNT (R170). -/
theorem State.node_addNode_new {s : State} (n : Node) (h : s.nodeCount < 512) : (s.addNode n).node s.nextNode = n := by
  have : s.nextNode.toNat = s.nodes.length := toNat_ofNat9 h
  simp [State.node, this]

theorem State.node_heap (s : State) (h : List NodeIx) : ({ s with heap := h } : State).node = s.node := rfl

/-- `new_leaf` with room in the arena (R170). -/
theorem newLeaf_ok {s : State} {sym : Sym} (h : s.nodeCount ≠ 511) :
    newLeaf sym s = .ok s.nextNode (s.addNode (.leaf sym ((s.freqAt sym).zeroExtend 64))) := by
  simp [newLeaf, h]

/-- `new_join` of allocated nodes with room in the arena and a sum that fits (R170). -/
theorem newJoin_ok {s : State} {a b : NodeIx} (ha : a.toNat < s.nodeCount) (hb : b.toNat < s.nodeCount)
    (hn : s.nodeCount ≠ 511) (hf : s.weight a + s.weight b < 2 ^ 64) :
    newJoin a b s = .ok s.nextNode (s.addNode (.internal (BitVec.ofNat 64 (s.weight a + s.weight b)) a b)) := by
  have h3 : ¬ (2 ^ 64 ≤ (s.node a).freq.toNat + (s.node b).freq.toNat) := by
    simp only [State.weight] at hf; omega
  unfold newJoin
  rw [if_neg (by omega), if_neg (by omega), if_neg hn]
  simp only [if_neg h3]
  rfl

/-- `heap_insert` below capacity (42_heap.md R152). -/
theorem heapInsert_ok {s : State} {n : NodeIx} (h : s.pqSize ≠ 512) :
    heapInsert n s = .ok () { s with heap := pushHeap s.less s.heap n } := by
  simp [heapInsert, h]

/-- `heap_extract` from a non-empty heap (42_heap.md R153). -/
theorem heapExtract_ok {s : State} (h : s.heap ≠ []) :
    heapExtract s = .ok (slot s.heap 0) { s with heap := popHeap s.less s.heap } := by
  simp [heapExtract, h]

/-- `less` on allocated nodes does not see an added node. -/
theorem State.less_addNode {s : State} (n : Node) {a b : NodeIx} (ha : a.toNat < s.nodeCount) (hb : b.toNat < s.nodeCount) :
    (s.addNode n).less a b = s.less a b := by
  unfold State.less
  rw [State.node_addNode_old n ha, State.node_addNode_old n hb]
  rfl

/-- The heap order is the order of the elements' comparisons. -/
theorem HeapOrdered.congr {lt lt' : NodeIx → NodeIx → Bool} {h : List NodeIx} (hh : HeapOrdered lt h)
    (he : ∀ a ∈ h, ∀ b ∈ h, lt' a b = lt a b) : HeapOrdered lt' h := by
  intro k h1 h2
  have hp : (k - 1) / 2 < h.length := by omega
  rw [he _ (by rw [slot_eq_getElem h2]; exact List.getElem_mem _) _ (by rw [slot_eq_getElem hp]; exact List.getElem_mem _)]
  exact hh k h1 h2

/-- The first n node indices. -/
def indices (n : Nat) : List NodeIx := (List.range n).map fun k => BitVec.ofNat 9 k

theorem mem_indices {n : Nat} (hn : n ≤ 512) {i : NodeIx} : i ∈ indices n ↔ i.toNat < n := by
  simp only [indices, List.mem_map, List.mem_range]
  constructor
  · rintro ⟨k, hk, rfl⟩
    rwa [toNat_ofNat9 (by omega)]
  · intro h
    exact ⟨i.toNat, h, by simp⟩

theorem indices_succ (n : Nat) : indices (n + 1) = indices n ++ [BitVec.ofNat 9 n] := by
  simp [indices, List.range_succ]

theorem nodup_indices {n : Nat} (hn : n ≤ 512) : (indices n).Nodup := by
  refine List.Nodup.map_on (fun x hx y hy h => ?_) List.nodup_range
  simp only [List.mem_range] at hx hy
  exact ofNat9_inj (by omega) (by omega) h

/-- l and r are the two least nodes that stand in no join before node k, l first (R177). -/
def State.LeastPair (s : State) (k : Nat) (l r : NodeIx) : Prop :=
  s.unjoinedBefore k l ∧ s.unjoinedBefore k r ∧ l ≠ r ∧ s.less r l = false ∧
    ∀ j, s.unjoinedBefore k j → j ≠ l → j ≠ r → s.less j r = false

/-- Which nodes stand in no join before node k depends on the nodes before k alone. -/
theorem State.unjoinedBefore_congr {s t : State} {k : Nat} (h : ∀ m : Nat, m < k → t.nodes[m]? = s.nodes[m]?) (j : NodeIx) :
    t.unjoinedBefore k j ↔ s.unjoinedBefore k j := by
  unfold State.unjoinedBefore
  refine and_congr_right fun _ => ?_
  constructor
  · intro hh m nd hm hs; exact hh m nd hm (by rw [h m hm]; exact hs)
  · intro hh m nd hm hs; exact hh m nd hm (by rw [← h m hm]; exact hs)

/-- A least pair stays one when nodes are added behind it. -/
theorem State.LeastPair.congr {s t : State} {k : Nat} {l r : NodeIx} (h : s.LeastPair k l r)
    (hn : ∀ m : Nat, m < k → t.nodes[m]? = s.nodes[m]?)
    (hl : ∀ a b : NodeIx, a.toNat < k → b.toNat < k → t.less a b = s.less a b) : t.LeastPair k l r := by
  obtain ⟨h1, h2, h3, h4, h5⟩ := h
  refine ⟨(State.unjoinedBefore_congr hn l).mpr h1, (State.unjoinedBefore_congr hn r).mpr h2, h3, ?_, fun j hj => ?_⟩
  · rw [hl _ _ h2.1 h1.1]; exact h4
  · have hj' := (State.unjoinedBefore_congr hn j).mp hj
    rw [hl _ _ hj.1 h2.1]
    exact h5 j hj'

/-- A TREE_BUILD in progress, with n leaves made and total weight W in the heap (R175 to R178, R181). -/
structure Forest (s : State) (n W : Nat) : Prop where
  count : s.nodes.length + s.heap.length = 2 * n
  heapLe : s.heap.length ≤ n
  ordered : HeapOrdered s.less s.heap
  /-- Every node is either in the heap or the child of exactly one node. -/
  once : (s.heap ++ s.nodes.flatMap childList).Perm (indices s.nodes.length)
  weight : (s.heap.map s.weight).sum = W
  joins : ∀ k nd, n ≤ k → s.nodes[k]? = some nd → ∃ f l r, nd = .internal f l r ∧ l.toNat < k ∧ r.toNat < k ∧
    f.toNat = s.weight l + s.weight r
  leaves : ∀ k nd, k < n → s.nodes[k]? = some nd → nd.isInternal = false
  positive : ∀ i : NodeIx, i.toNat < s.nodeCount → 0 < s.weight i
  /-- What is still in the heap weighs at least as much as any child already joined. -/
  heavier : ∀ i : NodeIx, i.toNat < s.nodeCount → ∀ x ∈ s.heap, ∀ c ∈ childList (s.node i), s.weight c ≤ s.weight x
  /-- A node weighs at least as much as any child of its sibling. -/
  siblings : ∀ i : NodeIx, i.toNat < s.nodeCount → ∀ f l r, s.node i = .internal f l r →
    (∀ c ∈ childList (s.node r), s.weight c ≤ s.weight l) ∧ (∀ c ∈ childList (s.node l), s.weight c ≤ s.weight r)

  /-- Each join took the two least nodes that stood in no join (R177). -/
  least : ∀ (k : Nat) (f : DWord) (l r : NodeIx), s.nodes[k]? = some (.internal f l r) → s.LeastPair k l r

namespace Forest

variable {s : State} {n W : Nat}

theorem nodes_le (h : Forest s n W) (hn : n ≤ 256) : s.nodes.length ≤ 512 := by have := h.count; omega

theorem heap_lt (h : Forest s n W) (hn : n ≤ 256) {x : NodeIx} (hx : x ∈ s.heap) : x.toNat < s.nodeCount :=
  (mem_indices (h.nodes_le hn)).mp (h.once.subset (List.mem_append_left _ hx))

theorem child_lt (h : Forest s n W) (hn : n ≤ 256) {i : NodeIx} (hi : i.toNat < s.nodeCount) {c : NodeIx}
    (hc : c ∈ childList (s.node i)) : c.toNat < s.nodeCount := by
  refine (mem_indices (h.nodes_le hn)).mp (h.once.subset (List.mem_append_right _ ?_))
  refine List.mem_flatMap.mpr ⟨s.node i, ?_, hc⟩
  have := State.getElem?_of_lt hi
  exact List.mem_of_getElem? this

theorem empty (hs : s.nodes = []) (hh : s.heap = []) : Forest s 0 0 where
  count := by simp [hs, hh]
  heapLe := by simp [hh]
  ordered := by intro k _ h2; simp [hh] at h2
  once := by simp [hs, hh, indices]
  weight := by simp [hh]
  joins k nd _ h := by simp [hs] at h
  leaves k nd h _ := by omega
  positive i h := by simp [State.nodeCount, hs] at h
  heavier i h := by simp [State.nodeCount, hs] at h
  siblings i h := by simp [State.nodeCount, hs] at h
  least k f l r h := by simp [hs] at h

/-- One more leaf, inserted (R176). -/
theorem addLeaf (h : Forest s n W) (hn : n < 256) (hlen : s.nodes.length = n) {sym : Sym} {f : DWord} (hf : 0 < f.toNat)
    {t : State} (ht : t = { s.addNode (.leaf sym f) with heap := pushHeap (s.addNode (.leaf sym f)).less s.heap s.nextNode }) :
    Forest t (n + 1) (W + f.toNat) := by
  have hle : n ≤ 256 := by omega
  have hcount : s.nodeCount < 512 := by show s.nodes.length < 512; omega
  have hold : ∀ i : NodeIx, i.toNat < s.nodeCount → t.node i = s.node i := by
    intro i hi; subst ht; exact State.node_addNode_old _ hi
  have hnew : t.node s.nextNode = .leaf sym f := by subst ht; exact State.node_addNode_new _ hcount
  have hix : s.nextNode.toNat = s.nodeCount := toNat_ofNat9 hcount
  have hnodes : t.nodes = s.nodes ++ [.leaf sym f] := by subst ht; rfl
  have hperm : t.heap.Perm (s.nextNode :: s.heap) := by subst ht; exact pushHeap_perm _ _ _
  have hless : t.less = (s.addNode (.leaf sym f)).less := by subst ht; rfl
  have hcases : ∀ i : NodeIx, i.toNat < t.nodeCount → i.toNat < s.nodeCount ∨ i = s.nextNode := by
    intro i hi
    have : t.nodeCount = s.nodeCount + 1 := by simp [State.nodeCount, hnodes]
    by_cases h' : i.toNat < s.nodeCount
    · exact .inl h'
    · right; apply BitVec.eq_of_toNat_eq; omega
  have hq : ∀ x ∈ s.heap, t.weight x = s.weight x := fun x hx => by simp only [State.weight, hold x (h.heap_lt hle hx)]
  have hmin : ∀ i : NodeIx, i.toNat < s.nodeCount → childList (s.node i) = [] := by
    intro i hi
    have hi' : i.toNat < s.nodes.length := hi
    have := h.leaves i.toNat (s.node i) (by omega) (State.getElem?_of_lt hi)
    cases hnd : s.node i with
    | leaf _ _ => rfl
    | internal _ _ _ => simp [hnd, Node.isInternal] at this
  have hnil : ∀ i : NodeIx, i.toNat < t.nodeCount → childList (t.node i) = [] := by
    intro i hi
    rcases hcases i hi with hi | rfl
    · rw [hold i hi, hmin i hi]
    · rw [hnew]; rfl
  constructor
  · have := hperm.length_eq; have := h.count; simp [hnodes] at *; omega
  · have := hperm.length_eq; have := h.heapLe; simp at *; omega
  · rw [hless]
    subst ht
    refine pushHeap_ordered (State.less_weakOrder _) (h.ordered.congr fun a ha b hb => ?_) _
    exact State.less_addNode _ (h.heap_lt hle ha) (h.heap_lt hle hb)
  · rw [hnodes, List.flatMap_append, List.length_append]
    have e : ([Node.leaf sym f].flatMap childList) = [] := rfl
    rw [e, List.append_nil]
    show (t.heap ++ s.nodes.flatMap childList).Perm (indices (s.nodes.length + 1))
    rw [indices_succ]
    refine (hperm.append_right _).trans ?_
    refine (List.Perm.cons _ h.once).trans ?_
    exact (List.perm_append_singleton _ _).symm
  · rw [(hperm.map t.weight).sum_eq, List.map_cons, List.sum_cons, List.map_congr_left hq, h.weight]
    have : t.weight s.nextNode = f.toNat := by simp only [State.weight, hnew, Node.freq]
    omega
  · intro k nd hk hnd
    have := (List.getElem?_eq_some_iff.mp hnd).1
    rw [hnodes] at this; simp at this; omega
  · intro k nd hk hnd
    rw [hnodes, List.getElem?_append] at hnd
    split at hnd
    · exact h.leaves k nd (by omega) hnd
    · have : k - s.nodes.length = 0 := by omega
      rw [this] at hnd; simp at hnd; subst hnd; rfl
  · intro i hi
    rcases hcases i hi with hi | rfl
    · have := h.positive i hi; simpa only [State.weight, hold i hi] using this
    · simpa only [State.weight, hnew, Node.freq] using hf
  · intro i hi x _ c hc
    rw [hnil i hi] at hc; simp at hc
  · intro i hi fr l r hnd
    have := hnil i hi
    rw [hnd] at this; simp [childList] at this
  · intro k fr l r hnd
    have hk : k < t.nodes.length := (List.getElem?_eq_some_iff.mp hnd).1
    have hl : t.nodes.length = s.nodes.length + 1 := by simp [hnodes]
    have hkn : (BitVec.ofNat 9 k).toNat = k := toNat_ofNat9 (by omega)
    have := hnil (BitVec.ofNat 9 k) (by rw [hkn]; exact hk)
    rw [State.node_of_getElem? (by rw [hkn]; exact hnd)] at this
    simp [childList] at this

/-- One turn of TB_MERGE (R177): two extracts, a join and an insert, none of which raises. -/
theorem merge (h : Forest s n W) (hn : n ≤ 256) (hW : W < 2 ^ 64) (h1 : 1 < s.heap.length) :
    ∃ a b, ∃ t : State, (heapExtract s = .ok a { s with heap := popHeap s.less s.heap }) ∧
      heapExtract { s with heap := popHeap s.less s.heap } =
        .ok b { s with heap := popHeap s.less (popHeap s.less s.heap) } ∧
      newJoin a b { s with heap := popHeap s.less (popHeap s.less s.heap) } =
        .ok s.nextNode { s.addNode (.internal (BitVec.ofNat 64 (s.weight a + s.weight b)) a b) with
          heap := popHeap s.less (popHeap s.less s.heap) } ∧
      heapInsert s.nextNode { s.addNode (.internal (BitVec.ofNat 64 (s.weight a + s.weight b)) a b) with
          heap := popHeap s.less (popHeap s.less s.heap) } = .ok () t ∧
      Forest t n W ∧ t.heap.length + 1 = s.heap.length := by
  have ho := s.less_weakOrder
  have hne : s.heap ≠ [] := by intro h0; simp [h0] at h1
  have hp1 := popHeap_perm s.less hne
  have hl1 := popHeap_length s.less s.heap
  have hne2 : popHeap s.less s.heap ≠ [] := by intro h0; rw [h0] at hl1; simp at hl1; omega
  have hp2 := popHeap_perm s.less hne2
  have hl2 := popHeap_length s.less (popHeap s.less s.heap)
  generalize ha : slot s.heap 0 = a at hp1
  generalize hb : slot (popHeap s.less s.heap) 0 = b at hp2
  generalize hh1 : popHeap s.less s.heap = h1' at *
  generalize hh2 : popHeap s.less h1' = h2' at *
  have hord1 : HeapOrdered s.less h1' := by rw [← hh1]; exact popHeap_ordered ho h.ordered
  have hord2 : HeapOrdered s.less h2' := by rw [← hh2]; exact popHeap_ordered ho hord1
  have hall : s.heap.Perm (a :: b :: h2') := hp1.trans (hp2.cons a)
  have ham : a ∈ s.heap := hall.symm.subset (by simp)
  have hbm : b ∈ s.heap := hall.symm.subset (by simp)
  have hal := h.heap_lt hn ham
  have hbl := h.heap_lt hn hbm
  have hmin_a : ∀ x ∈ s.heap, s.weight a ≤ s.weight x := by
    intro x hx
    have := h.ordered.root_least_mem ho hx
    rw [ha] at this
    exact ((State.less_eq_false _ _ _).mp this).1
  have hmin_b : ∀ x ∈ h2', s.weight b ≤ s.weight x := by
    intro x hx
    have hx' : x ∈ h1' := hp2.symm.subset (List.mem_cons_of_mem _ hx)
    have := hord1.root_least_mem ho hx'
    rw [hb] at this
    exact ((State.less_eq_false _ _ _).mp this).1
  have hab : s.weight a ≤ s.weight b := hmin_a b hbm
  have hsum : s.weight a + (s.weight b + (h2'.map s.weight).sum) = W := by
    have := (hall.map s.weight).sum_eq
    rw [h.weight] at this
    simpa using this.symm
  have hcnt := h.count
  have hhl := h.heapLe
  have hlen2 : h2'.length + 2 = s.heap.length := by omega
  have hcount : s.nodeCount < 511 := by show s.nodes.length < 511; omega
  have hfit : s.weight a + s.weight b < 2 ^ 64 := by omega
  have hfn : (BitVec.ofNat 64 (s.weight a + s.weight b)).toNat = s.weight a + s.weight b := by
    rw [BitVec.toNat_ofNat]; exact Nat.mod_eq_of_lt hfit
  generalize hF : BitVec.ofNat 64 (s.weight a + s.weight b) = F at hfn
  have hix : s.nextNode.toNat = s.nodeCount := toNat_ofNat9 (by omega)
  refine ⟨a, b, { s.addNode (.internal F a b) with
    heap := pushHeap ({ s.addNode (.internal F a b) with heap := h2' } : State).less h2' s.nextNode }, ?_, ?_, ?_, ?_, ?_, ?_⟩
  · rw [heapExtract_ok hne, ha, hh1]
  · rw [heapExtract_ok (s := { s with heap := h1' }) hne2]
    show Res.ok (slot h1' 0) { s with heap := popHeap s.less h1' } = _
    rw [hb, hh2]
  · have := newJoin_ok (s := { s with heap := h2' }) (a := a) (b := b) hal hbl (by show s.nodes.length ≠ 511; omega) hfit
    rw [this]
    subst hF
    rfl
  · subst hF
    exact heapInsert_ok (by show h2'.length ≠ 512; omega)
  · generalize ht : ({ s.addNode (.internal F a b) with
      heap := pushHeap ({ s.addNode (.internal F a b) with heap := h2' } : State).less h2' s.nextNode } : State) = t
    have hold : ∀ i : NodeIx, i.toNat < s.nodeCount → t.node i = s.node i := by
      intro i hi; subst ht; exact State.node_addNode_old _ hi
    have hnew : t.node s.nextNode = .internal F a b := by subst ht; exact State.node_addNode_new _ (by omega)
    have hnodes : t.nodes = s.nodes ++ [.internal F a b] := by subst ht; rfl
    have hperm : t.heap.Perm (s.nextNode :: h2') := by subst ht; exact pushHeap_perm _ _ _
    have hsub : ∀ x ∈ h2', x ∈ s.heap := fun x hx => hall.symm.subset (by simp [hx])
    have hcases : ∀ i : NodeIx, i.toNat < t.nodeCount → i.toNat < s.nodeCount ∨ i = s.nextNode := by
      intro i hi
      have : t.nodeCount = s.nodeCount + 1 := by simp [State.nodeCount, hnodes]
      by_cases h' : i.toNat < s.nodeCount
      · exact .inl h'
      · right; apply BitVec.eq_of_toNat_eq; omega
    have hqold : ∀ i : NodeIx, i.toNat < s.nodeCount → t.weight i = s.weight i := fun i hi => by simp only [State.weight, hold i hi]
    have hqnew : t.weight s.nextNode = s.weight a + s.weight b := by simp only [State.weight, hnew, Node.freq, hfn]
    constructor
    · have := hperm.length_eq; simp [hnodes] at *; omega
    · have := hperm.length_eq; simp at *; omega
    · have hless : t.less = ({ s.addNode (.internal F a b) with heap := h2' } : State).less := by subst ht; rfl
      rw [hless]
      subst ht
      refine pushHeap_ordered (State.less_weakOrder _) (hord2.congr fun x hx y hy => ?_) _
      exact State.less_addNode _ (h.heap_lt hn (hsub x hx)) (h.heap_lt hn (hsub y hy))
    · rw [hnodes, List.flatMap_append, List.length_append]
      show (t.heap ++ (s.nodes.flatMap childList ++ [a, b])).Perm (indices (s.nodes.length + 1))
      rw [indices_succ]
      refine (hperm.append_right _).trans ?_
      rw [List.cons_append]
      refine List.Perm.trans ?_ (List.perm_append_singleton _ _).symm
      refine List.Perm.cons _ ?_
      refine List.Perm.trans ?_ h.once
      rw [← List.append_assoc]
      refine (List.perm_append_comm).trans ?_
      exact (hall.append_right _).symm
    · rw [(hperm.map t.weight).sum_eq, List.map_cons, List.sum_cons, hqnew,
        List.map_congr_left fun x hx => hqold x (h.heap_lt hn (hsub x hx))]
      omega
    · intro k nd hk hnd
      rw [hnodes, List.getElem?_append] at hnd
      split at hnd
      · rename_i hkl
        obtain ⟨f, l, r, e, hl, hr, hsum⟩ := h.joins k nd hk hnd
        refine ⟨f, l, r, e, hl, hr, ?_⟩
        rw [hqold l (by show l.toNat < s.nodes.length; omega), hqold r (by show r.toNat < s.nodes.length; omega)]
        exact hsum
      · rename_i hkl
        have hal' : a.toNat < s.nodes.length := hal
        have hbl' : b.toNat < s.nodes.length := hbl
        have hk0 : k - s.nodes.length = 0 := by
          by_contra hne
          rw [List.getElem?_eq_none (by simp; omega)] at hnd
          simp at hnd
        rw [hk0] at hnd
        simp at hnd
        subst hnd
        refine ⟨F, a, b, rfl, by omega, by omega, ?_⟩
        rw [hqold a hal, hqold b hbl, hfn]
    · intro k nd hk hnd
      rw [hnodes, List.getElem?_append] at hnd
      split at hnd
      · exact h.leaves k nd hk hnd
      · omega
    · intro i hi
      rcases hcases i hi with hi | rfl
      · rw [hqold i hi]; exact h.positive i hi
      · rw [hqnew]; have := h.positive a hal; omega
    · intro i hi x hx c hc
      have hx' := hperm.subset hx
      have hxq : s.weight b ≤ t.weight x ∧ (x ∈ h2' → t.weight x = s.weight x) := by
        rcases List.mem_cons.mp hx' with rfl | hx2
        · exact ⟨by rw [hqnew]; omega, fun hx2 => by
            have := h.heap_lt hn (hsub _ hx2); omega⟩
        · have e := hqold x (h.heap_lt hn (hsub x hx2))
          exact ⟨by rw [e]; exact hmin_b x hx2, fun _ => e⟩
      rcases hcases i hi with hi | rfl
      · rw [hold i hi] at hc
        rw [hqold c (h.child_lt hn hi hc)]
        have := h.heavier i hi b hbm c hc
        omega
      · rw [hnew] at hc
        simp only [childList, List.mem_cons, List.not_mem_nil, or_false] at hc
        rcases hc with rfl | rfl
        · rw [hqold _ hal]; omega
        · rw [hqold _ hbl]; omega
    · intro i hi f l r hnd
      rcases hcases i hi with hi | rfl
      · rw [hold i hi] at hnd
        have hl : l.toNat < s.nodeCount := h.child_lt hn hi (by rw [hnd]; simp [childList])
        have hr : r.toNat < s.nodeCount := h.child_lt hn hi (by rw [hnd]; simp [childList])
        obtain ⟨h3, h4⟩ := h.siblings i hi f l r hnd
        constructor
        · intro c hc
          rw [hold r hr] at hc
          rw [hqold c (h.child_lt hn hr hc), hqold l hl]
          exact h3 c hc
        · intro c hc
          rw [hold l hl] at hc
          rw [hqold c (h.child_lt hn hl hc), hqold r hr]
          exact h4 c hc
      · rw [hnew] at hnd
        simp only [Node.internal.injEq] at hnd
        obtain ⟨-, rfl, rfl⟩ := hnd
        constructor
        · intro c hc
          rw [hold _ hbl] at hc
          rw [hqold c (h.child_lt hn hbl hc), hqold _ hal]
          exact h.heavier _ hbl _ ham c hc
        · intro c hc
          rw [hold _ hal] at hc
          rw [hqold c (h.child_lt hn hal hc), hqold _ hbl]
          exact h.heavier _ hal _ hbm c hc
    · intro k f l r hnd
      have hless : t.less = ({ s.addNode (.internal F a b) with heap := h2' } : State).less := by subst ht; rfl
      have hlold : ∀ x y : NodeIx, x.toNat < s.nodeCount → y.toNat < s.nodeCount → t.less x y = s.less x y := by
        intro x y hx hy
        rw [hless]
        exact State.less_addNode _ hx hy
      have hnold : ∀ m : Nat, m < s.nodes.length → t.nodes[m]? = s.nodes[m]? := by
        intro m hm
        rw [hnodes, List.getElem?_append_left hm]
      rw [hnodes, List.getElem?_append] at hnd
      split at hnd
      · rename_i hkl
        exact (h.least k f l r hnd).congr (fun m hm => hnold m (by omega))
          fun x y hx hy => hlold x y (by show x.toNat < s.nodes.length; omega) (by show y.toNat < s.nodes.length; omega)
      · rename_i hkl
        have hk0 : k = s.nodes.length := by
          by_contra hne
          rw [List.getElem?_eq_none (by simp; omega)] at hnd
          simp at hnd
        subst hk0
        simp at hnd
        obtain ⟨-, rfl, rfl⟩ := hnd
        have hnd := (h.once.nodup_iff).mpr (nodup_indices (h.nodes_le hn))
        have hdis := List.disjoint_of_nodup_append hnd
        have hfree : ∀ x ∈ s.heap, s.unjoinedBefore s.nodes.length x := by
          intro x hx
          refine ⟨h.heap_lt hn hx, fun m nd hm hmn hc => hdis hx ?_⟩
          exact List.mem_flatMap.mpr ⟨nd, List.mem_of_getElem? hmn, hc⟩
        have hheap : ∀ j, s.unjoinedBefore s.nodes.length j → j ∈ s.heap := by
          intro j hj
          have := h.once.symm.subset ((mem_indices (h.nodes_le hn)).mpr hj.1)
          rcases List.mem_append.mp this with hj1 | hj1
          · exact hj1
          · obtain ⟨nd, hnm, hc⟩ := List.mem_flatMap.mp hj1
            obtain ⟨m, hm, e⟩ := List.getElem_of_mem hnm
            exact absurd hc (hj.2 m nd hm (by rw [List.getElem?_eq_getElem hm, e]))
        have hnh := (hall.nodup_iff).mp (List.Nodup.of_append_left hnd)
        have : s.LeastPair s.nodes.length a b := by
          refine ⟨hfree a ham, hfree b hbm, ?_, ?_, ?_⟩
          · intro e; subst e; simp at hnh
          · have := h.ordered.root_least_mem ho hbm
            rwa [ha] at this
          · intro j hj hja hjb
            have hjm := hall.subset (hheap j hj)
            simp only [List.mem_cons, hja, hjb, false_or] at hjm
            have := hord1.root_least_mem ho (hp2.symm.subset (List.mem_cons_of_mem _ hjm))
            rwa [hb] at this
        exact this.congr hnold fun x y hx hy => hlold x y hx hy
  · rw [pushHeap_length]
    omega

end Forest

end Sys2Proof.Machine
end

