-- ==== Sys2Proof/Laws/TreeBuild.lean ====
section
/-! SUPPORT. TREE_BUILD (43_tree.md R174 to R181): what its two loops do, and the state it leaves. -/

namespace Sys2Proof.Machine

/-- The symbols 256-n, …, 255, ascending. -/
def tailSyms (n : Nat) : List Sym := (List.range n).map fun j => BitVec.ofNat 8 (256 - n + j)

theorem tailSyms_succ {n : Nat} (h : n < 256) : tailSyms (n + 1) = BitVec.ofNat 8 (256 - (n + 1)) :: tailSyms n := by
  unfold tailSyms
  rw [List.range_succ_eq_map, List.map_cons, List.map_map]
  refine congrArg₂ _ (by simp) (List.map_congr_left fun j _ => ?_)
  simp only [Function.comp]
  congr 1; omega

theorem tailSyms_all : tailSyms 256 = (List.range 256).map fun k => (BitVec.ofNat 8 k : Sym) := by
  unfold tailSyms
  refine List.map_congr_left fun j _ => ?_
  simp

/-- Whether the symbol's count is positive. -/
def State.counts (s : State) (sym : Sym) : Bool := decide (0 < (s.freqAt sym).toNat)

/-- The leaf TREE_BUILD makes for a symbol (R170, R176). -/
def State.leafOf (s : State) (sym : Sym) : Node := .leaf sym ((s.freqAt sym).zeroExtend 64)

theorem State.positive_eq (s : State) : s.positive = (tailSyms 256).filter s.counts := by rw [tailSyms_all]; rfl

/-- TB_LEAF (R176). -/
theorem leafLoop_spec : ∀ (n leaves W : Nat) (s : State), n ≤ 256 → leaves + n ≤ 256 → Forest s leaves W →
    s.nodes.length = leaves →
    ∃ t : State, leafLoop n leaves s = .ok (leaves + ((tailSyms n).filter s.counts).length) t ∧
      Forest t (leaves + ((tailSyms n).filter s.counts).length)
        (W + (((tailSyms n).filter s.counts).map fun k => (s.freqAt k).toNat).sum) ∧
      t.nodes = s.nodes ++ ((tailSyms n).filter s.counts).map s.leafOf ∧
      t = { s with nodes := t.nodes, heap := t.heap }
  | 0, leaves, W, s, _, _, hF, _ => ⟨s, by simp [leafLoop, tailSyms], by simpa [tailSyms] using hF, by simp [tailSyms], rfl⟩
  | n + 1, leaves, W, s, hn, hl, hF, hlen => by
    rw [tailSyms_succ (by omega)]
    generalize hk : (BitVec.ofNat 8 (256 - (n + 1)) : Sym) = k
    have hun : leafLoop (n + 1) leaves s =
        if 0 < (s.freqAt k).toNat then
          (newLeaf k s).andThen fun i t => (heapInsert i t).andThen fun _ u => leafLoop n (leaves + 1) u
        else leafLoop n leaves s := by
      rw [leafLoop]; simp only [hk]
    rw [hun]
    by_cases hpos : 0 < (s.freqAt k).toNat
    · have hc : s.counts k = true := by simp [State.counts, hpos]
      have h1 : s.nodeCount ≠ 511 := by show s.nodes.length ≠ 511; omega
      have hcnt := hF.count
      have hh : s.heap.length ≠ 512 := by have := hF.heapLe; omega
      generalize hu : ({ s.addNode (s.leafOf k) with
        heap := pushHeap (s.addNode (s.leafOf k)).less s.heap s.nextNode } : State) = u
      have hins : heapInsert s.nextNode (s.addNode (s.leafOf k)) = .ok () u := by
        rw [← hu]; exact heapInsert_ok (by exact hh)
      have hf64 : ((s.freqAt k).zeroExtend 64).toNat = (s.freqAt k).toNat := by
        have := (s.freqAt k).isLt
        simp only [BitVec.zeroExtend, BitVec.toNat_setWidth]
        omega
      have hFu : Forest u (leaves + 1) (W + (s.freqAt k).toNat) := by
        have := hF.addLeaf (by omega) hlen (sym := k) (f := (s.freqAt k).zeroExtend 64) (by rw [hf64]; exact hpos) hu.symm
        rwa [hf64] at this
      have hun : u.nodes = s.nodes ++ [s.leafOf k] := by rw [← hu]; rfl
      have hus : u = { s with nodes := u.nodes, heap := u.heap } := by rw [← hu]; rfl
      have hcu : u.counts = s.counts := by rw [hus]; rfl
      have hfu : u.freqAt = s.freqAt := by rw [hus]; rfl
      have hlu : u.leafOf = s.leafOf := by funext x; simp only [State.leafOf, hfu]
      obtain ⟨t, h2, h3, h4, h5⟩ := leafLoop_spec n (leaves + 1) (W + (s.freqAt k).toNat) u (by omega) (by omega) hFu
        (by rw [hun]; simp [hlen])
      rw [hcu] at h2 h3 h4
      rw [hfu] at h3
      rw [hlu, hun] at h4
      refine ⟨t, ?_, ?_, ?_, ?_⟩
      · rw [if_pos hpos, newLeaf_ok h1]
        show (heapInsert s.nextNode (s.addNode (s.leafOf k))).andThen _ = _
        rw [hins, Res.ok_andThen, h2, List.filter_cons_of_pos hc, List.length_cons]
        congr 1; omega
      · rw [List.filter_cons_of_pos hc, List.length_cons, List.map_cons, List.sum_cons]
        convert h3 using 1 <;> omega
      · rw [List.filter_cons_of_pos hc, h4, List.map_cons]; simp
      · rw [hus] at h5; exact h5
    · have hc : ¬ s.counts k = true := by simp [State.counts, hpos]
      rw [if_neg hpos, List.filter_cons_of_neg hc]
      exact leafLoop_spec n leaves W s (by omega) (by omega) hF hlen

/-- TB_MERGE (R177). -/
theorem mergeLoop_spec {n W : Nat} (hn : n ≤ 256) (hW : W < 2 ^ 64) : ∀ (fuel : Nat) (s : State), Forest s n W →
    s.heap.length ≤ fuel →
    ∃ t : State, mergeLoop fuel s = .ok () t ∧ Forest t n W ∧ t.heap.length = min 1 s.heap.length ∧ s.nodes <+: t.nodes ∧
      t = { s with nodes := t.nodes, heap := t.heap }
  | 0, s, hF, hl => ⟨s, rfl, hF, by omega, List.prefix_refl _, rfl⟩
  | fuel + 1, s, hF, hl => by
    by_cases h1 : 1 < s.heap.length
    · obtain ⟨a, b, u, e1, e2, e3, e4, hFu, hlu⟩ := hF.merge hn hW h1
      obtain ⟨t, e5, hFt, hlt, hpre, hst⟩ := mergeLoop_spec hn hW fuel u hFu (by omega)
      have hu := e4
      rw [heapInsert] at hu
      split at hu
      · simp at hu
      · simp only [Res.ok.injEq, true_and] at hu
        refine ⟨t, ?_, hFt, by omega, ?_, ?_⟩
        · rw [mergeLoop]
          have : 1 < s.pqSize := h1
          rw [if_pos this, e1, Res.ok_andThen, e2, Res.ok_andThen, e3, Res.ok_andThen, e4, Res.ok_andThen, e5]
        · refine List.IsPrefix.trans ?_ hpre
          rw [← hu]
          exact List.prefix_append _ _
        · rw [hst, ← hu]; rfl
    · refine ⟨s, ?_, hF, by omega, List.prefix_refl _, rfl⟩
      have : ¬ 1 < s.pqSize := h1
      rw [mergeLoop, if_neg this]

theorem ofNat8_toNat {k : Nat} (h : k < 256) : (BitVec.ofNat 8 k : Sym).toNat = k := by simp; omega

/-- The table as a list. -/
theorem State.freq_toList (s : State) :
    s.freq.toList = (List.range 256).map fun k => s.freqAt (BitVec.ofNat 8 k) := by
  refine List.ext_getElem (by simp) fun k h1 h2 => ?_
  have hk : k < 256 := by simpa using h1
  simp [State.freqAt, Nat.mod_eq_of_lt hk]

/-- The code table as a list. -/
theorem State.code_toList (s : State) :
    s.code.toList = (List.range 256).map fun k => s.codeAt (BitVec.ofNat 8 k) := by
  refine List.ext_getElem (by simp) fun k h1 h2 => ?_
  have hk : k < 256 := by simpa using h1
  simp [State.codeAt, Nat.mod_eq_of_lt hk]

theorem sum_filter_pos {α : Type} (f : α → Nat) (l : List α) :
    ((l.filter fun a => decide (0 < f a)).map f).sum = (l.map f).sum := by
  induction l with
  | nil => rfl
  | cons a l ih =>
    by_cases h : 0 < f a
    · simp [h, ih]
    · simp [h, ih]; omega

/-- The positive counts sum to all counts. -/
theorem State.sum_positive (s : State) : (s.positive.map fun k => (s.freqAt k).toNat).sum = s.freqSum := by
  unfold State.positive State.freqSum
  rw [sum_filter_pos, s.freq_toList, List.map_map, List.map_map]
  rfl

theorem State.freqSum_lt (s : State) : s.freqSum < 2 ^ 40 := by
  have : ∀ l : List Word, (l.map BitVec.toNat).sum ≤ l.length * (2 ^ 32 - 1) := by
    intro l
    induction l with
    | nil => simp
    | cons a l ih =>
      have := a.isLt
      simp only [List.map_cons, List.sum_cons, List.length_cons]
      omega
  have h := this s.freq.toList
  unfold State.freqSum
  simp at h
  omega

theorem State.positive_length_le (s : State) : s.positive.length ≤ 256 := by
  unfold State.positive
  refine (List.length_filter_le _ _).trans ?_
  simp

theorem State.nodup_positive (s : State) : s.positive.Nodup := by
  unfold State.positive
  refine List.Nodup.filter _ (List.Nodup.map_on (fun x hx y hy h => ?_) List.nodup_range)
  simp only [List.mem_range] at hx hy
  have := congrArg BitVec.toNat h
  rwa [ofNat8_toNat hx, ofNat8_toNat hy] at this

theorem State.mem_positive (s : State) (sym : Sym) : sym ∈ s.positive ↔ 0 < (s.freqAt sym).toNat := by
  unfold State.positive
  simp only [List.mem_filter, List.mem_map, List.mem_range, decide_eq_true_eq, and_iff_right_iff_imp]
  intro _
  exact ⟨sym.toNat, sym.isLt, by simp⟩

/-- TREE_BUILD up to TB_DONE: the forest has come down to one tree, or none (R175 to R177, R181). -/
theorem treeBuild_forest (s : State) : ∃ v : State, treeBuild s = .ok () (v.takeRoot s.positive.length) ∧
    Forest v s.positive.length s.freqSum ∧ v.heap.length = min 1 s.positive.length ∧
    (s.positive.map s.leafOf) <+: v.nodes ∧ v = { s.clearTree with nodes := v.nodes, heap := v.heap } := by
  have hF0 : Forest s.clearTree 0 0 := Forest.empty rfl rfl
  obtain ⟨t, h1, h2, h3, h4⟩ := leafLoop_spec 256 0 0 s.clearTree le_rfl le_rfl hF0 rfl
  have hc : s.clearTree.counts = s.counts := rfl
  have hp : (tailSyms 256).filter s.clearTree.counts = s.positive := by rw [hc, s.positive_eq]
  have hfq : s.clearTree.freqAt = s.freqAt := rfl
  rw [hp, Nat.zero_add] at h1 h2
  rw [hp] at h3
  rw [hfq, s.sum_positive, Nat.zero_add] at h2
  have hle := s.positive_length_le
  obtain ⟨v, e1, e2, e3, e4, e5⟩ := mergeLoop_spec hle (by have := s.freqSum_lt; omega) t.pqSize t h2 le_rfl
  have hcl : s.clearTree.nodes = [] := rfl
  have hll : s.clearTree.leafOf = s.leafOf := rfl
  rw [hcl, List.nil_append, hll] at h3
  have hlt : t.heap.length = s.positive.length := by
    have := h2.count
    rw [h3] at this
    simp at this
    omega
  refine ⟨v, ?_, e2, by rw [e3, hlt], ?_, ?_⟩
  · unfold treeBuild
    rw [h1, Res.ok_andThen, e1]
    rfl
  · rw [← h3]; exact e4
  · rw [h4] at e5; exact e5

/-- The one tree left is the last node made (R178). -/
theorem Forest.root_last {v : State} {n W : Nat} (h : Forest v n W) (hn : n ≤ 256) {r : NodeIx} (hh : v.heap = [r]) :
    v.nodes.length = 2 * n - 1 ∧ r.toNat = v.nodes.length - 1 ∧
      (v.nodes.flatMap childList).Perm (indices (v.nodes.length - 1)) := by
  have hc := h.count
  rw [hh] at hc
  simp at hc
  have hlen : v.nodes.length = 2 * n - 1 := by omega
  obtain ⟨m, hm⟩ : ∃ m, v.nodes.length = m + 1 := ⟨v.nodes.length - 1, by omega⟩
  have ho := h.once
  rw [hh, hm, indices_succ] at ho
  have hnd := (ho.nodup_iff).mpr (by rw [← indices_succ]; exact nodup_indices (by omega))
  -- the last index is no child: children lie below their parent
  have hlast : ∀ nd ∈ v.nodes, ∀ c ∈ childList nd, c.toNat < m := by
    intro nd hnd c hc
    obtain ⟨k, hk, e⟩ := List.getElem_of_mem hnd
    have hget : v.nodes[k]? = some nd := by rw [List.getElem?_eq_getElem hk, e]
    by_cases hkn : k < n
    · have := h.leaves k nd hkn hget
      cases nd with
      | leaf _ _ => simp [childList] at hc
      | internal _ _ _ => simp [Node.isInternal] at this
    · obtain ⟨f, l, r', e', hl, hr, -⟩ := h.joins k nd (by omega) hget
      subst e'
      simp only [childList, List.mem_cons, List.not_mem_nil, or_false] at hc
      rcases hc with rfl | rfl <;> omega
  have hmem : BitVec.ofNat 9 m ∈ [r] ++ v.nodes.flatMap childList := ho.symm.subset (by simp)
  have hr : BitVec.ofNat 9 m = r := by
    rcases List.mem_append.mp hmem with h1 | h1
    · simpa using h1
    · obtain ⟨nd, h2, h3⟩ := List.mem_flatMap.mp h1
      have := hlast nd h2 _ h3
      rw [toNat_ofNat9 (by omega)] at this
      omega
  refine ⟨hlen, ?_, ?_⟩
  · rw [← hr, toNat_ofNat9 (by omega)]; omega
  · have : (r :: v.nodes.flatMap childList).Perm (r :: indices m) := by
      refine ho.trans ?_
      rw [hr]
      exact List.perm_append_singleton _ _
    rw [hm]
    exact (List.perm_cons r).mp this

/-- TREE_BUILD never raises and leaves a built tree (R174 to R178, R181). -/
theorem treeBuild_spec (s : State) : ∃ u : State, treeBuild s = .ok () u ∧
    u = { s with nodes := u.nodes, heap := [], root := u.root, result := BitVec.ofNat 32 s.positive.length } ∧
    BuiltTree s u := by
  obtain ⟨v, h1, hF, hlen, hpre, hv⟩ := treeBuild_forest s
  have hle := s.positive_length_le
  refine ⟨_, h1, ?_, ?_⟩
  · have hh : (v.takeRoot s.positive.length).heap = [] := by
      simp only [State.takeRoot]
      split
      · rfl
      · rename_i hne
        have hne' : ¬ v.heap.length = 1 := hne
        exact List.eq_nil_of_length_eq_zero (by omega)
    rw [← hh, hv]; rfl
  · have hnode : (v.takeRoot s.positive.length).node = v.node := rfl
    by_cases hn : s.positive.length = 0
    · have hp : s.positive = [] := List.eq_nil_of_length_eq_zero hn
      have hv0 : v.nodes = [] := by
        have := hF.count
        exact List.eq_nil_of_length_eq_zero (by omega)
      have hh0 : v.heap.length = 0 := by omega
      constructor
      · intro i sym h; simp [hp] at h
      · show v.nodes.length = _; simp [hv0, hp]
      · intro k nd _ h
        have h' : v.nodes[k]? = some nd := h
        simp [hv0] at h'
      · show (v.nodes.flatMap childList).Perm ((List.range (v.nodes.length - 1)).map _)
        simp [hv0]
      · rw [if_pos hp]
        show (if v.pqSize = 1 then slot v.heap 0 else v.root) = nilIx
        have : ¬ v.pqSize = 1 := by show ¬ v.heap.length = 1; omega
        rw [if_neg this, hv]; rfl
      · intro h; exact absurd hp h
    · obtain ⟨r, hr⟩ : ∃ r, v.heap = [r] := by
        have : v.heap.length = 1 := by omega
        exact List.length_eq_one_iff.mp this
      obtain ⟨e1, e2, e3⟩ := hF.root_last hle hr
      have hroot : (v.takeRoot s.positive.length).root = r := by
        show (if v.pqSize = 1 then slot v.heap 0 else v.root) = r
        have : v.pqSize = 1 := by show v.heap.length = 1; simp [hr]
        rw [if_pos this, hr]; rfl
      constructor
      · intro i sym h
        have : (s.positive.map s.leafOf)[i]? = some (s.leafOf sym) := by simp [h]
        obtain ⟨rest, hrest⟩ := hpre
        show v.nodes[i]? = _
        rw [← hrest, List.getElem?_append_left]
        · exact this
        · exact (List.getElem?_eq_some_iff.mp this).1
      · exact e1
      · intro k nd hk h
        exact hF.joins k nd hk h
      · exact e3
      · rw [hroot, if_neg (by intro h; simp [h] at hn)]
        apply BitVec.eq_of_toNat_eq
        rw [toNat_ofNat9 (by show v.nodes.length - 1 < 512; omega)]
        exact e2
      · intro _
        have := hF.weight
        rw [hr] at this
        rw [hroot]
        simpa [State.weight, hnode] using this

end Sys2Proof.Machine
end

