-- ==== Sys2Proof/Laws/Paths.lean ====
section
/-! SUPPORT. Paths in the node arena (44_codegen.md R191): following a path, the leaves below a node with their paths, the
Kraft sum, and that a tree built by TREE_BUILD is proper (R193). -/

namespace Sys2Proof.Machine

variable {s t : State}

/-- The child a bit selects. -/
def Node.child (b : Bool) (nd : Node) : NodeIx := if b then nd.right else nd.left

theorem Reach.cons {n : NodeIx} {b : Bool} {p : List Bool} {m : NodeIx} (hi : (s.node n).isInternal = true)
    (h : Reach s (Node.child b (s.node n)) p m) : Reach s n (b :: p) m := by
  cases hn : s.node n with
  | leaf _ _ => simp [hn, Node.isInternal] at hi
  | internal f l r =>
    rw [hn] at h
    cases b
    · exact .left hn h
    · exact .right hn h

theorem Reach.cons_inv {n : NodeIx} {b : Bool} {p : List Bool} {m : NodeIx} (h : Reach s n (b :: p) m) :
    (s.node n).isInternal = true ∧ Reach s (Node.child b (s.node n)) p m := by
  cases h with
  | left hn h => exact ⟨by rw [hn]; rfl, by rw [hn]; exact h⟩
  | right hn h => exact ⟨by rw [hn]; rfl, by rw [hn]; exact h⟩

theorem Reach.nil_inv {n m : NodeIx} (h : Reach s n [] m) : m = n := by cases h; rfl

/-- A path leads to one node. -/
theorem Reach.det : ∀ {p : List Bool} {n m m' : NodeIx}, Reach s n p m → Reach s n p m' → m = m'
  | [], _, _, _, h, h' => by rw [h.nil_inv, h'.nil_inv]
  | _ :: _, _, _, _, h, h' => h.cons_inv.2.det h'.cons_inv.2

theorem Reach.append : ∀ {p q : List Bool} {n m k : NodeIx}, Reach s n p m → Reach s m q k → Reach s n (p ++ q) k
  | [], _, _, _, _, h, h' => by rw [h.nil_inv] at h'; exact h'
  | _ :: _, _, _, _, _, h, h' => .cons h.cons_inv.1 (h.cons_inv.2.append h')

theorem Reach.split : ∀ {p q : List Bool} {n k : NodeIx}, Reach s n (p ++ q) k → ∃ m, Reach s n p m ∧ Reach s m q k
  | [], _, n, _, h => ⟨n, .here n, h⟩
  | _ :: _, _, _, _, h => by
    obtain ⟨m, h1, h2⟩ := h.cons_inv.2.split
    exact ⟨m, .cons h.cons_inv.1 h1, h2⟩

theorem Reach.single {n : NodeIx} (b : Bool) (hi : (s.node n).isInternal = true) :
    Reach s n [b] (Node.child b (s.node n)) := .cons hi (.here _)

/-- Paths depend on the nodes alone. -/
theorem Reach.congr (hn : t.node = s.node) : ∀ {p : List Bool} {n m : NodeIx}, Reach s n p m → Reach t n p m
  | [], _, _, h => by rw [h.nil_inv]; exact .here _
  | _ :: _, _, _, h => .cons (by rw [hn]; exact h.cons_inv.1) (by rw [hn]; exact h.cons_inv.2.congr hn)

theorem LeafAt.congr (hn : t.node = s.node) {n : NodeIx} {p : List Bool} {sym : Sym} (h : LeafAt s n p sym) :
    LeafAt t n p sym := by
  obtain ⟨m, f, h1, h2⟩ := h
  exact ⟨m, f, h1.congr hn, by rw [hn]; exact h2⟩

theorem ProperTree.congr (hn : t.node = s.node) {n : NodeIx} (h : ProperTree s n) : ProperTree t n where
  noSharing p q m h1 h2 := h.noSharing p q m (h1.congr hn.symm) (h2.congr hn.symm)
  oneLeaf p q sym h1 h2 := h.oneLeaf p q sym (h1.congr hn.symm) (h2.congr hn.symm)
  depth p m h1 h2 := h.depth p m (h1.congr hn.symm) (by rw [← hn]; exact h2)

/-- No path goes on from a leaf. -/
theorem Reach.of_leaf {n m : NodeIx} {p : List Bool} (h : Reach s n p m) (hl : (s.node n).isInternal = false) :
    p = [] ∧ m = n := by
  cases p with
  | nil => exact ⟨rfl, h.nil_inv⟩
  | cons b p => have := h.cons_inv.1; rw [hl] at this; simp at this

/-- The path to a leaf determines the symbol. -/
theorem LeafAt.det {n : NodeIx} {p : List Bool} {a b : Sym} (h : LeafAt s n p a) (h' : LeafAt s n p b) : a = b := by
  obtain ⟨m, f, h1, h2⟩ := h
  obtain ⟨m', f', h3, h4⟩ := h'
  rw [h1.det h3] at h2
  rw [h2] at h4
  simp only [Node.leaf.injEq] at h4
  exact h4.1

/-- No leaf's path is a prefix of another leaf's path (R193). -/
theorem LeafAt.prefix_eq {n : NodeIx} {p q : List Bool} {a b : Sym} (h : LeafAt s n p a) (h' : LeafAt s n q b)
    (hp : p <+: q) : p = q ∧ a = b := by
  obtain ⟨e, rfl⟩ := hp
  obtain ⟨m, f, h1, h2⟩ := h
  obtain ⟨m', f', h3, h4⟩ := h'
  obtain ⟨k, h5, h6⟩ := h3.split
  rw [← h1.det h5] at h6
  obtain ⟨rfl, rfl⟩ := h6.of_leaf (by rw [h2]; rfl)
  rw [h2] at h4
  simp only [Node.leaf.injEq] at h4
  exact ⟨by simp, h4.1⟩

/-! The leaves below a node -/

/-- The leaves below a node with their paths, to a depth. -/
def leafPaths (s : State) : Nat → NodeIx → List (Sym × List Bool)
  | 0, _ => []
  | k + 1, n =>
    match s.node n with
    | .leaf sym _ => [(sym, [])]
    | .internal _ l r =>
      (leafPaths s k l).map (fun x => (x.1, false :: x.2)) ++ (leafPaths s k r).map (fun x => (x.1, true :: x.2))

/-- Every internal node below n lies at a depth below d. -/
def DepthBelow (s : State) (d : Nat) (n : NodeIx) : Prop :=
  ∀ p m, Reach s n p m → (s.node m).isInternal = true → p.length < d

theorem DepthBelow.leaf {n : NodeIx} (h : DepthBelow s 0 n) : (s.node n).isInternal = false := by
  by_contra hne
  have := h [] n (.here n) (by simpa using hne)
  simp at this

theorem DepthBelow.child {d : Nat} {n : NodeIx} (h : DepthBelow s (d + 1) n) (hi : (s.node n).isInternal = true) (b : Bool) :
    DepthBelow s d (Node.child b (s.node n)) := by
  intro p m h1 h2
  have := h (b :: p) m (.cons hi h1) h2
  simpa using this

theorem mem_leafPaths : ∀ {d : Nat} {n : NodeIx}, DepthBelow s d n → ∀ (sym : Sym) (p : List Bool),
    (sym, p) ∈ leafPaths s (d + 1) n ↔ LeafAt s n p sym := by
  intro d
  induction d with
  | zero =>
    intro n hd sym p
    have := hd.leaf
    cases hn : s.node n with
    | leaf x f =>
      simp only [leafPaths, hn, List.mem_singleton, Prod.mk.injEq]
      constructor
      · rintro ⟨rfl, rfl⟩; exact ⟨n, f, .here n, hn⟩
      · rintro ⟨m, g, h1, h2⟩
        obtain ⟨rfl, rfl⟩ := h1.of_leaf this
        rw [hn] at h2
        simp only [Node.leaf.injEq] at h2
        exact ⟨h2.1.symm, rfl⟩
    | internal _ _ _ => simp [hn, Node.isInternal] at this
  | succ d ih =>
    intro n hd sym p
    cases hn : s.node n with
    | leaf x f =>
      simp only [leafPaths, hn, List.mem_singleton, Prod.mk.injEq]
      constructor
      · rintro ⟨rfl, rfl⟩; exact ⟨n, f, .here n, hn⟩
      · rintro ⟨m, g, h1, h2⟩
        obtain ⟨rfl, rfl⟩ := h1.of_leaf (by rw [hn]; rfl)
        rw [hn] at h2
        simp only [Node.leaf.injEq] at h2
        exact ⟨h2.1.symm, rfl⟩
    | internal f l r =>
      have hi : (s.node n).isInternal = true := by rw [hn]; rfl
      have h0 : DepthBelow s d l := by have := hd.child hi false; rwa [hn] at this
      have h1 : DepthBelow s d r := by have := hd.child hi true; rwa [hn] at this
      rw [leafPaths, hn]
      simp only [List.mem_append, List.mem_map, Prod.mk.injEq, Prod.exists]
      constructor
      · rintro (⟨a, q, h2, rfl, rfl⟩ | ⟨a, q, h2, rfl, rfl⟩)
        · obtain ⟨m, g, h3, h4⟩ := (ih h0 a q).mp h2
          exact ⟨m, g, .left hn h3, h4⟩
        · obtain ⟨m, g, h3, h4⟩ := (ih h1 a q).mp h2
          exact ⟨m, g, .right hn h3, h4⟩
      · rintro ⟨m, g, h3, h4⟩
        cases p with
        | nil =>
          rw [h3.nil_inv, hn] at h4; simp at h4
        | cons b q =>
          have h5 := h3.cons_inv.2
          rw [hn] at h5
          cases b
          · exact .inl ⟨sym, q, (ih h0 sym q).mpr ⟨m, g, h5, h4⟩, rfl, rfl⟩
          · exact .inr ⟨sym, q, (ih h1 sym q).mpr ⟨m, g, h5, h4⟩, rfl, rfl⟩

theorem nodup_leafPaths : ∀ (d : Nat) (n : NodeIx), (leafPaths s d n).Nodup
  | 0, _ => List.nodup_nil
  | d + 1, n => by
    rw [leafPaths]
    split
    · simp
    · refine List.Nodup.append ?_ ?_ ?_
      · refine (nodup_leafPaths d _).map_on fun x _ y _ h => ?_
        simp only [Prod.mk.injEq, List.cons.injEq, true_and] at h
        exact Prod.ext h.1 h.2
      · refine (nodup_leafPaths d _).map_on fun x _ y _ h => ?_
        simp only [Prod.mk.injEq, List.cons.injEq, true_and] at h
        exact Prod.ext h.1 h.2
      · intro x h1 h2
        obtain ⟨y, _, rfl⟩ := List.mem_map.mp h1
        obtain ⟨z, _, h3⟩ := List.mem_map.mp h2
        simp at h3

theorem sum_map_half (l : List (Sym × List Bool)) (b : Bool) (D : Nat) :
    ((l.map fun x => (x.1, b :: x.2)).map fun x => 2 ^ (D + 1 - x.2.length)).sum =
      (l.map fun x => 2 ^ (D - x.2.length)).sum := by
  rw [List.map_map]
  congr 1
  refine List.map_congr_left fun x _ => ?_
  simp

/-- The Kraft equality of the leaves below a node (R193). -/
theorem kraft_leafPaths : ∀ {d D : Nat} {n : NodeIx}, DepthBelow s d n → d ≤ D →
    ((leafPaths s (d + 1) n).map fun x => 2 ^ (D - x.2.length)).sum = 2 ^ D := by
  intro d
  induction d with
  | zero =>
    intro D n hd _
    have := hd.leaf
    cases hn : s.node n with
    | leaf x f => simp [leafPaths, hn]
    | internal _ _ _ => simp [hn, Node.isInternal] at this
  | succ d ih =>
    intro D n hd hD
    cases hn : s.node n with
    | leaf x f => simp [leafPaths, hn]
    | internal f l r =>
      have hi : (s.node n).isInternal = true := by rw [hn]; rfl
      have h0 : DepthBelow s d l := by have := hd.child hi false; rwa [hn] at this
      have h1 : DepthBelow s d r := by have := hd.child hi true; rwa [hn] at this
      obtain ⟨E, rfl⟩ : ∃ E, D = E + 1 := ⟨D - 1, by omega⟩
      rw [leafPaths, hn]
      simp only [List.map_append, List.sum_append, sum_map_half]
      rw [ih h0 (by omega), ih h1 (by omega), pow_succ]
      omega

theorem leafPaths_ne_nil {d : Nat} {n : NodeIx} (hd : DepthBelow s d n) : leafPaths s (d + 1) n ≠ [] := by
  intro h
  have := kraft_leafPaths hd le_rfl
  rw [h] at this
  simp at this
  have := Nat.two_pow_pos d
  omega

/-- A leaf at depth d has at least d other leaves beside it (R193: every length is at most n - 1). -/
theorem depth_lt_leafPaths : ∀ {d : Nat} {n : NodeIx}, DepthBelow s d n → ∀ x ∈ leafPaths s (d + 1) n,
    x.2.length + 1 ≤ (leafPaths s (d + 1) n).length := by
  intro d
  induction d with
  | zero =>
    intro n hd x hx
    have := hd.leaf
    cases hn : s.node n with
    | leaf a f => simp only [leafPaths, hn, List.mem_singleton] at hx; subst hx; simp [leafPaths, hn]
    | internal _ _ _ => simp [hn, Node.isInternal] at this
  | succ d ih =>
    intro n hd x hx
    cases hn : s.node n with
    | leaf a f => simp only [leafPaths, hn, List.mem_singleton] at hx; subst hx; simp [leafPaths, hn]
    | internal f l r =>
      have hi : (s.node n).isInternal = true := by rw [hn]; rfl
      have h0 : DepthBelow s d l := by have := hd.child hi false; rwa [hn] at this
      have h1 : DepthBelow s d r := by have := hd.child hi true; rwa [hn] at this
      have e0 := List.length_pos_iff.mpr (leafPaths_ne_nil h0)
      have e1 := List.length_pos_iff.mpr (leafPaths_ne_nil h1)
      rw [leafPaths, hn] at hx ⊢
      simp only [List.mem_append, List.mem_map, List.length_append, List.length_map] at hx ⊢
      rcases hx with ⟨y, hy, rfl⟩ | ⟨y, hy, rfl⟩
      · have := ih h0 y hy; simp; omega
      · have := ih h1 y hy; simp; omega

/-- In a proper tree the leaves below the root have different symbols. -/
theorem ProperTree.nodup_syms {n : NodeIx} (h : ProperTree s n) : ((leafPaths s 65 n).map Prod.fst).Nodup := by
  refine (nodup_leafPaths 65 n).map_on fun x hx y hy e => ?_
  obtain ⟨a, p⟩ := x
  obtain ⟨b, q⟩ := y
  simp only at e
  subst e
  have hd : DepthBelow s 64 n := h.depth
  rw [h.oneLeaf p q a ((mem_leafPaths hd a p).mp hx) ((mem_leafPaths hd a q).mp hy)]

/-! Trees built by TREE_BUILD -/

namespace Forest

variable {v : State} {n W : Nat}

/-- An internal node of a forest. -/
theorem internal (h : Forest v n W) {i : NodeIx} (hi : i.toNat < v.nodeCount) {f : DWord} {l r : NodeIx}
    (hn : v.node i = .internal f l r) : n ≤ i.toNat ∧ l.toNat < i.toNat ∧ r.toNat < i.toNat ∧
      v.weight i = v.weight l + v.weight r := by
  have hg := State.getElem?_of_lt hi
  have hge : n ≤ i.toNat := by
    by_contra hlt
    have := h.leaves i.toNat _ (by omega) hg
    rw [hn] at this; simp [Node.isInternal] at this
  obtain ⟨f', l', r', e, h1, h2, h3⟩ := h.joins i.toNat _ hge hg
  rw [hn] at e
  simp only [Node.internal.injEq] at e
  obtain ⟨rfl, rfl, rfl⟩ := e
  refine ⟨hge, h1, h2, ?_⟩
  simp only [State.weight, hn, Node.freq] at h3 ⊢
  exact h3

theorem reach_lt (h : Forest v n W) (hn : n ≤ 256) : ∀ {p : List Bool} {i m : NodeIx}, i.toNat < v.nodeCount →
    Reach v i p m → m.toNat < v.nodeCount
  | [], _, _, hi, hr => by rw [hr.nil_inv]; exact hi
  | b :: p, i, m, hi, hr => by
    refine reach_lt h hn ?_ hr.cons_inv.2
    refine h.child_lt hn hi ?_
    have := hr.cons_inv.1
    cases hnd : v.node i with
    | leaf _ _ => simp [hnd, Node.isInternal] at this
    | internal f l r => cases b <;> simp [Node.child, childList, Node.left, Node.right]

/-- A path of length d below a node forces a Fibonacci weight (R193, third bullet). -/
theorem fib_le (h : Forest v n W) (hn : n ≤ 256) : ∀ (p : List Bool) (i m : NodeIx), i.toNat < v.nodeCount →
    Reach v i p m → Nat.fib (p.length + 2) ≤ v.weight i
  | [], i, _, hi, _ => h.positive i hi
  | [b], i, m, hi, hr => by
    obtain ⟨h1, h2⟩ := hr.cons_inv
    cases hnd : v.node i with
    | leaf _ _ => simp [hnd, Node.isInternal] at h1
    | internal f l r =>
      obtain ⟨-, h3, h4, h5⟩ := h.internal hi hnd
      have := h.positive l (by omega)
      have := h.positive r (by omega)
      have : Nat.fib ([b].length + 2) = 2 := by simp [Nat.fib_add_two]
      omega
  | b :: b' :: p, i, m, hi, hr => by
    obtain ⟨h1, h2⟩ := hr.cons_inv
    cases hnd : v.node i with
    | leaf _ _ => simp [hnd, Node.isInternal] at h1
    | internal f l r =>
      obtain ⟨-, h3, h4, h5⟩ := h.internal hi hnd
      have hl : l.toNat < v.nodeCount := by omega
      have hr' : r.toNat < v.nodeCount := by omega
      obtain ⟨h6, h7⟩ := h.siblings i hi f l r hnd
      rw [hnd] at h2
      obtain ⟨h8, h9⟩ := h2.cons_inv
      have hfib : Nat.fib ((b :: b' :: p).length + 2) = Nat.fib (p.length + 2) + Nat.fib (p.length + 3) := by
        simp only [List.length_cons]
        rw [show p.length + 1 + 1 + 2 = (p.length + 2) + 2 by omega, Nat.fib_add_two]
      have hchild : ∀ c : NodeIx, (v.node c).isInternal = true → Node.child b' (v.node c) ∈ childList (v.node c) := by
        intro c hc
        cases hcd : v.node c with
        | leaf _ _ => simp [hcd, Node.isInternal] at hc
        | internal _ _ _ => cases b' <;> simp [Node.child, childList, Node.left, Node.right]
      cases b
      · have e1 := fib_le h hn (b' :: p) l m hl h2
        have e2 := fib_le h hn p _ m (h.child_lt hn hl (hchild l h8)) h9
        have e3 := h7 _ (hchild l h8)
        have : Nat.fib (p.length + 2) ≤ v.weight r := le_trans e2 e3
        rw [hfib]
        have e4 : Nat.fib (p.length + 3) ≤ v.weight l := e1
        omega
      · have e1 := fib_le h hn (b' :: p) r m hr' h2
        have e2 := fib_le h hn p _ m (h.child_lt hn hr' (hchild r h8)) h9
        have e3 := h6 _ (hchild r h8)
        have : Nat.fib (p.length + 2) ≤ v.weight l := le_trans e2 e3
        rw [hfib]
        have e4 : Nat.fib (p.length + 3) ≤ v.weight r := e1
        omega

/-- The internal nodes of a forest whose weights stay below 2^40 lie at depths below 64 (R193). -/
theorem depthBelow (h : Forest v n W) (hn : n ≤ 256) {r : NodeIx} (hr : r.toNat < v.nodeCount) (hw : v.weight r < 2 ^ 40) :
    DepthBelow v 64 r := by
  intro p m h1 _
  by_contra hge
  have h2 := h.fib_le hn p r m hr h1
  have h3 : Nat.fib 66 ≤ Nat.fib (p.length + 2) := Nat.fib_mono (by omega)
  have h4 : Nat.fib 66 = 27777890035288 := by norm_num
  omega

/-- A node has one place in the forest. -/
theorem parent_unique (h : Forest v n W) (hn : n ≤ 256) {x y : NodeIx} (hx : x.toNat < v.nodeCount) (hy : y.toNat < v.nodeCount)
    (hxi : (v.node x).isInternal = true) (hyi : (v.node y).isInternal = true) {b c : Bool}
    (he : Node.child b (v.node x) = Node.child c (v.node y)) : x = y ∧ b = c := by
  have hnd := ((h.once.nodup_iff).mpr (nodup_indices (h.nodes_le hn)))
  have hf := List.Nodup.of_append_right hnd
  rw [List.nodup_flatMap] at hf
  have hmem : ∀ (z : NodeIx) (b : Bool), (v.node z).isInternal = true → Node.child b (v.node z) ∈ childList (v.node z) := by
    intro z b hz
    cases hzd : v.node z with
    | leaf _ _ => simp [hzd, Node.isInternal] at hz
    | internal _ _ _ => cases b <;> simp [Node.child, childList, Node.left, Node.right]
  have hxy : x = y := by
    by_contra hne
    have hne' : x.toNat ≠ y.toNat := fun e => hne (BitVec.eq_of_toNat_eq e)
    have hp := List.pairwise_iff_getElem.mp hf.2
    have gx := List.getElem?_eq_some_iff.mp (State.getElem?_of_lt hx)
    have gy := List.getElem?_eq_some_iff.mp (State.getElem?_of_lt hy)
    obtain ⟨lx, ex⟩ := gx
    obtain ⟨ly, ey⟩ := gy
    rcases Nat.lt_or_gt_of_ne hne' with hlt | hgt
    · have := hp _ _ lx ly hlt
      rw [ex, ey] at this
      exact this (hmem x b hxi) (by rw [he]; exact hmem y c hyi)
    · have := hp _ _ ly lx hgt
      rw [ex, ey] at this
      exact this (hmem y c hyi) (by rw [← he]; exact hmem x b hxi)
  refine ⟨hxy, ?_⟩
  subst hxy
  have := hf.1 (v.node x) (List.mem_of_getElem? (State.getElem?_of_lt hx))
  cases hxd : v.node x with
  | leaf _ _ => simp [hxd, Node.isInternal] at hxi
  | internal f l r =>
    rw [hxd] at this he
    have hlr : l ≠ r := by intro e; subst e; simp [childList] at this
    cases b <;> cases c <;> simp [Node.child, Node.left, Node.right] at he ⊢
    · exact hlr he
    · exact hlr he.symm

/-- Every node of the one tree left is reached from its root (R181). -/
theorem reach_all (h : Forest v n W) (hn : n ≤ 256) {r : NodeIx} (hh : v.heap = [r]) :
    ∀ (k : Nat) (i : NodeIx), i.toNat < v.nodeCount → v.nodeCount - i.toNat ≤ k → ∃ p, Reach v r p i := by
  intro k
  induction k with
  | zero => intro i hi h0; omega
  | succ k ih =>
    intro i hi hk
    have hm := h.once.symm.subset ((mem_indices (h.nodes_le hn)).mpr hi)
    rcases List.mem_append.mp hm with h1 | h1
    · rw [hh] at h1
      simp only [List.mem_singleton] at h1
      subst h1
      exact ⟨[], .here _⟩
    · obtain ⟨nd, h2, h3⟩ := List.mem_flatMap.mp h1
      obtain ⟨j, hj, e⟩ := List.getElem_of_mem h2
      have hj512 : j < 512 := by have := h.nodes_le hn; omega
      have hjn : (BitVec.ofNat 9 j).toNat = j := toNat_ofNat9 hj512
      have hg : v.nodes[(BitVec.ofNat 9 j).toNat]? = some nd := by rw [hjn, List.getElem?_eq_getElem hj, e]
      have hnj : v.node (BitVec.ofNat 9 j) = nd := State.node_of_getElem? hg
      have hjc : (BitVec.ofNat 9 j).toNat < v.nodeCount := by rw [hjn]; exact hj
      cases nd with
      | leaf _ _ => simp [childList] at h3
      | internal f l r' =>
        obtain ⟨-, h4, h5, -⟩ := h.internal hjc hnj
        simp only [childList, List.mem_cons, List.not_mem_nil, or_false] at h3
        have hij : i.toNat < j := by rcases h3 with rfl | rfl <;> omega
        obtain ⟨p, hp⟩ := ih (BitVec.ofNat 9 j) hjc (by rw [hjn]; omega)
        rcases h3 with rfl | rfl
        · exact ⟨p ++ [false], hp.append (.left hnj (.here _))⟩
        · exact ⟨p ++ [true], hp.append (.right hnj (.here _))⟩

/-- Two paths from the root to one node are one path (R181, R193). -/
theorem noSharing (h : Forest v n W) (hn : n ≤ 256) {r : NodeIx} (hh : v.heap = [r]) :
    ∀ (k : Nat) (p q : List Bool) (m : NodeIx), p.length ≤ k → Reach v r p m → Reach v r q m → p = q := by
  have hrl : r.toNat < v.nodeCount := h.heap_lt hn (by rw [hh]; simp)
  have hroot : ∀ (p : List Bool) (b : Bool), ¬ Reach v r (p ++ [b]) r := by
    intro p b hr
    obtain ⟨x, h1, h2⟩ := hr.split
    obtain ⟨h3, h4⟩ := h2.cons_inv
    have hx := h.reach_lt hn hrl h1
    have h4' := h4.nil_inv
    obtain ⟨-, e2, e3⟩ := h.root_last hn hh
    have hc : r ∈ v.nodes.flatMap childList := by
      refine List.mem_flatMap.mpr ⟨v.node x, List.mem_of_getElem? (State.getElem?_of_lt hx), ?_⟩
      rw [h4']
      cases hxd : v.node x with
      | leaf _ _ => simp [hxd, Node.isInternal] at h3
      | internal _ _ _ => cases b <;> simp [Node.child, childList, Node.left, Node.right]
    have := (mem_indices (by have := h.nodes_le hn; omega)).mp (e3.subset hc)
    omega
  intro k
  induction k with
  | zero =>
    intro p q m hk h1 h2
    have : p = [] := List.eq_nil_of_length_eq_zero (by omega)
    subst this
    have := h1.nil_inv
    subst this
    rcases List.eq_nil_or_concat q with rfl | ⟨q', b, rfl⟩
    · rfl
    · rw [List.concat_eq_append] at h2
      exact absurd h2 (hroot q' b)
  | succ k ih =>
    intro p q m hk h1 h2
    rcases List.eq_nil_or_concat p with rfl | ⟨p', b, rfl⟩
    · have := h1.nil_inv
      subst this
      rcases List.eq_nil_or_concat q with rfl | ⟨q', c, rfl⟩
      · rfl
      · rw [List.concat_eq_append] at h2
        exact absurd h2 (hroot q' c)
    · rw [List.concat_eq_append] at h1 hk ⊢
      rcases List.eq_nil_or_concat q with rfl | ⟨q', c, rfl⟩
      · have := h2.nil_inv
        subst this
        exact absurd h1 (hroot p' b)
      · rw [List.concat_eq_append] at h2 ⊢
        obtain ⟨x, h3, h4⟩ := h1.split
        obtain ⟨y, h5, h6⟩ := h2.split
        obtain ⟨h7, h8⟩ := h4.cons_inv
        obtain ⟨h9, h10⟩ := h6.cons_inv
        have he : Node.child b (v.node x) = Node.child c (v.node y) := by rw [← h8.nil_inv, ← h10.nil_inv]
        obtain ⟨rfl, rfl⟩ := h.parent_unique hn (h.reach_lt hn hrl h3) (h.reach_lt hn hrl h5) h7 h9 he
        simp only [List.length_append, List.length_singleton] at hk
        rw [ih p' q' x (by omega) h3 h5]

end Forest

/-- After TREE_BUILD with a positive count the tree at ROOT is proper and its leaves are exactly the positive symbols
(R181, R193). -/
theorem treeBuild_proper (s : State) (hpos : s.positive ≠ []) : ∃ u : State, treeBuild s = .ok () u ∧
    u.root.toNat < u.nodeCount ∧ ProperTree u u.root ∧ (∀ sym, (∃ p, LeafAt u u.root p sym) ↔ sym ∈ s.positive) := by
  obtain ⟨v, h1, hF, hlen, hpre, hv⟩ := treeBuild_forest s
  have hle := s.positive_length_le
  obtain ⟨r, hr⟩ : ∃ r, v.heap = [r] := by
    have := List.length_pos_iff.mpr hpos
    have : v.heap.length = 1 := by omega
    exact List.length_eq_one_iff.mp this
  have hroot : (v.takeRoot s.positive.length).root = r := by
    show (if v.pqSize = 1 then slot v.heap 0 else v.root) = r
    have : v.pqSize = 1 := by show v.heap.length = 1; simp [hr]
    rw [if_pos this, hr]; rfl
  have hrl : r.toNat < v.nodeCount := hF.heap_lt hle (by rw [hr]; simp)
  have hnode : (v.takeRoot s.positive.length).node = v.node := rfl
  have hw : v.weight r < 2 ^ 40 := by
    have := hF.weight
    rw [hr] at this
    have e := s.freqSum_lt
    simp at this
    omega
  -- the leaves
  have hleaf : ∀ (i : NodeIx) sym f, i.toNat < v.nodeCount → v.node i = .leaf sym f → s.positive[i.toNat]? = some sym := by
    intro i sym f hi hnd
    have hg := State.getElem?_of_lt hi
    rw [hnd] at hg
    have hlt : i.toNat < s.positive.length := by
      by_contra hge
      obtain ⟨f', l, r', e, -⟩ := hF.joins i.toNat _ (by omega) hg
      simp at e
    obtain ⟨rest, hrest⟩ := hpre
    rw [← hrest, List.getElem?_append_left (by simpa using hlt), List.getElem?_map] at hg
    rw [List.getElem?_eq_getElem hlt] at hg ⊢
    simp only [Option.map_some, State.leafOf, Option.some.injEq, Node.leaf.injEq] at hg
    rw [hg.1]
  have hproper : ProperTree v r := by
    refine ⟨fun p q m a b => hF.noSharing hle hr p.length p q m le_rfl a b, fun p q sym a b => ?_, ?_⟩
    · obtain ⟨m, f, h3, h4⟩ := a
      obtain ⟨m', f', h5, h6⟩ := b
      have e1 := hleaf m sym f (hF.reach_lt hle hrl h3) h4
      have e2 := hleaf m' sym f' (hF.reach_lt hle hrl h5) h6
      obtain ⟨l1, e1⟩ := List.getElem?_eq_some_iff.mp e1
      obtain ⟨l2, e2⟩ := List.getElem?_eq_some_iff.mp e2
      have hm : m = m' := BitVec.eq_of_toNat_eq ((s.nodup_positive.getElem_inj_iff).mp (e1.trans e2.symm))
      subst hm
      exact hF.noSharing hle hr p.length p q m le_rfl h3 h5
    · exact hF.depthBelow hle hrl hw
  refine ⟨_, h1, ?_, ?_, ?_⟩
  · rw [hroot]; exact hrl
  · rw [hroot]; exact hproper.congr hnode
  · intro sym
    rw [hroot]
    constructor
    · rintro ⟨p, hp⟩
      obtain ⟨m, f, h3, h4⟩ := hp.congr hnode.symm
      exact List.mem_of_getElem? (hleaf m sym f (hF.reach_lt hle hrl h3) h4)
    · intro hmem
      obtain ⟨i, hi, e⟩ := List.getElem_of_mem hmem
      have hi512 : i < 512 := by omega
      have hin : (BitVec.ofNat 9 i).toNat = i := toNat_ofNat9 hi512
      have hg : v.nodes[(BitVec.ofNat 9 i).toNat]? = some (s.leafOf sym) := by
        obtain ⟨rest, hrest⟩ := hpre
        rw [hin, ← hrest, List.getElem?_append_left (by simpa using hi), List.getElem?_map, List.getElem?_eq_getElem hi, e]
        rfl
      have hlt : (BitVec.ofNat 9 i).toNat < v.nodeCount := (List.getElem?_eq_some_iff.mp hg).1
      obtain ⟨p, hp⟩ := hF.reach_all hle hr v.nodeCount (BitVec.ofNat 9 i) hlt (by omega)
      exact ⟨p, LeafAt.congr hnode ⟨_, _, hp, State.node_of_getElem? hg⟩⟩

end Sys2Proof.Machine
end

