-- ==== Sys2Proof/Laws/CodeGen.lean ====
section
/-! SUPPORT. CODE_GEN (44_codegen.md R190 to R193): the walk visits the tree's paths, and what it leaves however it ends. -/

namespace Sys2Proof.Machine

/-- The code of a path (10_state.md R43). -/
def pathCode (p : List Bool) : CodeEntry :=
  { valid := true, len := BitVec.ofNat 7 p.length, code := BitVec.ofNat 64 (valueOf p) }

/-- A node reached by a path, as the walk's stack holds it (10_state.md R45). -/
def entryOf (x : NodeIx × List Bool) : WalkEntry :=
  { node := x.1, depth := BitVec.ofNat 7 x.2.length, path := BitVec.ofNat 64 (valueOf x.2) }

theorem entryOf_child (n c : NodeIx) (p : List Bool) (b : Bool) :
    ({ node := c, depth := (entryOf (n, p)).depth + 1, path := 2 * (entryOf (n, p)).path + (if b then 1 else 0) } : WalkEntry)
      = entryOf (c, p ++ [b]) := by
  simp only [entryOf, WalkEntry.mk.injEq, true_and]
  constructor
  · apply BitVec.eq_of_toNat_eq; simp
  · rw [valueOf_append_single]
    apply BitVec.eq_of_toNat_eq
    cases b <;> simp [BitVec.toNat_add, BitVec.toNat_mul, Nat.mul_mod, Nat.add_mod]

/-- The codes of an entry written back as bits. -/
theorem codeBits_of_path {s : State} {sym : Sym} {p : List Bool} (h : s.codeAt sym = pathCode p) (hp : p.length ≤ 64) :
    s.codeBits sym = p := by
  have h1 : (BitVec.ofNat 7 p.length).toNat = p.length := by simp; omega
  have h2 : (BitVec.ofNat 64 (valueOf p)).toNat = valueOf p := by
    rw [BitVec.toNat_ofNat]
    refine Nat.mod_eq_of_lt ((valueOf_lt p).trans_le (Nat.pow_le_pow_right (by omega) hp))
  simp only [State.codeBits, h, pathCode, h1, h2, bitsOf_valueOf]

theorem Before.ne_nil {q p : List Bool} (h : Before q p) : p ≠ [] := by cases h <;> simp

theorem Before.not_prefix : ∀ {q p : List Bool}, Before q p → ¬ p <+: q
  | _, _, .above _ _ => by simp
  | _, _, .left _ _ => by simp
  | _, _, .under b h => by simpa using h.not_prefix

theorem Before.irrefl {p : List Bool} (h : Before p p) : False := h.not_prefix (List.prefix_refl p)

theorem Before.trans : ∀ {a b c : List Bool}, Before a b → Before b c → Before a c
  | _, _, _, .above _ _, .left _ _ => .above _ _
  | _, _, _, .above _ _, .under _ _ => .above _ _
  | _, _, _, .left _ _, .under _ _ => .left _ _
  | _, _, _, .under _ _, .left _ _ => .left _ _
  | _, _, _, .under b h, .under _ h' => .under b (h.trans h')

/-- What is before a path is before everything under it. -/
theorem Before.append : ∀ {q p : List Bool} (e : List Bool), Before q p → Before q (p ++ e)
  | _, _, _, .above _ _ => .above _ _
  | _, _, _, .left _ _ => .left _ _
  | _, _, e, .under b h => .under b (h.append e)

/-- A path not above another takes what is under it along. -/
theorem Before.append_left : ∀ {q p : List Bool} (e : List Bool), Before q p → ¬ q <+: p → Before (q ++ e) p
  | _, _, _, .above _ _, h => by simp at h
  | _, _, _, .left _ _, _ => .left _ _
  | _, _, e, .under b h, h' => .under b (h.append_left e (by simpa using h'))

theorem Before.single : ∀ (p : List Bool) (b : Bool), Before p (p ++ [b])
  | [], b => .above b []
  | c :: p, b => .under c (Before.single p b)

theorem Before.sides : ∀ p : List Bool, Before (p ++ [false]) (p ++ [true])
  | [] => .left [] []
  | c :: p => .under c (Before.sides p)

/-- The number of symbols with a code. -/
def State.codeCount (s : State) : Nat := s.code.toList.countP fun e => e.valid

theorem State.codeCount_assignCode (s : State) (k : Sym) (l : BitVec 7) (c : DWord) (h : (s.codeAt k).valid = false) :
    (s.assignCode k l c).codeCount = s.codeCount + 1 := by
  have hv : (s.code[k.toNat]'k.isLt).valid = false := h
  simp only [State.codeCount, Vector.countP_toList]
  show Vector.countP _ (s.code.set k.toNat _ k.isLt) = _
  rw [Vector.countP_set k.isLt, hv]
  simp

theorem State.codeCount_le (s : State) : s.codeCount ≤ 256 := by
  have := List.countP_le_length (p := fun e : CodeEntry => e.valid) (l := s.code.toList)
  simpa [State.codeCount] using this

/-- The walk in progress: `ls` are the nodes still on the stack and `vis` those visited, each with its path from r. -/
structure WalkInv (s0 : State) (r : NodeIx) (s : State) (ls vis : List (NodeIx × List Bool)) : Prop where
  stack : s.walk.stack = ls.map entryOf
  visited : s.walk.visited = vis.map Prod.fst
  nodup : (vis.map Prod.fst).Nodup
  reachS : ∀ x ∈ ls, Reach s0 r x.2 x.1 ∧ x.2.length ≤ 64
  reachV : ∀ x ∈ vis, Reach s0 r x.2 x.1 ∧ x.2.length ≤ 64
  apartS : ls.Pairwise fun x y => ¬ x.2 <+: y.2 ∧ ¬ y.2 <+: x.2
  apartV : ∀ x ∈ vis, ∀ y ∈ ls, ¬ y.2 <+: x.2
  orderS : ls.Pairwise fun x y => Before x.2 y.2
  orderV : ∀ x ∈ vis, ∀ y ∈ ls, Before x.2 y.2
  complete : ∀ q m, Reach s0 r q m → (∃ y ∈ ls, y.2 <+: q) ∨ (m, q) ∈ vis
  depthV : ∀ x ∈ vis, (s0.node x.1).isInternal = true → x.2.length < 64
  codes : ∀ sym, (∃ x ∈ vis, (∃ f, s0.node x.1 = .leaf sym f) ∧ s.codeAt sym = pathCode x.2) ∨
    ((¬ ∃ x ∈ vis, ∃ f, s0.node x.1 = .leaf sym f) ∧ s.codeAt sym = .invalid)
  single : ∀ x ∈ vis, ∀ y ∈ vis, ∀ sym f g, s0.node x.1 = .leaf sym f → s0.node y.1 = .leaf sym g → x = y
  count : s.result.toNat = s.codeCount

/-- Where the walk meets n at p, n was visited before or its symbol has a code (R191). -/
def BadTreeFrom (s0 : State) (r : NodeIx) (p : List Bool) (n : NodeIx) : Prop :=
  Reach s0 r p n ∧ ∃ q, Before q p ∧ (Reach s0 r q n ∨ ∃ sym f, s0.node n = .leaf sym f ∧ LeafAt s0 r q sym)

/-- Where the walk meets n at p, n is an internal node at depth 64 (R191). -/
def TooLongFrom (s0 : State) (r : NodeIx) (p : List Bool) (n : NodeIx) : Prop :=
  Reach s0 r p n ∧ p.length = 64 ∧ (s0.node n).isInternal = true

/-- Why and where the walk raised (R191): at p, the first path where it can, with the codes of the leaves before p. -/
def WalkFails (s0 : State) (r : NodeIx) (e : Error) (t : State) : Prop :=
  ∃ (p : List Bool) (n : NodeIx),
    ((e = .badTree n ∧ BadTreeFrom s0 r p n) ∨ (e = .codeTooLong n ∧ TooLongFrom s0 r p n ∧ ¬ BadTreeFrom s0 r p n)) ∧
    (∀ q m, Before q p → ¬ BadTreeFrom s0 r q m ∧ ¬ TooLongFrom s0 r q m) ∧
    (∀ q sym, Before q p → LeafAt s0 r q sym → t.codeAt sym = pathCode q) ∧
    (∀ sym, (¬ ∃ q, Before q p ∧ LeafAt s0 r q sym) → t.codeAt sym = .invalid) ∧ t.result.toNat = t.codeCount

/-- The codes assigned so far are paths to leaves. -/
def CodesArePaths (s0 : State) (r : NodeIx) (s : State) : Prop :=
  ∀ sym, (∃ p, LeafAt s0 r p sym ∧ p.length ≤ 64 ∧ s.codeAt sym = pathCode p) ∨ s.codeAt sym = .invalid

theorem WalkInv.codesArePaths {s0 s : State} {r : NodeIx} {ls vis : List (NodeIx × List Bool)} (h : WalkInv s0 r s ls vis) :
    CodesArePaths s0 r s := by
  intro sym
  rcases h.codes sym with ⟨x, hx, ⟨f, hf⟩, hc⟩ | ⟨-, hc⟩
  · exact .inl ⟨x.2, ⟨x.1, f, (h.reachV x hx).1, hf⟩, (h.reachV x hx).2, hc⟩
  · exact .inr hc

/-- The nodes visited are exactly those the paths before the next one lead to. -/
theorem WalkInv.before {s0 s : State} {r n : NodeIx} {p : List Bool} {ls vis : List (NodeIx × List Bool)}
    (h : WalkInv s0 r s ((n, p) :: ls) vis) {q : List Bool} {m : NodeIx} (hq : Before q p) (hr : Reach s0 r q m) :
    (m, q) ∈ vis := by
  rcases h.complete q m hr with ⟨y, hy, e, rfl⟩ | hm
  · rcases List.mem_cons.mp hy with rfl | hy
    · exact absurd (List.prefix_append _ _) hq.not_prefix
    · exact absurd (hq.trans (((List.pairwise_cons.mp h.orderS).1 y hy).append e)) Before.irrefl
  · exact hm

/-- What is known where the walk raises at the next node. -/
theorem WalkInv.fails {s0 s t : State} {r n : NodeIx} {p : List Bool} {ls vis : List (NodeIx × List Bool)}
    (h : WalkInv s0 r s ((n, p) :: ls) vis) {e : Error} (ht : t = { s with walk := t.walk })
    (he : (e = .badTree n ∧ BadTreeFrom s0 r p n) ∨ (e = .codeTooLong n ∧ TooLongFrom s0 r p n ∧ ¬ BadTreeFrom s0 r p n)) :
    WalkFails s0 r e t := by
  have hc : t.codeAt = s.codeAt := by rw [ht]; rfl
  have hcount : t.codeCount = s.codeCount := by rw [ht]; rfl
  have hres : t.result = s.result := by rw [ht]
  have hout : ∀ x ∈ vis, Before x.2 p := fun x hx => h.orderV x hx (n, p) (by simp)
  refine ⟨p, n, he, fun q m hq => ⟨?_, ?_⟩, fun q sym hq hl => ?_, fun sym hno => ?_, by rw [hres, hcount]; exact h.count⟩
  · rintro ⟨hr, q', hq', hr' | ⟨sym, f, hf, m', f', hr', hf'⟩⟩
    · have := List.inj_on_of_nodup_map h.nodup (h.before hq hr) (h.before (hq'.trans hq) hr') rfl
      simp only [Prod.mk.injEq, true_and] at this
      exact Before.irrefl (this ▸ hq')
    · have := h.single _ (h.before hq hr) _ (h.before (hq'.trans hq) hr') sym f f' hf hf'
      simp only [Prod.mk.injEq] at this
      exact Before.irrefl (this.2 ▸ hq')
  · rintro ⟨hr, hlen, hi⟩
    have := h.depthV _ (h.before hq hr) hi
    simp only at this
    omega
  · obtain ⟨m, f, hr, hf⟩ := hl
    rw [hc]
    rcases h.codes sym with ⟨x, hx, ⟨g, hg⟩, hcx⟩ | ⟨hno, -⟩
    · rw [hcx, ← h.single _ (h.before hq hr) x hx sym f g hf hg]
    · exact absurd ⟨_, h.before hq hr, f, hf⟩ hno
  · rw [hc]
    rcases h.codes sym with ⟨x, hx, ⟨g, hg⟩, -⟩ | ⟨-, hcx⟩
    · exact absurd ⟨x.2, hout x hx, x.1, g, (h.reachV x hx).1, hg⟩ hno
    · exact hcx

theorem prefix_append_single {p q : List Bool} {b : Bool} (h : p <+: q ++ [b]) : p <+: q ∨ p = q ++ [b] := by
  rcases List.prefix_concat_iff.mp (by simpa using h) with h | h
  · right; simpa using h
  · exact .inl h

/-- One turn on a leaf whose symbol has no code. -/
theorem WalkInv.leaf {s0 s t : State} {r : NodeIx} {n : NodeIx} {p : List Bool} {ls vis : List (NodeIx × List Bool)}
    (h : WalkInv s0 r s ((n, p) :: ls) vis) (hn : n ∉ s.walk.visited) {sym : Sym} {f : DWord}
    (hl : s0.node n = .leaf sym f) (hv : (s.codeAt sym).valid = false)
    (ht : t = ({ s with walk := { visited := n :: s.walk.visited, stack := ls.map entryOf } } : State).assignCode sym
      (entryOf (n, p)).depth (entryOf (n, p)).path) : WalkInv s0 r t ls ((n, p) :: vis) := by
  have hsp := h.reachS (n, p) (by simp)
  have hnv : n ∉ vis.map Prod.fst := by rw [← h.visited]; exact hn
  have hno : ¬ ∃ x ∈ vis, ∃ f, s0.node x.1 = .leaf sym f := by
    rcases h.codes sym with ⟨x, hx, _, hc⟩ | ⟨hno, -⟩
    · rw [hc] at hv; simp [pathCode] at hv
    · exact hno
  have hcode : ∀ x, t.codeAt x = if x = sym then pathCode p else s.codeAt x := by
    intro x; rw [ht, State.codeAt_assignCode]; rfl
  constructor
  · rw [ht]; rfl
  · rw [ht, List.map_cons, ← h.visited]; rfl
  · rw [List.map_cons]; exact List.nodup_cons.mpr ⟨hnv, h.nodup⟩
  · intro x hx; exact h.reachS x (List.mem_cons_of_mem _ hx)
  · intro x hx
    rcases List.mem_cons.mp hx with rfl | hx
    · exact hsp
    · exact h.reachV x hx
  · exact (List.pairwise_cons.mp h.apartS).2
  · intro x hx y hy
    rcases List.mem_cons.mp hx with rfl | hx
    · exact ((List.pairwise_cons.mp h.apartS).1 y hy).2
    · exact h.apartV x hx y (List.mem_cons_of_mem _ hy)
  · exact (List.pairwise_cons.mp h.orderS).2
  · intro x hx y hy
    rcases List.mem_cons.mp hx with rfl | hx
    · exact (List.pairwise_cons.mp h.orderS).1 y hy
    · exact h.orderV x hx y (List.mem_cons_of_mem _ hy)
  · intro q m hr
    rcases h.complete q m hr with ⟨y, hy, hp⟩ | hm
    · rcases List.mem_cons.mp hy with rfl | hy
      · right
        obtain ⟨e, rfl⟩ := hp
        obtain ⟨k, h1, h2⟩ := hr.split
        rw [h1.det hsp.1] at h2
        obtain ⟨rfl, rfl⟩ := h2.of_leaf (by rw [hl]; rfl)
        simp
      · exact .inl ⟨y, hy, hp⟩
    · exact .inr (List.mem_cons_of_mem _ hm)
  · intro x hx hi
    rcases List.mem_cons.mp hx with rfl | hx
    · rw [hl] at hi; simp [Node.isInternal] at hi
    · exact h.depthV x hx hi
  · intro x
    rw [hcode]
    by_cases hx : x = sym
    · subst hx
      rw [if_pos rfl]
      exact .inl ⟨(n, p), by simp, ⟨f, hl⟩, rfl⟩
    · rw [if_neg hx]
      rcases h.codes x with ⟨y, hy, hf, hc⟩ | ⟨hno', hc⟩
      · exact .inl ⟨y, List.mem_cons_of_mem _ hy, hf, hc⟩
      · refine .inr ⟨?_, hc⟩
        rintro ⟨y, hy, g, hg⟩
        rcases List.mem_cons.mp hy with rfl | hy
        · rw [hl] at hg
          simp only [Node.leaf.injEq] at hg
          exact hx hg.1.symm
        · exact hno' ⟨y, hy, g, hg⟩
  · intro x hx y hy a g k hg hk
    rcases List.mem_cons.mp hx with rfl | hx
    · rw [hl] at hg
      simp only [Node.leaf.injEq] at hg
      obtain ⟨rfl, -⟩ := hg
      rcases List.mem_cons.mp hy with rfl | hy
      · rfl
      · exact absurd ⟨y, hy, k, hk⟩ hno
    · rcases List.mem_cons.mp hy with rfl | hy
      · rw [hl] at hk
        simp only [Node.leaf.injEq] at hk
        obtain ⟨rfl, -⟩ := hk
        exact absurd ⟨x, hx, g, hg⟩ hno
      · exact h.single x hx y hy a g k hg hk
  · have hc : t.codeCount = s.codeCount + 1 := by
      rw [ht]
      exact State.codeCount_assignCode _ sym _ _ hv
    have hr : t.result = s.result + 1 := by rw [ht]; rfl
    have := h.count
    have := s.codeCount_le
    rw [hr, hc, BitVec.toNat_add]
    simp
    omega

/-- One turn on an internal node at a depth below 64. -/
theorem WalkInv.internal {s0 s t : State} {r : NodeIx} {n : NodeIx} {p : List Bool} {ls vis : List (NodeIx × List Bool)}
    (h : WalkInv s0 r s ((n, p) :: ls) vis) (hn : n ∉ s.walk.visited) {f : DWord} {a b : NodeIx}
    (hi : s0.node n = .internal f a b) (hp : p.length < 64)
    (ht : t = { s with
      walk :=
        { visited := n :: s.walk.visited
          stack := entryOf (a, p ++ [false]) :: entryOf (b, p ++ [true]) :: ls.map entryOf } }) :
    WalkInv s0 r t ((a, p ++ [false]) :: (b, p ++ [true]) :: ls) ((n, p) :: vis) := by
  have hsp := h.reachS (n, p) (by simp)
  have hnv : n ∉ vis.map Prod.fst := by rw [← h.visited]; exact hn
  have hap := (List.pairwise_cons.mp h.apartS)
  have hout : ∀ (y : NodeIx × List Bool) (c : Bool), y ∈ ls → ¬ (p ++ [c]) <+: y.2 ∧ ¬ y.2 <+: (p ++ [c]) := by
    intro y c hy
    obtain ⟨h1, h2⟩ := hap.1 y hy
    refine ⟨fun h3 => h1 ((List.prefix_append _ _).trans h3), fun h3 => ?_⟩
    rcases prefix_append_single h3 with h4 | h4
    · exact h2 h4
    · exact h1 (by rw [h4]; exact List.prefix_append _ _)
  have hgrow : ∀ (c : Bool) (q : List Bool), ¬ p <+: q → ¬ (p ++ [c]) <+: q :=
    fun c q h1 h2 => h1 ((List.prefix_append _ _).trans h2)
  constructor
  · rw [ht]; rfl
  · rw [ht, List.map_cons, ← h.visited]
  · rw [List.map_cons]; exact List.nodup_cons.mpr ⟨hnv, h.nodup⟩
  · intro x hx
    rcases List.mem_cons.mp hx with rfl | hx
    · exact ⟨hsp.1.append (.left hi (.here _)), by simp; omega⟩
    · rcases List.mem_cons.mp hx with rfl | hx
      · exact ⟨hsp.1.append (.right hi (.here _)), by simp; omega⟩
      · exact h.reachS x (List.mem_cons_of_mem _ hx)
  · intro x hx
    rcases List.mem_cons.mp hx with rfl | hx
    · exact hsp
    · exact h.reachV x hx
  · refine List.pairwise_cons.mpr ⟨fun y hy => ?_, List.pairwise_cons.mpr ⟨fun y hy => ?_, hap.2⟩⟩
    · rcases List.mem_cons.mp hy with rfl | hy
      · simp
      · exact hout y false hy
    · exact hout y true hy
  · intro x hx y hy
    have hx' : ∀ c, ¬ (p ++ [c]) <+: x.2 := by
      intro c
      rcases List.mem_cons.mp hx with rfl | hx
      · intro h1
        have := h1.length_le
        simp at this
      · exact hgrow c _ (h.apartV x hx (n, p) (by simp))
    rcases List.mem_cons.mp hy with rfl | hy
    · exact hx' false
    · rcases List.mem_cons.mp hy with rfl | hy
      · exact hx' true
      · rcases List.mem_cons.mp hx with rfl | hx
        · exact (hap.1 y hy).2
        · exact h.apartV x hx y (List.mem_cons_of_mem _ hy)
  · have ho := List.pairwise_cons.mp h.orderS
    have hy' : ∀ y ∈ ls, ∀ c, Before (p ++ [c]) y.2 := fun y hy c => (ho.1 y hy).append_left [c] (hap.1 y hy).1
    refine List.pairwise_cons.mpr ⟨fun y hy => ?_, List.pairwise_cons.mpr ⟨fun y hy => hy' y hy true, ho.2⟩⟩
    rcases List.mem_cons.mp hy with rfl | hy
    · exact Before.sides p
    · exact hy' y hy false
  · intro x hx y hy
    have hp' : ∀ c, Before x.2 (p ++ [c]) := by
      intro c
      rcases List.mem_cons.mp hx with rfl | hx
      · exact Before.single p c
      · exact (h.orderV x hx (n, p) (by simp)).append [c]
    rcases List.mem_cons.mp hy with rfl | hy
    · exact hp' false
    · rcases List.mem_cons.mp hy with rfl | hy
      · exact hp' true
      · rcases List.mem_cons.mp hx with rfl | hx
        · exact (List.pairwise_cons.mp h.orderS).1 y hy
        · exact h.orderV x hx y (List.mem_cons_of_mem _ hy)
  · intro q m hr
    rcases h.complete q m hr with ⟨y, hy, hpq⟩ | hm
    · rcases List.mem_cons.mp hy with rfl | hy
      · obtain ⟨e, rfl⟩ := hpq
        cases e with
        | nil =>
          right
          have : m = n := by
            have h1 : Reach s0 r p m := by simpa using hr
            exact h1.det hsp.1
          subst this
          simp
        | cons c e =>
          left
          have hc : (p ++ [c]) <+: (p ++ c :: e) := ⟨e, by simp⟩
          cases c
          · exact ⟨(a, p ++ [false]), by simp, hc⟩
          · exact ⟨(b, p ++ [true]), by simp, hc⟩
      · exact .inl ⟨y, by simp [hy], hpq⟩
    · exact .inr (List.mem_cons_of_mem _ hm)
  · intro x hx hi'
    rcases List.mem_cons.mp hx with rfl | hx
    · exact hp
    · exact h.depthV x hx hi'
  · intro x
    have : t.codeAt x = s.codeAt x := by rw [ht]; rfl
    rw [this]
    rcases h.codes x with ⟨y, hy, hf, hc⟩ | ⟨hno', hc⟩
    · exact .inl ⟨y, List.mem_cons_of_mem _ hy, hf, hc⟩
    · refine .inr ⟨?_, hc⟩
      rintro ⟨y, hy, g, hg⟩
      rcases List.mem_cons.mp hy with rfl | hy
      · rw [hi] at hg; simp at hg
      · exact hno' ⟨y, hy, g, hg⟩
  · intro x hx y hy c g k hg hk
    rcases List.mem_cons.mp hx with rfl | hx
    · rw [hi] at hg; simp at hg
    · rcases List.mem_cons.mp hy with rfl | hy
      · rw [hi] at hk; simp at hk
      · exact h.single x hx y hy c g k hg hk
  · rw [ht]; exact h.count

theorem length_le_of_nodup {l : List NodeIx} (h : l.Nodup) : l.length ≤ 512 := by
  have h1 : (l.map BitVec.toNat).Nodup := h.map_on fun x _ y _ e => BitVec.eq_of_toNat_eq e
  have h2 : l.map BitVec.toNat ⊆ List.range 512 := by
    intro x hx
    obtain ⟨y, _, rfl⟩ := List.mem_map.mp hx
    exact List.mem_range.mpr y.isLt
  have := (h1.subperm h2).length_le
  simpa using this

/-- The walk, however it ends (R191). -/
theorem walkLoop_spec (s0 : State) (r : NodeIx) : ∀ (fuel : Nat) (s : State) (ls vis : List (NodeIx × List Bool)),
    WalkInv s0 r s ls vis → s.node = s0.node → 513 ≤ fuel + vis.length →
    (∃ t vis', walkLoop fuel s = .ok () t ∧ WalkInv s0 r t [] vis' ∧
      t = { s with code := t.code, result := t.result, walk := t.walk }) ∨
    (∃ e t, walkLoop fuel s = .raised e t ∧ CodesArePaths s0 r t ∧ WalkFails s0 r e t ∧
      t = { s with code := t.code, result := t.result, walk := t.walk })
  | 0, s, ls, vis, h, _, hf => by
    have h1 := length_le_of_nodup h.nodup
    rw [List.length_map] at h1
    omega
  | fuel + 1, s, [], vis, h, _, _ => by
    left
    refine ⟨s, vis, ?_, h, rfl⟩
    rw [walkLoop]
    have := h.stack
    simp only [List.map_nil] at this
    rw [this]
  | fuel + 1, s, (n, p) :: ls, vis, h, hnode, hf => by
    have hst : s.walk.stack = entryOf (n, p) :: ls.map entryOf := h.stack
    have hsp := h.reachS (n, p) (by simp)
    have he : (entryOf (n, p)).node = n := rfl
    rw [walkLoop, hst]
    simp only [he]
    by_cases hm : n ∈ s.walk.visited
    · right
      rw [if_pos hm]
      refine ⟨_, _, rfl, h.codesArePaths, h.fails rfl (.inl ⟨rfl, hsp.1, ?_⟩), rfl⟩
      have hm' := hm
      rw [h.visited] at hm'
      obtain ⟨x, hx, rfl⟩ := List.mem_map.mp hm'
      exact ⟨x.2, h.orderV x hx (x.1, p) (by simp), .inl (h.reachV x hx).1⟩
    · rw [if_neg hm]
      have hnd : ∀ w : Walk, ({ s with walk := w } : State).node n = s0.node n := by
        intro w; rw [← hnode]; rfl
      have hca : ∀ (w : Walk) (x : Sym), ({ s with walk := w } : State).codeAt x = s.codeAt x := fun _ _ => rfl
      rw [hnd]
      cases hl : s0.node n with
      | leaf sym f =>
        simp only [hca]
        by_cases hv : (s.codeAt sym).valid = true
        · right
          rw [if_pos hv]
          refine ⟨_, _, rfl, h.codesArePaths, h.fails rfl (.inl ⟨rfl, hsp.1, ?_⟩), rfl⟩
          rcases h.codes sym with ⟨x, hx, ⟨g, hg⟩, _⟩ | ⟨_, hc⟩
          · exact ⟨x.2, h.orderV x hx (n, p) (by simp), .inr ⟨sym, f, hl, x.1, g, (h.reachV x hx).1, hg⟩⟩
          · rw [hc] at hv; simp at hv
        · rw [if_neg hv]
          have hinv := h.leaf hm hl (by simpa using hv) rfl
          rcases walkLoop_spec s0 r fuel _ ls _ hinv hnode (by simp; omega) with
            ⟨t, vis', h1, h2, h3⟩ | ⟨e, t, h1, h2, h3, h4⟩
          · exact .inl ⟨t, vis', h1, h2, h3⟩
          · exact .inr ⟨e, t, h1, h2, h3, h4⟩
      | internal f a b =>
        simp only
        have hd : (entryOf (n, p)).depth.toNat = p.length := by
          have := hsp.2
          simp [entryOf]; simp at this; omega
        by_cases h64 : p.length = 64
        · right
          rw [if_pos (by rw [hd]; exact h64)]
          refine ⟨_, _, rfl, h.codesArePaths, h.fails rfl (.inr ⟨rfl, ⟨hsp.1, h64, by rw [hl]; rfl⟩, ?_⟩), rfl⟩
          rintro ⟨-, q, hq, hr | ⟨sym, g, hg, -⟩⟩
          · exact hm (by rw [h.visited]; exact List.mem_map.mpr ⟨_, h.before hq hr, rfl⟩)
          · rw [hl] at hg; simp at hg
        · rw [if_neg (by rw [hd]; exact h64)]
          have e0 : ({ node := a, depth := (entryOf (n, p)).depth + 1, path := 2 * (entryOf (n, p)).path } : WalkEntry)
              = entryOf (a, p ++ [false]) := by
            rw [← entryOf_child n a p false]; simp
          have e1 : ({ node := b, depth := (entryOf (n, p)).depth + 1, path := 2 * (entryOf (n, p)).path + 1 } : WalkEntry)
              = entryOf (b, p ++ [true]) := by
            rw [← entryOf_child n b p true]; simp
          have hp64 : p.length < 64 := by have := hsp.2; simp at this; omega
          have hinv := h.internal hm hl hp64 rfl
          rw [e0, e1]
          rcases walkLoop_spec s0 r fuel _ _ _ hinv hnode (by simp; omega) with
            ⟨t, vis', h1, h2, h3⟩ | ⟨e, t, h1, h2, h3, h4⟩
          · exact .inl ⟨t, vis', h1, h2, h3⟩
          · exact .inr ⟨e, t, h1, h2, h3, h4⟩

theorem State.codeCount_clearCodes (s : State) : s.clearCodes.codeCount = 0 := by
  show List.countP _ (Vector.replicate 256 CodeEntry.invalid).toList = 0
  rw [Vector.toList_replicate, List.countP_replicate]
  rfl

/-- CODE_GEN where the walk runs (R190, R191): it succeeds exactly on a proper tree, with the paths as codes; else it fails for
the reason R191 gives, and the codes it keeps are paths. -/
theorem codeGen_spec (s : State) (hr : s.root ≠ nilIx) (hi : (s.node s.root).isInternal = true) :
    (∃ t, codeGen s = .ok () t ∧ ProperTree s s.root ∧
      t = { s with code := t.code, result := t.result, walk := t.walk, env := { s.env with draws := s.env.draws + 1 } } ∧
      (∀ p sym, LeafAt s s.root p sym → t.codeAt sym = pathCode p ∧ p.length ≤ 64) ∧
      (∀ sym, (¬ ∃ p, LeafAt s s.root p sym) → t.codeAt sym = .invalid) ∧ t.result.toNat = t.codeCount) ∨
    (∃ e t, codeGen s = .raised e t ∧ CodesArePaths s s.root t ∧ WalkFails s s.root e t ∧
      t = { s with code := t.code, result := t.result, walk := t.walk, env := { s.env with draws := s.env.draws + 1 } }) := by
  generalize hs1 : ({ s.clearCodes with walk := { visited := [], stack := [{ node := s.root, depth := 0, path := 0 }] } } : State) = s1
  have hn1 : s1.node = s.node := by rw [← hs1]; rfl
  have hinv : WalkInv s s.root s1 [(s.root, [])] [] := by
    constructor
    · rw [← hs1]; rfl
    · rw [← hs1]; rfl
    · simp
    · intro x hx; simp only [List.mem_singleton] at hx; subst hx; exact ⟨.here _, by simp⟩
    · simp
    · simp
    · simp
    · simp
    · simp
    · intro q m _; exact .inl ⟨(s.root, []), by simp, List.nil_prefix⟩
    · simp
    · intro sym
      refine .inr ⟨by simp, ?_⟩
      rw [← hs1]; exact s.codeAt_clearCodes sym
    · simp
    · rw [← hs1]
      show (0 : Word).toNat = s.clearCodes.codeCount
      rw [State.codeCount_clearCodes]; rfl
  have hcg : codeGen s = (walkLoop 513 s1).mapState State.releaseWalk := by
    have e1 : s.clearCodes.root = s.root := rfl
    have e2 : s.clearCodes.node = s.node := rfl
    unfold codeGen
    simp only [e1, e2, if_neg hr]
    cases hnd : s.node s.root with
    | leaf _ _ => rw [hnd] at hi; simp [Node.isInternal] at hi
    | internal _ _ _ => rw [← hs1]; rfl
  rw [hcg]
  rcases walkLoop_spec s s.root 513 s1 _ _ hinv hn1 (by simp) with ⟨t, vis, h1, h2, h3⟩ | ⟨e, t, h1, h2, h3, h4⟩
  · left
    have hcode : t.releaseWalk.codeAt = t.codeAt := rfl
    have hvis : ∀ q m, Reach s s.root q m → (m, q) ∈ vis := by
      intro q m hq
      rcases h2.complete q m hq with ⟨y, hy, -⟩ | hm
      · simp at hy
      · exact hm
    have huniq : ∀ m p q, (m, p) ∈ vis → (m, q) ∈ vis → p = q := by
      intro m p q hp hq
      have := List.inj_on_of_nodup_map h2.nodup hp hq rfl
      simpa using this
    have hpt : ProperTree s s.root := by
      refine ⟨fun p q m a b => huniq m p q (hvis p m a) (hvis q m b), fun p q sym a b => ?_, fun p m a b => ?_⟩
      · obtain ⟨m, f, a1, a2⟩ := a
        obtain ⟨m', f', b1, b2⟩ := b
        have := h2.single _ (hvis p m a1) _ (hvis q m' b1) sym f f' a2 b2
        simp only [Prod.mk.injEq] at this
        exact this.2
      · exact h2.depthV (m, p) (hvis p m a) b
    refine ⟨t.releaseWalk, by rw [h1]; rfl, hpt, ?_, ?_, ?_, ?_⟩
    · rw [h3, ← hs1]; rfl
    · intro p sym hl
      rw [hcode]
      have hl' := hl
      obtain ⟨m, f, a1, a2⟩ := hl
      rcases h2.codes sym with ⟨x, hx, ⟨g, hg⟩, hc⟩ | ⟨hno, -⟩
      · have hx' := h2.reachV x hx
        rw [hc, hpt.oneLeaf p x.2 sym hl' ⟨x.1, g, hx'.1, hg⟩]
        exact ⟨rfl, hx'.2⟩
      · exact absurd ⟨_, hvis p m a1, f, a2⟩ hno
    · intro sym hno
      rw [hcode]
      rcases h2.codes sym with ⟨x, hx, ⟨g, hg⟩, hc⟩ | ⟨-, hc⟩
      · exact absurd ⟨x.2, x.1, g, (h2.reachV x hx).1, hg⟩ hno
      · exact hc
    · exact h2.count
  · right
    exact ⟨e, t.releaseWalk, by rw [h1]; rfl, h2, h3, by rw [h4, ← hs1]; rfl⟩

end Sys2Proof.Machine
end

