-- ==== Sys2Proof/Laws/Frequency.lean ====
section
/-! SUPPORT. FREQ_COUNT (41_frequency.md R141): the counts it leaves, and where it stops. -/

namespace Sys2Proof.Machine

theorem State.freqAt_countByte_toNat {s : State} {b : Byte} {n : Nat} (h : (s.freqAt b).toNat + 1 < 2 ^ 32) (x : Sym) :
    ((s.countByte b n).freqAt x).toNat = (s.freqAt x).toNat + [b].count x := by
  rw [State.freqAt_countByte]
  by_cases hx : x = b
  · subst hx
    rw [if_pos rfl, BitVec.toNat_add]
    simp; omega
  · rw [if_neg hx]
    simp [Ne.symm hx]

/-- The loop of FREQ_COUNT where nothing is full (R141). -/
theorem countLoop_ok (src : Nat) : ∀ (n i : Nat) (s : State), src + i + n ≤ s.dmemSize →
    (∀ x, (s.freqAt x).toNat + (s.bytesAt (src + i) n).count x < 2 ^ 32) → s.total.toNat + n < 2 ^ 64 →
    ∃ u, countLoop src n i s = .ok () u ∧
      u = { s with freq := u.freq, total := u.total, result := if n = 0 then s.result else BitVec.ofNat 32 (i + n) } ∧
      (∀ x, (u.freqAt x).toNat = (s.freqAt x).toNat + (s.bytesAt (src + i) n).count x) ∧
      u.total.toNat = s.total.toNat + n
  | 0, i, s, _, _, _ => ⟨s, rfl, rfl, fun x => by simp [State.bytesAt], rfl⟩
  | n + 1, i, s, hr, hf, ht => by
    rw [State.bytesAt_cons] at hf
    generalize hb : s.byte (src + i) = b at hf
    have hfb := hf b
    rw [List.count_cons_self] at hfb
    have h1 : ¬ (s.freqAt b).toNat = 2 ^ 32 - 1 := by omega
    have h2 : ¬ s.total.toNat = 2 ^ 64 - 1 := by omega
    have hc := State.freqAt_countByte_toNat (s := s) (b := b) (n := i + 1) (by omega)
    have htot : (s.countByte b (i + 1)).total.toNat = s.total.toNat + 1 := by
      show (s.total + 1).toNat = _
      rw [BitVec.toNat_add]; simp; omega
    have hby : (s.countByte b (i + 1)).bytesAt (src + i + 1) n = s.bytesAt (src + i + 1) n := rfl
    have hcount : ∀ x, (b :: s.bytesAt (src + i + 1) n).count x = [b].count x + (s.bytesAt (src + i + 1) n).count x := by
      intro x
      rw [← List.count_append]; rfl
    obtain ⟨u, e1, e2, e3, e4⟩ := countLoop_ok src n (i + 1) (s.countByte b (i + 1)) (by show src + (i + 1) + n ≤ s.dmemSize; omega)
      (by
        intro x
        rw [hc, ← Nat.add_assoc, hby]
        have := hf x
        rw [hcount] at this
        omega)
      (by rw [htot]; omega)
    refine ⟨u, ?_, ?_, ?_, ?_⟩
    · rw [countLoop, memRead_ok (by omega), Res.ok_andThen, hb, if_neg h1, if_neg h2, e1]
    · rw [e2]
      simp only [State.countByte, State.setFreq, State.mk.injEq, true_and, and_true]
      split
      · rename_i h0; subst h0; simp
      · simp only [Nat.add_eq_zero_iff, one_ne_zero, and_false, if_false]
        congr 1; omega
    · intro x
      rw [e3, hc, ← Nat.add_assoc, hby, State.bytesAt_cons, hb, hcount]
      omega
    · rw [e4, htot]; omega

/-- The loop of FREQ_COUNT cut in two. -/
theorem countLoop_add (src : Nat) : ∀ (n m i : Nat) (s : State),
    countLoop src (n + m) i s = (countLoop src n i s).andThen fun _ t => countLoop src m (i + n) t
  | 0, m, i, s => by simp [countLoop]
  | n + 1, m, i, s => by
    rw [show n + 1 + m = (n + m) + 1 by omega, countLoop, countLoop]
    simp only [memRead]
    split
    · rfl
    · simp only [Res.ok_andThen]
      split
      · rfl
      · split
        · rfl
        · rw [countLoop_add src n m (i + 1)]
          congr 1
          funext _ t
          congr 1; omega

/-- The loop of FREQ_COUNT where byte k is the first whose count, or TOTAL, is full (R141). -/
theorem countLoop_raises (src : Nat) {k n : Nat} {s : State} (hk : k < n) (hr : src + n ≤ s.dmemSize)
    (hf : ∀ x, (s.freqAt x).toNat + (s.bytesAt src k).count x < 2 ^ 32) (ht : s.total.toNat + k < 2 ^ 64)
    (hfull : ¬ ((∀ x, (s.freqAt x).toNat + (s.bytesAt src (k + 1)).count x < 2 ^ 32) ∧ s.total.toNat + (k + 1) < 2 ^ 64)) :
    ∃ u, countLoop src n 0 s = .raised (.arithOverflow (src + k)) u ∧
      u = { s with freq := u.freq, total := u.total, result := if k = 0 then s.result else BitVec.ofNat 32 k } ∧
      (∀ x, (u.freqAt x).toNat = (s.freqAt x).toNat + (s.bytesAt src k).count x) ∧ u.total.toNat = s.total.toNat + k := by
  obtain ⟨u, e1, e2, e3, e4⟩ := countLoop_ok src k 0 s (by omega) (by simpa using hf) ht
  simp only [Nat.zero_add, Nat.add_zero] at e2 e3
  obtain ⟨m, rfl⟩ : ∃ m, n = k + (m + 1) := ⟨n - k - 1, by omega⟩
  refine ⟨u, ?_, e2, e3, e4⟩
  have hd : u.dmemSize = s.dmemSize := by rw [e2]
  have hby : u.byte (src + k) = s.byte (src + k) := by rw [e2]; rfl
  rw [countLoop_add, e1, Res.ok_andThen, Nat.zero_add, countLoop, memRead_ok (by omega), Res.ok_andThen, hby]
  by_cases h1 : (u.freqAt (s.byte (src + k))).toNat = 2 ^ 32 - 1
  · rw [if_pos h1]
  · rw [if_neg h1]
    by_cases h2 : u.total.toNat = 2 ^ 64 - 1
    · rw [if_pos h2]
    · exfalso
      apply hfull
      constructor
      · intro x
        rw [State.bytesAt_concat, List.count_append]
        have h3 := e3 (s.byte (src + k))
        have h4 := hf x
        by_cases hx : x = s.byte (src + k)
        · subst hx
          rw [List.count_singleton_self]; omega
        · have : List.count x [s.byte (src + k)] = 0 := by
            rw [List.count_eq_zero]; simpa using hx
          omega
      · omega

end Sys2Proof.Machine
end

