-- ==== Sys2Proof/Laws/Pack.lean ====
section
/-! SUPPORT. The packer (45_pack.md): each operation's bits, where it writes, and what it leaves. -/

namespace Sys2Proof.Machine

theorem State.dmemSize_le (s : State) : s.dmemSize ≤ 2 ^ 23 := by
  have := s.dmemLog.isLt
  exact Nat.pow_le_pow_right (by omega) (by omega)

/-- The bits an outcome of the packer adds: where it wrote k bytes behind OPTR, they and the bits left pending are the bits
that were pending and the new ones. -/
structure Packed (s : State) (k len : Nat) (bits : List Bool) (u : State) : Prop where
  optr : u.pk.optr = s.pk.optr + BitVec.ofNat 32 k
  ocnt : u.pk.ocnt = s.pk.ocnt + BitVec.ofNat 32 k
  bblen : u.pk.bblen.toNat = len
  number : u.pk.bbuf.toNat < 2 ^ u.pk.bblen.toNat
  stream : u.bitsAt s.pk.optr.toNat k ++ u.pendingBits = s.pendingBits ++ bits
  outside : s.sameBytesBut s.pk.optr.toNat k u

/-- The loop of append (R201). -/
theorem drainBytes_spec : ∀ (k n acc : Nat) (s : State), n / 8 = k → acc < 2 ^ n → s.pk.optr.toNat + k ≤ s.dmemSize →
    ∃ u r, drainBytes k n acc s = .ok (n % 8, r) u ∧ r < 2 ^ (n % 8) ∧
      u = { s with
        pk := { s.pk with optr := s.pk.optr + BitVec.ofNat 32 k, ocnt := s.pk.ocnt + BitVec.ofNat 32 k }, dmem := u.dmem } ∧
      u.bitsAt s.pk.optr.toNat k ++ bitsOf (n % 8) r = bitsOf n acc ∧ s.sameBytesBut s.pk.optr.toNat k u
  | 0, n, acc, s, hn, ha, _ => by
    have hm : n % 8 = n := by omega
    refine ⟨s, acc, by rw [drainBytes, hm], by rw [hm]; exact ha, ?_, by rw [hm]; rfl, fun x _ => rfl⟩
    simp
  | k + 1, n, acc, s, hn, ha, hs => by
    have h8 : 8 ≤ n := by omega
    have hsz := s.dmemSize_le
    generalize hb : (BitVec.ofNat 8 (acc >>> (n - 8)) : Byte) = b
    generalize hs1 : (s.setByte s.pk.optr.toNat b).advancePacker 1 = s1
    have ho : s1.pk.optr.toNat = s.pk.optr.toNat + 1 := by
      rw [← hs1]
      show (s.pk.optr + 1).toNat = _
      rw [BitVec.toNat_add]
      simp; omega
    have hd : s1.dmemSize = s.dmemSize := by rw [← hs1]; rfl
    have hb8 : b.toNat = acc >>> (n - 8) := by
      rw [← hb, BitVec.toNat_ofNat]
      refine Nat.mod_eq_of_lt ?_
      rw [Nat.shiftRight_eq_div_pow]
      refine Nat.div_lt_of_lt_mul ?_
      rw [← pow_add]
      have : n - 8 + 8 = n := by omega
      rw [this]; exact ha
    obtain ⟨u, r, h1, h2, h3, h4, h5⟩ := drainBytes_spec k (n - 8) (acc % 2 ^ (n - 8)) s1 (by omega)
      (Nat.mod_lt _ (Nat.two_pow_pos _)) (by rw [ho, hd]; omega)
    have hm : (n - 8) % 8 = n % 8 := by omega
    rw [hm] at h1 h2 h4
    have hbyte : ∀ x, s1.byte x = if x = s.pk.optr.toNat then b else s.byte x := by
      intro x; rw [← hs1]; exact s.byte_setByte _ x b
    refine ⟨u, r, ?_, h2, ?_, ?_, ?_⟩
    · rw [drainBytes, if_pos h8, memWrite_ok (by omega), Res.ok_andThen, hb, hs1, h1]
    · rw [h3, ← hs1]
      simp only [State.advancePacker, State.setByte, State.mk.injEq, Packer.mk.injEq, true_and, and_true]
      constructor <;> (rw [add_assoc]; congr 1; apply BitVec.eq_of_toNat_eq; simp [Nat.add_comm])
    · have e : k + 1 = 1 + k := by omega
      rw [e, State.bitsAt_add, State.bitsAt_one, List.append_assoc, ← ho, h4]
      have hu : u.byte s.pk.optr.toNat = b := by rw [h5 _ (by omega), hbyte, if_pos rfl]
      rw [hu, hb8, bitsOf_mod]
      have e8 : n = 8 + (n - 8) := by omega
      conv_rhs => rw [e8, bitsOf_add]
    · intro x hx
      rw [h5 x (by omega), hbyte, if_neg (by omega)]

/-- `append(c, L)` where its bytes fit (R201). -/
theorem append_ok {c l : Nat} {s : State} (hc : c < 2 ^ l) (hp : s.pk.bbuf.toNat < 2 ^ s.pk.bblen.toNat) {k : Nat}
    (hk : k = (s.pk.bblen.toNat + l) / 8) (hs : s.pk.optr.toNat + k ≤ s.dmemSize) :
    ∃ u, append c l s = .ok () u ∧ u = { s with pk := u.pk, dmem := u.dmem } ∧
      Packed s k ((s.pk.bblen.toNat + l) % 8) (bitsOf l c) u := by
  have hacc : s.pk.bbuf.toNat <<< l ||| c < 2 ^ (s.pk.bblen.toNat + l) := by
    refine Nat.or_lt_two_pow ?_ (hc.trans_le (Nat.pow_le_pow_right (by omega) (by omega)))
    rw [Nat.shiftLeft_eq, pow_add]
    exact Nat.mul_lt_mul_of_pos_right hp (Nat.two_pow_pos _)
  obtain ⟨u, r, h1, h2, h3, h4, h5⟩ := drainBytes_spec k _ _ s hk.symm hacc hs
  have hlt : (s.pk.bblen.toNat + l) % 8 < 8 := Nat.mod_lt _ (by omega)
  have hn3 : (BitVec.ofNat 3 ((s.pk.bblen.toNat + l) % 8)).toNat = (s.pk.bblen.toNat + l) % 8 := by simp
  have hr7 : r < 2 ^ 8 := h2.trans_le (Nat.pow_le_pow_right (by omega) (by omega))
  have hr : (BitVec.ofNat 71 r).toNat = r := by
    rw [BitVec.toNat_ofNat]; exact Nat.mod_eq_of_lt (by omega)
  refine ⟨u.setPending ((s.pk.bblen.toNat + l) % 8) r, ?_, ?_, ?_⟩
  · unfold append
    simp only [← hk]
    rw [checkRange_ok hs, Res.ok_andThen, h1, Res.ok_andThen]
  · rw [h3]; rfl
  · constructor
    · rw [h3]; rfl
    · rw [h3]; rfl
    · exact hn3
    · show (BitVec.ofNat 71 r).toNat < 2 ^ (BitVec.ofNat 3 ((s.pk.bblen.toNat + l) % 8)).toNat
      rw [hr, hn3]; exact h2
    · show u.bitsAt _ k ++ bitsOf (BitVec.ofNat 3 ((s.pk.bblen.toNat + l) % 8)).toNat (BitVec.ofNat 71 r).toNat = _
      rw [hn3, hr, h4]
      exact bitsOf_shiftLeft_or hc
    · exact h5

/-- `append(c, L)` where its bytes do not fit (R201). -/
theorem append_raises {c l : Nat} {s : State} {k : Nat} (hk : k = (s.pk.bblen.toNat + l) / 8)
    (hs : s.dmemSize < s.pk.optr.toNat + k) :
    append c l s = .raised (.bounds (max s.pk.optr.toNat s.dmemSize)) s := by
  unfold append
  simp only [← hk]
  rw [checkRange_raises hs, Res.raised_andThen]

/-- PACK_SYM's body where the symbol has a code and its bytes fit (R204). -/
theorem packSymbol_ok {sym : Sym} {s : State} (hv : (s.codeAt sym).valid = true) (hc : codeEntryOk (s.codeAt sym))
    (hp : s.pk.bbuf.toNat < 2 ^ s.pk.bblen.toNat) {k : Nat} (hk : k = (s.pk.bblen.toNat + (s.codeAt sym).len.toNat) / 8)
    (hs : s.pk.optr.toNat + k ≤ s.dmemSize) :
    ∃ u, packSymbol sym s = .ok () u ∧ u = { s with pk := u.pk, dmem := u.dmem } ∧
      Packed s k ((s.pk.bblen.toNat + (s.codeAt sym).len.toNat) % 8) (s.codeBits sym) u := by
  simp only [codeEntryOk, hv, if_true] at hc
  rw [packSymbol, if_pos hv]
  exact append_ok hc.2.2 hp hk hs

/-- Two stretches of packing, one after the other. -/
theorem Packed.trans {s t u : State} {k1 k2 n1 n2 : Nat} {b1 b2 : List Bool} (h1 : Packed s k1 n1 b1 t)
    (h2 : Packed t k2 n2 b2 u) (ho : t.pk.optr.toNat = s.pk.optr.toNat + k1) : Packed s (k1 + k2) n2 (b1 ++ b2) u := by
  have h32 : ∀ w : Word, w + BitVec.ofNat 32 k1 + BitVec.ofNat 32 k2 = w + BitVec.ofNat 32 (k1 + k2) := by
    intro w
    rw [add_assoc]; congr 1; apply BitVec.eq_of_toNat_eq; simp
  constructor
  · rw [h2.optr, h1.optr, h32]
  · rw [h2.ocnt, h1.ocnt, h32]
  · exact h2.bblen
  · exact h2.number
  · have e1 : u.bitsAt s.pk.optr.toNat k1 = t.bitsAt s.pk.optr.toNat k1 :=
      State.bitsAt_congr fun x _ hx => h2.outside x (by omega)
    have e2 := h2.stream
    rw [ho] at e2
    rw [State.bitsAt_add, e1, List.append_assoc, e2, ← List.append_assoc, h1.stream, List.append_assoc]
  · intro x hx
    rw [h2.outside x (by omega), h1.outside x (by omega)]

theorem optr_add {s u : State} {k n : Nat} {b : List Bool} (h : Packed s k n b u) (hk : s.pk.optr.toNat + k ≤ s.dmemSize) :
    u.pk.optr.toNat = s.pk.optr.toNat + k := by
  have := s.dmemSize_le
  rw [h.optr, BitVec.toNat_add, BitVec.toNat_ofNat]
  omega

/-- PACK_DATA's loop where every byte has a code, the output fits, and it lies apart from the input (R205). -/
theorem packLoop_ok (src : Nat) : ∀ (n i : Nat) (s : State) (bits : List Bool) (k : Nat), src + i + n ≤ s.dmemSize →
    (∀ b ∈ s.bytesAt (src + i) n, (s.codeAt b).valid = true ∧ codeEntryOk (s.codeAt b)) →
    s.pk.bbuf.toNat < 2 ^ s.pk.bblen.toNat → bits = (s.bytesAt (src + i) n).flatMap s.codeBits →
    k = (s.pk.bblen.toNat + bits.length) / 8 → s.pk.optr.toNat + k ≤ s.dmemSize →
    apart (src + i) n s.pk.optr.toNat k →
    ∃ u, packLoop src n i s = .ok () u ∧
      u = { s with pk := u.pk, dmem := u.dmem, result := if n = 0 then s.result else BitVec.ofNat 32 (i + n) } ∧
      Packed s k ((s.pk.bblen.toNat + bits.length) % 8) bits u
  | 0, i, s, bits, k, _, _, hp, hb, hk, _, _ => by
    have hb0 : bits = [] := by rw [hb]; rfl
    subst hb0
    have hk0 : k = 0 := by have := s.pk.bblen.isLt; simp at hk; omega
    subst hk0
    refine ⟨s, rfl, rfl, ⟨by simp, by simp, ?_, hp, by simp, fun x _ => rfl⟩⟩
    have := s.pk.bblen.isLt
    simp; omega
  | n + 1, i, s, bits, k, hr, hv, hp, hb, hk, hs, ha => by
    rw [State.bytesAt_cons] at hv hb
    generalize hbyte : s.byte (src + i) = b at hv hb
    obtain ⟨hvb, hcb⟩ := hv b (by simp)
    have hl : (s.codeBits b).length = (s.codeAt b).len.toNat := by simp [State.codeBits]
    rw [List.flatMap_cons] at hb
    generalize hk1 : (s.pk.bblen.toNat + (s.codeAt b).len.toNat) / 8 = k1
    have hlen : bits.length = (s.codeAt b).len.toNat + ((s.bytesAt (src + i + 1) n).flatMap s.codeBits).length := by
      rw [hb, List.length_append, hl]
    have hk1k : k1 ≤ k := by omega
    obtain ⟨u1, h1, h2, h3⟩ := packSymbol_ok hvb hcb hp hk1.symm (by omega)
    have ho1 := optr_add h3 (by omega)
    generalize hu2 : ({ u1 with result := BitVec.ofNat 32 (i + 1) } : State) = u2
    have e2 : u2 = { s with pk := u1.pk, dmem := u1.dmem, result := BitVec.ofNat 32 (i + 1) } := by rw [← hu2, h2]
    have hcode : u2.codeAt = s.codeAt := by rw [e2]; rfl
    have hcb2 : u2.codeBits = s.codeBits := by funext x; simp only [State.codeBits, hcode]
    have hd : u2.dmemSize = s.dmemSize := by rw [e2]
    have hpk : u2.pk = u1.pk := by rw [e2]
    have hby : ∀ x, u2.byte x = u1.byte x := by intro x; rw [← hu2]; rfl
    have hb2 : u2.bytesAt (src + i + 1) n = s.bytesAt (src + i + 1) n :=
      State.bytesAt_congr fun x h4 h5 => by
        rw [hby, h3.outside x]
        intro h6
        exact ha x (by omega) (by omega) h6.1 (by omega)
    have hbb := h3.bblen
    obtain ⟨u, h4, h5, h6⟩ := packLoop_ok src n (i + 1) u2 ((s.bytesAt (src + i + 1) n).flatMap s.codeBits)
      ((u2.pk.bblen.toNat + ((s.bytesAt (src + i + 1) n).flatMap s.codeBits).length) / 8) (by rw [hd]; omega)
      (by
        rw [← Nat.add_assoc, hb2, hcode]
        intro x hx
        exact hv x (List.mem_cons_of_mem _ hx))
      (by rw [hpk]; exact h3.number) (by rw [← Nat.add_assoc, hb2, hcb2]) rfl
      (by rw [hd, hpk, ho1, hbb]; omega)
      (by
        intro x h7 h8 h9 h10
        rw [hpk, ho1] at h9 h10
        rw [hbb] at h10
        exact ha x (by omega) (by omega) (by omega) (by omega))
    refine ⟨u, ?_, ?_, ?_⟩
    · rw [packLoop, memRead_ok (by omega), Res.ok_andThen, hbyte, h1, Res.ok_andThen, hu2, h4]
    · rw [h5, e2]
      simp only [State.mk.injEq, true_and, and_true]
      split
      · rename_i h0; subst h0; simp
      · congr 1; omega
    · have h3' : Packed s k1 ((s.pk.bblen.toNat + (s.codeAt b).len.toNat) % 8) (s.codeBits b) u2 := by
        rw [← hu2]
        exact ⟨h3.optr, h3.ocnt, h3.bblen, h3.number, h3.stream, h3.outside⟩
      have := h3'.trans h6 (by rw [hpk]; exact ho1)
      rw [hpk, hbb] at this
      rw [hb]
      convert this using 1
      · rw [hk, hlen]; omega
      · rw [List.length_append, hl]; omega

/-- PACK_DATA's body (R205). -/
theorem packData_ok {src n : Nat} {s : State} {bits : List Bool} {k : Nat} (hr : src + n ≤ s.dmemSize)
    (hv : ∀ b ∈ s.bytesAt src n, (s.codeAt b).valid = true ∧ codeEntryOk (s.codeAt b))
    (hp : s.pk.bbuf.toNat < 2 ^ s.pk.bblen.toNat) (hb : bits = (s.bytesAt src n).flatMap s.codeBits)
    (hk : k = (s.pk.bblen.toNat + bits.length) / 8) (hs : s.pk.optr.toNat + k ≤ s.dmemSize)
    (ha : apart src n s.pk.optr.toNat k) :
    ∃ u, packData src n s = .ok () u ∧ u = { s with pk := u.pk, dmem := u.dmem, result := BitVec.ofNat 32 n } ∧
      Packed s k ((s.pk.bblen.toNat + bits.length) % 8) bits u := by
  obtain ⟨u, h1, h2, h3⟩ := packLoop_ok src n 0 { s with result := 0 } bits k (by simpa using hr) hv hp hb hk hs ha
  refine ⟨u, ?_, ?_, ⟨h3.optr, h3.ocnt, h3.bblen, h3.number, h3.stream, h3.outside⟩⟩
  · rw [packData, checkRange_ok hr, Res.ok_andThen, h1]
  · rw [h2]
    simp only [Nat.zero_add]
    split
    · rename_i h0; subst h0; rfl
    · rfl

/-- PACK_FLUSH's padding where bits are pending and a byte fits (R206). -/
theorem flushPending_ok {s : State} (hb : s.pk.bblen ≠ 0) (hp : s.pk.bbuf.toNat < 2 ^ s.pk.bblen.toNat)
    (hs : s.pk.optr.toNat + 1 ≤ s.dmemSize) :
    ∃ u, flushPending s = .ok () u ∧
      u = { s with pk := { optr := s.pk.optr + 1, ocnt := s.pk.ocnt + 1, bblen := 0, bbuf := 0 }, dmem := u.dmem } ∧
      u.bitsAt s.pk.optr.toNat 1 = s.pendingBits ++ List.replicate (8 - s.pk.bblen.toNat) false ∧
      s.sameBytesBut s.pk.optr.toNat 1 u := by
  have h8 := s.pk.bblen.isLt
  refine ⟨((s.setByte s.pk.optr.toNat (BitVec.ofNat 8 (s.pk.bbuf.toNat <<< (8 - s.pk.bblen.toNat)))).advancePacker 1).setPending
    0 0, ?_, rfl, ?_, ?_⟩
  · rw [flushPending, if_neg hb, checkRange_ok hs, Res.ok_andThen, memWrite_ok (by omega), Res.ok_andThen]
  · have hv : (BitVec.ofNat 8 (s.pk.bbuf.toNat <<< (8 - s.pk.bblen.toNat))).toNat
        = s.pk.bbuf.toNat <<< (8 - s.pk.bblen.toNat) := by
      rw [BitVec.toNat_ofNat]
      refine Nat.mod_eq_of_lt ?_
      rw [Nat.shiftLeft_eq]
      calc s.pk.bbuf.toNat * 2 ^ (8 - s.pk.bblen.toNat) < 2 ^ s.pk.bblen.toNat * 2 ^ (8 - s.pk.bblen.toNat) :=
            Nat.mul_lt_mul_of_pos_right hp (Nat.two_pow_pos _)
        _ = 2 ^ 8 := by rw [← pow_add]; congr 1; omega
    rw [State.bitsAt_one]
    show bitsOf 8 ((s.setByte s.pk.optr.toNat _).byte s.pk.optr.toNat).toNat = _
    rw [State.byte_setByte_same, hv]
    have e : (8 : Nat) = s.pk.bblen.toNat + (8 - s.pk.bblen.toNat) := by omega
    conv_lhs => rw [show bitsOf 8 = bitsOf (s.pk.bblen.toNat + (8 - s.pk.bblen.toNat)) by rw [← e]]
    exact bitsOf_shiftLeft _ _ _
  · intro x hx
    show (s.setByte s.pk.optr.toNat _).byte x = _
    rw [State.byte_setByte, if_neg (by omega)]

/-- The counts of a header, written from symbol 256-n on (R203, R207). -/
theorem headerLoop_ok (a : Nat) : ∀ (n : Nat) (s : State), n ≤ 256 → a + 1024 ≤ s.dmemSize →
    ∃ u, headerLoop a n s = .ok () u ∧ u = { s with dmem := u.dmem } ∧
      (∀ sym : Sym, 256 - n ≤ sym.toNat → u.bigEndian (a + 4 * sym.toNat) 4 = (s.freqAt sym).toNat) ∧
      s.sameBytesBut (a + 4 * (256 - n)) (4 * n) u
  | 0, s, _, _ => ⟨s, rfl, rfl, fun sym h => by have := sym.isLt; omega, fun x _ => rfl⟩
  | n + 1, s, hn, hs => by
    generalize hk : 256 - (n + 1) = k
    have hk8 : (BitVec.ofNat 8 k : Sym).toNat = k := by simp; omega
    generalize hv : (s.freqAt (BitVec.ofNat 8 k)).toNat = v
    generalize hs1 : State.putBigEndian (a + 4 * k) 4 v 4 s = s1
    have e1 : s1 = { s with dmem := s1.dmem } := by
      rw [← hs1]; simp [State.putBigEndian, State.setByte]
    have hd : s1.dmemSize = s.dmemSize := by rw [e1]
    have hout : s.sameBytesBut (a + 4 * k) 4 s1 := by
      intro x hx
      rw [← hs1, State.byte_putBigEndian _ _ _ _ _ _ le_rfl, if_neg (by omega)]
    have hval : s1.bigEndian (a + 4 * k) 4 = v := by
      rw [← hs1, State.bigEndian_putBigEndian]
      refine Nat.mod_eq_of_lt ?_
      rw [← hv]
      exact (s.freqAt _).isLt.trans_le (by norm_num)
    have hf : s1.freqAt = s.freqAt := by rw [e1]; rfl
    obtain ⟨u, h1, h2, h3, h4⟩ := headerLoop_ok a n s1 (by omega) (by rw [hd]; exact hs)
    refine ⟨u, ?_, ?_, ?_, ?_⟩
    · rw [headerLoop]
      simp only [hk, hv]
      rw [memWriteBE_ok (by omega), Res.ok_andThen, hs1, h1]
    · rw [h2, e1]
    · intro sym hsym
      by_cases h : 256 - n ≤ sym.toNat
      · rw [h3 sym h, hf]
      · have e : sym.toNat = k := by omega
        have e' : sym = BitVec.ofNat 8 k := BitVec.eq_of_toNat_eq (by rw [hk8, e])
        rw [e, State.bigEndian_congr (s := s1) (fun x h5 h6 => h4 x (by omega)), hval, ← hv, e']
    · intro x hx
      rw [h4 x (by omega), hout x (by omega)]

/-- PACK_HEADER's body (R203, R207). -/
theorem packHeader_ok {s : State} (hb : s.pk.bblen = 0) (hs : s.pk.optr.toNat + 1032 ≤ s.dmemSize) :
    ∃ u, packHeader s = .ok () u ∧
      u = { s with pk := { s.pk with optr := s.pk.optr + 1032, ocnt := s.pk.ocnt + 1032 }, dmem := u.dmem } ∧
      u.holdsHeader s.pk.optr.toNat s ∧ s.sameBytesBut s.pk.optr.toNat 1032 u := by
  obtain ⟨t, h1, h2, h3, h4⟩ := headerLoop_ok s.pk.optr.toNat 256 s le_rfl (by omega)
  generalize hv : s.total.toNat = v
  generalize hu : State.putBigEndian (s.pk.optr.toNat + 1024) 8 v 8 t = w
  have e1 : w = { t with dmem := w.dmem } := by rw [← hu]; simp [State.putBigEndian, State.setByte]
  have hout : t.sameBytesBut (s.pk.optr.toNat + 1024) 8 w := by
    intro x hx
    rw [← hu, State.byte_putBigEndian _ _ _ _ _ _ le_rfl, if_neg (by omega)]
  have ht : t.total = s.total := by rw [h2]
  have hd : t.dmemSize = s.dmemSize := by rw [h2]
  have hby' : ∀ n x, (w.advancePacker n).byte x = w.byte x := fun _ _ => rfl
  have hby := hby' (BitVec.ofNat 32 Config.hdrBytes)
  have hc : Config.hdrBytes = 1032 := rfl
  refine ⟨w.advancePacker (BitVec.ofNat 32 Config.hdrBytes), ?_, ?_, ⟨fun sym => ?_, ?_⟩, fun x hx => ?_⟩
  · rw [packHeader, if_neg (by simp [hb])]
    simp only []
    rw [checkRange_ok (by rw [hc]; exact hs), Res.ok_andThen, h1, Res.ok_andThen, ht, hv, memWriteBE_ok (by rw [hd]; omega), Res.ok_andThen, hu]
  · rw [e1, h2]; rfl
  · have := sym.isLt
    rw [State.bigEndian_congr (s := w) (fun x _ _ => hby x), State.bigEndian_congr (s := t) (fun x h5 h6 => hout x (by omega)), h3 sym (by omega)]
  · rw [State.bigEndian_congr (s := w) (fun x _ _ => hby x), ← hu, State.bigEndian_putBigEndian, hv]
    refine Nat.mod_eq_of_lt ?_
    rw [← hv]
    exact s.total.isLt.trans_le (by norm_num)
  · rw [hby, hout x (by omega), h4 x (by omega)]

/-- What a successful PACK_SYM says of the code and the room (R204). -/
theorem packSymbol_eq_ok {sym : Sym} {s u : State} {w : Unit} (h : packSymbol sym s = .ok w u) :
    (s.codeAt sym).valid = true ∧ s.pk.optr.toNat + (s.pk.bblen.toNat + (s.codeAt sym).len.toNat) / 8 ≤ s.dmemSize := by
  unfold packSymbol at h
  split at h
  · rename_i hv
    refine ⟨hv, ?_⟩
    by_contra hn
    rw [append_raises rfl (by omega)] at h
    simp at h
  · simp at h

/-- A successful PACK_DATA, whatever overlaps: it advanced the packer by some K bytes, and where those lie apart from the
input, every byte had a code and K is what the codes need (R205, R208). -/
theorem packLoop_extent (src : Nat) : ∀ (n i : Nat) (s u : State), packLoop src n i s = .ok () u → src + i + n ≤ s.dmemSize →
    (∀ sym, codeEntryOk (s.codeAt sym)) → s.pk.bbuf.toNat < 2 ^ s.pk.bblen.toNat → s.pk.optr.toNat ≤ s.dmemSize →
    ∃ K, s.pk.optr.toNat + K ≤ s.dmemSize ∧ u.pk.ocnt = s.pk.ocnt + BitVec.ofNat 32 K ∧
      (apart (src + i) n s.pk.optr.toNat K →
        (∀ b ∈ s.bytesAt (src + i) n, (s.codeAt b).valid = true) ∧
        K = (s.pk.bblen.toNat + ((s.bytesAt (src + i) n).flatMap s.codeBits).length) / 8)
  | 0, i, s, u, h, _, _, _, ho => by
    simp only [packLoop, Res.ok.injEq, true_and] at h
    subst h
    refine ⟨0, by simpa using ho, by simp, fun _ => ⟨by simp [State.bytesAt], ?_⟩⟩
    have := s.pk.bblen.isLt
    simp [State.bytesAt]; omega
  | n + 1, i, s, u, h, hr, hc, hp, ho => by
    rw [packLoop, memRead_ok (by omega), Res.ok_andThen] at h
    generalize hbyte : s.byte (src + i) = b at h
    obtain ⟨_, u1, h1, h2⟩ := Res.andThen_eq_ok h
    obtain ⟨hv, hk⟩ := packSymbol_eq_ok h1
    generalize hk1 : (s.pk.bblen.toNat + (s.codeAt b).len.toNat) / 8 = k1 at hk
    obtain ⟨u1', h3, h4, h5⟩ := packSymbol_ok hv (hc b) hp hk1.symm hk
    rw [h1] at h3
    simp only [Res.ok.injEq] at h3
    obtain ⟨-, rfl⟩ := h3
    have ho1 := optr_add h5 hk
    generalize hu2 : ({ u1 with result := BitVec.ofNat 32 (i + 1) } : State) = u2 at h2
    have hcode : u2.code = s.code := by rw [← hu2, h4]
    have hcd : u2.codeAt = s.codeAt := by funext x; simp only [State.codeAt, hcode]
    have hcb2 : u2.codeBits = s.codeBits := by funext x; simp only [State.codeBits, hcd]
    have hd : u2.dmemSize = s.dmemSize := by rw [← hu2, h4]
    have hpk : u2.pk = u1.pk := by rw [← hu2]
    have hby : ∀ x, u2.byte x = u1.byte x := by intro x; rw [← hu2]; rfl
    obtain ⟨K, e1, e2, e3⟩ := packLoop_extent src n (i + 1) u2 u h2 (by rw [hd]; omega) (by rw [hcd]; exact hc)
      (by rw [hpk]; exact h5.number) (by rw [hpk, hd, ho1]; exact hk)
    rw [hpk, ho1, hd] at e1
    refine ⟨k1 + K, by omega, ?_, fun ha => ?_⟩
    · rw [e2, hpk, h5.ocnt]
      apply BitVec.eq_of_toNat_eq
      simp [BitVec.toNat_add, Nat.add_assoc]
    · have hb2 : u2.bytesAt (src + i + 1) n = s.bytesAt (src + i + 1) n :=
        State.bytesAt_congr fun x h6 h7 => by
          rw [hby, h5.outside x]
          intro h8
          exact ha x (by omega) (by omega) h8.1 (by omega)
      obtain ⟨e4, e5⟩ := e3 (by
        intro x h6 h7 h8 h9
        rw [hpk, ho1] at h8 h9
        exact ha x (by omega) (by omega) (by omega) (by omega))
      rw [← Nat.add_assoc, hb2, hcd] at e4
      rw [← Nat.add_assoc, hb2, hcb2, hpk, h5.bblen] at e5
      rw [State.bytesAt_cons, hbyte]
      refine ⟨fun x hx => ?_, ?_⟩
      · rcases List.mem_cons.mp hx with rfl | hx
        · exact hv
        · exact e4 x hx
      · have hl : (s.codeBits b).length = (s.codeAt b).len.toNat := by simp [State.codeBits]
        rw [List.flatMap_cons, List.length_append, hl, e5]
        omega

end Sys2Proof.Machine
end

