-- ==== Sys2Proof/Laws/Unpack.lean ====
section
/-! SUPPORT. The header parser and the unpacker (46_unpack.md): a bit fetched, a path followed, a stream decoded, and how the
verify pass of DECOMPRESS foretells the write pass (47_codec.md R241). -/

namespace Sys2Proof.Machine

/-- One bit consumed from a byte-aligned start. -/
theorem consumeBit_at {s : State} {a j e : Nat} {c : NodeIx} (h : s.up = unpackerAt a j c e) :
    s.consumeBit = { s with up := unpackerAt a (j + 1) c e } := by
  have hi : s.up.iptr = BitVec.ofNat 32 (a + j / 8) := by rw [h]; rfl
  have hb : s.up.bitpos = BitVec.ofNat 3 (j % 8) := by rw [h]; rfl
  have hup : s.consumeBit.up = unpackerAt a (j + 1) c e := by
    have hc : s.up.cursor = c := by rw [h]; rfl
    have he : s.up.emit = BitVec.ofNat 64 e := by rw [h]; rfl
    simp only [State.consumeBit, unpackerAt, hi, hb, hc, he, Unpacker.mk.injEq, and_true]
    by_cases h7 : j % 8 = 7
    · have e1 : (j + 1) / 8 = j / 8 + 1 := by omega
      have e2 : (j + 1) % 8 = 0 := by omega
      rw [h7, e1, e2, if_pos (by decide : BitVec.ofNat 3 7 = (7 : BitVec 3)), ← Nat.add_assoc]
      refine ⟨?_, by decide⟩
      apply BitVec.eq_of_toNat_eq; simp
    · have e1 : (j + 1) / 8 = j / 8 := by omega
      have e2 : (j + 1) % 8 = j % 8 + 1 := by omega
      have hne : ¬ BitVec.ofNat 3 (j % 8) = 7 := by
        intro h8
        have := congrArg BitVec.toNat h8
        simp at this
        exact h7 (by omega)
      rw [if_neg hne, e1, e2]
      refine ⟨rfl, ?_⟩
      apply BitVec.eq_of_toNat_eq; simp
  rw [← hup]
  rfl

/-- A bit of the stream is fetched (R223). -/
theorem nextBit_ok {s : State} {src len j e : Nat} {c : NodeIx} (hr : src + len ≤ s.dmemSize)
    (h : s.up = unpackerAt src j c e) (hj : j < (s.bitsAt src len).length) :
    nextBit (src + len) s = .ok (s.bitsAt src len)[j] { s with up := unpackerAt src (j + 1) c e } := by
  have hsz := s.dmemSize_le
  have hj8 : j < 8 * len := by simpa using hj
  have hi : s.up.iptr.toNat = src + j / 8 := by
    rw [h]; simp only [unpackerAt, BitVec.toNat_ofNat]; exact Nat.mod_eq_of_lt (by omega)
  have hb : s.up.bitpos.toNat = j % 8 := by
    rw [h]; simp only [unpackerAt, BitVec.toNat_ofNat]; exact Nat.mod_eq_of_lt (by omega)
  unfold nextBit
  rw [if_neg (by omega), hi, memRead_ok (by omega), Res.ok_andThen, hb, consumeBit_at h, State.bitsAt_getElem]

/-- The stream is exhausted (R223). -/
theorem nextBit_raises {s : State} {src len e : Nat} {c : NodeIx} (hr : src + len ≤ s.dmemSize)
    (h : s.up = unpackerAt src (8 * len) c e) : nextBit (src + len) s = .raised (.malformedHeader 2) s := by
  have hsz := s.dmemSize_le
  have hi : s.up.iptr.toNat = src + len := by
    rw [h]; simp only [unpackerAt, BitVec.toNat_ofNat]
    rw [Nat.mul_div_cancel_left _ (by omega)]
    exact Nat.mod_eq_of_lt (by omega)
  unfold nextBit
  rw [if_pos hi]

/-- The head of what is left of the stream. -/
theorem getElem_of_drop {l : List Bool} {j : Nat} {b : Bool} {r : List Bool} (h : l.drop j = b :: r) :
    ∃ hj : j < l.length, l[j] = b ∧ l.drop (j + 1) = r := by
  have hj : j < l.length := by
    by_contra hge
    rw [List.drop_of_length_le (by omega)] at h
    simp at h
  rw [List.drop_eq_getElem_cons hj] at h
  simp only [List.cons.injEq] at h
  exact ⟨hj, h.1, h.2⟩

/-- A path followed down to an internal node (R224). -/
theorem unpackLoop_walk {write : Bool} {src len dst : Nat} : ∀ (p : List Bool) (s : State) (j e fuel : Nat) (c m : NodeIx)
    (rest : List Bool), src + len ≤ s.dmemSize → s.up = unpackerAt src j c e → e < 2 ^ 64 → e < s.total.toNat →
    (s.node s.root).isInternal = true → Reach s c p m → (p ≠ [] → (s.node m).isInternal = true) →
    (s.bitsAt src len).drop j = p ++ rest →
    unpackLoop write (src + len) dst (fuel + p.length) s
      = unpackLoop write (src + len) dst fuel { s with up := unpackerAt src (j + p.length) m e }
  | [], s, j, e, fuel, c, m, rest, _, hu, _, _, _, hp, _, _ => by
    rw [hp.nil_inv]
    simp only [List.length_nil, Nat.add_zero]
    rw [← hu]
  | b :: p, s, j, e, fuel, c, m, rest, hr, hu, he, het, hi, hp, hm, hd => by
    obtain ⟨hj, h1, h2⟩ := getElem_of_drop hd
    obtain ⟨h3, h4⟩ := hp.cons_inv
    generalize hc' : Node.child b (s.node c) = c' at h4
    have hci : (s.node c').isInternal = true := by
      cases p with
      | nil => rw [← h4.nil_inv]; exact hm (by simp)
      | cons b' p' => exact h4.cons_inv.1
    have hem : s.up.emit.toNat = e := by
      rw [hu]; simp only [unpackerAt, BitVec.toNat_ofNat]; exact Nat.mod_eq_of_lt he
    generalize hs1 : ({ s with up := unpackerAt src (j + 1) c' e } : State) = s1
    have e1 : unpackLoop write (src + len) dst (fuel + p.length + 1) s
        = unpackLoop write (src + len) dst (fuel + p.length) s1 := by
      rw [unpackLoop, hem, if_pos het, nextBit_ok hr hu hj, Res.ok_andThen, h1]
      have hstep : stepBit write dst b { s with up := unpackerAt src (j + 1) c e } = .ok () s1 := by
        unfold stepBit
        show (match s.node s.root with
          | .leaf sym _ => _
          | .internal _ _ _ => _) = _
        cases hnr : s.node s.root with
        | leaf _ _ => rw [hnr] at hi; simp [Node.isInternal] at hi
        | internal _ _ _ =>
          have hcc : (if b then (s.node c).right else (s.node c).left) = c' := by rw [← hc']; rfl
          show (match s.node (if b then (s.node c).right else (s.node c).left) with
            | .leaf sym _ => _
            | .internal _ _ _ => _) = _
          rw [hcc]
          cases hnc : s.node c' with
          | leaf _ _ => rw [hnc] at hci; simp [Node.isInternal] at hci
          | internal _ _ _ =>
            show Res.ok () _ = _
            rw [← hs1, ← hcc]
            rfl
      rw [hstep, Res.ok_andThen]
    have hn1 : s1.node = s.node := by rw [← hs1]; rfl
    have e2 := unpackLoop_walk (write := write) (dst := dst) (src := src) (len := len) p s1 (j + 1) e fuel c' m rest
      (by rw [← hs1]; exact hr) (by rw [← hs1]) he (by rw [← hs1]; exact het) (by rw [hn1, ← hs1]; exact hi) (h4.congr hn1)
      (fun hne => by rw [hn1]; exact hm (by simp)) (by rw [← hs1]; exact h2)
    rw [List.length_cons, ← Nat.add_assoc, e1, e2, ← hs1]
    simp only []
    congr 2
    rw [Nat.add_assoc, Nat.add_comm 1]

/-- The node the cursor stands on when a path emits (R224, R225). -/
def emitCursor (s : State) (p : List Bool) (m : NodeIx) : Prop :=
  ((s.node s.root).isInternal = true → Reach s s.root p m) ∧ ((s.node s.root).isInternal = false → m = s.root)

/-- A path that emits, up to the emission (R224, R225). -/
theorem unpackLoop_emits {write : Bool} {src len dst : Nat} {p : List Bool} {s : State} {j e fuel : Nat} {m : NodeIx} {sym : Sym}
    {rest : List Bool} (hr : src + len ≤ s.dmemSize) (hu : s.up = unpackerAt src j s.root e) (he : e < 2 ^ 64)
    (het : e < s.total.toNat) (hp : s.emits p sym) (hm : emitCursor s p m) (hd : (s.bitsAt src len).drop j = p ++ rest) :
    unpackLoop write (src + len) dst (fuel + p.length) s
      = (emitSymbol write dst sym { s with up := unpackerAt src (j + p.length) m e }).andThen
          fun _ t => unpackLoop write (src + len) dst fuel (t.setCursor s.root) := by
  have hem : s.up.emit.toNat = e := by
    rw [hu]; simp only [unpackerAt, BitVec.toNat_ofNat]; exact Nat.mod_eq_of_lt he
  rcases hp with ⟨hi, m', f, hreach, hleaf⟩ | ⟨h1, f, hroot⟩
  · have hmr := hm.1 hi
    have hmm : m' = m := hreach.det hmr
    subst hmm
    -- the last bit of the path
    obtain ⟨q, b, rfl⟩ : ∃ q b, p = q ++ [b] := by
      rcases List.eq_nil_or_concat p with rfl | ⟨q, b, rfl⟩
      · rw [hreach.nil_inv] at hleaf; rw [hleaf] at hi; simp [Node.isInternal] at hi
      · exact ⟨q, b, by simp⟩
    obtain ⟨c, h2, h3⟩ := hreach.split
    obtain ⟨h4, h5⟩ := h3.cons_inv
    have h5' := h5.nil_inv
    have hd' : (s.bitsAt src len).drop j = q ++ (b :: rest) := by rw [hd]; simp
    have hwalk := unpackLoop_walk (write := write) (dst := dst) q s j e (fuel + 1) s.root c (b :: rest) hr hu he het hi h2
      (fun _ => h4) hd'
    have hlen : fuel + (q ++ [b]).length = fuel + 1 + q.length := by simp; omega
    rw [hlen, hwalk]
    have hdq : (s.bitsAt src len).drop (j + q.length) = b :: rest := by
      rw [← List.drop_drop, hd', List.drop_left]
    obtain ⟨hj, h6, h7⟩ := getElem_of_drop hdq
    generalize hs1 : ({ s with up := unpackerAt src (j + q.length) c e } : State) = s1
    have hu1 : s1.up = unpackerAt src (j + q.length) c e := by rw [← hs1]
    have hem1 : s1.up.emit.toNat = e := by
      rw [hu1]; simp only [unpackerAt, BitVec.toNat_ofNat]; exact Nat.mod_eq_of_lt he
    rw [unpackLoop, hem1, if_pos (by rw [← hs1]; exact het), nextBit_ok (by rw [← hs1]; exact hr) hu1 (by rw [← hs1]; exact hj),
      Res.ok_andThen]
    have hbit : (s1.bitsAt src len)[j + q.length]'(by rw [← hs1]; exact hj) = b := by
      rw [← h6]; congr 1; rw [← hs1]; rfl
    rw [hbit]
    have hstep : stepBit write dst b { s1 with up := unpackerAt src (j + q.length + 1) c e }
        = (emitSymbol write dst sym { s with up := unpackerAt src (j + (q ++ [b]).length) m' e }).andThen
            fun _ t => .ok () (t.setCursor t.root) := by
      unfold stepBit
      rw [← hs1]
      show (match s.node s.root with
        | .leaf sym _ => _
        | .internal _ _ _ => _) = _
      cases hnr : s.node s.root with
      | leaf _ _ => rw [hnr] at hi; simp [Node.isInternal] at hi
      | internal _ _ _ =>
        have hcc : (if b then (s.node c).right else (s.node c).left) = m' := by rw [h5']; rfl
        show (match s.node (if b then (s.node c).right else (s.node c).left) with
          | .leaf sym _ => _
          | .internal _ _ _ => _) = _
        rw [hcc, hleaf]
        show (emitSymbol write dst sym (State.setCursor _ (if b then (s.node c).right else (s.node c).left))).andThen _ = _
        rw [hcc]
        have hl2 : j + (q ++ [b]).length = j + q.length + 1 := by simp; omega
        rw [hl2]
        rfl
    rw [hstep]
    cases hes : emitSymbol write dst sym { s with up := unpackerAt src (j + (q ++ [b]).length) m' e } with
    | raised _ _ => rfl
    | ok _ t =>
      have hrt : t.root = s.root := by
        have := congrArg (fun r => (Res.state r).root) hes
        simp only [Res.state_ok] at this
        rw [← this]
        unfold emitSymbol
        split
        · unfold memWrite; split <;> rfl
        · rfl
      simp only [Res.ok_andThen, hrt]
  · have hni : (s.node s.root).isInternal = false := by rw [hroot]; rfl
    have hmr := hm.2 hni
    subst hmr
    obtain ⟨b, rfl⟩ := List.length_eq_one_iff.mp h1
    obtain ⟨hj, h6, h7⟩ := getElem_of_drop (show (s.bitsAt src len).drop j = b :: rest by rw [hd]; rfl)
    rw [List.length_singleton, unpackLoop, hem, if_pos het, nextBit_ok hr hu hj, Res.ok_andThen]
    have hstep : ∀ x, stepBit write dst x { s with up := unpackerAt src (j + 1) s.root e }
        = emitSymbol write dst sym { s with up := unpackerAt src (j + 1) s.root e } := by
      intro x
      unfold stepBit
      show (match s.node s.root with
        | .leaf sym _ => _
        | .internal _ _ _ => _) = _
      rw [hroot]
    rw [hstep]
    cases hes : emitSymbol write dst sym { s with up := unpackerAt src (j + 1) s.root e } with
    | raised _ _ => rfl
    | ok _ t =>
      have hrt : t.up.cursor = s.root := by
        have := congrArg (fun r => (Res.state r).up.cursor) hes
        simp only [Res.state_ok] at this
        rw [← this]
        unfold emitSymbol
        split
        · unfold memWrite; split <;> rfl
        · rfl
      simp only [Res.ok_andThen]
      congr 1
      unfold State.setCursor
      rw [← hrt]

/-- An emission that can be made (R224). -/
theorem emitSymbol_ok {write : Bool} {dst : Nat} {sym : Sym} {s : State} {a j e : Nat} {c : NodeIx}
    (hu : s.up = unpackerAt a j c e) (he : e + 1 < 2 ^ 64) (hw : write = true → dst + e < s.dmemSize) :
    ∃ t, emitSymbol write dst sym s = .ok () t ∧
      t = { s with up := unpackerAt a j c (e + 1), result := BitVec.ofNat 32 (e + 1), dmem := t.dmem } ∧
      (write = true → ∀ x, t.byte x = if x = dst + e then sym else s.byte x) ∧ (write = false → t.dmem = s.dmem) := by
  have hem : s.up.emit.toNat = e := by
    rw [hu]; simp only [unpackerAt, BitVec.toNat_ofNat]; exact Nat.mod_eq_of_lt (by omega)
  have hcount : ∀ w : State, w.up = s.up → w.countSymbol =
      { w with up := unpackerAt a j c (e + 1), result := BitVec.ofNat 32 (e + 1) } := by
    intro w hwu
    have h1 : w.up.emit + 1 = BitVec.ofNat 64 (e + 1) := by
      apply BitVec.eq_of_toNat_eq
      rw [BitVec.toNat_add, hwu, hem]; simp
    unfold State.countSymbol
    rw [h1, hwu, hu]
    simp only [unpackerAt, State.mk.injEq, true_and, and_true]
    apply BitVec.eq_of_toNat_eq
    simp only [BitVec.truncate, BitVec.toNat_setWidth, BitVec.toNat_ofNat]
    exact Nat.mod_mod_of_dvd _ (by norm_num)
  cases write with
  | false =>
    refine ⟨s.countSymbol, rfl, ?_, by simp, fun _ => rfl⟩
    rw [hcount s rfl]
  | true =>
    have hlt := hw rfl
    refine ⟨(s.setByte (dst + e) sym).countSymbol, ?_, ?_, fun _ x => ?_, by simp⟩
    · unfold emitSymbol
      rw [if_pos rfl, hem, memWrite_ok hlt, Res.ok_andThen]
    · rw [hcount (s.setByte (dst + e) sym) rfl]; rfl
    · show (s.setByte (dst + e) sym).byte x = _
      exact s.byte_setByte _ _ _

/-- An emission whose byte does not fit (R224). -/
theorem emitSymbol_raises {dst : Nat} {sym : Sym} {s : State} {a j e : Nat} {c : NodeIx} (hu : s.up = unpackerAt a j c e)
    (he : e < 2 ^ 64) (hw : s.dmemSize ≤ dst + e) : emitSymbol true dst sym s = .raised (.bounds (dst + e)) s := by
  have hem : s.up.emit.toNat = e := by
    rw [hu]; simp only [unpackerAt, BitVec.toNat_ofNat]; exact Nat.mod_eq_of_lt he
  unfold emitSymbol
  rw [if_pos rfl, hem]
  simp only [memWrite, if_pos hw, Res.raised_andThen]

/-- Emission depends on the nodes and the root alone. -/
theorem State.emits_congr {s t : State} (hn : t.node = s.node) (hr : t.root = s.root) {p : List Bool} {sym : Sym}
    (h : s.emits p sym) : t.emits p sym := by
  unfold State.emits
  rw [hn, hr]
  rcases h with ⟨h1, h2⟩ | h
  · exact .inl ⟨h1, h2.congr hn⟩
  · exact .inr h

theorem State.emits_cursor {s : State} {p : List Bool} {sym : Sym} (h : s.emits p sym) : ∃ m, emitCursor s p m := by
  rcases h with ⟨hi, m, f, h1, -⟩ | ⟨-, f, hf⟩
  · exact ⟨m, fun _ => h1, fun h => by rw [hi] at h; simp at h⟩
  · exact ⟨s.root, fun h => by rw [hf] at h; simp [Node.isInternal] at h, fun _ => rfl⟩

theorem Spells.congr {s t : State} (hn : t.node = s.node) (hr : t.root = s.root) {bits : List Bool} {bytes : List Byte}
    (h : Spells s bits bytes) : Spells t bits bytes := by
  induction h with
  | nil => exact .nil
  | cons h1 _ ih => exact .cons (State.emits_congr hn hr h1) ih

/-- A stretch of the stream that spells bytes is decoded to them (R222 to R227). -/
theorem unpackLoop_spells {write : Bool} {src len dst : Nat} {s0 : State} {bits : List Bool} {bytes : List Byte}
    (hsp : Spells s0 bits bytes) : ∀ (s : State) (j e fuel : Nat) (rest : List Bool), s.node = s0.node → s.root = s0.root →
    src + len ≤ s.dmemSize → s.up = unpackerAt src j s.root e → e + bytes.length ≤ s.total.toNat →
    (s.bitsAt src len).drop j = bits ++ rest →
    (write = true → dst + e + bytes.length ≤ s.dmemSize ∧ apart src len (dst + e) bytes.length) →
    ∃ u, unpackLoop write (src + len) dst (fuel + bits.length) s = unpackLoop write (src + len) dst fuel u ∧
      u = { s with
        up := unpackerAt src (j + bits.length) s.root (e + bytes.length)
        result := if bytes = [] then s.result else BitVec.ofNat 32 (e + bytes.length)
        dmem := u.dmem } ∧
      (write = true → u.bytesAt (dst + e) bytes.length = bytes) ∧ s.sameBytesBut (dst + e) bytes.length u ∧
      (write = false → u.dmem = s.dmem) := by
  induction hsp with
  | nil =>
    intro s j e fuel rest _ _ _ hu _ _ _
    refine ⟨s, rfl, ?_, fun _ => rfl, fun x _ => rfl, fun _ => rfl⟩
    simp only [List.length_nil, Nat.add_zero, if_true, ← hu]
  | @cons p bits b bytes hp hrest ih =>
    intro s j e fuel rest hn hr hsz hu ht hd hw
    have ht64 := s.total.isLt
    have hp' : s.emits p b := State.emits_congr hn hr hp
    obtain ⟨m, hm⟩ := State.emits_cursor hp'
    simp only [List.length_cons] at ht hw
    have hd1 : (s.bitsAt src len).drop j = p ++ (bits ++ rest) := by rw [hd, List.append_assoc]
    have hdrop : (s.bitsAt src len).drop (j + p.length) = bits ++ rest := by
      rw [← List.drop_drop, hd1, List.drop_left]
    obtain ⟨t, h1, h2, h3, h4⟩ := emitSymbol_ok (write := write) (dst := dst) (sym := b)
      (s := { s with up := unpackerAt src (j + p.length) m e }) rfl (by omega)
      (fun h => by have := (hw h).1; show dst + e < s.dmemSize; omega)
    generalize hs1 : t.setCursor s.root = s1
    have e1 : s1 = { s with
        up := unpackerAt src (j + p.length) s.root (e + 1), result := BitVec.ofNat 32 (e + 1), dmem := s1.dmem } := by
      rw [← hs1, h2]; rfl
    have hb1 : ∀ x, s1.byte x = t.byte x := by intro x; rw [← hs1]; rfl
    have hout : s.sameBytesBut (dst + e) 1 s1 := by
      intro x hx
      rw [hb1]
      cases hwc : write with
      | true => rw [h3 hwc, if_neg (by omega)]; rfl
      | false =>
        have := h4 hwc
        refine State.byte_congr ?_ ?_ x
        · exact this
        · rw [h2]
    have hroot1 : s1.root = s.root := by rw [e1]
    have hbits : s1.bitsAt src len = s.bitsAt src len := by
      cases hwc : write with
      | true =>
        refine State.bitsAt_congr fun x hx1 hx2 => hout x fun hx3 => ?_
        exact (hw hwc).2 x hx1 hx2 hx3.1 (by omega)
      | false =>
        refine State.bitsAt_congr fun x _ _ => ?_
        refine State.byte_congr ?_ ?_ x
        · have := h4 hwc; rw [← hs1]; exact this
        · rw [e1]
    obtain ⟨u, h5, h6, h7, h8, h9⟩ := ih s1 (j + p.length) (e + 1) fuel rest (by rw [← hn, e1]; rfl) (by rw [hroot1, hr])
      (by rw [e1]; exact hsz) (by rw [hroot1, e1]) (by rw [e1]; show e + 1 + bytes.length ≤ s.total.toNat; omega)
      (by rw [hbits, hdrop])
      (fun h => by
        obtain ⟨h10, h11⟩ := hw h
        refine ⟨by rw [e1]; show dst + (e + 1) + bytes.length ≤ s.dmemSize; omega, fun x ha hb hc hd' => ?_⟩
        exact h11 x ha hb (by omega) (by omega))
    refine ⟨u, ?_, ?_, ?_, ?_, ?_⟩
    · have hf : fuel + (p ++ bits).length = fuel + bits.length + p.length := by simp; omega
      rw [hf, unpackLoop_emits hsz hu (by omega) (by omega) hp' hm hd1, h1, Res.ok_andThen, hs1, h5]
    · rw [h6, hroot1, e1]
      simp only [State.mk.injEq, true_and, and_true, List.length_append, List.length_cons]
      refine ⟨?_, ?_⟩
      · split
        · rename_i h0; subst h0; simp
        · simp only [reduceCtorEq, if_false]; congr 1; omega
      · congr 1 <;> omega
    · intro h
      have hb : u.byte (dst + e) = b := by
        rw [h8 _ (by omega), hb1, h3 h, if_pos rfl]
      rw [List.length_cons, State.bytesAt_cons, hb, Nat.add_assoc, h7 h]
    · intro x hx
      rw [List.length_cons] at hx
      rw [h8 x (by omega), hout x (by omega)]
    · intro h
      rw [h9 h]
      have := h4 h
      rw [← hs1]
      exact this

/-- At the target the loop ends (R226). -/
theorem unpackLoop_done {write : Bool} {iend dst fuel : Nat} {s : State} (h : s.total.toNat ≤ s.up.emit.toNat) :
    unpackLoop write iend dst fuel s = .ok () s := by
  cases fuel with
  | zero => rfl
  | succ n => rw [unpackLoop, if_neg (by omega)]

theorem unpackerAt_emit {a j e : Nat} {c : NodeIx} (h : e < 2 ^ 64) : (unpackerAt a j c e).emit.toNat = e := by
  simp only [unpackerAt, BitVec.toNat_ofNat]; exact Nat.mod_eq_of_lt h

theorem initUnpacker_up (s : State) (src : Nat) : (s.initUnpacker src).up = unpackerAt src 0 s.root 0 := by
  simp [State.initUnpacker, unpackerAt]

/-- UNPACK's body on a stream that spells TOTAL bytes (R222 to R227). -/
theorem unpack_ok {write : Bool} {src len dst : Nat} {s : State} {bits after : List Bool} {bytes : List Byte}
    (hr : src + len ≤ s.dmemSize) (hroot : s.root ≠ nilIx ∨ bytes = []) (hb : s.bitsAt src len = bits ++ after)
    (hsp : Spells s bits bytes) (ht : s.total.toNat = bytes.length)
    (hw : write = true → dst + bytes.length ≤ s.dmemSize ∧ apart src len dst bytes.length) :
    ∃ u, unpack write src len dst s = .ok () u ∧
      u = { s with
        up := unpackerAt src bits.length s.root bytes.length, result := BitVec.ofNat 32 bytes.length, dmem := u.dmem } ∧
      (write = true → u.bytesAt dst bytes.length = bytes) ∧ s.sameBytesBut dst bytes.length u ∧
      (write = false → u.dmem = s.dmem) := by
  have ht64 := s.total.isLt
  have hlen : bits.length ≤ 8 * len := by
    have := congrArg List.length hb
    simp at this; omega
  obtain ⟨u, h1, h2, h3, h4, h5⟩ := unpackLoop_spells (write := write) (src := src) (len := len) (dst := dst) hsp
    (s.initUnpacker src) 0 0 (8 * len + 1 - bits.length) after rfl rfl hr (initUnpacker_up s src)
    (by show 0 + bytes.length ≤ s.total.toNat; omega) (by rw [List.drop_zero]; exact hb)
    (fun h => by obtain ⟨h6, h7⟩ := hw h; exact ⟨by show dst + 0 + bytes.length ≤ s.dmemSize; omega, by simpa using h7⟩)
  simp only [Nat.zero_add, Nat.add_zero] at h1 h2 h3 h4
  have hf : 8 * len + 1 - bits.length + bits.length = 8 * len + 1 := by omega
  rw [hf] at h1
  have hue : u.up = unpackerAt src bits.length s.root bytes.length := by rw [h2]; rfl
  have htot : u.total = s.total := by rw [h2]; rfl
  rw [unpackLoop_done (s := u) (by rw [htot, hue, unpackerAt_emit (by omega), ht])] at h1
  have hres : u = { s with
      up := unpackerAt src bits.length s.root bytes.length, result := BitVec.ofNat 32 bytes.length, dmem := u.dmem } := by
    rw [h2]
    simp only [State.initUnpacker, State.mk.injEq, true_and, and_true]
    split
    · rename_i h0; subst h0; rfl
    · rfl
  refine ⟨u, ?_, hres, h3, h4, h5⟩
  unfold unpack
  rw [checkRange_ok hr, Res.ok_andThen]
  simp only []
  by_cases h0 : s.total = 0
  · rw [if_pos (show (s.initUnpacker src).total = 0 from h0)]
    have hbytes : bytes = [] := List.eq_nil_of_length_eq_zero (by rw [← ht, h0]; rfl)
    subst hbytes
    have hbits : bits = [] := by cases hsp; rfl
    subst hbits
    congr 1
    rw [unpackLoop_done (by rw [initUnpacker_up]; show s.total.toNat ≤ _; rw [h0]; simp)] at h1
    simpa using h1
  · have hne : s.root ≠ nilIx := by
      rcases hroot with h | h
      · exact h
      · exfalso; apply h0; apply BitVec.eq_of_toNat_eq; rw [ht, h]; rfl
    rw [if_neg (show ¬ (s.initUnpacker src).total = 0 from h0), if_neg (show ¬ (s.initUnpacker src).root = nilIx from hne), h1]

/-! One symbol more (20_memory.md R85) -/

/-- The state with another target symbol count. -/
def State.withTotal (s : State) (T : DWord) : State := { s with total := T }

/-- TOTAL is only compared with EMIT: an emission does not read it. -/
theorem emitSymbol_total (write : Bool) (dst : Nat) (sym : Sym) (s : State) (T : DWord) :
    emitSymbol write dst sym (s.withTotal T) = (emitSymbol write dst sym s).mapState fun u => u.withTotal T := by
  unfold emitSymbol memWrite
  cases write
  · rfl
  · simp only [if_true]
    show Res.andThen (if s.dmemSize ≤ dst + s.up.emit.toNat then _ else _) _ = _
    split <;> rfl

/-- Nor does a step of the cursor. -/
theorem stepBit_total (write : Bool) (dst : Nat) (b : Bool) (s : State) (T : DWord) :
    stepBit write dst b (s.withTotal T) = (stepBit write dst b s).mapState fun u => u.withTotal T := by
  unfold stepBit
  show (match s.node s.root with
    | .leaf sym _ => _
    | .internal _ _ _ => _) = _
  cases s.node s.root with
  | leaf sym f => exact emitSymbol_total write dst sym s T
  | internal f l r =>
    show (match s.node (if b then (s.node s.up.cursor).right else (s.node s.up.cursor).left) with
      | .leaf sym _ => (emitSymbol write dst sym
          ((s.setCursor (if b then (s.node s.up.cursor).right else (s.node s.up.cursor).left)).withTotal T)).andThen _
      | .internal _ _ _ => _) = _
    simp only [show ∀ c d, (s.setCursor c).node d = s.node d from fun _ _ => rfl,
      show (s.withTotal T).node = s.node from rfl, show (s.withTotal T).up = s.up from rfl]
    generalize (if b then (s.node s.up.cursor).right else (s.node s.up.cursor).left) = c
    cases s.node c with
    | leaf sym f =>
      simp only []
      rw [emitSymbol_total]
      cases emitSymbol write dst sym (s.setCursor c) <;> rfl
    | internal f l r => rfl

/-- A step of the cursor that ends well, from a cursor on the root or inside the tree: it goes on in the same symbol, or it has
emitted one and stands on the root. -/
theorem stepBit_up {write : Bool} {src dst j e : Nat} {c : NodeIx} {b : Bool} {s u : State} (hu : s.up = unpackerAt src j c e)
    (he : e + 1 < 2 ^ 64) (hc : (s.node s.root).isInternal = false → c = s.root) (h : stepBit write dst b s = .ok () u) :
    u = { s with up := u.up, result := u.result, dmem := u.dmem } ∧
      (((s.node s.root).isInternal = true ∧ ∃ c', u.up = unpackerAt src j c' e) ∨ u.up = unpackerAt src j s.root (e + 1)) := by
  have hemit : ∀ (t v : State) (sym : Sym) (d : NodeIx), t.up = unpackerAt src j d e → emitSymbol write dst sym t = .ok () v →
      v = { t with up := unpackerAt src j d (e + 1), result := v.result, dmem := v.dmem } := by
    intro t v sym d ht hv
    by_cases hw : write = true → dst + e < t.dmemSize
    · obtain ⟨w, h1, h2, _⟩ := emitSymbol_ok (sym := sym) ht he hw
      rw [h1] at hv
      simp only [Res.ok.injEq, true_and] at hv
      subst hv
      rw [h2]
    · have hw' : write = true ∧ t.dmemSize ≤ dst + e := by
        cases write <;> simp at hw ⊢; omega
      rw [hw'.1, emitSymbol_raises ht (by omega) hw'.2] at hv
      simp at hv
  unfold stepBit at h
  cases hr : s.node s.root with
  | leaf sym f =>
    rw [hr] at h
    have hc' := hc (by rw [hr]; rfl)
    have := hemit s u sym c hu h
    refine ⟨?_, .inr ?_⟩
    · rw [this]
    · rw [this, hc']
  | internal f l r =>
    rw [hr] at h
    simp only [] at h
    generalize (if b then (s.node s.up.cursor).right else (s.node s.up.cursor).left) = d at h
    have hd : (s.setCursor d).up = unpackerAt src j d e := by
      simp only [State.setCursor, hu, unpackerAt]
    have hn : (s.setCursor d).node d = s.node d := rfl
    rw [hn] at h
    cases hnd : s.node d with
    | leaf sym g =>
      rw [hnd] at h
      obtain ⟨_, v, h1, h2⟩ := Res.andThen_eq_ok h
      have hv := hemit _ v sym d hd h1
      simp only [Res.ok.injEq, true_and] at h2
      have hvr : v.root = s.root := by rw [hv]; rfl
      have hvu : v.up = unpackerAt src j d (e + 1) := by rw [hv]
      subst h2
      refine ⟨?_, .inr ?_⟩
      · rw [hv]; rfl
      · simp only [State.setCursor, hvu, hvr, unpackerAt]
    | internal g l' r' =>
      rw [hnd] at h
      simp only [Res.ok.injEq, true_and] at h
      subst h
      exact ⟨rfl, .inl ⟨rfl, d, hd⟩⟩

/-- Decoding towards a later target runs the same way up to the earlier one (R222, R226): it raises where that raises, and
goes on from where that ends. -/
theorem unpackLoop_more {write : Bool} {src len dst k : Nat} {T : DWord} (hk : k < T.toNat) (hk' : k + 1 < 2 ^ 64) :
    ∀ (fuel : Nat) (s : State) (j e : Nat) (c : NodeIx), src + len ≤ s.dmemSize → s.up = unpackerAt src j c e → e ≤ k →
    (e = k ∨ (s.node s.root).isInternal = false → c = s.root) → s.total.toNat = k → j ≤ 8 * len → 8 * len + 1 ≤ fuel + j →
    (∃ err u, unpackLoop write (src + len) dst fuel s = .raised err u ∧
      unpackLoop write (src + len) dst fuel (s.withTotal T) = .raised err (u.withTotal T)) ∨
    (∃ u n more, unpackLoop write (src + len) dst fuel s = .ok () u ∧
      unpackLoop write (src + len) dst fuel (s.withTotal T) = unpackLoop write (src + len) dst more (u.withTotal T) ∧
      u.up = unpackerAt src n s.root k ∧ n ≤ 8 * len ∧ 8 * len + 1 ≤ more + n ∧
      u = { s with up := u.up, result := u.result, dmem := u.dmem })
  | 0, s, j, e, c, _, _, _, _, _, hj, hf => by omega
  | fuel + 1, s, j, e, c, hr, hu, hek, hc, ht, hj, hf => by
    have hem : s.up.emit.toNat = e := by rw [hu]; exact unpackerAt_emit (by omega)
    by_cases hd : e = k
    · right
      refine ⟨s, j, fuel + 1, ?_, rfl, ?_, hj, by omega, rfl⟩
      · exact unpackLoop_done (by rw [hem, ht]; omega)
      · rw [hu, hc (.inl hd), hd]
    · have hlt : e < k := by omega
      rw [unpackLoop, unpackLoop, if_pos (by rw [hem, ht]; exact hlt),
        if_pos (show (s.withTotal T).up.emit.toNat < (s.withTotal T).total.toNat by
          show s.up.emit.toNat < T.toNat
          rw [hem]; omega)]
      by_cases hj8 : j = 8 * len
      · left
        rw [hj8] at hu
        have h2 : nextBit (src + len) (s.withTotal T) = .raised (.malformedHeader 2) (s.withTotal T) :=
          nextBit_raises (s := s.withTotal T) hr hu
        rw [nextBit_raises hr hu, h2]
        exact ⟨_, s, rfl, rfl⟩
      · have hjl : j < (s.bitsAt src len).length := by simp; omega
        have h2 : nextBit (src + len) (s.withTotal T)
            =   .ok (s.bitsAt src len)[j] (({ s with up := unpackerAt src (j + 1) c e } : State).withTotal T) :=
          nextBit_ok (s := s.withTotal T) hr hu hjl
        rw [nextBit_ok hr hu hjl, h2, Res.ok_andThen, Res.ok_andThen]
        generalize hs1 : ({ s with up := unpackerAt src (j + 1) c e } : State) = s1
        rw [stepBit_total]
        cases hst : stepBit write dst (s.bitsAt src len)[j] s1 with
        | raised err u => exact .inl ⟨err, u, rfl, rfl⟩
        | ok a v =>
          simp only [Res.mapState, Res.ok_andThen]
          have hn1 : s1.node = s.node := by rw [← hs1]; rfl
          have hr1 : s1.root = s.root := by rw [← hs1]
          obtain ⟨hv, hup⟩ := stepBit_up (s := s1) (src := src) (j := j + 1) (c := c) (e := e) (by rw [← hs1]) (by omega)
            (fun h => by rw [hr1]; exact hc (.inr (by rw [← hn1, ← hr1]; exact h))) hst
          have hvs : v = { s with up := v.up, result := v.result, dmem := v.dmem } := by rw [hv, ← hs1]
          have hnv : v.node = s.node := by rw [hvs]; rfl
          have hrv : v.root = s.root := by rw [hvs]
          have hgo : ∀ (c' : NodeIx) (e' : Nat), v.up = unpackerAt src (j + 1) c' e' → e' ≤ k →
              (e' = k ∨ (s.node s.root).isInternal = false → c' = s.root) →
              _ := fun c' e' h1 h2 h3 =>
            unpackLoop_more (write := write) (dst := dst) hk hk' fuel v (j + 1) e' c' (by rw [hvs]; exact hr) h1 h2
              (fun h => by rw [hrv]; exact h3 (by rw [hnv, hrv] at h; exact h)) (by rw [hvs]; exact ht) (by omega) (by omega)
          have : (∃ err u, unpackLoop write (src + len) dst fuel v = .raised err u ∧
              unpackLoop write (src + len) dst fuel (v.withTotal T) = .raised err (u.withTotal T)) ∨
            (∃ u n more, unpackLoop write (src + len) dst fuel v = .ok () u ∧
              unpackLoop write (src + len) dst fuel (v.withTotal T)
                = unpackLoop write (src + len) dst more (u.withTotal T) ∧
              u.up = unpackerAt src n v.root k ∧ n ≤ 8 * len ∧ 8 * len + 1 ≤ more + n ∧
              u = { v with up := u.up, result := u.result, dmem := u.dmem }) := by
            rcases hup with ⟨hi, c', h1⟩ | h1
            · rw [hn1, hr1] at hi
              exact hgo c' e h1 hek fun h => h.elim (fun h => absurd h hd) (fun h => by rw [hi] at h; simp at h)
            · rw [hr1] at h1
              exact hgo s.root (e + 1) h1 hlt fun _ => rfl
          rcases this with ⟨err, u, h1, h2⟩ | ⟨u, n, more, h1, h2, h3, h4, h5, h6⟩
          · exact .inl ⟨err, u, h1, h2⟩
          · refine .inr ⟨u, n, more, h1, h2, by rw [h3, hrv], h4, h5, ?_⟩
            rw [h6, hvs]

/-! The verify pass foretells the write pass (47_codec.md R241) -/

theorem stepBit_sim {dst : Nat} {b : Bool} {s t u : State} (hs : t = { s with dmem := t.dmem })
    (hu : stepBit false dst b s = .ok () u) (hw : dst + s.up.emit.toNat < s.dmemSize) :
    ∃ v, stepBit true dst b t = .ok () v ∧ v = { u with dmem := v.dmem } ∧ u.dmem = s.dmem ∧ u.up.iptr = s.up.iptr ∧
      u.root = s.root ∧ u.nodes = s.nodes ∧ u.total = s.total ∧ u.dmemLog = s.dmemLog ∧ u.env = s.env ∧
      (∀ x, x ≠ dst + s.up.emit.toNat → v.byte x = t.byte x) := by
  have hem : ∀ (sym : Sym) (c : NodeIx), ∃ v, emitSymbol true dst sym (t.setCursor c) = .ok () v ∧
      v = { (s.setCursor c).countSymbol with dmem := v.dmem } ∧
      (∀ x, x ≠ dst + s.up.emit.toNat → v.byte x = t.byte x) := by
    intro sym c
    refine ⟨((t.setCursor c).setByte (dst + s.up.emit.toNat) sym).countSymbol, ?_, ?_, ?_⟩
    · unfold emitSymbol
      rw [if_pos rfl]
      have : (t.setCursor c).up.emit = s.up.emit := by rw [hs]; rfl
      rw [this, memWrite_ok (by rw [hs]; exact hw), Res.ok_andThen]
    · rw [hs]; rfl
    · intro x hx
      show ((t.setCursor c).setByte _ _).byte x = _
      rw [State.byte_setByte, if_neg hx]
      rfl
  have hn : t.node = s.node := by rw [hs]; rfl
  have hr : t.root = s.root := by rw [hs]
  have hcu : t.up = s.up := by rw [hs]
  unfold stepBit at hu ⊢
  rw [hn, hr]
  cases hnr : s.node s.root with
  | leaf sym f =>
    rw [hnr] at hu
    simp only at hu
    obtain ⟨v, h1, h2, h3⟩ := hem sym s.up.cursor
    have e1 : t.setCursor s.up.cursor = t := by unfold State.setCursor; rw [← hcu]
    have e2 : s.setCursor s.up.cursor = s := rfl
    rw [e1] at h1
    rw [e2] at h2
    have : u = s.countSymbol := by
      simp only [emitSymbol, Bool.false_eq_true, if_false, Res.ok_andThen, Res.ok.injEq, true_and] at hu
      exact hu.symm
    subst this
    exact ⟨v, h1, h2, rfl, rfl, rfl, rfl, rfl, rfl, rfl, h3⟩
  | internal f l r =>
    rw [hnr] at hu
    simp only [hcu] at hu ⊢
    have e0 : ∀ c, (t.setCursor c).node = s.node := by intro c; rw [← hn]; rfl
    have e0' : ∀ c, (s.setCursor c).node = s.node := fun _ => rfl
    rw [e0]
    rw [e0'] at hu
    generalize (if b = true then (s.node s.up.cursor).right else (s.node s.up.cursor).left) = c at hu ⊢
    cases hnc : s.node c with
    | leaf sym g =>
      rw [hnc] at hu
      simp only at hu ⊢
      obtain ⟨v, h1, h2, h3⟩ := hem sym c
      have hu' : u = ((s.setCursor c).countSymbol).setCursor s.root := by
        simp only [emitSymbol, Bool.false_eq_true, if_false, Res.ok_andThen, Res.ok.injEq, true_and] at hu
        exact hu.symm
      rw [h1, Res.ok_andThen]
      refine ⟨_, rfl, ?_, ?_⟩
      · rw [hu', h2]; rfl
      · rw [hu']; exact ⟨rfl, rfl, rfl, rfl, rfl, rfl, rfl, h3⟩
    | internal g l' r' =>
      rw [hnc] at hu
      simp only [Res.ok.injEq, true_and] at hu ⊢
      refine ⟨_, rfl, ?_, ?_⟩
      · rw [← hu, hs]; rfl
      · rw [← hu]; exact ⟨rfl, rfl, rfl, rfl, rfl, rfl, rfl, fun x _ => rfl⟩

/-- If the verify pass ends well, so does the write pass where the output fits and lies apart from the stream. -/
theorem unpackLoop_sim {src len dst : Nat} : ∀ (fuel : Nat) (s t u : State), t = { s with dmem := t.dmem } →
    (∀ x, src ≤ x → x < src + len → t.byte x = s.byte x) → src + len ≤ s.dmemSize → src ≤ s.up.iptr.toNat →
    s.up.iptr.toNat ≤ src + len → dst + s.total.toNat ≤ s.dmemSize → apart src len dst s.total.toNat →
    unpackLoop false (src + len) dst fuel s = .ok () u →
    ∃ v, unpackLoop true (src + len) dst fuel t = .ok () v ∧ v = { u with dmem := v.dmem }
  | 0, s, t, u, hs, _, _, _, _, _, _, hu => by
    simp only [unpackLoop, Res.ok.injEq, true_and] at hu
    subst hu
    exact ⟨t, rfl, hs⟩
  | fuel + 1, s, t, u, hs, hb, hr, h1, h2, hd, ha, hu => by
    have htot : t.total = s.total := by rw [hs]
    have hup : t.up = s.up := by rw [hs]
    have hsz := s.dmemSize_le
    rw [unpackLoop] at hu ⊢
    rw [htot, hup]
    by_cases het : s.up.emit.toNat < s.total.toNat
    · rw [if_pos het] at hu ⊢
      obtain ⟨bit, s1, h3, h4⟩ := Res.andThen_eq_ok hu
      obtain ⟨_, s2, h5, h6⟩ := Res.andThen_eq_ok h4
      unfold nextBit at h3 ⊢
      rw [hup]
      by_cases hend : s.up.iptr.toNat = src + len
      · rw [if_pos hend] at h3; simp at h3
      · rw [if_neg hend] at h3 ⊢
        rw [memRead_ok (by omega), Res.ok_andThen] at h3
        rw [memRead_ok (by rw [hs]; show s.up.iptr.toNat < s.dmemSize; omega), Res.ok_andThen, hb _ h1 (by omega)]
        simp only [Res.ok.injEq] at h3
        obtain ⟨h7, h8⟩ := h3
        rw [hup, h7, Res.ok_andThen]
        have hc1 : t.consumeBit = { s1 with dmem := t.consumeBit.dmem } := by rw [← h8, hs]; rfl
        have hem : s1.up.emit = s.up.emit := by rw [← h8]; rfl
        have hd1 : s1.dmemSize = s.dmemSize := by rw [← h8]; rfl
        obtain ⟨v, e1, e2, e3, e4, e5, e6, e7, e8, e8', e9⟩ := stepBit_sim (dst := dst) (b := bit) hc1 h5
          (by rw [hem, hd1]; omega)
        rw [e1, Res.ok_andThen]
        have hd2 : s2.dmemSize = s.dmemSize := by
          show Config.dmemSize s2.dmemLog = _; rw [e8]; exact hd1
        have ht2 : s2.total = s.total := by rw [e7, ← h8]; rfl
        have hip : src ≤ s1.up.iptr.toNat ∧ s1.up.iptr.toNat ≤ src + len := by
          rw [← h8]
          simp only [State.consumeBit]
          split
          · rw [BitVec.toNat_add]; simp; omega
          · omega
        refine unpackLoop_sim fuel s2 v u e2 ?_ (by rw [hd2]; exact hr) (by rw [e4]; exact hip.1) (by rw [e4]; exact hip.2)
          (by rw [ht2, hd2]; exact hd) (by rw [ht2]; exact ha) h6
        intro x hx1 hx2
        have hne : x ≠ dst + s1.up.emit.toNat := by
          intro hx
          rw [hem] at hx
          exact ha x hx1 hx2 (by omega) (by omega)
        rw [e9 x hne]
        show t.byte x = _
        rw [hb x hx1 hx2]
        refine (State.byte_congr ?_ ?_ x).symm
        · rw [e3, ← h8]; rfl
        · rw [e8', ← h8]; rfl
    · rw [if_neg het] at hu ⊢
      simp only [Res.ok.injEq, true_and] at hu
      subst hu
      exact ⟨t, rfl, hs⟩

/-- The verify pass of UNPACK writes nothing, however it ends. -/
theorem unpack_verify_dmem (src len dst : Nat) (s : State) : (unpack false src len dst s).state.dmem = s.dmem := by
  have hstep : ∀ b s, (stepBit false dst b s).state.dmem = s.dmem := by
    intro b s
    unfold stepBit
    split
    · rfl
    · dsimp only
      split <;> rfl
  have hloop : ∀ iend fuel s, (unpackLoop false iend dst fuel s).state.dmem = s.dmem := by
    intro iend fuel
    induction fuel with
    | zero => intro s; rfl
    | succ n ih =>
      intro s
      rw [unpackLoop]
      split
      · refine Res.keeps_andThen (p := State.dmem) ?_ fun b t => Res.keeps_andThen (p := State.dmem) (hstep b t) fun _ v => ih v
        unfold nextBit
        split
        · rfl
        · exact Res.keeps_andThen (p := State.dmem) (by simp) fun _ t => rfl
      · rfl
  unfold unpack
  refine Res.keeps_andThen (p := State.dmem) (by simp) fun _ t => ?_
  dsimp only
  split
  · rfl
  · split
    · rfl
    · exact (hloop _ _ _).trans rfl

/-- If UNPACK's verify pass ends well, so does its write pass where the output fits and lies apart from the stream. -/
theorem unpack_sim {src len dst : Nat} {s t u : State} (hs : t = { s with dmem := t.dmem, up := t.up, result := t.result })
    (hb : ∀ x, src ≤ x → x < src + len → t.byte x = s.byte x) (hd : dst + s.total.toNat ≤ s.dmemSize)
    (ha : apart src len dst s.total.toNat) (hu : unpack false src len dst s = .ok () u) :
    ∃ v, unpack true src len dst t = .ok () v ∧ v = { u with dmem := v.dmem } := by
  have hsz := s.dmemSize_le
  unfold unpack at hu ⊢
  obtain ⟨_, s', h1, h2⟩ := Res.andThen_eq_ok hu
  obtain ⟨h3, h4⟩ := checkRange_eq_ok h1
  subst h3
  rw [checkRange_ok (by rw [hs]; exact h4), Res.ok_andThen]
  simp only [] at h2 ⊢
  have htot : t.total = s'.total := by rw [hs]
  have hroot : t.root = s'.root := by rw [hs]
  have hinit : t.initUnpacker src = { s'.initUnpacker src with dmem := t.dmem } := by rw [hs]; rfl
  have e1 : (t.initUnpacker src).total = t.total := rfl
  have e2 : (s'.initUnpacker src).total = s'.total := rfl
  have e3 : (t.initUnpacker src).root = t.root := rfl
  have e4 : (s'.initUnpacker src).root = s'.root := rfl
  rw [e2, e4] at h2
  rw [e1, e3, htot, hroot]
  by_cases h0 : s'.total = 0
  · rw [if_pos h0] at h2 ⊢
    simp only [Res.ok.injEq, true_and] at h2
    subst h2
    exact ⟨_, rfl, hinit⟩
  · rw [if_neg h0] at h2 ⊢
    by_cases hn : s'.root = nilIx
    · rw [if_pos hn] at h2; simp at h2
    · rw [if_neg hn] at h2 ⊢
      have hip : (s'.initUnpacker src).up.iptr.toNat = src := by
        rw [initUnpacker_up]
        simp only [unpackerAt, BitVec.toNat_ofNat, Nat.zero_div, Nat.add_zero]
        exact Nat.mod_eq_of_lt (by omega)
      exact unpackLoop_sim _ _ _ _ hinit (fun x hx1 hx2 => hb x hx1 hx2) h4 (by rw [hip]) (by rw [hip]; omega) hd ha h2

/-! HDR_PARSE -/

theorem State.freqAt_setFreq' (s : State) (k x : Sym) (v : Word) : (s.setFreq k v).freqAt x = if x = k then v else s.freqAt x := by
  simp only [State.freqAt, State.setFreq, Vector.getElem_set]
  simp [BitVec.toNat_inj, eq_comm]

/-- The counts of a header, loaded from symbol 256-n on (R220). -/
theorem loadLoop_ok (src : Nat) : ∀ (n : Nat) (s : State), n ≤ 256 → src + 1024 ≤ s.dmemSize →
    ∃ u, loadLoop src n s = .ok () u ∧ u = { s with freq := u.freq } ∧
      ∀ sym : Sym, u.freqAt sym =
        if 256 - n ≤ sym.toNat then BitVec.ofNat 32 (s.bigEndian (src + 4 * sym.toNat) 4) else s.freqAt sym
  | 0, s, _, _ => ⟨s, rfl, rfl, fun sym => by have := sym.isLt; rw [if_neg (by omega)]⟩
  | n + 1, s, hn, hs => by
    generalize hk : 256 - (n + 1) = k
    have hk8 : (BitVec.ofNat 8 k : Sym).toNat = k := by simp; omega
    generalize hs1 : s.setFreq (BitVec.ofNat 8 k) (BitVec.ofNat 32 (s.bigEndian (src + 4 * k) 4)) = s1
    have e1 : s1 = { s with freq := s1.freq } := by rw [← hs1]; rfl
    have hbe : ∀ a, s1.bigEndian a 4 = s.bigEndian a 4 := fun a => State.bigEndian_congr fun x _ _ => by rw [← hs1]; rfl
    obtain ⟨u, h1, h2, h3⟩ := loadLoop_ok src n s1 (by omega) (by rw [e1]; exact hs)
    refine ⟨u, ?_, ?_, ?_⟩
    · rw [loadLoop]
      simp only [hk]
      rw [memReadBE_ok (by omega), Res.ok_andThen, hs1, h1]
    · rw [h2, e1]
    · intro sym
      rw [h3, hbe]
      by_cases h : 256 - n ≤ sym.toNat
      · rw [if_pos h, if_pos (by omega)]
      · rw [if_neg h, ← hs1, State.freqAt_setFreq']
        by_cases hsk : sym = BitVec.ofNat 8 k
        · rw [if_pos hsk, hsk, hk8, if_pos le_rfl]
        · have : sym.toNat ≠ k := fun e => hsk (BitVec.eq_of_toNat_eq (by rw [hk8, e]))
          rw [if_neg hsk, if_neg (by omega)]

theorem State.freqAt_ofFn (s : State) (a : Nat) (sym : Sym) :
    ({ s with freq := s.headerFreq a } : State).freqAt sym = BitVec.ofNat 32 (s.bigEndian (a + 4 * sym.toNat) 4) := by
  simp [State.freqAt, State.headerFreq]

theorem State.freq_ext {s t : State} (h : ∀ sym, s.freqAt sym = t.freqAt sym) : s.freq = t.freq := by
  apply Vector.ext
  intro i hi
  have := h (BitVec.ofNat 8 i)
  simpa [State.freqAt, Nat.mod_eq_of_lt hi] using this

/-- HDR_PARSE up to the consistency check (R220, R221). -/
theorem hdrParse_eq {src len : Nat} {s : State} (hr : src + len ≤ s.dmemSize) (hl : 1032 ≤ len) :
    hdrParse src len s
      = (checkHeader { s with freq := s.headerFreq src, total := BitVec.ofNat 64 (s.headerTotal src) }).andThen
          fun _ t => .ok () { t with result := t.total.truncate 32 } := by
  obtain ⟨u, h1, h2, h3⟩ := loadLoop_ok src 256 s le_rfl (by omega)
  have hf : u.freq = s.headerFreq src := by
    have : u.freq = ({ s with freq := s.headerFreq src } : State).freq := by
      apply State.freq_ext
      intro sym
      rw [h3, State.freqAt_ofFn, if_pos (by omega)]
    exact this
  have hbe : u.bigEndian (src + 1024) 8 = s.headerTotal src := by
    rw [State.headerTotal]
    exact State.bigEndian_congr fun x _ _ => by rw [h2]; rfl
  unfold hdrParse
  have hc : Config.hdrBytes = 1032 := rfl
  rw [checkRange_ok hr, Res.ok_andThen, if_neg (by rw [hc]; omega), h1, Res.ok_andThen,
    memReadBE_ok (by rw [h2]; show src + 1024 + 8 ≤ s.dmemSize; omega), Res.ok_andThen, hbe]
  congr 2
  rw [h2, hf]

end Sys2Proof.Machine
end

