-- ==== Sys2Proof/Laws/Codec.lean ====
section
/-! SUPPORT. The codec sequencer (47_codec.md): the codes of a built tree, and what the lines of COMPRESS and DECOMPRESS do
together. -/

namespace Sys2Proof.Machine

/-- The code table u holds for the tree s holds, where pos are the symbols it should code (44_codegen.md R190, R192). -/
structure TreeCodes (s u : State) (pos : List Sym) : Prop where
  valid : ∀ sym, (u.codeAt sym).valid = true ↔ sym ∈ pos
  entry : ∀ sym, codeEntryOk (u.codeAt sym)
  emits : ∀ sym, (u.codeAt sym).valid = true → s.emits (u.codeBits sym) sym
  result : u.result = BitVec.ofNat 32 pos.length

theorem codeEntryOk_pathCode {p : List Bool} (h1 : 1 ≤ p.length) (h2 : p.length ≤ 64) : codeEntryOk (pathCode p) := by
  have h3 : (BitVec.ofNat 7 p.length).toNat = p.length := by simp; omega
  have h4 : (BitVec.ofNat 64 (valueOf p)).toNat = valueOf p := by
    rw [BitVec.toNat_ofNat]
    exact Nat.mod_eq_of_lt ((valueOf_lt p).trans_le (Nat.pow_le_pow_right (by omega) h2))
  simp only [codeEntryOk, pathCode, if_true, h3, h4]
  exact ⟨h1, h2, valueOf_lt p⟩

theorem codeEntryOk_invalid : codeEntryOk .invalid := by simp [codeEntryOk]

/-- The number of codes, symbol by symbol. -/
theorem State.codeCount_eq (s : State) : s.codeCount =
    (((List.range 256).map fun k => (BitVec.ofNat 8 k : Sym)).filter fun sym => (s.codeAt sym).valid).length := by
  rw [State.codeCount, s.code_toList, List.countP_map, ← List.countP_eq_length_filter, List.countP_map]
  rfl

theorem State.codeCount_of_valid {s u : State} (h : ∀ sym, (u.codeAt sym).valid = true ↔ sym ∈ s.positive) :
    u.codeCount = s.positive.length := by
  rw [u.codeCount_eq, State.positive]
  congr 1
  apply List.filter_congr
  intro sym _
  have := h sym
  rw [s.mem_positive] at this
  rw [Bool.eq_iff_iff, this, decide_eq_true_iff]

/-- CODE_GEN on a tree TREE_BUILD made (44_codegen.md R193). -/
theorem codeGen_built {s t : State} (ht : treeBuild s = .ok () t) :
    ∃ u, codeGen t = .ok () u ∧
      u = { t with code := u.code, result := u.result, walk := u.walk, env := { t.env with draws := u.env.draws } } ∧
      TreeCodes t u s.positive := by
  obtain ⟨t', h1, h2, h3⟩ := treeBuild_spec s
  rw [ht] at h1
  simp only [Res.ok.injEq, true_and] at h1
  subst h1
  by_cases hp : s.positive = []
  · have hroot : t.root = nilIx := by rw [h3.root, if_pos hp]
    refine ⟨t.clearCodes, ?_, rfl, fun sym => ?_, fun sym => ?_, fun sym h => ?_, ?_⟩
    · unfold codeGen
      simp only [State.clearCodes_root, hroot, if_true]
    · rw [State.codeAt_clearCodes, hp]; simp
    · rw [State.codeAt_clearCodes]; exact codeEntryOk_invalid
    · rw [State.codeAt_clearCodes] at h; simp at h
    · rw [hp]; rfl
  · obtain ⟨t', h4, h5, h6, h7⟩ := treeBuild_proper s hp
    rw [ht] at h4
    simp only [Res.ok.injEq, true_and] at h4
    subst h4
    have hlen := h3.size
    have hle := s.positive_length_le
    have hne : t.root ≠ nilIx := by
      intro h
      rw [h] at h5
      have h5' : (511 : Nat) < t.nodes.length := h5
      omega
    cases hi : (t.node t.root).isInternal with
    | false =>
      obtain ⟨sym, f, hnd⟩ : ∃ sym f, t.node t.root = .leaf sym f := by
        cases hnd : t.node t.root with
        | leaf sym f => exact ⟨sym, f, rfl⟩
        | internal _ _ _ => rw [hnd] at hi; simp [Node.isInternal] at hi
      have hmem : ∀ x, x ∈ s.positive ↔ x = sym := by
        intro x
        rw [← h7 x]
        constructor
        · rintro ⟨p, m, g, a, b⟩
          obtain ⟨-, rfl⟩ := a.of_leaf hi
          rw [hnd] at b
          simp only [Node.leaf.injEq] at b
          exact b.1.symm
        · rintro rfl
          exact ⟨[], _, f, .here _, hnd⟩
      have hpos : s.positive = [sym] := by
        have hn := s.nodup_positive
        cases hl : s.positive with
        | nil => exact absurd hl hp
        | cons a l =>
          rw [hl] at hn hmem
          have ha : a = sym := (hmem a).1 (by simp)
          cases l with
          | nil => rw [ha]
          | cons b l' =>
            have hb : b = sym := (hmem b).1 (by simp)
            rw [ha, hb] at hn
            simp at hn
      have hcode : ∀ x, (t.clearCodes.assignCode sym 1 0).codeAt x =
          if x = sym then { valid := true, len := 1, code := 0 } else .invalid := by
        intro x
        rw [State.codeAt_assignCode, State.codeAt_clearCodes]
      refine ⟨t.clearCodes.assignCode sym 1 0, ?_, rfl, fun x => ?_, fun x => ?_, fun x h => ?_, ?_⟩
      · unfold codeGen
        have e1 : t.clearCodes.node = t.node := rfl
        simp only [State.clearCodes_root, hne, if_false, e1, hnd]
      · rw [hcode, hmem]
        by_cases hx : x = sym <;> simp [hx]
      · rw [hcode]
        by_cases hx : x = sym
        · simp [hx, codeEntryOk]
        · rw [if_neg hx]; exact codeEntryOk_invalid
      · rw [hcode] at h
        have hx : x = sym := by
          by_contra hx
          simp [hx] at h
        refine .inr ⟨?_, f, by rw [hx]; exact hnd⟩
        rw [State.codeBits, hcode, if_pos hx, bitsOf_length]; rfl
      · rw [hpos]; rfl
    | true =>
      rcases codeGen_spec t hne hi with ⟨u, a1, a2, a3, a4, a5, a6⟩ | ⟨e, u, a1, -, a3, -⟩
      · have hv : ∀ sym, (u.codeAt sym).valid = true ↔ sym ∈ s.positive := by
          intro sym
          rw [← h7 sym]
          constructor
          · intro h
            by_contra hno
            rw [a5 sym hno] at h
            simp at h
          · rintro ⟨p, hl⟩
            rw [(a4 p sym hl).1]; rfl
        refine ⟨u, a1, ?_, hv, fun sym => ?_, fun sym h => ?_, ?_⟩
        · conv_lhs => rw [a3]
          rw [a3]
        · by_cases hl : ∃ p, LeafAt t t.root p sym
          · obtain ⟨p, hl⟩ := hl
            rw [(a4 p sym hl).1]
            refine codeEntryOk_pathCode ?_ (a4 p sym hl).2
            cases p with
            | nil =>
              obtain ⟨m, f, b1, b2⟩ := hl
              rw [b1.nil_inv] at b2
              rw [b2] at hi
              simp [Node.isInternal] at hi
            | cons _ _ => simp
          · rw [a5 sym hl]; exact codeEntryOk_invalid
        · rw [hv, ← h7] at h
          obtain ⟨p, hl⟩ := h
          obtain ⟨b1, b2⟩ := a4 p sym hl
          rw [codeBits_of_path b1 b2]
          exact .inl ⟨hi, hl⟩
        · apply BitVec.eq_of_toNat_eq
          rw [a6, State.codeCount_of_valid hv, BitVec.toNat_ofNat, Nat.mod_eq_of_lt (by omega)]
      · exfalso
        obtain ⟨p, n, ⟨-, b1, q, hq, b2 | ⟨sym, f, b2, b3⟩⟩ | ⟨-, ⟨b1, b2, b3⟩, -⟩, -⟩ := a3
        · exact Before.irrefl (h6.noSharing q p n b2 b1 ▸ hq)
        · exact Before.irrefl (h6.oneLeaf q p sym b3 ⟨n, f, b1, b2⟩ ▸ hq)
        · have := h6.depth p n b1 b3
          omega

/-! COMPRESS up to the output check (R240) -/

theorem sum_range_ite (n j c : Nat) (h : j < n) : ((List.range n).map fun k => if k = j then c else 0).sum = c := by
  have := Finset.sum_ite_eq' (Finset.range n) j (fun _ => c)
  rw [if_pos (Finset.mem_range.mpr h)] at this
  exact this

/-- A sum over a list of symbols, symbol by symbol. -/
theorem sum_map_eq_sum_count (f : Sym → Nat) (n : Nat) (hn : n = 256) (l : List Sym) :
    (l.map f).sum = ((List.range n).map fun k => l.count (BitVec.ofNat 8 k) * f (BitVec.ofNat 8 k)).sum := by
  induction l with
  | nil => simp
  | cons b l ih =>
    have h1 : ((List.range n).map fun k => (b :: l).count (BitVec.ofNat 8 k) * f (BitVec.ofNat 8 k)).sum =
        ((List.range n).map fun k => l.count (BitVec.ofNat 8 k) * f (BitVec.ofNat 8 k)).sum +
          ((List.range n).map fun k => if k = b.toNat then f b else 0).sum := by
      rw [← List.sum_map_add]
      congr 1
      apply List.map_congr_left
      intro k hk
      have hk' : k < 256 := by rw [← hn]; simpa using hk
      rw [List.count_cons, Nat.add_mul]
      congr 1
      by_cases h : k = b.toNat
      · subst h; simp
      · have : ¬ b = BitVec.ofNat 8 k := by
          intro e; apply h; rw [e]; exact (ofNat8_toNat hk').symm
        simp [this, h]
    rw [h1, sum_range_ite n b.toNat (f b) (by have := b.isLt; omega), ← ih, List.map_cons, List.sum_cons, Nat.add_comm]

theorem BuiltTree.congr {s s' u u' : State} (h : BuiltTree s u) (hs : s'.freq = s.freq) (hn : u'.nodes = u.nodes)
    (hr : u'.root = u.root) : BuiltTree s' u' := by
  have h1 : s'.freqAt = s.freqAt := by funext x; simp only [State.freqAt, hs]
  have h2 : s'.positive = s.positive := by simp only [State.positive, h1]
  have h3 : s'.freqSum = s.freqSum := by simp only [State.freqSum, hs]
  have h4 : u'.weight = u.weight := by funext x; simp only [State.weight, State.node, hn]
  refine ⟨?_, ?_, ?_, ?_, ?_, ?_⟩
  · rw [h1, h2, hn]; exact h.leaves
  · rw [h2, hn]; exact h.size
  · rw [h2, hn, h4]; exact h.joins
  · rw [hn]; exact h.once
  · rw [h2, hn, hr]; exact h.root
  · rw [h2, h3, h4, hr]; exact h.rootWeight

/-- FREQ_COUNT from a cleared table never raises in range (R240). -/
theorem freqCount_cleared {src len : Nat} (s : State) (hr : src + len ≤ s.dmemSize) :
    ∃ t, freqCount src len s.clearFreq = .ok () t ∧
      t = { s with freq := t.freq, total := BitVec.ofNat 64 len, result := BitVec.ofNat 32 len } ∧
      ∀ x, (t.freqAt x).toNat = (s.bytesAt src len).count x := by
  have hsz := s.dmemSize_le
  have h0 : ∀ x, (({ s.clearFreq with result := 0 } : State).freqAt x) = 0 := fun x => State.freqAt_clearFreq s x
  have hcnt : ∀ x, (s.bytesAt src len).count x ≤ len := fun x => by
    have := List.count_le_length (a := x) (l := s.bytesAt src len)
    rwa [State.bytesAt_length] at this
  obtain ⟨u, h1, h2, h3, h4⟩ := countLoop_ok src len 0 { s.clearFreq with result := 0 }
    (by show src + 0 + len ≤ s.dmemSize; omega)
    (fun x => by
      rw [h0]
      have := hcnt x
      have e : ({ s.clearFreq with result := 0 } : State).bytesAt (src + 0) len = s.bytesAt src len := rfl
      rw [e]
      show 0 + _ < _
      omega)
    (by show 0 + len < _; omega)
  refine ⟨u, ?_, ?_, fun x => ?_⟩
  · rw [freqCount, checkRange_ok (by exact hr), Res.ok_andThen, h1]
  · have ht : u.total = BitVec.ofNat 64 len := by
      apply BitVec.eq_of_toNat_eq
      rw [h4, BitVec.toNat_ofNat, Nat.mod_eq_of_lt (by omega)]
      show 0 + len = len
      omega
    have hres : (if len = 0 then ({ s.clearFreq with result := 0 } : State).result else BitVec.ofNat 32 (0 + len))
        = BitVec.ofNat 32 len := by
      split
      · rename_i h; subst h; rfl
      · rw [Nat.zero_add]
    rw [hres] at h2
    rw [← ht, h2]
    rfl
  · have e : ({ s.clearFreq with result := 0 } : State).bytesAt (src + 0) len = s.bytesAt src len := rfl
    rw [h3, h0, e]
    exact Nat.zero_add _

/-- What stands when COMPRESS checks its output range (R240). -/
structure Analysed (s : State) (src len : Nat) (v : State) : Prop where
  frame : v = { s with
    freq := v.freq, total := BitVec.ofNat 64 len, nodes := v.nodes, heap := [], root := v.root, code := v.code
    walk := v.walk, result := v.result, env := { s.env with draws := v.env.draws } }
  counts : ∀ sym, (v.freqAt sym).toNat = (s.bytesAt src len).count sym
  tree : BuiltTree v v
  codes : TreeCodes v v v.positive
  coded : ∀ b ∈ s.bytesAt src len, (v.codeAt b).valid = true
  bits : v.packedBits = ((s.bytesAt src len).flatMap v.codeBits).length

theorem analysed {src len : Nat} (s : State) (hr : src + len ≤ s.dmemSize) :
    ∃ t u v, freqCount src len s.clearFreq = .ok () t ∧ treeBuild t = .ok () u ∧ codeGen u = .ok () v ∧
      Analysed s src len v := by
  obtain ⟨t, h1, h2, h3⟩ := freqCount_cleared s hr
  obtain ⟨u, h4, h5, h6⟩ := treeBuild_spec t
  obtain ⟨v, h7, h8, h9⟩ := codeGen_built h4
  have e1 : v.freq = t.freq := by rw [h8, h5]
  have e2 : v.nodes = u.nodes := by rw [h8]
  have e3 : v.root = u.root := by rw [h8]
  have e4 : v.node = u.node := by funext x; simp only [State.node, e2]
  have hf : v.freqAt = t.freqAt := by funext x; simp only [State.freqAt, e1]
  have hp : v.positive = t.positive := by simp only [State.positive, hf]
  have hfr : v = { s with
      freq := v.freq, total := BitVec.ofNat 64 len, nodes := v.nodes, heap := [], root := v.root, code := v.code
      walk := v.walk, result := v.result, env := { s.env with draws := v.env.draws } } := by
    conv_lhs => rw [h8, h5, h2]
    rw [e1, e2, e3]
  have hcodes : TreeCodes v v v.positive := by
    rw [hp]
    exact ⟨h9.valid, h9.entry, fun sym h => State.emits_congr e4 e3 (h9.emits sym h), h9.result⟩
  have hcounts : ∀ sym, (v.freqAt sym).toNat = (s.bytesAt src len).count sym := by
    intro sym; rw [hf]; exact h3 sym
  have hcoded : ∀ b ∈ s.bytesAt src len, (v.codeAt b).valid = true := by
    intro b hb
    rw [hcodes.valid, v.mem_positive, hcounts]
    exact List.count_pos_iff.mpr hb
  refine ⟨t, u, v, h1, h4, h7, hfr, hcounts, h6.congr e1 e2 e3, hcodes, hcoded, ?_⟩
  rw [List.length_flatMap, sum_map_eq_sum_count _ 256 rfl, State.packedBits]
  congr 1
  apply List.map_congr_left
  intro k _
  simp only [State.codeBits, bitsOf_length]
  rw [hcounts]
  split
  · rfl
  · rename_i hnv
    have := hcodes.entry (BitVec.ofNat 8 k)
    simp only [codeEntryOk, hnv] at this
    have h0 : (v.codeAt (BitVec.ofNat 8 k)).len = 0 := this.1
    rw [h0]; simp

/-! COMPRESS from the output check on (R240) -/

/-- PACK_FLUSH where the byte it needs fits (R206). -/
theorem packFlush_ok {s : State} (hp : s.pk.bbuf.toNat < 2 ^ s.pk.bblen.toNat) {k : Nat}
    (hk : k = if s.pk.bblen = 0 then 0 else 1) (hs : s.pk.optr.toNat + k ≤ s.dmemSize) :
    ∃ u pad, packFlush s = .ok () u ∧
      u = { s with
        pk := { optr := s.pk.optr + BitVec.ofNat 32 k, ocnt := s.pk.ocnt + BitVec.ofNat 32 k, bblen := 0, bbuf := 0 }
        result := s.pk.ocnt + BitVec.ofNat 32 k, dmem := u.dmem } ∧
      u.bitsAt s.pk.optr.toNat k = s.pendingBits ++ pad ∧ (∀ b ∈ pad, b = false) ∧ pad.length < 8 ∧
      s.sameBytesBut s.pk.optr.toNat k u := by
  by_cases hb : s.pk.bblen = 0
  · rw [if_pos hb] at hk
    subst hk
    have hbuf : s.pk.bbuf = 0 := by
      rw [hb] at hp
      apply BitVec.eq_of_toNat_eq
      have : s.pk.bbuf.toNat < 1 := hp
      show s.pk.bbuf.toNat = 0
      omega
    refine ⟨{ s with result := s.pk.ocnt }, [], ?_, ?_, ?_, by simp, by simp, fun _ _ => rfl⟩
    · rw [packFlush, flushPending, if_pos hb, Res.ok_andThen]
    · have e1 : s.pk.optr + BitVec.ofNat 32 0 = s.pk.optr := by simp
      have e2 : s.pk.ocnt + BitVec.ofNat 32 0 = s.pk.ocnt := by simp
      rw [e1, e2]
      have e3 : ({ optr := s.pk.optr, ocnt := s.pk.ocnt, bblen := 0, bbuf := 0 } : Packer) = s.pk := by
        rw [← hb, ← hbuf]
      rw [e3]
    · rw [State.bitsAt_zero]
      have : s.pendingBits = [] := by
        apply List.eq_nil_of_length_eq_zero
        rw [State.pendingBits, bitsOf_length, hb]; rfl
      rw [this]; rfl
  · rw [if_neg hb] at hk
    subst hk
    obtain ⟨u, h1, h2, h3, h4⟩ := flushPending_ok hb hp hs
    have h8 := s.pk.bblen.isLt
    have h0 : s.pk.bblen.toNat ≠ 0 := fun h => hb (by apply BitVec.eq_of_toNat_eq; exact h)
    refine ⟨{ u with result := u.pk.ocnt }, List.replicate (8 - s.pk.bblen.toNat) false, ?_, ?_, h3, ?_, ?_, h4⟩
    · rw [packFlush, h1, Res.ok_andThen]
    · rw [h2]; rfl
    · intro b hb'; exact List.eq_of_mem_replicate hb'
    · rw [List.length_replicate]; omega

theorem toNat_add_of {a c : Word} {n : Nat} (hc : c.toNat = n) (h : a.toNat + n < 2 ^ 32) : (a + c).toNat = a.toNat + n := by
  rw [BitVec.toNat_add, hc, Nat.mod_eq_of_lt h]

/-- The header and the packed data where everything fits and lies apart (R240). -/
theorem writeFile_ok {v : State} {src len : Nat} {dst : Word} {bits : List Bool} {N : Nat}
    (hr : src + len ≤ v.dmemSize) (hv : ∀ b ∈ v.bytesAt src len, (v.codeAt b).valid = true)
    (hc : ∀ sym, codeEntryOk (v.codeAt sym)) (hb : bits = (v.bytesAt src len).flatMap v.codeBits)
    (hN : N = 1032 + (bits.length + 7) / 8) (hs : dst.toNat + N ≤ v.dmemSize) (ha : apart src len dst.toNat N) :
    ∃ t u w pad, packHeader (v.initPacker dst) = .ok () t ∧ packData src len t = .ok () u ∧ packFlush u = .ok () w ∧
      w = { v with
        pk := { optr := dst + BitVec.ofNat 32 N, ocnt := BitVec.ofNat 32 N, bblen := 0, bbuf := 0 }
        result := BitVec.ofNat 32 N, dmem := w.dmem } ∧
      w.holdsHeader dst.toNat v ∧ w.bitsAt (dst.toNat + 1032) (N - 1032) = bits ++ pad ∧ (∀ b ∈ pad, b = false) ∧
      pad.length < 8 ∧ v.sameBytesBut dst.toNat N w := by
  have hsz := v.dmemSize_le
  obtain ⟨t, h1, h2, h3, h4⟩ := packHeader_ok (s := v.initPacker dst) rfl (by show dst.toNat + 1032 ≤ v.dmemSize; omega)
  have hto : t.pk.optr.toNat = dst.toNat + 1032 := by
    rw [h2]
    exact toNat_add_of (by decide) (by show dst.toNat + 1032 < 2 ^ 32; omega)
  have htb : t.pk.bblen = 0 := by rw [h2]; rfl
  have htd : t.dmemSize = v.dmemSize := by rw [h2]; rfl
  have htc : t.code = v.code := by rw [h2, State.initPacker_code]
  have htcode : t.codeAt = v.codeAt := by funext x; simp only [State.codeAt, htc]
  have htbits : t.codeBits = v.codeBits := by funext x; simp only [State.codeBits, htcode]
  have htbytes : t.bytesAt src len = v.bytesAt src len := by
    refine State.bytesAt_congr fun x hx1 hx2 => ?_
    exact h4 x fun ⟨hx3, hx4⟩ => ha x hx1 hx2 hx3 (by
      have hx4' : x < dst.toNat + 1032 := hx4
      omega)
  have htpend : t.pendingBits = [] := by
    apply List.eq_nil_of_length_eq_zero
    rw [State.pendingBits, bitsOf_length, htb]; rfl
  obtain ⟨u, h5, h6, h7⟩ := packData_ok (src := src) (n := len) (s := t) (bits := bits) (k := bits.length / 8)
    (by rw [htd]; exact hr) (fun b hb' => by rw [htbytes] at hb'; rw [htcode]; exact ⟨hv b hb', hc b⟩)
    (by rw [h2]; show (0 : BitVec 71).toNat < 2 ^ (0 : BitVec 3).toNat; decide) (by rw [htbytes, htbits]; exact hb)
    (by rw [htb]; show _ = (0 + bits.length) / 8; rw [Nat.zero_add])
    (by rw [hto, htd]; omega)
    (by
      rw [hto]
      intro x hx1 hx2 hx3 hx4
      exact ha x hx1 hx2 (by omega) (by omega))
  have hul : u.pk.bblen.toNat = bits.length % 8 := by
    rw [h7.bblen, htb]; show (0 + _) % 8 = _; rw [Nat.zero_add]
  have huo : u.pk.optr.toNat = dst.toNat + 1032 + bits.length / 8 := by
    rw [optr_add h7 (by rw [hto, htd]; omega), hto]
  have hud : u.dmemSize = v.dmemSize := by rw [h6]; exact htd
  generalize hk : (if u.pk.bblen = 0 then 0 else 1) = k
  have hk' : k = if bits.length % 8 = 0 then 0 else 1 := by
    rw [← hk]
    congr 1
    rw [← hul]
    exact propext ⟨fun h => by rw [h]; rfl, fun h => by apply BitVec.eq_of_toNat_eq; exact h⟩
  have hNk : N = 1032 + bits.length / 8 + k := by
    rw [hk']
    split <;> omega
  obtain ⟨w, pad, h8, h9, h10, h11, h12, h13⟩ := packFlush_ok h7.number hk.symm (by rw [huo, hud]; omega)
  have hNb : (BitVec.ofNat 32 N : Word) = 1032 + BitVec.ofNat 32 (bits.length / 8) + BitVec.ofNat 32 k := by
    rw [hNk]
    apply BitVec.eq_of_toNat_eq
    simp [BitVec.toNat_add]
  have hout1 : ∀ x, ¬ (dst.toNat ≤ x ∧ x < dst.toNat + 1032) → t.byte x = v.byte x := fun x hx => h4 x hx
  have hout2 : ∀ x, ¬ (dst.toNat + 1032 ≤ x ∧ x < dst.toNat + 1032 + bits.length / 8) → u.byte x = t.byte x := by
    intro x hx
    exact h7.outside x (by rw [hto]; exact hx)
  have hout3 : ∀ x, ¬ (dst.toNat + 1032 + bits.length / 8 ≤ x ∧ x < dst.toNat + 1032 + bits.length / 8 + k) →
      w.byte x = u.byte x := by
    intro x hx
    exact h13 x (by rw [huo]; exact hx)
  refine ⟨t, u, w, pad, h1, h5, h8, ?_, ?_, ?_, h11, h12, ?_⟩
  · have e1 : u.pk.optr = dst + 1032 + BitVec.ofNat 32 (bits.length / 8) := by rw [h7.optr, h2]; rfl
    have e2 : u.pk.ocnt = 1032 + BitVec.ofNat 32 (bits.length / 8) := by
      rw [h7.ocnt, h2]
      exact congrArg (· + BitVec.ofNat 32 (bits.length / 8)) (BitVec.zero_add (1032 : Word))
    have e3 : dst + 1032 + BitVec.ofNat 32 (bits.length / 8) + BitVec.ofNat 32 k = dst + BitVec.ofNat 32 N := by
      rw [hNb]; simp only [BitVec.add_assoc]
    rw [e1, e2, e3, ← hNb] at h9
    conv_lhs => rw [h9, h6, h2]
    rfl
  · have hb1 : ∀ x, dst.toNat ≤ x → x < dst.toNat + 1032 → w.byte x = t.byte x := by
      intro x hx1 hx2
      rw [hout3 x (by omega), hout2 x (by omega)]
    refine ⟨fun sym => ?_, ?_⟩
    · rw [State.bigEndian_congr (s := t) (t := w) fun x hx1 hx2 => hb1 x (by omega) (by have := sym.isLt; omega)]
      exact h3.1 sym
    · rw [State.bigEndian_congr (s := t) (t := w) fun x hx1 hx2 => hb1 x (by omega) (by omega)]
      exact h3.2
  · have hst := h7.stream
    rw [hto, htpend, List.nil_append] at hst
    rw [huo] at h10
    have hsplit : N - 1032 = bits.length / 8 + k := by omega
    have hsame : w.bitsAt (dst.toNat + 1032) (bits.length / 8) = u.bitsAt (dst.toNat + 1032) (bits.length / 8) :=
      State.bitsAt_congr fun x hx1 hx2 => hout3 x (by omega)
    rw [hsplit, State.bitsAt_add, h10, hsame, ← List.append_assoc, hst]
  · intro x hx
    rw [hout3 x (by omega), hout2 x (by omega), hout1 x (by omega)]

/-- COMPRESS whose input is in range comes to its output check with the input analysed (R240). -/
theorem compressLines_eq {src len : Nat} (dst : Word) {s : State} (hr : src + len ≤ s.dmemSize) :
    ∃ v, Analysed s src len v ∧ compressLines src len dst s =
      (checkRange dst.toNat v.fileBytes v).andThen fun _ s =>
        (packHeader (s.initPacker dst)).andThen fun _ s => (packData src len s).andThen fun _ s => packFlush s := by
  obtain ⟨t, u, v, h1, h2, h3, h4⟩ := analysed s hr
  exact ⟨v, h4, by rw [compressLines, checkRange_ok hr, Res.ok_andThen, h1, Res.ok_andThen, h2, Res.ok_andThen, h3,
    Res.ok_andThen]⟩

/-- COMPRESS on disjoint regions with room (R240). -/
theorem compressLines_ok {src len : Nat} {dst : Word} {s : State} (hr : src + len ≤ s.dmemSize) {v : State}
    (hv : Analysed s src len v) (hs : dst.toNat + v.fileBytes ≤ s.dmemSize) (ha : apart src len dst.toNat v.fileBytes) :
    ∃ t u w pad, packHeader (v.initPacker dst) = .ok () t ∧ packData src len t = .ok () u ∧ packFlush u = .ok () w ∧
      w = { v with
        pk := { optr := dst + BitVec.ofNat 32 v.fileBytes, ocnt := BitVec.ofNat 32 v.fileBytes, bblen := 0, bbuf := 0 }
        result := BitVec.ofNat 32 v.fileBytes, dmem := w.dmem } ∧
      w.holdsHeader dst.toNat v ∧
      w.bitsAt (dst.toNat + 1032) (v.fileBytes - 1032) = (s.bytesAt src len).flatMap v.codeBits ++ pad ∧
      (∀ b ∈ pad, b = false) ∧ pad.length < 8 ∧ s.sameBytesBut dst.toNat v.fileBytes w := by
  have hd : v.dmemSize = s.dmemSize := by rw [hv.frame]
  have hbyte : v.byte = s.byte := by rw [hv.frame]; rfl
  have hbytes : v.bytesAt src len = s.bytesAt src len := State.bytesAt_congr fun x _ _ => by rw [hbyte]
  obtain ⟨t, u, w, pad, h1, h2, h3, h4, h5, h6, h7, h8, h9⟩ := writeFile_ok (v := v) (src := src) (len := len) (dst := dst)
    (N := v.fileBytes) (bits := (s.bytesAt src len).flatMap v.codeBits) (by rw [hd]; exact hr)
    (fun b hb => hv.coded b (by rw [← hbytes]; exact hb)) hv.codes.entry (by rw [hbytes])
    (by rw [State.fileBytes, hv.bits]) (by rw [hd]; exact hs) ha
  exact ⟨t, u, w, pad, h1, h2, h3, h4, h5, h6, h7, h8, fun x hx => by rw [h9 x hx, hbyte]⟩

/-! DECOMPRESS (R241) -/

theorem truncate_ofNat (n : Nat) : (BitVec.ofNat 64 n).truncate 32 = BitVec.ofNat 32 n := by
  apply BitVec.eq_of_toNat_eq
  simp only [BitVec.truncate, BitVec.toNat_setWidth, BitVec.toNat_ofNat]
  exact Nat.mod_mod_of_dvd _ (by norm_num)

/-- The lines of DECOMPRESS on a well-formed file with room (R241). -/
theorem decompressLines_ok {src len dst : Nat} {s v : State} {bytes : List Byte} {bits after : List Bool}
    (hr : src + len ≤ s.dmemSize) (hl : 1032 ≤ len) (hv : treeBuild { s with
      freq := s.headerFreq src, total := BitVec.ofNat 64 bytes.length, result := BitVec.ofNat 32 bytes.length } = .ok () v)
    (hsum : v.freqSum = bytes.length) (htot : s.headerTotal src = bytes.length)
    (hb : s.bitsAt (src + 1032) (len - 1032) = bits ++ after) (hsp : Spells v bits bytes)
    (hd : dst + bytes.length ≤ s.dmemSize) (ha : apart src len dst bytes.length) :
    ∃ u, decompressLines src len dst s = .ok () u ∧
      u = { s with
        freq := s.headerFreq src, total := BitVec.ofNat 64 bytes.length, nodes := v.nodes, heap := [], root := v.root
        up := unpackerAt (src + 1032) bits.length v.root bytes.length, result := BitVec.ofNat 32 bytes.length
        dmem := u.dmem } ∧
      u.bytesAt dst bytes.length = bytes ∧ s.sameBytesBut dst bytes.length u := by
  have hsz := s.dmemSize_le
  have hpe := hdrParse_eq hr hl
  generalize s.headerFreq src = hq at hv hpe ⊢
  generalize hs0 : ({ s with
    freq := hq, total := BitVec.ofNat 64 bytes.length, result := BitVec.ofNat 32 bytes.length } : State) = s0
    at hv
  obtain ⟨v', h1, h2, h3⟩ := treeBuild_spec s0
  rw [hv] at h1
  simp only [Res.ok.injEq, true_and] at h1
  subst h1
  have hvq : v.freq = s0.freq := by rw [h2]
  have hvf : v.freqSum = s0.freqSum := by simp only [State.freqSum, hvq]
  have ht0 : s0.total.toNat = bytes.length := by
    rw [← hs0]
    show (BitVec.ofNat 64 bytes.length).toNat = _
    rw [BitVec.toNat_ofNat, Nat.mod_eq_of_lt (by omega)]
  have hhdr : hdrParse src len s = .ok () s0 := by
    rw [hpe, htot]
    have e1 : checkHeader { s with freq := hq, total := BitVec.ofNat 64 bytes.length } =
        .ok () { s with freq := hq, total := BitVec.ofNat 64 bytes.length } := by
      rw [checkHeader, if_pos]
      have : s0.freqSum = s0.total.toNat := by rw [← hvf, hsum, ht0]
      rw [← hs0] at this
      exact this
    rw [e1, Res.ok_andThen, ← hs0]
    exact congrArg (fun r => Res.ok () ({ s with freq := hq, total := BitVec.ofNat 64 bytes.length, result := r } : State))
      (truncate_ofNat bytes.length)
  have hvt : v.total.toNat = bytes.length := by rw [h2]; exact ht0
  have hvd : v.dmemSize = s.dmemSize := by rw [h2, ← hs0]
  have hvbyte : v.byte = s.byte := by rw [h2, ← hs0]; rfl
  have hvbits : v.bitsAt (src + 1032) (len - 1032) = bits ++ after := by
    rw [← hb]; exact State.bitsAt_congr fun x _ _ => by rw [hvbyte]
  have hroot : v.root ≠ nilIx ∨ bytes = [] := by
    by_cases hp : s0.positive = []
    · right
      apply List.eq_nil_of_length_eq_zero
      have := s0.sum_positive
      rw [hp] at this
      have h0 : s0.freqSum = 0 := this.symm
      omega
    · left
      obtain ⟨v', b1, b2, -, -⟩ := treeBuild_proper s0 hp
      rw [hv] at b1
      simp only [Res.ok.injEq, true_and] at b1
      subst b1
      intro hn
      rw [hn] at b2
      have b2' : (511 : Nat) < v.nodes.length := b2
      have := h3.size
      have := s0.positive_length_le
      omega
  obtain ⟨w, c1, c2, -, -, c5⟩ := unpack_ok (write := false) (dst := dst) (by rw [hvd]; omega) hroot hvbits hsp hvt (by simp)
  have hw0 : w = { v with
      up := unpackerAt (src + 1032) bits.length v.root bytes.length, result := BitVec.ofNat 32 bytes.length } := by
    conv_lhs => rw [c2]
    rw [c5 rfl]
  have hwbyte : w.byte = s.byte := by rw [hw0, ← hvbyte]; rfl
  obtain ⟨u, d1, d2, d3, d4, -⟩ := unpack_ok (write := true) (s := w) (dst := dst) (src := src + 1032) (len := len - 1032)
    (bits := bits) (after := after) (bytes := bytes) (by rw [hw0]; show src + 1032 + (len - 1032) ≤ v.dmemSize; rw [hvd]; omega)
    (by rw [hw0]; exact hroot)
    (by rw [← hb]; exact State.bitsAt_congr fun x _ _ => by rw [hwbyte])
    (hsp.congr (by rw [hw0]; rfl) (by rw [hw0])) (by rw [hw0]; exact hvt)
    (fun _ => ⟨by rw [hw0]; show dst + bytes.length ≤ v.dmemSize; rw [hvd]; exact hd,
      fun x hx1 hx2 => ha x (by omega) (by omega)⟩)
  have hue : u.up.emit.truncate 32 = BitVec.ofNat 32 bytes.length := by
    rw [d2]
    exact truncate_ofNat bytes.length
  refine ⟨u, ?_, ?_, d3 rfl, fun x hx => by rw [d4 x hx, hwbyte]⟩
  · have hwt : w.total.toNat = bytes.length := by rw [hw0]; exact hvt
    rw [decompressLines, checkRange_ok hr, Res.ok_andThen, hhdr, Res.ok_andThen, hv, Res.ok_andThen,
      show Config.hdrBytes = 1032 from rfl, c1, Res.ok_andThen, hwt,
      checkRange_ok (s := w) (by rw [hw0]; show dst + bytes.length ≤ v.dmemSize; rw [hvd]; exact hd), Res.ok_andThen, d1,
      Res.ok_andThen, hue]
    have hur : u.result = BitVec.ofNat 32 bytes.length := by rw [d2]
    rw [← hur]
  · conv_lhs => rw [d2, hw0, h2, ← hs0]

end Sys2Proof.Machine
end

