-- ==== Sys2Proof/Laws/Encoding.lean ====
section
/-! SUPPORT. Fields of an encoded command: each field read back is the field written. -/

namespace Sys2Proof.Laws

theorem opcOf_append (a : BitVec 8) (b : BitVec 24) : opcOf (a ++ b) = a := by
  apply BitVec.eq_of_getLsbD_eq
  intro i hi
  simp only [opcOf, BitVec.getLsbD_extractLsb', BitVec.getLsbD_append]
  simp [hi]

theorem operandOf_append (a : BitVec 8) (b : BitVec 24) : operandOf (a ++ b) = b := by
  apply BitVec.eq_of_getLsbD_eq
  intro i hi
  simp only [operandOf, BitVec.getLsbD_extractLsb', BitVec.getLsbD_append]
  simp [hi]

@[simp] theorem opcOf_encode (i : Instr) : opcOf (encode i) = i.opc := opcOf_append _ _

@[simp] theorem operandOf_encode (i : Instr) : operandOf (encode i) = i.operand := operandOf_append _ _

/-- A word is its OPC followed by its operand field. -/
theorem word_eq_append (w : Word) : w = opcOf w ++ operandOf w := by
  apply BitVec.eq_of_getLsbD_eq
  intro i hi
  simp only [opcOf, operandOf, BitVec.getLsbD_append, BitVec.getLsbD_extractLsb']
  by_cases h : i < 24
  · simp [h]
  · have : i - 24 < 8 := by omega
    simp [h, this]; congr 1; omega

/-- SYM lies in the operand field. -/
theorem symOf_append (a : BitVec 8) (s : Sym) : symOf (a ++ (0#16 ++ s : BitVec 24)) = s := by
  apply BitVec.eq_of_getLsbD_eq
  intro i hi
  have h24 : i < 24 := by omega
  simp only [symOf, BitVec.getLsbD_extractLsb', BitVec.getLsbD_append]
  simp [hi, h24]

/-- NA lies in the operand field. -/
theorem naOf_append_i (a : BitVec 8) (n : NodeIx) : naOf (a ++ (0#15 ++ n : BitVec 24)) = n := by
  apply BitVec.eq_of_getLsbD_eq
  intro i hi
  have h24 : i < 24 := by omega
  simp only [naOf, BitVec.getLsbD_extractLsb', BitVec.getLsbD_append]
  simp [hi, h24]

/-- NA lies in bits 8:0 of a format-J operand field. -/
theorem naOf_append_j (a : BitVec 8) (na nb : NodeIx) : naOf (a ++ (0#6 ++ nb ++ na : BitVec 24)) = na := by
  apply BitVec.eq_of_getLsbD_eq
  intro i hi
  have h24 : i < 24 := by omega
  simp only [naOf, BitVec.getLsbD_extractLsb', BitVec.getLsbD_append]
  simp [hi, h24]

/-- NB lies in bits 17:9 of a format-J operand field. -/
theorem nbOf_append_j (a : BitVec 8) (na nb : NodeIx) : nbOf (a ++ (0#6 ++ nb ++ na : BitVec 24)) = nb := by
  apply BitVec.eq_of_getLsbD_eq
  intro i hi
  have h1 : 9 + i < 24 := by omega
  have h2 : ¬ 9 + i < 9 := by omega
  have h3 : 9 + i - 9 = i := by omega
  simp only [nbOf, BitVec.getLsbD_extractLsb', BitVec.getLsbD_append]
  simp [hi, h1, h2, h3]

end Sys2Proof.Laws
end

