-- ==== Sys2Proof/Laws/PerInstr.lean ====
section
/-! SUPPORT. Per-command facts: every command is well formed (30_encoding.md R108). -/

namespace Sys2Proof.Laws.WellFormedCommand

/-- The command's fields pass both checks of R108. -/
def Statement (i : Instr) : Prop := i.WellFormed = true

/-- A command whose OPC is listed with its format is well formed when its must-be-zero bits are 0. -/
theorem wellFormed_of_operand (i : Instr) (hf : formatOf i.opc = some i.format) (h : i.operand &&& i.format.mbz = 0) :
    Statement i := by
  simp [Statement, Instr.WellFormed, RawCommand.WellFormed, RawCommand.opcodeListed, RawCommand.operandClear, Instr.raw,
    hf, h]

/-- A format-S operand field leaves its must-be-zero bits 0 (R102). -/
theorem mbz_clear_s (sym : Sym) : (0#16 ++ sym : BitVec 24) &&& Format.s.mbz = 0 := by
  apply BitVec.eq_of_getLsbD_eq
  intro k hk
  simp only [Format.mbz, BitVec.getLsbD_and, BitVec.getLsbD_append]
  by_cases h : k < 8
  · interval_cases k <;> simp
  · simp [h]

/-- A format-I operand field leaves its must-be-zero bits 0 (R103). -/
theorem mbz_clear_i (na : NodeIx) : (0#15 ++ na : BitVec 24) &&& Format.i.mbz = 0 := by
  apply BitVec.eq_of_getLsbD_eq
  intro k hk
  simp only [Format.mbz, BitVec.getLsbD_and, BitVec.getLsbD_append]
  by_cases h : k < 9
  · interval_cases k <;> simp
  · simp [h]

/-- A format-J operand field leaves its must-be-zero bits 0 (R104). -/
theorem mbz_clear_j (na nb : NodeIx) : (0#6 ++ nb ++ na : BitVec 24) &&& Format.j.mbz = 0 := by
  apply BitVec.eq_of_getLsbD_eq
  intro k hk
  simp only [Format.mbz, BitVec.getLsbD_and, BitVec.getLsbD_append]
  by_cases h : k < 18
  · interval_cases k <;> simp
  · have h1 : ¬ k < 9 := by omega
    have h2 : ¬ k - 9 < 9 := by omega
    simp [h1, h2]

theorem nop : Statement (.nop) := rfl
theorem clear : Statement (.clear) := rfl
theorem freqClear : Statement (.freqClear) := rfl
theorem freqCount : Statement (.freqCount) := rfl
theorem pqClear : Statement (.pqClear) := rfl
theorem pqInsert (na : NodeIx) : Statement (.pqInsert na) := wellFormed_of_operand _ rfl (by exact mbz_clear_i na)
theorem pqExtract : Statement (.pqExtract) := rfl
theorem pqSize : Statement (.pqSize) := rfl
theorem nodeClear : Statement (.nodeClear) := rfl
theorem nodeLeaf (sym : Sym) : Statement (.nodeLeaf sym) := wellFormed_of_operand _ rfl (by exact mbz_clear_s sym)
theorem nodeJoin (na : NodeIx) (nb : NodeIx) : Statement (.nodeJoin na nb) := wellFormed_of_operand _ rfl (by exact mbz_clear_j na nb)
theorem treeBuild : Statement (.treeBuild) := rfl
theorem treeSetroot (na : NodeIx) : Statement (.treeSetroot na) := wellFormed_of_operand _ rfl (by exact mbz_clear_i na)
theorem codeGen : Statement (.codeGen) := rfl
theorem packInit : Statement (.packInit) := rfl
theorem packHeader : Statement (.packHeader) := rfl
theorem packSym (sym : Sym) : Statement (.packSym sym) := wellFormed_of_operand _ rfl (by exact mbz_clear_s sym)
theorem packData : Statement (.packData) := rfl
theorem packFlush : Statement (.packFlush) := rfl
theorem hdrParse : Statement (.hdrParse) := rfl
theorem unpack : Statement (.unpack) := rfl
theorem compress : Statement (.compress) := rfl
theorem decompress : Statement (.decompress) := rfl

end Sys2Proof.Laws.WellFormedCommand
end

