-- ==== Sys2Proof/Laws/Relabel.lean ====
section
/-! SUPPORT. No command body reads STATUS, ERRINFO or the operand registers (its operands are arguments): run from a state
that differs in them, it ends the same way, in a state that differs in them alone. So a command's completion, which writes
STATUS and ERRINFO, stands between the lines of COMPRESS without effect on them (47_codec.md R240). -/

namespace Sys2Proof.Machine

/-- The registers no command body reads. -/
structure Label where
  status  : Status
  errinfo : Word
  src     : Word
  len     : Word
  dst     : Word

/-- The state with those registers replaced. -/
def State.relabel (l : Label) (s : State) : State :=
  { s with status := l.status, errinfo := l.errinfo, src := l.src, len := l.len, dst := l.dst }

/-- Going on after a state change, where the rest commutes with it. -/
theorem Res.mapState_andThen {α β : Type} {f : State → State} {r : Res α} {k k' : α → State → Res β}
    (h : ∀ a s, k a (f s) = (k' a s).mapState f) : (r.mapState f).andThen k = (r.andThen k').mapState f := by
  cases r with
  | ok a s => exact h a s
  | raised e s => rfl

/-- A body that commutes with `State.relabel`. -/
abbrev Blind {α : Type} (body : State → Res α) : Prop := ∀ l s, body (s.relabel l) = (body s).mapState (State.relabel l)

theorem Blind.andThen {α β : Type} {f : State → Res α} {k : α → State → Res β} (hf : Blind f) (hk : ∀ a, Blind (k a)) :
    Blind fun s => (f s).andThen k := by
  intro l s
  show (f (s.relabel l)).andThen k = _
  rw [hf l s]
  exact Res.mapState_andThen fun a s => hk a l s

theorem Blind.ite {α : Type} {c : State → Prop} [∀ s, Decidable (c s)] {f g : State → Res α}
    (hc : ∀ l s, c (State.relabel l s) ↔ c s) (hf : Blind f) (hg : Blind g) : Blind fun s => if c s then f s else g s := by
  intro l s
  show (if c (s.relabel l) then f (s.relabel l) else g (s.relabel l)) = (if c s then f s else g s).mapState _
  by_cases h : c s
  · rw [if_pos h, if_pos ((hc l s).mpr h)]; exact hf l s
  · rw [if_neg h, if_neg (fun h' => h ((hc l s).mp h'))]; exact hg l s

theorem Blind.ok {α : Type} (a : State → α) (g : State → State) (ha : ∀ l s, a (State.relabel l s) = a s)
    (hg : ∀ l s, g (State.relabel l s) = (g s).relabel l) : Blind fun s => Res.ok (a s) (g s) := by
  intro l s
  show Res.ok _ _ = Res.ok _ _
  rw [ha, hg]

theorem Blind.raised {α : Type} (e : State → Error) (he : ∀ l s, e (State.relabel l s) = e s) :
    Blind fun s => (Res.raised (e s) s : Res α) := by
  intro l s
  show Res.raised _ _ = Res.raised _ _
  rw [he]

/-! The primitives -/

theorem checkRange_blind (a n : Nat) : Blind (checkRange a n) :=
  .ite (fun _ _ => Iff.rfl) (.raised _ fun _ _ => rfl) (.ok _ _ (fun _ _ => rfl) fun _ _ => rfl)

theorem memRead_blind (a : Nat) : Blind (memRead a) :=
  .ite (fun _ _ => Iff.rfl) (.raised _ fun _ _ => rfl) (.ok _ _ (fun _ _ => rfl) fun _ _ => rfl)

theorem memWrite_blind (a : Nat) (v : Byte) : Blind (memWrite a v) :=
  .ite (fun _ _ => Iff.rfl) (.raised _ fun _ _ => rfl) (.ok _ _ (fun _ _ => rfl) fun _ _ => rfl)

theorem bigEndian_relabel (l : Label) (s : State) (a : Nat) : ∀ n, (s.relabel l).bigEndian a n = s.bigEndian a n
  | 0 => rfl
  | n + 1 => by rw [State.bigEndian, State.bigEndian, bigEndian_relabel l s a n]; rfl

theorem putBigEndian_relabel (l : Label) (a n v : Nat) : ∀ j s, State.putBigEndian a n v j (State.relabel l s) =
    (State.putBigEndian a n v j s).relabel l
  | 0, _ => rfl
  | j + 1, s => by
    simp only [State.putBigEndian]
    exact putBigEndian_relabel l a n v j (s.setByte _ _)

theorem memReadBE_blind (a n : Nat) : Blind (memReadBE a n) :=
  .andThen (checkRange_blind a n) fun _ => .ok _ _ (fun l s => bigEndian_relabel l s a n) fun _ _ => rfl

theorem memWriteBE_blind (a n v : Nat) : Blind (memWriteBE a n v) :=
  .andThen (checkRange_blind a n) fun _ => .ok _ _ (fun _ _ => rfl) fun l s => putBigEndian_relabel l a n v n s

/-! FREQ_COUNT -/

theorem countLoop_blind (src : Nat) : ∀ n i, Blind (countLoop src n i)
  | 0, _ => .ok _ _ (fun _ _ => rfl) fun _ _ => rfl
  | n + 1, i => .andThen (memRead_blind _) fun b =>
      .ite (fun _ _ => Iff.rfl) (.raised _ fun _ _ => rfl)
        (.ite (fun _ _ => Iff.rfl) (.raised _ fun _ _ => rfl) fun l s => countLoop_blind src n (i + 1) l (s.countByte b (i + 1)))

theorem freqCount_blind (src len : Nat) : Blind (freqCount src len) :=
  .andThen (checkRange_blind _ _) fun _ l s => countLoop_blind src len 0 l { s with result := 0 }

/-! The heap and the tree builder -/

theorem heapInsert_blind (n : NodeIx) : Blind (heapInsert n) :=
  .ite (fun _ _ => Iff.rfl) (.raised _ fun _ _ => rfl) (.ok _ _ (fun _ _ => rfl) fun _ _ => rfl)

theorem heapExtract_blind : Blind heapExtract :=
  .ite (fun _ _ => Iff.rfl) (.raised _ fun _ _ => rfl) (.ok _ _ (fun _ _ => rfl) fun _ _ => rfl)

theorem newLeaf_blind (sym : Sym) : Blind (newLeaf sym) :=
  .ite (fun _ _ => Iff.rfl) (.raised _ fun _ _ => rfl) (.ok _ _ (fun _ _ => rfl) fun _ _ => rfl)

theorem newJoin_blind (a b : NodeIx) : Blind (newJoin a b) :=
  .ite (fun _ _ => Iff.rfl) (.raised _ fun _ _ => rfl)
    (.ite (fun _ _ => Iff.rfl) (.raised _ fun _ _ => rfl)
      (.ite (fun _ _ => Iff.rfl) (.raised _ fun _ _ => rfl)
        (.ite (fun _ _ => Iff.rfl) (.raised _ fun _ _ => rfl) (.ok _ _ (fun _ _ => rfl) fun _ _ => rfl))))

theorem leafLoop_blind : ∀ n leaves, Blind (leafLoop n leaves)
  | 0, _ => .ok _ _ (fun _ _ => rfl) fun _ _ => rfl
  | n + 1, leaves => .ite (fun _ _ => Iff.rfl)
      (.andThen (newLeaf_blind _) fun k => .andThen (heapInsert_blind k) fun _ => leafLoop_blind n (leaves + 1))
      (leafLoop_blind n leaves)

theorem mergeLoop_blind : ∀ n, Blind (mergeLoop n)
  | 0 => .ok _ _ (fun _ _ => rfl) fun _ _ => rfl
  | n + 1 => .ite (fun _ _ => Iff.rfl)
      (.andThen heapExtract_blind fun a => .andThen heapExtract_blind fun b => .andThen (newJoin_blind a b) fun k =>
        .andThen (heapInsert_blind k) fun _ => mergeLoop_blind n)
      (.ok _ _ (fun _ _ => rfl) fun _ _ => rfl)

theorem treeBuild_blind : Blind treeBuild := by
  intro l s
  refine Blind.andThen (f := fun s : State => leafLoop 256 0 s.clearTree)
    (k := fun leaves s => (mergeLoop s.pqSize s).andThen fun _ s => .ok () (s.takeRoot leaves))
    (fun l s => leafLoop_blind 256 0 l s.clearTree) (fun leaves => ?_) l s
  refine Blind.andThen (f := fun s : State => mergeLoop s.pqSize s) (fun l s => mergeLoop_blind s.pqSize l s) fun _ => ?_
  exact .ok _ _ (fun _ _ => rfl) fun _ _ => rfl

/-! CODE_GEN -/

theorem walkLoop_blind : ∀ n, Blind (walkLoop n)
  | 0 => .ok _ _ (fun _ _ => rfl) fun _ _ => rfl
  | n + 1 => by
    intro l s
    rw [walkLoop, walkLoop]
    show (match s.walk.stack with
      | [] => _
      | e :: rest => _) = _
    cases s.walk.stack with
    | nil => rfl
    | cons e rest =>
      simp only []
      show (if e.node ∈ s.walk.visited then _ else _) = _
      split
      · rfl
      · show (match s.node e.node with
          | .leaf sym _ => _
          | .internal _ a b => _) = Res.mapState (match s.node e.node with
          | .leaf sym _ => _
          | .internal _ a b => _) _
        cases s.node e.node with
        | leaf sym f =>
          simp only []
          show (if (s.codeAt sym).valid = true then _ else _) = Res.mapState (if (s.codeAt sym).valid = true then _ else _) _
          split
          · rfl
          · exact walkLoop_blind n l
              (({ s with walk := { visited := e.node :: s.walk.visited, stack := rest } } : State).assignCode sym e.depth e.path)
        | internal f a b =>
          simp only []
          split
          · rfl
          · exact walkLoop_blind n l { s with walk := { visited := e.node :: s.walk.visited, stack := _ } }

theorem codeGen_blind : Blind codeGen := by
  intro l s
  unfold codeGen
  simp only []
  show (if s.root = nilIx then _ else _) = Res.mapState (if s.root = nilIx then _ else _) _
  split
  · rfl
  · show (match s.node s.root with
      | .leaf sym _ => _
      | .internal _ _ _ => _) = Res.mapState (match s.node s.root with
      | .leaf sym _ => _
      | .internal _ _ _ => _) _
    cases s.node s.root with
    | leaf _ _ => rfl
    | internal _ _ _ =>
      show codeWalk (s.clearCodes.relabel l) = (codeWalk s.clearCodes).mapState _
      unfold codeWalk
      have := walkLoop_blind 513 l
        { s.clearCodes with walk := { visited := [], stack := [{ node := s.root, depth := 0, path := 0 }] } }
      have e : ({ s.clearCodes.relabel l with
          walk := { visited := [], stack := [{ node := (s.clearCodes.relabel l).root, depth := 0, path := 0 }] } } : State) =
          ({ s.clearCodes with walk := { visited := [], stack := [{ node := s.root, depth := 0, path := 0 }] } } : State).relabel l :=
        rfl
      rw [e, this]
      show ((walkLoop 513 ({ s.clearCodes with walk := { visited := [], stack := [{ node := s.root, depth := 0, path := 0 }] } } : State)).mapState _).mapState _ =
        ((walkLoop 513 ({ s.clearCodes with walk := { visited := [], stack := [{ node := s.root, depth := 0, path := 0 }] } } : State)).mapState _).mapState _
      generalize walkLoop 513 _ = r
      cases r <;> rfl

/-! The packer -/

theorem drainBytes_blind : ∀ f n acc, Blind (drainBytes f n acc)
  | 0, _, _ => .ok _ _ (fun _ _ => rfl) fun _ _ => rfl
  | f + 1, n, acc => by
    intro l s
    rw [drainBytes, drainBytes]
    split
    · show (memWrite s.pk.optr.toNat _ (s.relabel l)).andThen _ = _
      rw [memWrite_blind _ _ l s]
      exact Res.mapState_andThen fun _ s => drainBytes_blind f _ _ l (s.advancePacker 1)
    · rfl

theorem append_blind (c n : Nat) : Blind (append c n) := by
  intro l s
  unfold append
  simp only []
  show (checkRange s.pk.optr.toNat ((s.pk.bblen.toNat + n) / 8) (s.relabel l)).andThen _ = _
  rw [checkRange_blind _ _ l s]
  refine Res.mapState_andThen fun _ t => ?_
  show (drainBytes _ (t.pk.bblen.toNat + n) (t.pk.bbuf.toNat <<< n ||| c) (t.relabel l)).andThen _ = _
  rw [drainBytes_blind _ _ _ l t]
  exact Res.mapState_andThen fun _ _ => rfl

theorem packSymbol_blind (sym : Sym) : Blind (packSymbol sym) := by
  intro l s
  unfold packSymbol
  show (if (s.codeAt sym).valid = true then append (s.codeAt sym).code.toNat (s.codeAt sym).len.toNat (s.relabel l) else _) = _
  split
  · exact append_blind _ _ l s
  · rfl

theorem packLoop_blind (src : Nat) : ∀ n i, Blind (packLoop src n i)
  | 0, _ => .ok _ _ (fun _ _ => rfl) fun _ _ => rfl
  | n + 1, i => .andThen (memRead_blind _) fun b => .andThen (packSymbol_blind b) fun _ l s =>
      packLoop_blind src n (i + 1) l { s with result := BitVec.ofNat 32 (i + 1) }

theorem packData_blind (src len : Nat) : Blind (packData src len) :=
  .andThen (checkRange_blind _ _) fun _ l s => packLoop_blind src len 0 l { s with result := 0 }

theorem headerLoop_blind (a : Nat) : ∀ n, Blind (headerLoop a n)
  | 0 => .ok _ _ (fun _ _ => rfl) fun _ _ => rfl
  | n + 1 => by
    intro l s
    rw [headerLoop, headerLoop]
    show (memWriteBE _ _ (s.freqAt _).toNat (s.relabel l)).andThen _ = _
    rw [memWriteBE_blind _ _ _ l s]
    exact Res.mapState_andThen fun _ s => headerLoop_blind a n l s

theorem packHeader_blind : Blind packHeader := by
  intro l s
  unfold packHeader
  show (if s.pk.bblen ≠ 0 then _ else _) = _
  split
  · rfl
  · simp only []
    show (checkRange s.pk.optr.toNat Config.hdrBytes (s.relabel l)).andThen _ = _
    rw [checkRange_blind _ _ l s]
    refine Res.mapState_andThen fun _ t => ?_
    show (headerLoop s.pk.optr.toNat 256 (t.relabel l)).andThen _ = _
    rw [headerLoop_blind _ _ l t]
    refine Res.mapState_andThen fun _ u => ?_
    show (memWriteBE _ _ u.total.toNat (u.relabel l)).andThen _ = _
    rw [memWriteBE_blind _ _ _ l u]
    exact Res.mapState_andThen fun _ _ => rfl

theorem flushPending_blind : Blind flushPending := by
  intro l s
  unfold flushPending
  show (if s.pk.bblen = 0 then _ else _) = _
  split
  · rfl
  · show (checkRange s.pk.optr.toNat 1 (s.relabel l)).andThen _ = _
    rw [checkRange_blind _ _ l s]
    refine Res.mapState_andThen fun _ t => ?_
    show (memWrite t.pk.optr.toNat _ (t.relabel l)).andThen _ = _
    rw [memWrite_blind _ _ l t]
    exact Res.mapState_andThen fun _ _ => rfl

theorem packFlush_blind : Blind packFlush := .andThen flushPending_blind fun _ => .ok _ _ (fun _ _ => rfl) fun _ _ => rfl

/-! The header parser -/

theorem loadLoop_blind (src : Nat) : ∀ n, Blind (loadLoop src n)
  | 0 => .ok _ _ (fun _ _ => rfl) fun _ _ => rfl
  | n + 1 => .andThen (memReadBE_blind _ _) fun v l s =>
      loadLoop_blind src n l (s.setFreq (BitVec.ofNat 8 (256 - (n + 1))) (BitVec.ofNat 32 v))

theorem checkHeader_blind : Blind checkHeader :=
  .ite (fun _ _ => Iff.rfl) (.ok _ _ (fun _ _ => rfl) fun _ _ => rfl) (.raised _ fun _ _ => rfl)

theorem hdrParse_blind (src len : Nat) : Blind (hdrParse src len) :=
  .andThen (checkRange_blind _ _) fun _ => by
    intro l s
    split
    · rfl
    · show (loadLoop src 256 (s.relabel l)).andThen _ = Res.mapState ((loadLoop src 256 s).andThen _) _
      rw [loadLoop_blind src 256 l s]
      refine Res.mapState_andThen fun _ t => ?_
      rw [memReadBE_blind _ _ l t]
      refine Res.mapState_andThen fun v u => ?_
      show (checkHeader (({ u with total := BitVec.ofNat 64 v } : State).relabel l)).andThen _ = _
      rw [checkHeader_blind l _]
      exact Res.mapState_andThen fun _ _ => rfl

end Sys2Proof.Machine
end

