-- ==== Sys2Proof/Laws/TreeFunction.lean ====
section
/-! SUPPORT. TREE_BUILD reads FREQ and CTRL.TIEBRK and nothing else of the state it starts from (43_tree.md R180): run over
another state with the same counts and the same TIEBRK, it makes the same tree there. -/

namespace Sys2Proof.Machine

/-- The arena, the heap and the root of s, grafted onto b. -/
def State.graft (b s : State) : State := { b with nodes := s.nodes, heap := s.heap, root := s.root }

/-- What TREE_BUILD reads is the same in both. -/
def SameCounts (b s : State) : Prop := b.freq = s.freq ∧ b.ctrl.tiebrk = s.ctrl.tiebrk

theorem State.less_graft {b s : State} (h : SameCounts b s) : (b.graft s).less = s.less := by
  funext x y
  simp only [State.less, State.node, State.graft, h.2]
  rfl

theorem heapInsert_graft {b s : State} (h : SameCounts b s) (n : NodeIx) :
    heapInsert n (b.graft s) = (heapInsert n s).mapState b.graft := by
  unfold heapInsert
  rw [State.less_graft h]
  show (if s.pqSize = 512 then _ else _) = _
  split <;> rfl

theorem heapExtract_graft {b s : State} (h : SameCounts b s) : heapExtract (b.graft s) = (heapExtract s).mapState b.graft := by
  unfold heapExtract
  rw [State.less_graft h]
  show (if s.pqSize = 0 then _ else _) = _
  split <;> rfl

theorem newLeaf_graft {b s : State} (h : SameCounts b s) (sym : Sym) :
    newLeaf sym (b.graft s) = (newLeaf sym s).mapState b.graft := by
  have hf : (b.graft s).freqAt sym = s.freqAt sym := by simp only [State.freqAt, State.graft, h.1]
  unfold newLeaf
  rw [hf]
  show (if s.nodeCount = 511 then _ else _) = _
  split <;> rfl

theorem newJoin_graft (b s : State) (x y : NodeIx) : newJoin x y (b.graft s) = (newJoin x y s).mapState b.graft := by
  unfold newJoin
  show (if s.nodeCount ≤ x.toNat then _ else if s.nodeCount ≤ y.toNat then _ else if s.nodeCount = 511 then _ else
    if 2 ^ 64 ≤ (s.node x).freq.toNat + (s.node y).freq.toNat then _ else _) = _
  split; · rfl
  split; · rfl
  split; · rfl
  dsimp only
  split <;> rfl

/-- Going on after a piece that commutes with the graft. -/
theorem graft_andThen {α β : Type} {b : State} {r : Res α} {k : α → State → Res β}
    (hs : SameCounts b r.state) (h : ∀ a t, SameCounts b t → k a (b.graft t) = (k a t).mapState b.graft) :
    (r.mapState b.graft).andThen k = (r.andThen k).mapState b.graft := by
  cases r with
  | ok a s => exact h a s hs
  | raised e s => rfl

theorem leafLoop_graft {b : State} : ∀ (n leaves : Nat) (s : State), SameCounts b s →
    leafLoop n leaves (b.graft s) = (leafLoop n leaves s).mapState b.graft
  | 0, _, _, _ => rfl
  | n + 1, leaves, s, h => by
    have hf : ∀ x, (b.graft s).freqAt x = s.freqAt x := fun x => by simp only [State.freqAt, State.graft, h.1]
    rw [leafLoop, leafLoop]
    rw [hf, newLeaf_graft h]
    split
    · have hk (sym : Sym) (t : State) (ht : SameCounts b t) : SameCounts b (newLeaf sym t).state :=
        ⟨ht.1.trans (newLeaf_keeps (p := State.freq) (fun _ _ => rfl) sym t).symm,
          ht.2.trans (congrArg Ctrl.tiebrk (newLeaf_keeps (p := State.ctrl) (fun _ _ => rfl) sym t).symm)⟩
      have hi (k : NodeIx) (t : State) (ht : SameCounts b t) : SameCounts b (heapInsert k t).state :=
        ⟨ht.1.trans (heapInsert_keeps (p := State.freq) (fun _ _ => rfl) k t).symm,
          ht.2.trans (congrArg Ctrl.tiebrk (heapInsert_keeps (p := State.ctrl) (fun _ _ => rfl) k t).symm)⟩
      refine graft_andThen (hk _ s h) fun k t ht => ?_
      rw [heapInsert_graft ht]
      exact graft_andThen (hi k t ht) fun _ u hu => leafLoop_graft n _ u hu
    · exact leafLoop_graft n leaves s h

theorem mergeLoop_graft {b : State} : ∀ (n : Nat) (s : State), SameCounts b s →
    mergeLoop n (b.graft s) = (mergeLoop n s).mapState b.graft
  | 0, _, _ => rfl
  | n + 1, s, h => by
    have hi (k : NodeIx) (t : State) (ht : SameCounts b t) : SameCounts b (heapInsert k t).state :=
      ⟨ht.1.trans (heapInsert_keeps (p := State.freq) (fun _ _ => rfl) k t).symm,
        ht.2.trans (congrArg Ctrl.tiebrk (heapInsert_keeps (p := State.ctrl) (fun _ _ => rfl) k t).symm)⟩
    have he (t : State) (ht : SameCounts b t) : SameCounts b (heapExtract t).state :=
      ⟨ht.1.trans (heapExtract_keeps (p := State.freq) (fun _ _ => rfl) t).symm,
        ht.2.trans (congrArg Ctrl.tiebrk (heapExtract_keeps (p := State.ctrl) (fun _ _ => rfl) t).symm)⟩
    have hj (x y : NodeIx) (t : State) (ht : SameCounts b t) : SameCounts b (newJoin x y t).state :=
      ⟨ht.1.trans (newJoin_keeps (p := State.freq) (fun _ _ => rfl) x y t).symm,
        ht.2.trans (congrArg Ctrl.tiebrk (newJoin_keeps (p := State.ctrl) (fun _ _ => rfl) x y t).symm)⟩
    rw [mergeLoop, mergeLoop]
    show (if 1 < s.pqSize then _ else _) = _
    split
    · rw [heapExtract_graft h]
      refine graft_andThen (he s h) fun x t ht => ?_
      rw [heapExtract_graft ht]
      refine graft_andThen (he t ht) fun y u hu => ?_
      rw [newJoin_graft]
      refine graft_andThen (hj x y u hu) fun k v hv => ?_
      rw [heapInsert_graft hv]
      exact graft_andThen (hi k v hv) fun _ w hw => mergeLoop_graft n w hw
    · rfl

/-- TREE_BUILD over b, from TREE_BUILD over a state with the same counts and TIEBRK. -/
theorem treeBuild_graft {b s u : State} (h : SameCounts b s) (hu : treeBuild s = .ok () u) :
    treeBuild b = .ok () { b with nodes := u.nodes, heap := [], root := u.root, result := u.result } := by
  obtain ⟨v, hv, hr, -⟩ := treeBuild_spec s
  rw [hu] at hv
  simp only [Res.ok.injEq, true_and] at hv
  subst hv
  obtain ⟨w, hw, hw2, -⟩ := treeBuild_spec b
  -- the loops over b are the grafted loops over s
  have h1 : leafLoop 256 0 b.clearTree = (leafLoop 256 0 s.clearTree).mapState b.graft :=
    leafLoop_graft 256 0 s.clearTree h
  have h2 : treeBuild b = ((leafLoop 256 0 s.clearTree).mapState b.graft).andThen fun leaves t =>
      (mergeLoop t.pqSize t).andThen fun _ t => .ok () (t.takeRoot leaves) := by
    rw [← h1]; rfl
  have h3 : treeBuild s = (leafLoop 256 0 s.clearTree).andThen fun leaves t =>
      (mergeLoop t.pqSize t).andThen fun _ t => .ok () (t.takeRoot leaves) := rfl
  have hs : SameCounts b (leafLoop 256 0 s.clearTree).state :=
    ⟨h.1.trans (leafLoop_keeps (p := State.freq) (fun _ _ => rfl) (fun _ _ => rfl) 256 0 s.clearTree).symm,
      h.2.trans (congrArg Ctrl.tiebrk
        (leafLoop_keeps (p := State.ctrl) (fun _ _ => rfl) (fun _ _ => rfl) 256 0 s.clearTree).symm)⟩
  rw [hw] at h2
  rw [hu] at h3
  cases hl : leafLoop 256 0 s.clearTree with
  | raised e t => rw [hl] at h3; simp at h3
  | ok leaves t =>
    rw [hl] at h2 h3 hs
    simp only [Res.ok_andThen, Res.mapState] at h2 h3
    have h4 : mergeLoop (b.graft t).pqSize (b.graft t) = (mergeLoop t.pqSize t).mapState b.graft := mergeLoop_graft _ t hs
    rw [h4] at h2
    cases hm : mergeLoop t.pqSize t with
    | raised e x => rw [hm] at h3; simp at h3
    | ok a x =>
      rw [hm] at h2 h3
      simp only [Res.ok_andThen, Res.mapState, Res.ok.injEq, true_and] at h2 h3
      have e1 : w.nodes = u.nodes := by rw [h2, h3]; rfl
      have e2 : w.root = u.root := by rw [h2, h3]; rfl
      have e3 : w.result = u.result := by rw [h2, h3]; rfl
      rw [hw, hw2, e1, e2, ← e3, hw2]

end Sys2Proof.Machine
end

