-- ==== Sys2Proof/Machine/Assembler.lean ====
section
/-! DEFINITION. The host assembly statements and pseudo-instructions (30_encoding.md R111, R112) as the transactions they
stand for. -/

namespace Sys2Proof.Machine

/-- The host registers by name (10_state.md section 2). -/
inductive Reg where
  | id | version | ctrl | status | cmd | src | len | dst | result | errinfo | root | nodeCount | pqSize | totalLo
  | totalHi | pkOptr | pkOcnt | pkBits | upIptr | upState | upEmitLo | upEmitHi
deriving DecidableEq, Repr

/-- A register's offset (10_state.md section 2). -/
def Reg.offset : Reg → Addr
  | .id => 0x000#24
  | .version => 0x004#24
  | .ctrl => 0x008#24
  | .status => 0x00C#24
  | .cmd => 0x010#24
  | .src => 0x014#24
  | .len => 0x018#24
  | .dst => 0x01C#24
  | .result => 0x020#24
  | .errinfo => 0x024#24
  | .root => 0x028#24
  | .nodeCount => 0x02C#24
  | .pqSize => 0x030#24
  | .totalLo => 0x034#24
  | .totalHi => 0x038#24
  | .pkOptr => 0x03C#24
  | .pkOcnt => 0x040#24
  | .pkBits => 0x044#24
  | .upIptr => 0x048#24
  | .upState => 0x04C#24
  | .upEmitLo => 0x050#24
  | .upEmitHi => 0x054#24

/-- `DMEM+off` (R111). -/
def dmemAddr (off : Nat) : Addr := BitVec.ofNat 24 (0x800000 + off)

/-- The statements of R111: a command mnemonic, or a bus statement. -/
inductive Stmt where
  | command (i : Instr)
  | wr32 (addr : Addr) (value : Word)
  | rd32 (addr : Addr)
  | wr8 (addr : Addr) (value : Byte)
  | rd8 (addr : Addr)
deriving DecidableEq, Repr

/-- The one transaction of a statement; a command mnemonic writes its word to CMD and nothing else (R111). -/
def Stmt.txn : Stmt → Txn
  | .command i => .wr .w Reg.cmd.offset (encode i)
  | .wr32 a v => .wr .w a v
  | .rd32 a => .rd .w a
  | .wr8 a v => .wr .b a (v.zeroExtend 32)
  | .rd8 a => .rd .b a

/-- The pseudo-instructions of R112 without a branch. -/
inductive Pseudo where
  | set (reg : Reg) (v : Word)
  | setm (s l d : Word)
  | loadb (off : Nat) (bytes : List Byte)
  | setf (s : Sym) (v : Word)
  | ack
deriving DecidableEq, Repr

/-- Their expansions (R112). -/
def Pseudo.expand : Pseudo → List Stmt
  | .set reg v => [.wr32 reg.offset v]
  | .setm s l d => [.wr32 Reg.src.offset s, .wr32 Reg.len.offset l, .wr32 Reg.dst.offset d]
  | .loadb off bytes => bytes.zipIdx.map fun (b, k) => .wr8 (dmemAddr (off + k)) b
  | .setf s v => [.wr32 (BitVec.ofNat 24 (0x000400 + 4 * s.toNat)) v]
  | .ack => [.wr32 Reg.status.offset 0x1E#32]

/-- Statements as events, with no core step between them. -/
def Stmt.events (l : List Stmt) : List Event := l.map fun st => .host st.txn

/-- `WAIT` (R112): a run of it polls STATUS while busy some number of times, the core takes its step, and the last poll
reads BUSY = 0 (log 19). -/
def waitEvents (busyPolls : Nat) : List Event :=
  List.replicate busyPolls (.host (Stmt.rd32 Reg.status.offset).txn) ++ [.core, .host (Stmt.rd32 Reg.status.offset).txn]

/-- `EXEC m` (R112). -/
def execEvents (i : Instr) (busyPolls : Nat) : List Event := Stmt.events [.command i] ++ waitEvents busyPolls

/-- `COMPRESS s, l, d` and `DECOMPRESS s, l, d` (R112), for i the command. -/
def codecEvents (i : Instr) (s l d : Word) (busyPolls : Nat) : List Event :=
  Stmt.events (Pseudo.setm s l d).expand ++ execEvents i busyPolls

end Sys2Proof.Machine
end

