-- ==== Sys2Proof/Tests/Slice0.lean ====
section
/-! SUPPORT. Tests: the well-formedness smoke, the words of the spec's encoding vectors, single commands from the spec's own
test vectors (95_test_vectors.md; each test names its vector), and for each statement of Obligations.lean states that meet
its hypotheses (`witness_…`). Every expected value is the spec's. -/

namespace Sys2Proof.Tests

open Sys2Proof Sys2Proof.Machine

-- one theorem checked after the other: many evaluations at once would take more threads, and so memory, than there is
set_option Elab.async false

/-! Well-formedness: for each check of 30_encoding.md R108 a term it refuses -/

theorem test_wellformed_unlisted_opcode :
    [0x02#8, 0x0F#8, 0x12#8, 0x24#8, 0x33#8, 0x42#8, 0x51#8, 0x65#8, 0x72#8, 0x82#8, 0xFF#8].all
      (fun opc => !(RawCommand.WellFormed { opc := opc, operand := 0 })) = true := by decide

theorem test_wellformed_format_n : RawCommand.WellFormed { opc := 0x00#8, operand := 0x800000#24 } = false := by decide
theorem test_wellformed_format_m : RawCommand.WellFormed { opc := 0x80#8, operand := 0x000001#24 } = false := by decide
theorem test_wellformed_format_s : RawCommand.WellFormed { opc := 0x31#8, operand := 0x000100#24 } = false := by decide
theorem test_wellformed_format_i : RawCommand.WellFormed { opc := 0x21#8, operand := 0x000200#24 } = false := by decide
theorem test_wellformed_format_j : RawCommand.WellFormed { opc := 0x32#8, operand := 0x040000#24 } = false := by decide

theorem test_wellformed_accepts :
    [(0x00#8, 0x000000#24), (0x80#8, 0x000000#24), (0x31#8, 0x0000FF#24), (0x21#8, 0x0001FF#24), (0x32#8, 0x03FFFF#24)].all
      (fun c => RawCommand.WellFormed { opc := c.1, operand := c.2 }) = true := by decide

/-! Decoding: the words of 95_test_vectors.md section 2, with bits in the positions 30_encoding.md R100 to R107 give -/

theorem test_decode_control : decode 0x00000000#32 = .ok .nop ∧ decode 0x01000000#32 = .ok .clear := by decide
theorem test_decode_frequency :
    decode 0x10000000#32 = .ok .freqClear ∧ decode 0x11000000#32 = .ok .freqCount := by decide
theorem test_decode_heap :
    decode 0x20000000#32 = .ok .pqClear ∧ decode 0x21000003#32 = .ok (.pqInsert 3#9) ∧
      decode 0x210001FF#32 = .ok (.pqInsert 0x1FF#9) ∧ decode 0x22000000#32 = .ok .pqExtract ∧
      decode 0x23000000#32 = .ok .pqSize := by decide
theorem test_decode_node :
    decode 0x30000000#32 = .ok .nodeClear ∧ decode 0x31000041#32 = .ok (.nodeLeaf 0x41#8) ∧
      decode 0x310000FF#32 = .ok (.nodeLeaf 0xFF#8) ∧ decode 0x32000202#32 = .ok (.nodeJoin 2#9 1#9) ∧
      decode 0x32000600#32 = .ok (.nodeJoin 0#9 3#9) ∧ decode 0x3203FFFF#32 = .ok (.nodeJoin 0x1FF#9 0x1FF#9) := by decide
theorem test_decode_tree :
    decode 0x40000000#32 = .ok .treeBuild ∧ decode 0x41000004#32 = .ok (.treeSetroot 4#9) ∧
      decode 0x50000000#32 = .ok .codeGen := by decide
theorem test_decode_packer :
    decode 0x60000000#32 = .ok .packInit ∧ decode 0x61000000#32 = .ok .packHeader ∧
      decode 0x62000043#32 = .ok (.packSym 0x43#8) ∧ decode 0x63000000#32 = .ok .packData ∧
      decode 0x64000000#32 = .ok .packFlush := by decide
theorem test_decode_unpacker : decode 0x70000000#32 = .ok .hdrParse ∧ decode 0x71000000#32 = .ok .unpack := by decide
theorem test_decode_codec : decode 0x80000000#32 = .ok .compress ∧ decode 0x81000000#32 = .ok .decompress := by decide

/-- The NODE_JOIN word bit by bit: OPC 00110010 in 31:24, zeros in 23:18, NB = 000000001 in 17:9, NA = 000000010 in 8:0. -/
theorem test_decode_join_bits :
    decode (0b00110010#8 ++ 0b000000#6 ++ 0b000000001#9 ++ 0b000000010#9) = .ok (.nodeJoin 2#9 1#9) := by decide

theorem test_decode_illegal :
    [0x02000000#32, 0xFF000000#32, 0x12000000#32, 0x00000001#32, 0x01800000#32, 0x80000001#32, 0x21000200#32, 0x41800000#32,
      0x31000100#32, 0x62010041#32, 0x32040000#32].all (fun w => (decoded w).isNone) = true := by decide

theorem test_encode_join : encode (.nodeJoin 2#9 1#9) = 0x32000202#32 := by decide

/-! The states the tests run on -/

/-- Nothing scheduled, nothing answered. -/
def quiet : Env := { events := [], response := none, rst := false, draws := 0, epoch := 0 }

/-- The reference configuration after INIT (10_state.md R50), with 0 in the two fields the spec leaves UNSPEC there. -/
def start : State := { (State.atReset 8 0 quiet).initialise with cmdword := 0, walk := { visited := [], stack := [] } }

/-- The smallest configuration, DMEM_SIZE = 4096. -/
def small : State := { start with dmemLog := 0 }

/-- The state a command leaves. -/
def run (i : Instr) (s : State) : State :=
  match exec i s with
  | .next t => t
  | .fault _ => s
  | .refused _ => s

theorem exec_run (i : Instr) (s : State) : exec i s = .next (run i s) := by cases i <;> rfl

/-- Commands one after the other. -/
def runs (l : List Instr) (s : State) : State := l.foldl (fun s i => run i s) s

/-- Bytes at an offset. -/
def load (a : Nat) : List Byte → State → State
  | [], s => s
  | b :: l, s => load (a + 1) l (s.setByte a b)

/-- A count. -/
def setf (sym : Sym) (v : Word) (s : State) : State := s.setFreq sym v

/-- The operand registers. -/
def setm (src len dst : Word) (s : State) : State := { s with src := src, len := len, dst := dst }

/-- A code. -/
def setc (sym : Sym) (len : BitVec 7) (code : DWord) (s : State) : State :=
  s.setCode sym { valid := true, len := len, code := code }

/-- STATUS as the host reads it while idle, ERRINFO and RESULT. -/
def outcome (s : State) : Word × Word × Word := (s.statusWord .idle, s.errinfo, s.result)

/-- The core running the command in w. -/
def busyWith (w : Word) (s : State) : State :=
  { s with cmdword := w, status := { s.status with busy := true, phase := .exec } }

/-- The state a step leaves. -/
def stepped (s : State) : State :=
  match step s with
  | .next t => t
  | .fault _ => s
  | .refused _ => s

/-- What a transaction answers, and the state it leaves. -/
def host (t : Txn) (s : State) : State := stepped (s.withEvents [.host t])

/-! Control -/

/-- X1.1 -/
theorem test_nop_done : outcome (run .nop start) = (0x00000002#32, 0, 0) := by decide +kernel

/-- 95_test_vectors.md section 2: 0x00000001 is illegal, ILLEGAL_CMD(word). -/
theorem test_nop_illegal : outcome (stepped (busyWith 0x00000001#32 start)) = (0x00010006#32, 0x00000001#32, 0) := by
  decide +kernel

/-- X1.3 then X1.4: ERR is sticky. -/
theorem test_nop_err_sticky :
    outcome (run .nop (stepped (busyWith 0x02000000#32 start))) = (0x00000006#32, 0, 0) := by decide +kernel

/-- X1.6: CLEAR after work. -/
theorem test_clear :
    let s := run .clear (runs [.nodeLeaf 0x41#8, .pqInsert 0#9] (setf 0x41#8 3 (setc 0x41#8 1 0 (load 0x100 [0x1F#8] start))))
    (s.root, s.nodes, s.heap, s.freqAt 0x41#8, s.codeAt 0x41#8, s.byte 0x100, s.result) =
      (0x1FF#9, [], [], 0, .invalid, 0x1F#8, 0) := by decide +kernel

/-! Frequencies -/

/-- "AAABBC" at 0. -/
def aaabbc : State := setm 0 6 0x100 (load 0 [0x41#8, 0x41#8, 0x41#8, 0x42#8, 0x42#8, 0x43#8] start)

/-- The counts of "AAABBC" (section 1.1). -/
def counted : State := { setf 0x41#8 3 (setf 0x42#8 2 (setf 0x43#8 1 start)) with total := 6 }

/-- X2.1 -/
theorem test_freq_count :
    let s := run .freqCount aaabbc
    (s.freqAt 0x41#8, s.freqAt 0x42#8, s.freqAt 0x43#8, s.freqAt 0x44#8, s.total, s.result) = (3, 2, 1, 0, 6, 6) := by
  decide +kernel

/-- X2.8: the full count stops it at byte 1. -/
theorem test_freq_count_overflow :
    let s := run .freqCount
      (setm 0 3 0 (load 0 [0x42#8, 0x41#8, 0x42#8] { setf 0x41#8 0xFFFFFFFF#32 start with total := 0xFFFFFFFF#64 }))
    (outcome s, s.freqAt 0x41#8, s.freqAt 0x42#8, s.total) =
      ((0x00060006#32, 1, 1), 0xFFFFFFFF#32, 1, 0x100000000#64) := by decide +kernel

/-- X2.3 -/
theorem test_freq_clear :
    let s := run .freqClear { counted with result := 6 }
    (s.freqAt 0x41#8, s.total, s.result) = (0, 0, 6) := by decide +kernel

/-! The heap -/

/-- Nodes 0 to 3 with frequencies 5, 1, 3, 1 (section 3.3). -/
def fourLeaves : State :=
  runs [.nodeLeaf 1#8, .nodeLeaf 2#8, .nodeLeaf 3#8, .nodeLeaf 4#8] (setf 1#8 5 (setf 2#8 1 (setf 3#8 3 (setf 4#8 1 start))))

/-- X3.1, the last insert. -/
theorem test_pq_insert : (run (.pqInsert 3#9) { fourLeaves with heap := [1#9, 0#9, 2#9] }).heap = [1#9, 3#9, 2#9, 0#9] := by
  decide +kernel

/-- X3.6: BAD_NODE comes before QUEUE_FULL. -/
theorem test_pq_insert_bad_node :
    outcome (run (.pqInsert 0x1FF#9) { run (.nodeLeaf 0#8) start with heap := List.replicate 512 0#9, result := 0 }) =
      (0x00050006#32, 0x1FF#32, 0) := by decide +kernel

/-- X3.2, the first extract. -/
theorem test_pq_extract :
    let s := run .pqExtract { fourLeaves with heap := [1#9, 3#9, 2#9, 0#9] }
    (s.result, s.heap) = (1, [3#9, 0#9, 2#9]) := by decide +kernel

/-- X3.7, the first extract under TIEBRK = 0: equal children, the left one is compared and does not move. -/
theorem test_pq_extract_tie :
    let s := run .pqExtract { start with nodes := List.replicate 5 (.leaf 0#8 1), heap := [4#9, 3#9, 2#9, 1#9, 0#9] }
    (s.result, s.heap) = (4, [0#9, 3#9, 2#9, 1#9]) := by decide +kernel

/-- X3.5 -/
theorem test_pq_size : (run .pqSize { start with heap := List.replicate 512 0#9 }).result = 512 := by decide +kernel

theorem test_pq_clear : (run .pqClear { fourLeaves with heap := [1#9] }).heap = [] := by decide +kernel

/-! Nodes and trees -/

/-- X4.1 -/
theorem test_node_leaf :
    let s := run (.nodeLeaf 0x41#8) counted
    (s.result, s.node 0#9, (s.node 0#9).left, (s.node 0#9).right) = (0, .leaf 0x41#8 3, 0x1FF#9, 0x1FF#9) := by
  decide +kernel

/-- X4.3 -/
theorem test_node_leaf_full :
    outcome (run (.nodeLeaf 0#8) { start with nodes := List.replicate 511 (.leaf 0#8 0), result := 510 }) =
      (0x00040006#32, 511, 510) := by decide +kernel

/-- The overflow of X4.6. -/
theorem test_node_join_overflow :
    outcome (run (.nodeJoin 32#9 32#9) { start with nodes := List.replicate 33 (.leaf 0#8 0xFFFFFFFF00000000#64), result := 32 }) =
      (0x00060006#32, 0x4020#32, 32) := by decide +kernel

/-- 43_tree.md R177's first join over X4.7's leaves: the children in their order, the weight their sum. -/
theorem test_node_join :
    let s := run (.nodeJoin 2#9 1#9) { start with nodes := [.leaf 0x41#8 3, .leaf 0x42#8 2, .leaf 0x43#8 1] }
    (s.result, s.node 3#9) = (3, .internal 3 2#9 1#9) := by decide +kernel

theorem test_node_clear :
    let s := run .nodeClear { fourLeaves with heap := [1#9], root := 2#9 }
    (s.nodes, s.heap, s.root) = ([], [], 0x1FF#9) := by decide +kernel

/-- X4.2 -/
theorem test_tree_setroot :
    (run (.treeSetroot 2#9) { start with nodes := [.leaf 0x41#8 0, .leaf 0x42#8 0, .internal 0 0#9 1#9] }).root = 2#9 := by
  decide +kernel

/-- X4.7 -/
theorem test_tree_build :
    let s := run .treeBuild counted
    (s.root, s.nodes, s.result, s.heap) =
      (4#9, [.leaf 0x41#8 3, .leaf 0x42#8 2, .leaf 0x43#8 1, .internal 3 2#9 1#9, .internal 6 0#9 3#9], 3, []) := by
  decide +kernel

/-- X4.11, where TIEBRK = 1 decides. -/
theorem test_tree_build_tie :
    let s := run .treeBuild
      (setf 0x41#8 1 (setf 0x42#8 1 (setf 0x43#8 1 (setf 0x44#8 1 { start with ctrl := { start.ctrl with tiebrk := true } }))))
    s.nodes.drop 4 = [.internal 2 0#9 1#9, .internal 2 2#9 3#9, .internal 4 4#9 5#9] := by decide +kernel

/-! Codes -/

/-- The tree of section 1.1. -/
def tree : State :=
  { counted with
    nodes := [.leaf 0x41#8 3, .leaf 0x42#8 2, .leaf 0x43#8 1, .internal 3 2#9 1#9, .internal 6 0#9 3#9], root := 4#9 }

/-- X5.1 -/
theorem test_code_gen :
    let s := run .codeGen tree
    (s.result, s.codeAt 0x41#8, s.codeAt 0x42#8, s.codeAt 0x43#8, s.codeAt 0x44#8) =
      (3, ⟨true, 1, 0⟩, ⟨true, 2, 3⟩, ⟨true, 2, 2⟩, .invalid) := by decide +kernel

/-- X5.4: a node shared by two edges. -/
def shared : State := { start with nodes := [.leaf 0x41#8 0, .internal 0 0#9 0#9], root := 1#9 }

theorem test_code_gen_shared :
    let s := run .codeGen shared
    (outcome s, s.codeAt 0x41#8) = ((0x00080006#32, 0, 1), ⟨true, 1, 0⟩) := by decide +kernel

/-! The packer -/

/-- The codes of section 1.1, with a stream started at 0x100 (X7.1). -/
def packing : State := run .packInit (setm 0 4 0x100 (setc 0x41#8 1 0 (setc 0x42#8 2 3 (setc 0x43#8 2 2 start))))

/-- X7.1 -/
theorem test_pack_init : packing.pk = { optr := 0x100, ocnt := 0, bblen := 0, bbuf := 0 } := by decide +kernel

/-- X7.7 -/
theorem test_pack_header_sequence :
    let s := run .packHeader (run (.packSym 0x42#8) packing)
    (outcome s, s.pk.optr) = ((0x000C0006#32, 2, 0), 0x100#32) := by decide +kernel

/-- X7.11: a header that ends at DMEM_SIZE. -/
theorem test_pack_header : (run .packHeader { packing with pk := ⟨0xFFBF8#32, 0, 0, 0⟩ }).pk = ⟨0x100000#32, 1032, 0, 0⟩ := by
  decide +kernel

/-- X7.3 -/
theorem test_pack_sym :
    let s := run (.packSym 0x43#8) { packing with pk := ⟨0x100, 0, 7, 0b0001111⟩ }
    (s.byte 0x100, s.pk.optr, s.pk.ocnt, s.pk.bitsWord) = (0x1F#8, 0x101, 1, 0x00000001#32) := by decide +kernel

/-- X7.14: a 64-bit code behind seven pending bits, the register's full 71 bits. -/
theorem test_pack_sym_71_bits :
    let s := run (.packSym 0#8) (setc 0#8 64 0xFFFFFFFFFFFFFFFF#64 { packing with pk := ⟨0x100, 0, 7, 0⟩ })
    (s.bytesAt 0x100 8, s.pk.optr, s.pk.ocnt, s.pk.bitsWord) =
      ([0x01#8, 0xFF#8, 0xFF#8, 0xFF#8, 0xFF#8, 0xFF#8, 0xFF#8, 0xFF#8], 0x108, 8, 0x0000FE07#32) := by decide +kernel

/-- X7.8: the first symbol without a code stops it. -/
theorem test_pack_data_no_code :
    let s := run .packData (load 0 [0x41#8, 0x42#8, 0x44#8, 0x41#8] packing)
    (outcome s, s.pk) = ((0x00090006#32, 0x44, 2), ⟨0x100, 0, 3, 0b011⟩) := by decide +kernel

/-- X7.16 -/
theorem test_pack_data :
    let s := run .packData { load 0 [0x41#8, 0x41#8, 0x41#8, 0x42#8, 0x42#8, 0x43#8] packing with
      pk := ⟨0xFFFFF#32, 0, 0, 0⟩, len := 6 }
    (s.result, s.byte 0xFFFFF, s.pk) = (6, 0x1F#8, ⟨0x100000#32, 1, 1, 0⟩) := by decide +kernel

/-- X7.15 -/
theorem test_pack_flush :
    let s := run .packFlush { packing with pk := ⟨0x108, 8, 7, 0b1111111⟩ }
    (s.byte 0x108, s.result, s.pk) = (0xFE#8, 9, ⟨0x109, 9, 0, 0⟩) := by decide +kernel

/-! The unpacker -/

/-- X8.7 -/
theorem test_hdr_parse_short :
    outcome (run .hdrParse (setm 0x100 1031 0 { counted with result := 7 })) = (0x000A0006#32, 0, 7) := by decide +kernel

/-- The tree and the packed bytes of section 1.1, at 0x508. -/
def packed : State := load 0x508 [0x1F#8, 0x00#8] tree

/-- X8.1 -/
theorem test_unpack :
    let s := run .unpack (setm 0x508 2 0x2000 packed)
    (s.result, s.bytesAt 0x2000 6, s.up) =
      (6, [0x41#8, 0x41#8, 0x41#8, 0x42#8, 0x42#8, 0x43#8], ⟨0x509, 1, 4#9, 6⟩) := by decide +kernel

/-- X8.5: the byte that does not fit leaves the cursor on its leaf. -/
theorem test_unpack_bounds :
    let s := run .unpack (setm 0x508 2 0xFFFFC#32 packed)
    (outcome s, s.bytesAt 0xFFFFC 4, s.up) =
      ((0x00070006#32, 0x100000#32, 4), [0x41#8, 0x41#8, 0x41#8, 0x42#8], ⟨0x508, 7, 1#9, 4⟩) := by decide +kernel

/-! The codec -/

/-- X9.9: out of range, only RESULT changes. -/
theorem test_compress_bounds :
    let s := run .compress { setm 0xFFFFE#32 6 0x100 tree with result := 1034 }
    (outcome s, s.freqAt 0x41#8, s.root) = ((0x00070006#32, 0x100000#32, 0), 3, 4#9) := by decide +kernel

/-- Section 1.1: the length of the file. -/
theorem test_compress : outcome (run .compress aaabbc) = (0x00000002#32, 0, 1034) := by decide +kernel

/-- X9.4 -/
theorem test_decompress_short :
    outcome (run .decompress { setm 0x100 1031 0x3000 tree with result := 1034 }) = (0x000A0006#32, 0, 0) := by decide +kernel

/-! The bus -/

/-- X10.1, X10.3 to X10.7: a value, and five bus errors. -/
theorem test_bus_reads :
    [Txn.rd .w 0x000000#24, .rd .b 0x000000#24, .rd .w 0x000002#24, .rd .w 0x000058#24, .rd .w 0x000800#24,
      .rd .w 0x900000#24].map (fun t => (host t start).env.response) =
      [some (.data 0x48554646#32), some .berr, some .berr, some .berr, some .berr, some .berr] := by decide +kernel

/-- X10.8: the reserved bits of CTRL. -/
theorem test_bus_ctrl :
    (host (.rd .w 0x000008#24) (host (.wr .w 0x000008#24 0xFFFFFFFF#32) start)).env.response = some (.data 7) := by
  decide +kernel

/-- X10.14, X10.15: writes while busy. -/
theorem test_bus_busy_writes :
    let s := busyWith 0x50000000#32 start
    (host (.wr .w 0x000010#24 0) s).status = { s.status with cmdOvr := true } ∧
      (host (.wr .w 0x000014#24 7) s).status = { s.status with wign := true } ∧ (host (.wr .w 0x000014#24 7) s).src = 0 := by
  decide +kernel

/-- X10.10: the bus is little-endian; R83: byte lanes. -/
theorem test_bus_dmem :
    (host (.rd .w 0x800204#24) (load 0x204 [0#8, 0#8, 0#8, 3#8] start)).env.response = some (.data 0x03000000#32) ∧
      (host (.rd .b 0x800508#24) packed).env.response = some (.data 0x0000001F#32) := by decide +kernel

/-- X4.1 and X5.1: the windows. -/
theorem test_bus_windows :
    [0x002000#24, 0x002004#24, 0x002008#24, 0x00200C#24, 0x003FF0#24].map
        (fun a => (host (.rd .w a) tree).env.response) =
      [some (.data 0x00004100#32), some (.data 0x01FF01FF#32), some (.data 3), some (.data 0), some (.data 0)] ∧
    [0x001420#24, 0x001428#24].map (fun a => (host (.rd .w a) packing).env.response) =
      [some (.data 0x80000002#32), some (.data 3)] := by decide +kernel

/-- The bits of a location that is no register. -/
def bitsOfWindow (s : State) (size : Size) (addr : Addr) : Option Word :=
  match s.region addr.toNat with
  | .reg _ => none
  | r => some (r.openBits size)

theorem reads_within_of {s : State} {size : Size} {addr : Addr} {bits : Word} (h : s.env.rst = false)
    (ha : s.accepts size addr = true) (hb : bitsOfWindow s size addr = some bits) : ReadsWithin s size addr bits := by
  have hr : ∀ o, s.region addr.toNat ≠ .reg o := fun o ho => by simp [bitsOfWindow, ho] at hb
  have : (s.region addr.toNat).openBits size = bits := by
    unfold bitsOfWindow at hb
    split at hb
    · simp at hb
    · exact Option.some.inj hb
  exact this ▸ readsWithin h ha fun o ho => absurd ho (hr o)

/-- R79, R70: while busy too slot 511 reads 0, and a byte read has 0 in bits 31:8. -/
theorem test_bus_busy_reserved :
    ReadsWithin (busyWith 0x50000000#32 start) .w 0x003FF0#24 0 ∧
      ReadsWithin (busyWith 0x50000000#32 start) .b 0x800000#24 0x000000FF#32 :=
  ⟨reads_within_of rfl (by decide +kernel) (by decide +kernel), reads_within_of rfl (by decide +kernel) (by decide +kernel)⟩

/-- R79, R80, V4: an unallocated NODE word and an empty HEAP word. -/
theorem test_bus_reserved_bits :
    ReadsWithin start .w 0x002000#24 0x0000FF01#32 ∧ ReadsWithin start .w 0x004000#24 0x000001FF#32 :=
  ⟨reads_within_of rfl (by decide +kernel) (by decide +kernel), reads_within_of rfl (by decide +kernel) (by decide +kernel)⟩

/-- X10.18: after INIT. -/
theorem test_bus_after_init :
    let s := stepped (State.atReset 8 0 quiet)
    (host (.rd .w 0x00000C#24) s).env.response = some (.data 0) ∧
      (host (.rd .w 0x000028#24) s).env.response = some (.data 0x1FF#32) ∧
      (host (.rd .w 0x00004C#24) s).env.response = some (.data 0x01FF0000#32) := by decide +kernel

/-- R112: EXEC NODE_LEAF 1 with two polls, the last of which reads DONE with BUSY = 0. -/
theorem test_exec_pseudo :
    let s := (execEvents (.nodeLeaf 1#8) 1).foldl (fun s _ => stepped s) (start.withEvents (execEvents (.nodeLeaf 1#8) 1))
    (s.result, s.nodes.length, s.env.response) = (0, 1, some (.data 2)) := by decide +kernel

/-! Witnesses: for each statement of Obligations.lean with hypotheses, states and operands that meet them together -/

/-- The invariant as a computation, for closed states. -/
def invCheck (s : State) : Bool :=
  decide (Memory.wf s.dmem) && s.dmem.all (fun c => c.1 < s.dmemSize) && decide (s.nodeCount ≤ 511) &&
    s.nodes.zipIdx.all (fun c => (childList c.1).all fun x => x.toNat < c.2) && decide (s.pqSize ≤ 512) &&
    s.heap.all (fun n => n.toNat < s.nodeCount) && (s.root == nilIx || decide (s.root.toNat < s.nodeCount)) &&
    s.code.toList.all (fun e => if e.valid then decide (1 ≤ e.len.toNat ∧ e.len.toNat ≤ 64 ∧ e.code.toNat < 2 ^ e.len.toNat)
      else decide (e.len = 0 ∧ e.code = 0)) && decide (s.pk.bbuf.toNat < 2 ^ s.pk.bblen.toNat) &&
    decide (s.status.busy = false ↔ s.status.phase = .idle) && decide (s.status.errcode.toNat ≤ 12) &&
    decide (s.status.errcode = okCode → s.errinfo = 0)

theorem inv_of_check {s : State} (h : invCheck s = true) : s.Inv := by
  simp only [invCheck, Bool.and_eq_true, decide_eq_true_eq, List.all_eq_true, Bool.or_eq_true, beq_iff_eq] at h
  obtain ⟨⟨⟨⟨⟨⟨⟨⟨⟨⟨⟨h1, h2⟩, h3⟩, h4⟩, h5⟩, h6⟩, h7⟩, h8⟩, h9⟩, h10⟩, h11⟩, h12⟩ := h
  refine ⟨h1, h2, h3, fun k n hk => ?_, h5, h6, h7, fun _ sym => ?_, h9, h10, h11, h12⟩
  · have h := h4 (n, k) (List.mem_zipIdx_iff_getElem?.mpr (by simpa using hk))
    cases n with
    | leaf _ _ => trivial
    | internal _ l r => exact ⟨h l (by simp [childList]), h r (by simp [childList])⟩
  · have h := h8 (s.codeAt sym) (by simp [State.codeAt])
    unfold codeEntryOk
    by_cases hv : (s.codeAt sym).valid = true
    · rw [if_pos hv] at h ⊢; exact of_decide_eq_true h
    · rw [if_neg hv] at h ⊢; exact of_decide_eq_true h

/-- The heap order as a computation, for closed heaps. -/
theorem heapOrdered_of_check {lt : NodeIx → NodeIx → Bool} {h : List NodeIx}
    (hc : ∀ k < h.length, 1 ≤ k → lt (slot h k) (slot h ((k - 1) / 2)) = false) : HeapOrdered lt h :=
  fun k h1 h2 => hc k h2 h1

theorem ready_of {s : State} (h : (!s.env.rst && s.status.busy && decide (s.status.phase ≠ .init)) = true) : s.ready := by
  simpa [State.ready, and_assoc] using h

theorem not_decodes {w : Word} (h : decoded w = none) : ¬ ∃ i, decode w = .ok i := by
  rintro ⟨i, hi⟩
  simp [decoded, hi] at h

/-! Encoding and the whole machine -/

theorem witness_DecodeEncodeRoundTrip :
    (Instr.nodeJoin 0x1FF#9 0x1FF#9).WellFormed = true ∧ decode 0x3203FFFF#32 = .ok (.nodeJoin 0x1FF#9 0x1FF#9) := by decide

theorem witness_EveryWordIsOneRowOrIllegal :
    (busyWith 0x32040000#32 start).ready ∧ (busyWith 0x32040000#32 start).coreTurn [] ∧
      ¬ ∃ i, decode (busyWith 0x32040000#32 start).cmdword = .ok i :=
  ⟨ready_of (by decide), .inl ⟨rfl, rfl⟩, not_decodes (by decide)⟩

theorem witness_EveryWordIsOneRowOrIllegal_row :
    decode 0x3203FFFF#32 = .ok (.nodeJoin 0x1FF#9 0x1FF#9) ∧
      ∃ r ∈ opcodeTable, r.selectedBy 0x3203FFFF#32 = true ∧ r.mnemonic = "NODE_JOIN" := by decide

/-- Both ends of every unlisted range. -/
theorem witness_EveryWordIsOneRowOrIllegal_unlisted :
    [(0x02, 0x0F), (0x12, 0x1F), (0x24, 0x2F), (0x33, 0x3F), (0x42, 0x4F), (0x51, 0x5F), (0x65, 0x6F), (0x72, 0x7F),
      (0x82, 0xFF)].all (fun (lo, hi) =>
        [lo, hi].all fun o => decide (lo ≤ (opcOf (BitVec.ofNat 32 (o * 2 ^ 24))).toNat ∧
          (opcOf (BitVec.ofNat 32 (o * 2 ^ 24))).toNat ≤ hi)) = true := by decide

theorem witness_StepRunsDecodedCommand :
    (busyWith 0x62000043#32 start).ready ∧ (busyWith 0x62000043#32 start).coreTurn [] ∧
      decode (busyWith 0x62000043#32 start).cmdword = .ok (.packSym 0x43#8) ∧
      decodeTableWord 32 0x62000043 = some (.packSym 0x43#8) :=
  ⟨ready_of (by decide), .inl ⟨rfl, rfl⟩, by decide, by decide⟩

/-- The core's turn where an event stands for it and more follow. -/
theorem witness_coreTurn : (start.withEvents [.core, .core]).coreTurn [.core] := .inr rfl

theorem witness_ResetGivesResetValues :
    (start.withEvents [.resetAssert]).env.events = .resetAssert :: [] ∧
      (start.withEvents [.resetRelease]).env.events = .resetRelease :: [] := ⟨rfl, rfl⟩

theorem witness_ResetGivesResetValues_held :
    start.assertReset.env.rst = true ∧ (start.assertReset.withEvents [.host (.rd .w 0)]).hostTurn (.rd .w 0) [] ∧
      start.assertReset.coreTurn [] := ⟨rfl, rfl, .inl ⟨rfl, rfl⟩⟩

theorem witness_InitClearsTheDatapath :
    State.reset.env.rst = false ∧ State.reset.status.busy = true ∧ State.reset.status.phase = .init ∧
      State.reset.coreTurn [] := ⟨rfl, rfl, rfl, .inl ⟨rfl, rfl⟩⟩

theorem witness_StepKeepsInvariant :
    (busyWith 0x31000041#32 tree).Inv ∧
      step (busyWith 0x31000041#32 tree) = .next (run (.nodeLeaf 0x41#8) (busyWith 0x31000041#32 tree)) :=
  ⟨inv_of_check (by decide +kernel), rfl⟩

theorem witness_EveryCommandEndsWithFinish : start.env.rst = false ∧ start.coreTurn [] := ⟨rfl, .inl ⟨rfl, rfl⟩⟩

/-- X3.3: a completion with an error. -/
theorem witness_ErrorCodesByCommand :
    exec .pqExtract start = .next (run .pqExtract start) ∧ (run .pqExtract start).status.errcode = 0x02#8 :=
  ⟨exec_run _ _, by decide +kernel⟩

theorem witness_OnlyNamedCommandsWrite :
    exec .nop start = .next (run .nop start) ∧ Instr.nop.mnemonic ∉ ["CLEAR", "CODE_GEN", "COMPRESS"] :=
  ⟨exec_run _ _, by decide⟩

theorem witness_OnlyNamedCommandsWrite_stores :
    exec .packHeader start = .next (run .packHeader start) ∧ exec .unpack start = .next (run .unpack start) ∧
      exec .compress start = .next (run .compress start) ∧ Instr.packHeader.mnemonic = "PACK_HEADER" ∧
      Instr.unpack.mnemonic = "UNPACK" ∧ Instr.compress.mnemonic = "COMPRESS" :=
  ⟨exec_run _ _, exec_run _ _, exec_run _ _, rfl, rfl, rfl⟩

theorem witness_NodesNeverChange :
    (Instr.nodeLeaf 0x41#8).mnemonic ∉ ["CLEAR", "NODE_CLEAR", "TREE_BUILD", "COMPRESS", "DECOMPRESS"] ∧
      exec (.nodeLeaf 0x41#8) tree = .next (run (.nodeLeaf 0x41#8) tree) ∧
      Instr.pqSize.mnemonic ∉ ["NODE_LEAF", "NODE_JOIN"] ∧
      (tree.withEvents [.host (.wr .w 0x2000#24 0)]).hostTurn (.wr .w 0x2000#24 0) [] ∧
      step (tree.withEvents [.host (.wr .w 0x2000#24 0)]) = .next (host (.wr .w 0x2000#24 0) tree) :=
  ⟨by decide, exec_run _ _, by decide, rfl, rfl⟩

theorem witness_LoopsRunToTheirEnd : 0xFFFFF + 1 ≤ start.dmemSize := by decide

/-! Control, frequencies, heap -/

theorem witness_NopDoesNothing :
    (busyWith 0x00000001#32 start).ready ∧ (busyWith 0x00000001#32 start).coreTurn [] ∧
      opcOf (busyWith 0x00000001#32 start).cmdword = 0x00#8 ∧ operandOf (busyWith 0x00000001#32 start).cmdword ≠ 0 ∧
      (busyWith 0x00000001#32 start).env.rst = false ∧ (busyWith 0x00000001#32 start).status.busy = true :=
  ⟨ready_of (by decide), .inl ⟨rfl, rfl⟩, by decide, by decide, rfl, rfl⟩

/-- RejectsOperand's hypotheses, met for each OPC it is stated of, by the highest operand bit. -/
theorem witness_RejectsOperand :
    ∀ opc ∈ [0x00#8, 0x01#8, 0x10#8, 0x20#8, 0x23#8, 0x30#8, 0x60#8],
      (busyWith (opc ++ 0x800000#24) start).ready ∧ (busyWith (opc ++ 0x800000#24) start).coreTurn [] ∧
        opcOf (busyWith (opc ++ 0x800000#24) start).cmdword = opc ∧
        operandOf (busyWith (opc ++ 0x800000#24) start).cmdword ≠ 0 := by
  intro opc h
  refine ⟨ready_of rfl, .inl ⟨rfl, rfl⟩, ?_, ?_⟩
  · revert opc; decide
  · revert opc; decide

/-- One byte, the last of DMEM, with its count one below full. -/
def lastByte : State := setm 0xFFFFF#32 1 0 (setf 0x42#8 0xFFFFFFFE#32 (load 0xFFFFF [0x42#8] start))

theorem witness_FreqCountTallies_bounds :
    (setm 0xFFFFF#32 2 0 start).dmemSize < (setm 0xFFFFF#32 2 0 start).src.toNat + (setm 0xFFFFF#32 2 0 start).len.toNat := by
  decide +kernel

theorem witness_FreqCountTallies_counted :
    lastByte.src.toNat + lastByte.len.toNat ≤ lastByte.dmemSize ∧ lastByte.countable lastByte.len.toNat := by
  refine ⟨by decide +kernel, ?_⟩
  unfold State.countable
  decide +kernel

/-- The count full, and TOTAL full. -/
theorem witness_FreqCountTallies_full :
    ∀ s ∈ [setf 0x42#8 0xFFFFFFFF#32 lastByte, { lastByte with total := 0xFFFFFFFFFFFFFFFF#64 }],
      s.src.toNat + s.len.toNat ≤ s.dmemSize ∧ 0 < s.len.toNat ∧ s.countable 0 ∧ ¬ s.countable 1 := by
  unfold State.countable
  decide +kernel

theorem witness_FrequencyConservation :
    exec .freqClear aaabbc = .next (run .freqClear aaabbc) ∧
      exec .freqCount { run .freqClear aaabbc with src := 0, len := 6 } =
        .next (run .freqCount { run .freqClear aaabbc with src := 0, len := 6 }) ∧
      (run .freqCount { run .freqClear aaabbc with src := 0, len := 6 }).status.errcode = 0x00#8 :=
  ⟨exec_run _ _, exec_run _ _, by decide +kernel⟩

/-- BAD_NODE at index NODE_COUNT; QUEUE_FULL at 512 elements; an insert at 511. -/
theorem witness_PqInsertSiftsUp :
    fourLeaves.nodeCount ≤ (4#9).toNat ∧
      ((3#9).toNat < fourLeaves.nodeCount ∧ ({ fourLeaves with heap := List.replicate 512 0#9 } : State).pqSize = 512) ∧
      ((3#9).toNat < fourLeaves.nodeCount ∧ ({ fourLeaves with heap := List.replicate 511 0#9 } : State).pqSize ≠ 512) := by
  decide +kernel

theorem witness_PqExtractSiftsDown :
    start.pqSize = 0 ∧ ({ fourLeaves with heap := [1#9] } : State).heap = 1#9 :: [] ∧
      ({ fourLeaves with heap := [1#9, 3#9, 2#9, 0#9] } : State).heap = 1#9 :: [3#9, 2#9, 0#9] ∧
      [3#9, 2#9, 0#9] = [3#9, 2#9] ++ [0#9] := by decide +kernel

/-- An ordered heap over four leaves with equal keys in it. -/
def ordered : State := { fourLeaves with heap := [1#9, 3#9, 2#9], ctrl := { fourLeaves.ctrl with tiebrk := true } }

theorem witness_HeapInvariantIsKept :
    HeapOrdered ordered.less ordered.heap ∧ exec (.pqInsert 0#9) ordered = .next (run (.pqInsert 0#9) ordered) ∧
      (run (.pqInsert 0#9) ordered).status.errcode = 0x00#8 ∧ exec .pqExtract ordered = .next (run .pqExtract ordered) ∧
      (run .pqExtract ordered).status.errcode = 0x00#8 :=
  ⟨heapOrdered_of_check (by decide +kernel), exec_run _ _, by decide +kernel, exec_run _ _, by decide +kernel⟩

theorem witness_ExtractsComeOutInOrder :
    HeapOrdered ordered.less ordered.heap ∧ ordered.ctrl.tiebrk = true ∧ ordered.heap.Nodup :=
  ⟨heapOrdered_of_check (by decide +kernel), by decide +kernel, by decide +kernel⟩

/-- Two orders of one heap over three equal keys. -/
theorem witness_CanonicalOrderIgnoresInsertion :
    let s : State := { start with nodes := List.replicate 4 (.leaf 0#8 1), heap := [0#9, 1#9, 2#9]
                                  ctrl := { start.ctrl with tiebrk := true } }
    let t : State := { s with heap := [0#9, 2#9, 1#9] }
    s.ctrl.tiebrk = true ∧ t.ctrl.tiebrk = true ∧ t.nodes = s.nodes ∧ t.heap.Perm s.heap ∧
      (∀ n ∈ s.heap, n.toNat < s.nodeCount) ∧ HeapOrdered s.less s.heap ∧ HeapOrdered t.less t.heap :=
  ⟨rfl, rfl, rfl, by decide, by decide, heapOrdered_of_check (by decide +kernel), heapOrdered_of_check (by decide +kernel)⟩

/-! Nodes and trees -/

/-- An arena of n leaves with half the greatest weight each. -/
def arena (n : Nat) : State := { start with nodes := List.replicate n (.leaf 0#8 0x8000000000000000#64) }

/-- 510 nodes, the last of which weighs one less. -/
def heavy : State := { start with nodes := (arena 509).nodes ++ [.leaf 1#8 0x7FFFFFFFFFFFFFFF#64] }

theorem witness_NodeLeafAllocates : (arena 511).nodeCount = 511 ∧ (arena 510).nodeCount < 511 := by decide +kernel

/-- Each check at its boundary: NA, NB = NODE_COUNT; 511 nodes; a sum of exactly 2^64; a sum of 2^64 - 1 at 510 nodes. -/
theorem witness_NodeJoinAllocates :
    (arena 2).nodeCount ≤ (2#9).toNat ∧
      ((1#9).toNat < (arena 2).nodeCount ∧ (arena 2).nodeCount ≤ (2#9).toNat) ∧
      ((510#9).toNat < (arena 511).nodeCount ∧ (arena 511).nodeCount = 511) ∧
      ((509#9).toNat < (arena 510).nodeCount ∧ (arena 510).nodeCount < 511 ∧
        2 ^ 64 ≤ (arena 510).weight 509#9 + (arena 510).weight 509#9) ∧
      ((0#9).toNat < heavy.nodeCount ∧ (509#9).toNat < heavy.nodeCount ∧ heavy.nodeCount < 511 ∧
        heavy.weight 0#9 + heavy.weight 509#9 < 2 ^ 64) := by decide +kernel

theorem witness_TreeSetrootSetsTheRoot :
    (arena 511).nodeCount ≤ (0x1FF#9).toNat ∧ (510#9).toNat < (arena 511).nodeCount := by decide +kernel

theorem witness_TreeBuildJoinsTheTwoLeast :
    exec .treeBuild counted = .next (run .treeBuild counted) ∧
      (run .treeBuild counted).nodes[3]? = some (.internal 3 2#9 1#9) := ⟨exec_run _ _, by decide +kernel⟩

theorem witness_TreeBuildIsDeterministic :
    counted.freq = tree.freq ∧ counted.ctrl.tiebrk = tree.ctrl.tiebrk ∧ counted.nodes ≠ tree.nodes ∧
      exec .treeBuild counted = .next (run .treeBuild counted) ∧ exec .treeBuild tree = .next (run .treeBuild tree) :=
  ⟨by decide +kernel, rfl, by decide +kernel, exec_run _ _, exec_run _ _⟩

theorem witness_CodeGenWithoutAWalk :
    start.root = nilIx ∧ ({ arena 1 with root := 0#9 } : State).root ≠ nilIx ∧
      ({ arena 1 with root := 0#9 } : State).node ({ arena 1 with root := 0#9 } : State).root =
        .leaf 0#8 0x8000000000000000#64 := by decide +kernel

theorem proper_of_codeGen {s : State} (hr : s.root ≠ nilIx) (hi : (s.node s.root).isInternal = true)
    (h : (run .codeGen s).status.errcode = 0x00#8) : ProperTree s s.root := by
  rcases codeGen_spec s hr hi with ⟨t, _, h2, _⟩ | ⟨e, t, h1, _⟩
  · exact h2
  · have : run .codeGen s = complete (codeGen s) := rfl
    rw [this, h1] at h
    cases e <;> simp [complete, State.finish, Status.finish, Error.code] at h

theorem tree_proper : ProperTree tree tree.root :=
  proper_of_codeGen (by decide +kernel) (by decide +kernel) (by decide +kernel)

theorem tree_leaf_c : LeafAt tree tree.root [true, false] 0x43#8 := by
  have h4 : tree.node 4#9 = .internal 6 0#9 3#9 := by decide +kernel
  have h3 : tree.node 3#9 = .internal 3 2#9 1#9 := by decide +kernel
  exact ⟨2#9, 1, .right h4 (.left h3 (.here _)), by decide +kernel⟩

theorem witness_CodeGenAssignsPathCodes :
    tree.root ≠ nilIx ∧ (tree.node tree.root).isInternal = true ∧ ProperTree tree tree.root ∧
      LeafAt tree tree.root [true, false] 0x43#8 := ⟨by decide +kernel, by decide +kernel, tree_proper, tree_leaf_c⟩

/-- X5.6: the chain of 66 leaves, node 0 the leaf of symbol 0, node 2s - 1 that of symbol s and node 2s the join of it and
the chain below; with 65 leaves it is X5.7's. -/
def chain (leaves : Nat) : State :=
  { start with
    nodes := .leaf 0#8 0 :: (List.range (leaves - 1)).flatMap fun k =>
      [.leaf (BitVec.ofNat 8 (k + 1)) 0, .internal 0 (BitVec.ofNat 9 (2 * k + 1)) (BitVec.ofNat 9 (2 * k))]
    root := BitVec.ofNat 9 (2 * (leaves - 1)) }

theorem witness_CodeGenRejectsImproperTrees :
    ∀ c ∈ [(tree, 0x00#8), (shared, 0x08#8), (chain 66, 0x0B#8), (chain 65, 0x00#8)],
      c.1.Inv ∧ c.1.root ≠ nilIx ∧ (c.1.node c.1.root).isInternal = true ∧
        exec .codeGen c.1 = .next (run .codeGen c.1) ∧ (run .codeGen c.1).status.errcode = c.2 := by
  have h : ∀ c ∈ [(tree, 0x00#8), (shared, 0x08#8), (chain 66, 0x0B#8), (chain 65, 0x00#8)],
      invCheck c.1 = true ∧ c.1.root ≠ nilIx ∧ (c.1.node c.1.root).isInternal = true ∧
        (run .codeGen c.1).status.errcode = c.2 := by decide +kernel
  intro c hc
  exact ⟨inv_of_check (h c hc).1, (h c hc).2.1, (h c hc).2.2.1, exec_run _ _, (h c hc).2.2.2⟩

/-- A code kept after BAD_TREE. -/
theorem witness_CodeGenRejectsImproperTrees_kept : ((run .codeGen shared).codeAt 0x41#8).valid = true := by decide +kernel

/-- Three leaves, and one. -/
theorem witness_BuiltTreesHavePrefixFreeCodes :
    exec .treeBuild counted = .next (run .treeBuild counted) ∧ 2 ≤ counted.positive.length ∧
      (setf 0xFF#8 1 start).positive = [0xFF#8] := ⟨exec_run _ _, by decide +kernel, by decide +kernel⟩

/-! The packer -/

/-- A stream with n zero bits pending at an offset, and the codes of section 1.1. -/
def pendingAt (n : BitVec 3) (optr : Word) : State := { packing with pk := ⟨optr, 0, n, 0⟩ }

/-- SEQUENCE with one bit pending; a header one byte too high; a header that ends at DMEM_SIZE. -/
theorem witness_PackHeaderWritesTheHeader :
    (pendingAt 1 0x100#32).pk.bblen ≠ 0 ∧
      ((pendingAt 0 0xFFBF9#32).pk.bblen = 0 ∧
        (pendingAt 0 0xFFBF9#32).dmemSize < (pendingAt 0 0xFFBF9#32).pk.optr.toNat + 1032) ∧
      ((pendingAt 0 0xFFBF8#32).pk.bblen = 0 ∧
        (pendingAt 0 0xFFBF8#32).pk.optr.toNat + 1032 ≤ (pendingAt 0 0xFFBF8#32).dmemSize) := by decide +kernel

/-- No code; the code of 'B' completing a byte at DMEM_SIZE; the same one byte lower; completing none at DMEM_SIZE. -/
theorem witness_PackSymAppendsTheCode :
    (packing.codeAt 0x44#8).valid = false ∧
      (1 = ((pendingAt 7 0x100000#32).pk.bblen.toNat + ((pendingAt 7 0x100000#32).codeAt 0x42#8).len.toNat) / 8 ∧
        ((pendingAt 7 0x100000#32).codeAt 0x42#8).valid = true ∧
        (pendingAt 7 0x100000#32).dmemSize < (pendingAt 7 0x100000#32).pk.optr.toNat + 1) ∧
      (∀ c ∈ [(pendingAt 7 0xFFFFF#32, 1), (pendingAt 5 0x100000#32, 0)],
        c.2 = (c.1.pk.bblen.toNat + (c.1.codeAt 0x42#8).len.toNat) / 8 ∧ (c.1.codeAt 0x42#8).valid = true ∧
          c.1.pk.optr.toNat + c.2 ≤ c.1.dmemSize ∧ c.1.pk.bbuf.toNat < 2 ^ c.1.pk.bblen.toNat) := by decide +kernel

theorem witness_PackSymAppendsTheCode_entry : codeEntryOk (packing.codeAt 0x42#8) := by
  have h : packing.codeAt 0x42#8 = ⟨true, 2, 3⟩ := by decide +kernel
  rw [h]; simp [codeEntryOk]

/-- Out of range by one; an empty region at DMEM_SIZE. -/
theorem witness_PackDataPacksByteByByte :
    (setm 0xFFFFF#32 2 0 packing).dmemSize < (setm 0xFFFFF#32 2 0 packing).src.toNat + (setm 0xFFFFF#32 2 0 packing).len.toNat ∧
      ((setm 0x100000#32 0 0 packing).src.toNat ≤ (setm 0x100000#32 0 0 packing).dmemSize ∧
        (setm 0x100000#32 0 0 packing).len = 0) := by decide +kernel

/-- "DA": the first byte fails. "AD": it does not, and the second does. -/
theorem witness_PackDataPacksByteByByte_each :
    ∀ c ∈ [([0x44#8, 0x41#8], false), ([0x41#8, 0x44#8], true)],
      (setm 0xFFFFE#32 1 0 (load 0xFFFFE c.1 packing)).src.toNat + (1 + 1) ≤ packing.dmemSize ∧
        exec .packData { setm 0xFFFFE#32 1 0 (load 0xFFFFE c.1 packing) with len := BitVec.ofNat 32 1 } =
          .next (run .packData (setm 0xFFFFE#32 1 0 (load 0xFFFFE c.1 packing))) ∧
        decide ((run .packData (setm 0xFFFFE#32 1 0 (load 0xFFFFE c.1 packing))).status.errcode = 0x00#8) = c.2 := by
  have h : ∀ c ∈ [([0x44#8, 0x41#8], false), ([0x41#8, 0x44#8], true)],
      (setm 0xFFFFE#32 1 0 (load 0xFFFFE c.1 packing)).src.toNat + (1 + 1) ≤ packing.dmemSize ∧
        decide ((run .packData (setm 0xFFFFE#32 1 0 (load 0xFFFFE c.1 packing))).status.errcode = 0x00#8) = c.2 := by
    decide +kernel
  intro c hc
  exact ⟨(h c hc).1, exec_run _ _, (h c hc).2⟩

theorem witness_PackFlushPadsToAByte :
    (pendingAt 0 0x100000#32).pk.bblen = 0 ∧
      ((pendingAt 1 0x100000#32).pk.bblen ≠ 0 ∧
        (pendingAt 1 0x100000#32).dmemSize < (pendingAt 1 0x100000#32).pk.optr.toNat + 1) ∧
      ((pendingAt 7 0xFFFFF#32).pk.bblen ≠ 0 ∧ (pendingAt 7 0xFFFFF#32).pk.optr.toNat + 1 ≤ (pendingAt 7 0xFFFFF#32).dmemSize ∧
        (pendingAt 7 0xFFFFF#32).pk.bbuf.toNat < 2 ^ (pendingAt 7 0xFFFFF#32).pk.bblen.toNat) := by decide +kernel

/-- One pending bit, and a byte to pack that lies apart from the stream. -/
def midStream : State := { setm 0 1 0x100 (load 0 [0x42#8] (setc 0x41#8 1 0 (setc 0x42#8 2 3 start))) with pk := ⟨0x100, 0, 1, 1⟩ }

theorem midStream_inv : StreamInv midStream 0x100 [true] where
  length := by decide
  pointer := by decide
  pending := by decide
  number := by decide
  written := by decide

theorem witness_PackerKeepsTheStream :
    exec .packInit midStream = .next (run .packInit midStream) ∧ midStream.Inv ∧ midStream.status.phase ≠ .init ∧
      StreamInv midStream 0x100 [true] ∧
      exec (.packSym 0x42#8) midStream = .next (run (.packSym 0x42#8) midStream) ∧
      (run (.packSym 0x42#8) midStream).status.errcode = 0x00#8 ∧
      exec .packData midStream = .next (run .packData midStream) ∧ (run .packData midStream).status.errcode = 0x00#8 ∧
      apart midStream.src.toNat midStream.len.toNat midStream.pk.optr.toNat
        ((run .packData midStream).pk.optr.toNat - midStream.pk.optr.toNat) ∧
      exec .packFlush midStream = .next (run .packFlush midStream) ∧ (run .packFlush midStream).status.errcode = 0x00#8 := by
  refine ⟨exec_run _ _, inv_of_check (by decide +kernel), by decide, midStream_inv, exec_run _ _, by decide +kernel,
    exec_run _ _, by decide +kernel, ?_, exec_run _ _, by decide +kernel⟩
  intro x h1 h2 h3 h4
  have e1 : midStream.src.toNat = 0 ∧ midStream.len.toNat = 1 ∧ midStream.pk.optr.toNat = 0x100 := by decide
  omega

/-- The header's case: a stream at a byte boundary. -/
theorem witness_PackerKeepsTheStream_header :
    packing.Inv ∧ packing.status.phase ≠ .init ∧ StreamInv packing 0x100 [] ∧
      exec .packHeader packing = .next (run .packHeader packing) ∧ (run .packHeader packing).status.errcode = 0x00#8 := by
  exact ⟨inv_of_check (by decide +kernel), by decide +kernel,
    ⟨by decide +kernel, by decide +kernel, by decide +kernel, by decide +kernel, by decide +kernel⟩, exec_run _ _,
    by decide +kernel⟩

/-- One pending bit, DST at the end of DMEM, a region that holds a byte with a code and one without. -/
def stuckStream : State :=
  { setm 0x300 2 0x100000#32 (load 0x300 [0x41#8, 0x43#8] (setc 0x41#8 1 0 (setc 0x42#8 7 0 start))) with
    pk := ⟨0x100000#32, 0, 1, 1⟩ }

theorem stuckStream_inv : StreamInv stuckStream 0x100000 [true] where
  length := by decide
  pointer := by decide
  pending := by decide
  number := by decide
  written := by decide

/-- Each command that fails: PACK_HEADER behind a pending bit, PACK_SYM and PACK_FLUSH with no room, PACK_DATA at a byte with
no code after one that fits. -/
theorem witness_PackerKeepsTheStream_failed :
    stuckStream.Inv ∧ stuckStream.status.phase ≠ .init ∧ StreamInv stuckStream 0x100000 [true] ∧
      stuckStream.src.toNat + stuckStream.len.toNat ≤ stuckStream.dmemSize ∧
      (∀ i ∈ [.packHeader, .packSym 0x42#8, .packSym 0x43#8, .packData, .packFlush],
        exec i stuckStream = .next (run i stuckStream) ∧ (run i stuckStream).status.errcode ≠ 0x00#8) ∧
      (run .packData stuckStream).result = 1 ∧
      apart stuckStream.src.toNat stuckStream.len.toNat stuckStream.pk.optr.toNat
        ((run .packData stuckStream).pk.optr.toNat - stuckStream.pk.optr.toNat) := by
  refine ⟨inv_of_check (by decide +kernel), by decide, stuckStream_inv, by decide, fun i hi => ⟨exec_run _ _, ?_⟩,
    by decide +kernel, fun x _ h2 h3 _ => ?_⟩
  · revert i; decide +kernel
  · change x < 0x300 + 2 at h2; change 0x100000 ≤ x at h3
    omega

/-- PACK_DATA out of range. -/
theorem witness_PackerKeepsTheStream_range :
    let s := setm 0xFFFFF#32 2 0 midStream
    s.dmemSize < s.src.toNat + s.len.toNat ∧ exec .packData s = .next (run .packData s) := ⟨by decide +kernel, exec_run _ _⟩

/-- Two bytes, 'A' and 'B', that leave three bits: one byte, the last of DMEM. -/
def lastPacked : State :=
  { setm 0 2 0 (load 0 [0x41#8, 0x42#8] (setc 0x41#8 1 0 (setc 0x42#8 2 3 start))) with pk := ⟨0xFFFFF#32, 0, 0, 0⟩ }

theorem witness_PackedLength :
    lastPacked.Inv ∧ lastPacked.status.phase ≠ .init ∧ lastPacked.pk.bblen = 0 ∧
      lastPacked.src.toNat + lastPacked.len.toNat ≤ lastPacked.dmemSize ∧
      (∀ b ∈ lastPacked.bytesAt lastPacked.src.toNat lastPacked.len.toNat, (lastPacked.codeAt b).valid = true) ∧
      1 = (((lastPacked.bytesAt lastPacked.src.toNat lastPacked.len.toNat).map fun b =>
        (lastPacked.codeAt b).len.toNat).sum + 7) / 8 ∧
      lastPacked.pk.optr.toNat + 1 ≤ lastPacked.dmemSize ∧
      apart lastPacked.src.toNat lastPacked.len.toNat lastPacked.pk.optr.toNat 1 := by
  have e : lastPacked.src.toNat = 0 ∧ lastPacked.len.toNat = 2 ∧ lastPacked.pk.optr.toNat = 0xFFFFF := by decide
  refine ⟨inv_of_check (by decide +kernel), by decide, by decide, by decide +kernel, by decide +kernel, by decide +kernel,
    by decide +kernel, ?_⟩
  intro x h1 h2 h3 h4
  omega

/-! Headers and the unpacker -/

/-- A file at 0 of the smallest configuration: the count n of symbol 0, the length v, one packed byte of zeros. -/
def fileByte (n v : Byte) (k : Nat) : Byte := if k = 3 then n else if k = 1031 then v else 0

def file (n v : Byte) (len dst : Word) : State :=
  { setm 0 len dst small with dmem := (List.range' 0 1033).map fun k => (k, fileByte n v k) }

theorem lookup_map (f : Nat → Byte) : ∀ (n a x : Nat), a ≤ x → x < a + n →
    Memory.lookup ((List.range' a n).map fun k => (k, f k)) x = some (f x)
  | 0, a, x, h1, h2 => by omega
  | n + 1, a, x, h1, h2 => by
    rw [List.range'_succ, List.map_cons, Memory.lookup]
    by_cases h : x = a
    · simp [h]
    · rw [if_neg h, lookup_map f n (a + 1) x (by omega) (by omega)]

variable {n v : Byte} {len dst : Word}

theorem file_byte {x : Nat} (h : x < 1033) : (file n v len dst).byte x = fileByte n v x := by
  have := lookup_map (fileByte n v) 1033 0 x (by omega) (by omega)
  simp only [State.byte, file, this]

theorem file_total : (file n v len dst).headerTotal 0 = v.toNat := by
  simp only [State.headerTotal, State.bigEndian]
  rw [file_byte (by omega), file_byte (by omega), file_byte (by omega), file_byte (by omega), file_byte (by omega),
    file_byte (by omega), file_byte (by omega), file_byte (by omega)]
  simp [fileByte]

theorem file_count (sym : Sym) : (file n v len dst).bigEndian (0 + 4 * sym.toNat) 4 = if sym = 0 then n.toNat else 0 := by
  have h := sym.isLt
  simp only [State.bigEndian]
  rw [file_byte (by omega), file_byte (by omega), file_byte (by omega), file_byte (by omega)]
  have h0 : sym = 0 ↔ sym.toNat = 0 := by simp [BitVec.toNat_eq]
  simp only [fileByte]
  rw [if_neg (by omega), if_neg (by omega), if_neg (by omega), if_neg (by omega), if_neg (by omega), if_neg (by omega),
    if_neg (by omega : ¬ 0 + 4 * sym.toNat + 3 = 1031)]
  by_cases hs : sym = 0
  · subst hs; simp
  · have hz : sym.toNat ≠ 0 := fun h => hs (h0.mpr h)
    rw [if_neg hs, if_neg (by omega : ¬ 0 + 4 * sym.toNat + 3 = 3)]; simp

/-- The counts such a file holds. -/
def fileFreq (n : Byte) : Vector Word 256 := (Vector.replicate 256 0).set 0 (n.zeroExtend 32)

theorem file_freq : (file n v len dst).headerFreq 0 = fileFreq n := by
  generalize hq : (file n v len dst).headerFreq 0 = q
  refine State.freq_ext (s := { small with freq := q }) (t := { small with freq := fileFreq n }) fun sym => ?_
  subst hq
  have h1 : ({ small with freq := (file n v len dst).headerFreq 0 } : State).freqAt sym =
      BitVec.ofNat 32 ((file n v len dst).bigEndian (0 + 4 * sym.toNat) 4) :=
    (file n v len dst).freqAt_ofFn 0 sym
  refine h1.trans ?_
  rw [file_count]
  simp only [State.freqAt, fileFreq, Vector.getElem_set]
  by_cases hs : sym = 0
  · subst hs; simp
  · have h0 : ¬ 0 = sym.toNat := fun h => hs (by simp [BitVec.toNat_eq, ← h])
    rw [if_neg hs, if_neg h0]; simp

/-- Out of range by one; one byte short of a header; counts that sum to 1 with length 2; the same with length 1. -/
theorem witness_HdrParseLoadsTheHeader :
    ((file 1 1 1033 0).dmemSize < (setm 4096 1 0 (file 1 1 1033 0)).src.toNat + (setm 4096 1 0 (file 1 1 1033 0)).len.toNat) ∧
      ((file 1 1 1031 0).src.toNat + (file 1 1 1031 0).len.toNat ≤ (file 1 1 1031 0).dmemSize ∧
        (file 1 1 1031 0).len.toNat < 1032) ∧
      ((file 1 1 1032 0).src.toNat + (file 1 1 1032 0).len.toNat ≤ (file 1 1 1032 0).dmemSize ∧
        1032 ≤ (file 1 1 1032 0).len.toNat) := by decide +kernel

theorem witness_HdrParseLoadsTheHeader_sum :
    ∀ c ∈ [(2#8, false), (1#8, true)], ∀ loaded : State, loaded = { file 1 c.1 1032 0 with
        freq := (file 1 c.1 1032 0).headerFreq (file 1 c.1 1032 0).src.toNat
        total := BitVec.ofNat 64 ((file 1 c.1 1032 0).headerTotal (file 1 c.1 1032 0).src.toNat) } →
      decide (loaded.freqSum = loaded.total.toNat) = c.2 := by
  intro c hc loaded h
  have e : (file 1 c.1 1032 0).src.toNat = 0 := rfl
  rw [e, file_freq, file_total] at h
  subst h
  revert c
  decide +kernel

/-- Out of range; TOTAL = 0; X8.10. -/
theorem witness_UnpackChecksBeforeDecoding :
    (setm 0xFFFFF#32 2 0 start).dmemSize < (setm 0xFFFFF#32 2 0 start).src.toNat + (setm 0xFFFFF#32 2 0 start).len.toNat ∧
      ((setm 0xFFFFF#32 1 0 start).src.toNat + (setm 0xFFFFF#32 1 0 start).len.toNat ≤ start.dmemSize ∧ start.total = 0) ∧
      (({ start with total := 5 } : State).total ≠ 0 ∧ ({ start with total := 5 } : State).root = nilIx) := by decide +kernel

theorem tree_leaf_a : LeafAt tree tree.root [false] 0x41#8 := by
  have h4 : tree.node 4#9 = .internal 6 0#9 3#9 := by decide +kernel
  exact ⟨0#9, 3, .left h4 (.here _), by decide +kernel⟩

theorem tree_leaf_b : LeafAt tree tree.root [true, true] 0x42#8 := by
  have h4 : tree.node 4#9 = .internal 6 0#9 3#9 := by decide +kernel
  have h3 : tree.node 3#9 = .internal 3 2#9 1#9 := by decide +kernel
  exact ⟨1#9, 2, .right h4 (.right h3 (.here _)), by decide +kernel⟩

theorem tree_root : (tree.node tree.root).isInternal = true := by decide +kernel

theorem tree_spells_aaab : Spells tree [false, false, false, true, true] [0x41#8, 0x41#8, 0x41#8, 0x42#8] :=
  .cons (.inl ⟨tree_root, tree_leaf_a⟩) <| .cons (.inl ⟨tree_root, tree_leaf_a⟩) <| .cons (.inl ⟨tree_root, tree_leaf_a⟩) <|
    .cons (p := [true, true]) (bits := []) (.inl ⟨tree_root, tree_leaf_b⟩) .nil

theorem Spells.concat {s : State} {bits p : List Bool} {bytes : List Byte} {b : Byte} (h : Spells s bits bytes)
    (hp : s.emits p b) : Spells s (bits ++ p) (bytes ++ [b]) := by
  induction h with
  | nil => simpa using Spells.cons hp .nil
  | cons h1 _ ih => rw [List.append_assoc]; exact .cons h1 ih

theorem tree_spells_aaabb :
    Spells tree [false, false, false, true, true, true, true] [0x41#8, 0x41#8, 0x41#8, 0x42#8, 0x42#8] :=
  Spells.concat tree_spells_aaab (.inl ⟨tree_root, tree_leaf_b⟩)

theorem tree_spells_aaabbc : Spells tree [false, false, false, true, true, true, true, true, false]
    [0x41#8, 0x41#8, 0x41#8, 0x42#8, 0x42#8, 0x43#8] :=
  Spells.concat tree_spells_aaabb (.inl ⟨tree_root, tree_leaf_c⟩)

theorem packed_node (src len dst : Word) : (setm src len dst packed).node = tree.node := rfl

theorem packed_spells {src len dst : Word} {bits : List Bool} {bytes : List Byte} (h : Spells tree bits bytes) :
    Spells (setm src len dst packed) bits bytes :=
  Spells.congr (t := setm src len dst packed) (packed_node src len dst) rfl h

/-- X8.1's stream, with room for exactly the six bytes. -/
theorem witness_UnpackDecodesTheStream :
    let s := setm 0x508 2 0xFFFFA#32 packed
    let bits := [false, false, false, true, true, true, true, true, false]
    let bytes := [0x41#8, 0x41#8, 0x41#8, 0x42#8, 0x42#8, 0x43#8]
    s.src.toNat + s.len.toNat ≤ s.dmemSize ∧ s.root ≠ nilIx ∧
      s.bitsAt s.src.toNat s.len.toNat = bits ++ List.replicate 7 false ∧ Spells s bits bytes ∧
      s.total.toNat = bytes.length ∧ s.dst.toNat + bytes.length ≤ s.dmemSize ∧
      apart s.src.toNat s.len.toNat s.dst.toNat bytes.length := by
  refine ⟨by decide +kernel, by decide +kernel, by decide +kernel, packed_spells tree_spells_aaabbc, by decide +kernel,
    by decide +kernel, fun x h1 h2 h3 h4 => ?_⟩
  change 0x508 ≤ x at h1; change x < 0x508 + 2 at h2; change 0xFFFFA ≤ x at h3
  omega

/-- The output over its own stream: after the first symbol its byte 0x41 stands where the stream's first byte stood, and the
next bits read are those of 'C'. -/
theorem witness_UnpackDecodesTheStream_over :
    let s := setm 0x508 2 0x508 packed
    let t := run .unpack { s with total := BitVec.ofNat 64 1 }
    s.src.toNat + s.len.toNat ≤ s.dmemSize ∧ s.root ≠ nilIx ∧
      exec .unpack { s with total := BitVec.ofNat 64 1 } = .next t ∧ t.status.errcode = 0x00#8 ∧
      t.up = unpackerAt s.src.toNat 1 s.root 1 ∧
      (t.bitsAt s.src.toNat s.len.toNat).drop 1 =
        [true, false] ++ [false, false, false, false, true, false, false, false, false, false, false, false, false] ∧
      s.emits [true, false] 0x43#8 ∧ s.dst.toNat + 1 < s.dmemSize :=
  ⟨by decide +kernel, by decide +kernel, exec_run _ _, by decide +kernel, by decide +kernel, by decide +kernel,
    .inl ⟨tree_root, LeafAt.congr (packed_node 0x508 2 0x508) tree_leaf_c⟩, by decide +kernel⟩

/-- X8.5's fifth symbol, which does not fit. -/
theorem witness_UnpackDecodesTheStream_bounds :
    let s := setm 0x508 2 0xFFFFC#32 packed
    let t := run .unpack { s with total := BitVec.ofNat 64 4 }
    exec .unpack { s with total := BitVec.ofNat 64 4 } = .next t ∧ t.status.errcode = 0x00#8 ∧
      t.up = unpackerAt s.src.toNat 5 s.root 4 ∧
      (t.bitsAt s.src.toNat s.len.toNat).drop 5 =
        [true, true] ++ [true, false, false, false, false, false, false, false, false] ∧
      s.emits [true, true] 0x42#8 ∧ Reach s s.root [true, true] 1#9 ∧ s.dmemSize ≤ s.dst.toNat + 4 := by
  have h4 : tree.node 4#9 = .internal 6 0#9 3#9 := by decide +kernel
  have h3 : tree.node 3#9 = .internal 3 2#9 1#9 := by decide +kernel
  exact ⟨exec_run _ _, by decide +kernel, by decide +kernel, by decide +kernel,
    .inl ⟨tree_root, LeafAt.congr (packed_node 0x508 2 0xFFFFC#32) tree_leaf_b⟩, .right h4 (.right h3 (.here _)),
    by decide +kernel⟩

/-- X8.2's sixth symbol, inside which the stream ends; a seventh after that failure. -/
theorem witness_UnpackDecodesTheStream_ends :
    let s := setm 0x508 1 0x2000 packed
    let t := run .unpack { s with total := BitVec.ofNat 64 5 }
    exec .unpack { s with total := BitVec.ofNat 64 5 } = .next t ∧ t.status.errcode = 0x00#8 ∧
      t.up = unpackerAt s.src.toNat 7 s.root 5 ∧ (t.bitsAt s.src.toNat s.len.toNat).drop 7 = [true] ∧
      Reach s s.root [true] 3#9 ∧ (s.node 3#9).isInternal = true ∧
      (run .unpack { s with total := BitVec.ofNat 64 6 }).status.errcode ≠ 0x00#8 := by
  have h4 : tree.node 4#9 = .internal 6 0#9 3#9 := by decide +kernel
  exact ⟨exec_run _ _, by decide +kernel, by decide +kernel, by decide +kernel, .right h4 (.here _), by decide +kernel,
    by decide +kernel⟩

/-- X8.2: the stream ends inside C's code. -/
theorem witness_UnpackStopsWhereTheStreamFails_stream :
    let s := setm 0x508 1 0x2000 packed
    let bits := [false, false, false, true, true, true, true]
    let bytes := [0x41#8, 0x41#8, 0x41#8, 0x42#8, 0x42#8]
    s.src.toNat + s.len.toNat ≤ s.dmemSize ∧ s.root ≠ nilIx ∧ Spells s bits bytes ∧ bytes.length < s.total.toNat ∧
      apart s.src.toNat s.len.toNat s.dst.toNat bytes.length ∧
      s.bitsAt s.src.toNat s.len.toNat = bits ++ [true] ∧ Reach s s.root [true] 3#9 ∧ (s.node 3#9).isInternal = true ∧
      s.dst.toNat + bytes.length ≤ s.dmemSize := by
  have h4 : tree.node 4#9 = .internal 6 0#9 3#9 := by decide +kernel
  refine ⟨by decide +kernel, by decide +kernel, packed_spells tree_spells_aaabb, by decide +kernel, fun x h1 h2 h3 h4 => ?_,
    by decide +kernel, .right h4 (.here _), by decide +kernel, by decide +kernel⟩
  change 0x508 ≤ x at h1; change x < 0x508 + 1 at h2; change 0x2000 ≤ x at h3
  omega

/-- X8.3: an empty stream. -/
theorem witness_UnpackStopsWhereTheStreamFails_empty :
    let s := setm 0x508 0 0x2000 packed
    s.src.toNat + s.len.toNat ≤ s.dmemSize ∧ s.root ≠ nilIx ∧ Spells s [] [] ∧ ([] : List Byte).length < s.total.toNat ∧
      apart s.src.toNat s.len.toNat s.dst.toNat ([] : List Byte).length ∧
      s.bitsAt s.src.toNat s.len.toNat = [] ++ [] ∧ Reach s s.root [] s.root ∧
      s.dst.toNat + ([] : List Byte).length ≤ s.dmemSize :=
  ⟨by decide +kernel, by decide +kernel, .nil, by decide +kernel, fun x _ _ h3 h4 => absurd h4 (Nat.not_lt.mpr h3), rfl, .here _,
    by decide +kernel⟩

/-- X8.5: the second 'B' does not fit. -/
theorem witness_UnpackStopsWhereTheStreamFails_bounds :
    let s := setm 0x508 2 0xFFFFC#32 packed
    let bits := [false, false, false, true, true]
    let bytes := [0x41#8, 0x41#8, 0x41#8, 0x42#8]
    s.src.toNat + s.len.toNat ≤ s.dmemSize ∧ s.root ≠ nilIx ∧ Spells s bits bytes ∧ bytes.length < s.total.toNat ∧
      apart s.src.toNat s.len.toNat s.dst.toNat bytes.length ∧
      s.bitsAt s.src.toNat s.len.toNat =
        bits ++ [true, true] ++ [true, false, false, false, false, false, false, false, false] ∧
      s.emits [true, true] 0x42#8 ∧ Reach s s.root [true, true] 1#9 ∧ s.dmemSize ≤ s.dst.toNat + bytes.length ∧
      s.dst.toNat + bytes.length = s.dmemSize := by
  have h4 : tree.node 4#9 = .internal 6 0#9 3#9 := by decide +kernel
  have h3 : tree.node 3#9 = .internal 3 2#9 1#9 := by decide +kernel
  refine ⟨by decide +kernel, by decide +kernel, packed_spells tree_spells_aaab, by decide +kernel, fun x h1 h2 h3 h4 => ?_, by decide +kernel,
    .inl ⟨tree_root, LeafAt.congr (packed_node 0x508 2 0xFFFFC#32) tree_leaf_b⟩, .right h4 (.right h3 (.here _)), by decide +kernel, by decide +kernel⟩
  change 0x508 ≤ x at h1; change x < 0x508 + 2 at h2; change 0xFFFFC ≤ x at h3
  omega

/-- A root that is a leaf, with DST past the end of DMEM and no byte before. -/
theorem witness_UnpackStopsWhereTheStreamFails_leaf :
    let s : State := setm 0x508 1 0x200000#32 { packed with nodes := [.leaf 0x5A#8 0], root := 0#9 }
    s.src.toNat + s.len.toNat ≤ s.dmemSize ∧ s.root ≠ nilIx ∧ Spells s [] [] ∧ ([] : List Byte).length < s.total.toNat ∧
      apart s.src.toNat s.len.toNat s.dst.toNat ([] : List Byte).length ∧
      s.bitsAt s.src.toNat s.len.toNat = [] ++ [false] ++ [false, false, true, true, true, true, true] ∧
      s.emits [false] 0x5A#8 ∧ (s.node s.root).isInternal = false ∧ s.dmemSize ≤ s.dst.toNat + ([] : List Byte).length :=
  ⟨by decide +kernel, by decide +kernel, .nil, by decide +kernel, fun x _ _ h3 h4 => absurd h4 (Nat.not_lt.mpr h3),
    by decide +kernel, .inr ⟨rfl, 0, by decide +kernel⟩, by decide +kernel, by decide +kernel⟩

theorem witness_DecodingReversesPacking :
    let t := run .codeGen tree
    let s : State := { setm 0x508 2 0xFFFFA#32 packed with code := t.code }
    let bytes := [0x41#8, 0x41#8, 0x41#8, 0x42#8, 0x42#8, 0x43#8]
    tree.Inv ∧ exec .codeGen tree = .next t ∧ t.status.errcode = 0x00#8 ∧ s.code = t.code ∧ s.nodes = t.nodes ∧
      s.root = t.root ∧ (∀ b ∈ bytes, (t.codeAt b).valid = true) ∧ s.src.toNat + s.len.toNat ≤ s.dmemSize ∧
      s.bitsAt s.src.toNat s.len.toNat = bytes.flatMap t.codeBits ++ List.replicate 7 false ∧
      s.total.toNat = bytes.length ∧ s.dst.toNat + bytes.length ≤ s.dmemSize ∧
      apart s.src.toNat s.len.toNat s.dst.toNat bytes.length := by
  refine ⟨inv_of_check (by decide +kernel), exec_run _ _, by decide +kernel, rfl, by decide +kernel, by decide +kernel,
    by decide +kernel, by decide +kernel, by decide +kernel, by decide +kernel, by decide +kernel, fun x h1 h2 h3 h4 => ?_⟩
  change 0x508 ≤ x at h1; change x < 0x508 + 2 at h2; change 0xFFFFA ≤ x at h3
  omega

/-! The codec -/

/-- One byte at 0 and the greatest room a file of one byte can need, up to DMEM_SIZE. -/
theorem witness_CompressWritesTheFile :
    let s := setm 0 1 3056 small
    s.src.toNat + s.len.toNat ≤ s.dmemSize ∧ s.dst.toNat + (1032 + 8 * s.len.toNat) ≤ s.dmemSize ∧
      apart s.src.toNat s.len.toNat s.dst.toNat (1032 + 8 * s.len.toNat) := by
  refine ⟨by decide +kernel, by decide +kernel, fun x h1 h2 h3 h4 => ?_⟩
  change x < 0 + 1 at h2; change 3056 ≤ x at h3
  omega

/-- The lines of COMPRESS up to CODE_GEN. -/
def analysedBy (s : State) : State := runs [.freqClear, .freqCount, .treeBuild, .codeGen] s

/-- The input out of range; a file of 1032 bytes one byte too high; the same one that fits. -/
theorem witness_CompressIsItsCommands :
    (setm 4096 1 0 small).dmemSize < (setm 4096 1 0 small).src.toNat + (setm 4096 1 0 small).len.toNat ∧
      ((setm 4096 0 3065 small).src.toNat + (setm 4096 0 3065 small).len.toNat ≤ small.dmemSize ∧
        small.dmemSize < (setm 4096 0 3065 small).dst.toNat + (analysedBy (setm 4096 0 3065 small)).fileBytes) ∧
      ((setm 4096 0 3064 small).dst.toNat + (analysedBy (setm 4096 0 3064 small)).fileBytes ≤ small.dmemSize ∧
        (runs [.packInit, .packHeader, .packData] (analysedBy (setm 4096 0 3064 small))).status.errcode = 0x00#8 ∧
        (runs [.packInit, .packHeader, .packData, .packFlush] (analysedBy (setm 4096 0 3064 small))).status.errcode = 0x00#8) := by
  decide +kernel

/-- A zero count in a header is four zero bytes. -/
theorem header_zero {t u : State} {a x : Nat} {sym : Sym} (h : t.holdsHeader a u) (hf : u.freqAt sym = 0)
    (h1 : a + 4 * sym.toNat ≤ x) (h2 : x < a + 4 * sym.toNat + 4) : t.byte x = 0 := by
  have h : t.bigEndian (a + 4 * sym.toNat) 4 = 0 := by rw [h.1 sym, hf]; rfl
  simp only [State.bigEndian, Nat.add_zero] at h
  apply BitVec.eq_of_toNat_eq
  show _ = 0
  obtain rfl | rfl | rfl | rfl : x = a + 4 * sym.toNat ∨ x = a + 4 * sym.toNat + 1 ∨ x = a + 4 * sym.toNat + 2 ∨
      x = a + 4 * sym.toNat + 3 := by omega
  all_goals omega

theorem runs_cons (i : Instr) (l : List Instr) (s : State) : runs (i :: l) s = runs l (run i s) := rfl
theorem runs_nil (s : State) : runs [] s = s := rfl

/-- The input, one 'A' at 0, lies under the header: packing reads a zero byte, which has no code. -/
def under : State := setm 0 1 0 (load 0 [0x41#8] small)

theorem witness_CompressIsItsCommands_data :
    under.src.toNat + under.len.toNat ≤ under.dmemSize ∧
      under.dst.toNat + (analysedBy under).fileBytes ≤ under.dmemSize ∧
      (runs [.packInit, .packHeader, .packData] (analysedBy under)).status.errcode ≠ 0x00#8 := by
  rw [← and_assoc]
  refine ⟨by decide +kernel, ?_⟩
  rw [runs_cons, runs_cons, runs_cons, runs_nil]
  generalize hs : run .packInit (analysedBy under) = s
  obtain ⟨hf, hc, hpk, hsz, hop⟩ : s.freqAt 0 = 0 ∧ (s.codeAt 0).valid = false ∧ s.pk = ⟨0, 0, 0, 0⟩ ∧
      s.dmemSize = 4096 ∧ s.src = 0 ∧ s.len = 1 := by rw [← hs]; decide +kernel
  clear hs
  obtain ⟨u, h1, h2, h3, -⟩ := packHeader_ok (s := s) (by rw [hpk]) (by rw [hpk, hsz]; decide)
  have hr : run .packHeader s = u.finish okCode 0 := by
    show complete (packHeader s) = _
    rw [h1]; rfl
  have hb : (u.finish okCode 0).byte 0 = 0 := by
    refine header_zero (a := 0) (sym := 0) (t := u) ?_ hf (by decide) (by decide)
    rwa [hpk] at h3
  have hsz' : (u.finish okCode 0).dmemSize = 4096 := by rw [h2]; exact hsz
  have hop' : (u.finish okCode 0).src = 0 ∧ (u.finish okCode 0).len = 1 := by rw [h2]; exact hop
  have hc' : ((u.finish okCode 0).codeAt 0).valid = false := by rw [h2]; exact hc
  rw [hr]
  generalize u.finish okCode 0 = w at hb hsz' hop' hc'
  have hd : packData 0 1 w = .raised (.noCode 0) { w with result := 0 } := by
    have e : memRead 0 { w with result := 0 } = .ok 0 { w with result := 0 } := by
      rw [memRead_ok (by show 0 < w.dmemSize; omega)]
      exact congrArg (fun b => Res.ok b _) hb
    have e2 : packSymbol 0 { w with result := 0 } = .raised (.noCode 0) { w with result := 0 } := by
      rw [packSymbol, if_neg]
      show ¬ (w.codeAt 0).valid = true
      rw [hc']; decide
    rw [packData, checkRange_ok (by omega), Res.ok_andThen, packLoop, Nat.zero_add, e, Res.ok_andThen, e2]
    rfl
  show (complete (packData w.src.toNat w.len.toNat w)).status.errcode ≠ 0x00#8
  rw [hop'.1, hop'.2]
  show (complete (packData 0 1 w)).status.errcode ≠ 0x00#8
  rw [hd]
  simp [complete, State.finish, Status.finish, Error.code]

/-- The input, A A A A 0 B, lies under zero counts of the header, so six zero bytes are packed, four bits more than N counts,
and the file ends at DMEM_SIZE: only the flush fails. -/
def underEnd : State :=
  setm 3103 6 3063 (load 3103 [0x41#8, 0x41#8, 0x41#8, 0x41#8, 0x00#8, 0x42#8] small)

theorem witness_CompressIsItsCommands_flush :
    underEnd.src.toNat + underEnd.len.toNat ≤ underEnd.dmemSize ∧
      underEnd.dst.toNat + (analysedBy underEnd).fileBytes ≤ underEnd.dmemSize ∧
      (runs [.packInit, .packHeader, .packData] (analysedBy underEnd)).status.errcode = 0x00#8 ∧
      (runs [.packInit, .packHeader, .packData, .packFlush] (analysedBy underEnd)).status.errcode ≠ 0x00#8 := by
  rw [← and_assoc]
  refine ⟨by decide +kernel, ?_⟩
  rw [runs_cons, runs_cons, runs_cons, runs_nil, runs_cons, runs_cons, runs_cons, runs_cons, runs_nil]
  generalize hs : run .packInit (analysedBy underEnd) = s
  obtain ⟨hf, hc, hpk, hsz, hop⟩ : (s.freqAt 10 = 0 ∧ s.freqAt 11 = 0) ∧
      ((s.codeAt 0).valid = true ∧ (s.codeAt 0).len = 2 ∧ (s.codeAt 0).code.toNat < 4) ∧ s.pk = ⟨3063, 0, 0, 0⟩ ∧
      s.dmemSize = 4096 ∧ s.src = 3103 ∧ s.len = 6 := by rw [← hs]; decide +kernel
  clear hs
  obtain ⟨c, hc, hc4⟩ : ∃ c, s.codeAt 0 = ⟨true, 2, c⟩ ∧ c.toNat < 4 := by
    obtain ⟨c1, c2, c3⟩ := hc
    refine ⟨_, ?_, c3⟩
    rw [← c1, ← c2]
  obtain ⟨u, h1, h2, h3, -⟩ := packHeader_ok (s := s) (by rw [hpk]) (by rw [hpk, hsz]; decide)
  have hr : run .packHeader s = u.finish okCode 0 := by
    show complete (packHeader s) = _
    rw [h1]; rfl
  rw [hpk] at h3
  have hb : ∀ x, 3103 ≤ x → x < 3109 → (u.finish okCode 0).byte x = 0 := by
    intro x hx1 hx2
    by_cases hx : x < 3107
    · exact header_zero (t := u) (a := 3063) (sym := 10) h3 hf.1 (by simpa using hx1) (by simpa using hx)
    · exact header_zero (t := u) (a := 3063) (sym := 11) h3 hf.2 (by simp; omega) (by simp; omega)
  have hsz' : (u.finish okCode 0).dmemSize = 4096 := by rw [h2]; exact hsz
  have hop' : (u.finish okCode 0).src = 3103 ∧ (u.finish okCode 0).len = 6 := by rw [h2]; exact hop
  have hc' : (u.finish okCode 0).codeAt 0 = ⟨true, 2, c⟩ := by rw [h2]; exact hc
  have hpk' : (u.finish okCode 0).pk = ⟨4095, 1032, 0, 0⟩ := by
    rw [h2]; show (⟨s.pk.optr + 1032, s.pk.ocnt + 1032, s.pk.bblen, s.pk.bbuf⟩ : Packer) = _; rw [hpk]; rfl
  rw [hr]
  generalize u.finish okCode 0 = w at hb hsz' hop' hc' hpk'
  have hbytes : w.bytesAt 3103 6 = List.replicate 6 0 := by
    show [w.byte 3103, w.byte 3104, w.byte 3105, w.byte 3106, w.byte 3107, w.byte 3108] = _
    rw [hb _ (by omega) (by omega), hb _ (by omega) (by omega), hb _ (by omega) (by omega), hb _ (by omega) (by omega),
      hb _ (by omega) (by omega), hb _ (by omega) (by omega)]
    rfl
  have hv : ∀ b ∈ w.bytesAt 3103 6, (w.codeAt b).valid = true ∧ codeEntryOk (w.codeAt b) := by
    intro b hb
    rw [hbytes] at hb
    obtain rfl : b = 0 := List.eq_of_mem_replicate hb
    rw [hc']
    exact ⟨rfl, by simpa [codeEntryOk] using hc4⟩
  have hlen : ((w.bytesAt 3103 6).flatMap w.codeBits).length = 12 := by
    have hl : (w.codeBits 0#8).length = 2 := by rw [State.codeBits, show w.codeAt 0#8 = _ from hc']; rfl
    rw [hbytes, List.flatMap_replicate]
    simp [hl]
  obtain ⟨v, h4, h5, h6⟩ := packData_ok (src := 3103) (n := 6) (s := w) (k := 1) (by omega) hv (by rw [hpk']; decide) rfl
    (by rw [hlen, hpk']; rfl) (by rw [hpk', hsz']; decide)
    (by rw [hpk']; intro x _ h8 h9 _; change 4095 ≤ x at h9; omega)
  have hd : run .packData w = v.finish okCode 0 := by
    show complete (packData w.src.toNat w.len.toNat w) = _
    rw [hop'.1, hop'.2]
    show complete (packData 3103 6 w) = _
    rw [h4]; rfl
  rw [hd]
  refine ⟨rfl, ?_⟩
  have hn : (v.finish okCode 0).pk.bblen ≠ 0 := by
    intro h0
    have h7 := h6.bblen
    rw [show v.pk.bblen = 0 from h0, hlen, hpk'] at h7
    exact absurd h7 (by decide)
  have ho : (v.finish okCode 0).pk.optr = 4096 := by
    show v.pk.optr = _
    rw [h6.optr, hpk']; rfl
  have hz : (v.finish okCode 0).dmemSize = 4096 := by rw [h5]; exact hsz'
  generalize v.finish okCode 0 = y at hn ho hz
  show (complete (packFlush y)).status.errcode ≠ 0x00#8
  rw [packFlush, flushPending, if_neg hn, checkRange_raises (by rw [ho, hz]; decide)]
  simp [complete, State.finish, Status.finish, Error.code]

/-- A file of one byte with its header loaded. -/
def loadedFile (len dst : Word) : State := { file 1 1 len dst with freq := fileFreq 1, total := 1, result := 0 }

theorem fileFreq_sum (s : State) : ({ s with freq := fileFreq 1 } : State).freqSum = 1 := by
  show ((fileFreq 1).toList.map BitVec.toNat).sum = 1
  decide +kernel

theorem file_tree : (run .treeBuild { file 1 1 1033 4095 with freq := fileFreq 1 }).node
    (run .treeBuild { file 1 1 1033 4095 with freq := fileFreq 1 }).root = .leaf 0 1 := by decide +kernel

theorem loadedFile_tree : (run .treeBuild (loadedFile 1033 4096)).node (run .treeBuild (loadedFile 1033 4096)).root =
    .leaf 0 1 := by decide +kernel

theorem file_bits (len dst : Word) : (file 1 1 len dst).bitsAt 1032 1 = [false] ++ List.replicate 7 false := by
  rw [State.bitsAt_one, file_byte (by omega)]
  decide

theorem spells_zero {v : State} (h : v.node v.root = .leaf 0 1) : Spells v [false] [0x00#8] :=
  .cons (p := [false]) (.inr ⟨rfl, 1, h⟩) .nil

/-- A file of one byte, its symbol the only one, whose output goes to the last byte of DMEM. -/
theorem witness_DecompressWritesTheBytes :
    let s := file 1 1 1033 4095
    s.src.toNat + s.len.toNat ≤ s.dmemSize ∧ 1032 ≤ s.len.toNat ∧
      ({ s with freq := s.headerFreq s.src.toNat } : State).freqSum = s.headerTotal s.src.toNat ∧
      [0x00#8].length = s.headerTotal s.src.toNat ∧
      s.bitsAt (s.src.toNat + 1032) (s.len.toNat - 1032) = [false] ++ List.replicate 7 false ∧
      Spells (run .treeBuild { s with freq := s.headerFreq s.src.toNat }) [false] [0x00#8] ∧
      s.dst.toNat + [0x00#8].length ≤ s.dmemSize ∧ apart s.src.toNat s.len.toNat s.dst.toNat [0x00#8].length := by
  intro s
  have e2 : s.len.toNat = 1033 := rfl
  rw [show s.src.toNat = 0 from rfl, e2, show s.headerFreq 0 = fileFreq 1 from file_freq, show s.headerTotal 0 = 1 from file_total]
  exact ⟨by decide +kernel, by decide, fileFreq_sum s, rfl, file_bits _ _, spells_zero file_tree, by decide +kernel,
    fun x _ h4 h5 _ => by change 4095 ≤ x at h5; omega⟩

/-- The same with eight bytes behind the header. -/
theorem witness_DecompressWritesTheBytes_room :
    let s := file 1 1 1040 4095
    s.src.toNat + s.len.toNat ≤ s.dmemSize ∧ 1032 ≤ s.len.toNat ∧
      ({ s with freq := s.headerFreq s.src.toNat } : State).freqSum = s.headerTotal s.src.toNat ∧
      1032 + 8 * s.headerTotal s.src.toNat ≤ s.len.toNat ∧ s.dst.toNat + s.headerTotal s.src.toNat ≤ s.dmemSize ∧
      apart s.src.toNat s.len.toNat s.dst.toNat (s.headerTotal s.src.toNat) := by
  intro s
  have e2 : s.len.toNat = 1040 := rfl
  rw [show s.src.toNat = 0 from rfl, e2, show s.headerFreq 0 = fileFreq 1 from file_freq, show s.headerTotal 0 = 1 from file_total]
  exact ⟨by decide +kernel, by decide, fileFreq_sum s, by decide, by decide +kernel,
    fun x _ h4 h5 _ => by change 4095 ≤ x at h5; omega⟩

/-- Out of range; one byte short of a header; counts that do not sum to the length; and a failure whose output lies apart. -/
theorem witness_FailedDecompressWritesNothing :
    (setm 4096 1 0 small).dmemSize < (setm 4096 1 0 small).src.toNat + (setm 4096 1 0 small).len.toNat ∧
      ((file 1 1 1031 0).src.toNat + (file 1 1 1031 0).len.toNat ≤ (file 1 1 1031 0).dmemSize ∧
        (file 1 1 1031 0).len.toNat < 1032) ∧
      ((file 1 2 1032 0).src.toNat + (file 1 2 1032 0).len.toNat ≤ (file 1 2 1032 0).dmemSize ∧
        1032 ≤ (file 1 2 1032 0).len.toNat) := by decide +kernel

theorem loadedFile_eq (len dst : Word) : loadedFile len dst = { file 1 1 len dst with
    freq := (file 1 1 len dst).headerFreq 0, total := BitVec.ofNat 64 1, result := 0 } := by
  rw [file_freq]
  rfl

/-- No bit behind the header: the verify pass ends before the one symbol. -/
theorem witness_FailedDecompressWritesNothing_ends :
    let s := file 1 1 1032 4095
    let loaded := loadedFile 1032 4095
    let v := run .treeBuild loaded
    loaded = { s with freq := s.headerFreq s.src.toNat, total := BitVec.ofNat 64 (s.headerTotal s.src.toNat), result := 0 } ∧
      s.src.toNat + s.len.toNat ≤ s.dmemSize ∧ 1032 ≤ s.len.toNat ∧ loaded.freqSum = loaded.total.toNat ∧
      exec .treeBuild loaded = .next v ∧ Spells v [] [] ∧ ([] : List Byte).length < s.headerTotal s.src.toNat ∧
      s.bitsAt (s.src.toNat + 1032) (s.len.toNat - 1032) = [] ++ [] ∧ Reach v v.root [] v.root := by
  intro s loaded v
  rw [show s.src.toNat = 0 from rfl, show s.len.toNat = 1032 from rfl, show s.headerTotal 0 = 1 from file_total]
  exact ⟨loadedFile_eq 1032 4095,
    by decide +kernel, by decide, fileFreq_sum s, exec_run _ _, .nil, by decide, rfl, .here _⟩

/-- The output one byte too high. -/
theorem witness_FailedDecompressWritesNothing_bounds :
    let s := file 1 1 1033 4096
    let loaded := loadedFile 1033 4096
    let v := run .treeBuild loaded
    loaded = { s with freq := s.headerFreq s.src.toNat, total := BitVec.ofNat 64 (s.headerTotal s.src.toNat), result := 0 } ∧
      s.src.toNat + s.len.toNat ≤ s.dmemSize ∧ 1032 ≤ s.len.toNat ∧ loaded.freqSum = loaded.total.toNat ∧
      exec .treeBuild loaded = .next v ∧ Spells v [false] [0x00#8] ∧ [0x00#8].length = s.headerTotal s.src.toNat ∧
      s.bitsAt (s.src.toNat + 1032) (s.len.toNat - 1032) = [false] ++ List.replicate 7 false ∧
      s.dmemSize < s.dst.toNat + [0x00#8].length := by
  intro s loaded v
  have e2 : s.len.toNat = 1033 := rfl
  rw [show s.src.toNat = 0 from rfl, e2, show s.headerTotal 0 = 1 from file_total]
  exact ⟨loadedFile_eq 1033 4096,
    by decide +kernel, by decide, fileFreq_sum s, exec_run _ _, spells_zero loadedFile_tree, rfl, file_bits _ _, by decide +kernel⟩

theorem witness_FailedDecompressWritesNothing_sum (loaded : State) (h : loaded = { file 1 2 1032 0 with
    freq := (file 1 2 1032 0).headerFreq (file 1 2 1032 0).src.toNat
    total := BitVec.ofNat 64 ((file 1 2 1032 0).headerTotal (file 1 2 1032 0).src.toNat), result := 0 }) :
    loaded.freqSum ≠ loaded.total.toNat := by
  have e : (file 1 2 1032 0).src.toNat = 0 := rfl
  rw [e, file_freq, file_total] at h
  subst h
  decide +kernel

theorem witness_FailedDecompressWritesNothing_apart :
    let s := file 1 1 1031 1032
    apart s.src.toNat s.len.toNat s.dst.toNat (s.headerTotal s.src.toNat) ∧
      exec .decompress s = .next (run .decompress s) ∧ (run .decompress s).status.errcode ≠ 0x00#8 := by
  refine ⟨?_, exec_run _ _, by decide +kernel⟩
  intro x h3 h4 h5 h6
  change x < 0 + 1031 at h4; change 1032 ≤ x at h5
  omega

/-- One byte compressed to 1000 and then decompressed to 3000. -/
def once : State := setm 0 1 1000 (load 0 [0x41#8] small)

/-- The state DECOMPRESS is given. -/
def onceBack : State := { run .compress once with src := once.dst, len := (run .compress once).result, dst := 3000 }

theorem once_compresses : (run .compress once).status.errcode = 0x00#8 ∧ (run .compress once).result.toNat ≤ 1040 ∧
    (run .compress once).ctrl = once.ctrl ∧ (run .compress once).dmemLog = once.dmemLog := by
  obtain ⟨v, hv, he⟩ := compressLines_eq (src := 0) (len := 1) 1000 (s := once) (by decide +kernel)
  have hsz : once.dmemSize = 4096 := by decide
  have hlen : v.fileBytes ≤ 1040 := by
    have h1 : v.packedBits = (v.codeBits (once.byte 0)).length := by
      rw [hv.bits, State.bytesAt_cons]; simp [State.bytesAt]
    have h2 := hv.codes.entry (once.byte 0)
    have h3 : (v.codeBits (once.byte 0)).length ≤ 64 := by
      simp only [State.codeBits, bitsOf_length]
      unfold codeEntryOk at h2
      split at h2
      · exact h2.2.1
      · rw [h2.1]; decide
    have h4 : v.fileBytes = 1032 + (v.packedBits + 7) / 8 := rfl
    omega
  obtain ⟨t, u, w, -, h1, h2, h3, h4, -⟩ := compressLines_ok (src := 0) (len := 1) (dst := 1000) (s := once)
    (by rw [hsz]; decide) hv (by rw [hsz]; show 1000 + _ ≤ _; omega)
    (by intro x _ h6 h7 _; change 1000 ≤ x at h7; omega)
  have hd : v.dmemSize = 4096 := by rw [hv.frame]; exact hsz
  have hc : run .compress once = w.finish okCode 0 := by
    show complete ((compressLines 0 1 1000 once).onRaise State.zeroResult) = _
    rw [he, checkRange_ok (by rw [hd]; show 1000 + _ ≤ _; omega), Res.ok_andThen, h1, Res.ok_andThen, h2, Res.ok_andThen, h3]
    rfl
  rw [hc]
  refine ⟨rfl, ?_, ?_, ?_⟩
  · show w.result.toNat ≤ 1040
    rw [h4]
    show (BitVec.ofNat 32 v.fileBytes).toNat ≤ 1040
    rw [BitVec.toNat_ofNat]; omega
  · show w.ctrl = _
    rw [h4, hv.frame]
  · show w.dmemLog = _
    rw [h4, hv.frame]

theorem witness_RoundTrip :
    let t := run .compress once
    exec .compress once = .next t ∧ t.status.errcode = 0x00#8 ∧
      apart once.src.toNat once.len.toNat once.dst.toNat t.result.toNat ∧
      onceBack.ctrl.tiebrk = once.ctrl.tiebrk ∧ onceBack.dmemLog = once.dmemLog ∧
      onceBack.bytesAt once.dst.toNat t.result.toNat = t.bytesAt once.dst.toNat t.result.toNat ∧
      onceBack.src = once.dst ∧ onceBack.len = t.result ∧ onceBack.dst = 3000 ∧
      (3000 : Word).toNat + once.len.toNat ≤ once.dmemSize ∧
      apart (3000 : Word).toNat once.len.toNat once.dst.toNat t.result.toNat := by
  obtain ⟨h1, h2, h3, h4⟩ := once_compresses
  have e := exec_run .compress once
  have hsz : (3000 : Word).toNat + once.len.toNat ≤ once.dmemSize := by decide +kernel
  simp only [onceBack]
  generalize run .compress once = t at h1 h2 h3 h4 e ⊢
  refine ⟨e, h1, ?_, ?_, h4, rfl, trivial, trivial, trivial, hsz, ?_⟩
  · intro x _ h6 h7 _
    change x < 0 + 1 at h6; change 1000 ≤ x at h7
    omega
  · show t.ctrl.tiebrk = _
    rw [h3]
  · intro x h5 _ _ h8
    change 3000 ≤ x at h5; change x < 1000 + _ at h8
    omega

/-! The host port -/

/-- Each end of each reserved range, a byte outside DMEM, a misaligned word; and accesses that are none of these. -/
theorem witness_BusErrorsChangeNothing :
    (∀ n ∈ [0x000058, 0x0003FF, 0x000800, 0x000FFF, 0x004800, 0x7FFFFF, 0x900000, 0xFFFFFF],
      n < 2 ^ 24 ∧ start.reservedAddr (BitVec.ofNat 24 n).toNat) ∧
    (0x7FFFFF#24).toNat < 0x800000 ∧ (0x800002#24).toNat % 4 ≠ 0 ∧
    (∀ c ∈ [(Size.b, 0x800000), (.b, 0x8FFFFF), (.w, 0x8FFFFC), (.w, 0x000054), (.w, 0x000400)],
      ¬ (start.reservedAddr (BitVec.ofNat 24 c.2).toNat ∨ (c.1 = .b ∧ (BitVec.ofNat 24 c.2).toNat < 0x800000) ∨
        (c.1 = .w ∧ (BitVec.ofNat 24 c.2).toNat % 4 ≠ 0))) := by
  unfold State.reservedAddr
  decide +kernel

theorem witness_BusErrorsChangeNothing_turn (t : Txn) :
    (start.withEvents [.host t]).env.rst = false ∧ (start.withEvents [.host t]).hostTurn t [] := ⟨rfl, rfl⟩

/-- The ends of the ranges of read-only words. -/
theorem witness_BusErrorsChangeNothing_readonly :
    ∀ n ∈ [0x000000, 0x000054, 0x001000, 0x0047FC], (BitVec.ofNat 24 n).toNat % 4 = 0 ∧
      ((BitVec.ofNat 24 n).toNat ∈
          [0x000, 0x004, 0x020, 0x024, 0x028, 0x02C, 0x030, 0x03C, 0x040, 0x044, 0x048, 0x04C, 0x050, 0x054] ∨
        (0x001000 ≤ (BitVec.ofNat 24 n).toNat ∧ (BitVec.ofNat 24 n).toNat < 0x004800)) := by decide +kernel

theorem witness_BusyAccessesAreGated (t : Txn) :
    ((busyWith 0x80000000#32 start).withEvents [.host t]).env.rst = false ∧
      ((busyWith 0x80000000#32 start).withEvents [.host t]).status.busy = true ∧
      ((busyWith 0x80000000#32 start).withEvents [.host t]).hostTurn t [] := ⟨rfl, rfl, rfl⟩

/-- The ends of the gated and the read-only ranges. -/
theorem witness_BusyAccessesAreGated_addresses :
    (∀ n ∈ [0x000008, 0x000038, 0x000400, 0x0007FC, 0x800000, 0x8FFFFC],
      n < 2 ^ 24 ∧ (n ∈ [0x008, 0x014, 0x018, 0x01C, 0x034, 0x038] ∨ (0x000400 ≤ n ∧ n < 0x000800 ∧ n % 4 = 0) ∨
        (0x800000 ≤ n ∧ n < 0x800000 + start.dmemSize ∧ n % 4 = 0)) ∧ ¬ start.reservedAddr n) ∧
    (∀ n ∈ [0x001000, 0x0047FC], 0x001000 ≤ n ∧ n < 0x004800 ∧ n % 4 = 0) ∧
    (0x8FFFFF#24).toNat < 0x800000 + start.dmemSize := by
  unfold State.reservedAddr
  decide +kernel

theorem witness_IdleWritesReachTheirRegister :
    start.env.rst = false ∧ start.status.busy = false ∧ decode 0x81000000#32 = .ok .decompress ∧
      ¬ ∃ i, decode 0x82000000#32 = .ok i := ⟨rfl, rfl, by decide, not_decodes (by decide)⟩

theorem witness_IdleRegisterReads : start.env.rst = false ∧ start.status.busy = false ∧ start.Inv :=
  ⟨rfl, rfl, inv_of_check (by decide +kernel)⟩

/-- The registers with reserved bits, and a DMEM byte, at both ends. -/
theorem witness_IdleRegisterReads_reserved :
    (0x00004C#24, 0x01FF0007#32) ∈ [(0x000028#24, 0x000001FF#32), (0x00002C#24, 0x000003FF#32), (0x000030#24, 0x000003FF#32),
      (0x000044#24, 0x0000FF07#32), (0x00004C#24, 0x01FF0007#32)] ∧
    (∀ n ∈ [0x800000, 0x8FFFFF], n < 2 ^ 24 ∧ 0x800000 ≤ n ∧ n < 0x800000 + start.dmemSize) := by decide +kernel

/-- The last node of a full arena; the last slot of a full heap; the ends of the two windows. -/
theorem witness_WindowsShowTheArrays :
    ((510#9).toNat < (arena 511).nodeCount ∧ 510#9 ≠ nilIx) ∧
      ({ arena 1 with heap := List.replicate 512 0#9 } : State).heap[511]? = some 0#9 ∧
      (∀ n ∈ [0x002000, 0x0047FC], 0x002000 ≤ n ∧ n < 0x004800 ∧ n % 4 = 0) := by decide +kernel

theorem witness_DmemWindowIsLittleEndian :
    start.env.rst = false ∧ start.status.busy = false ∧ 0xFFFFF < start.dmemSize ∧
      (0xFFFFC < start.dmemSize ∧ 0xFFFFC % 4 = 0) := by decide +kernel

theorem witness_IdleKeepsItsState :
    start.env.rst = false ∧ start.status.busy = false ∧ start.coreTurn [] ∧
      (start.withEvents [.host (.wr .w 0x000014#24 7)]).hostTurn (.wr .w 0x000014#24 7) [] ∧
      step (start.withEvents [.host (.wr .w 0x000014#24 7)]) = .next (host (.wr .w 0x000014#24 7) start) ∧
      ∀ size w, Txn.wr .w 0x000014#24 7 ≠ .wr size 0x000010#24 w :=
  ⟨rfl, rfl, .inl ⟨rfl, rfl⟩, rfl, rfl, fun _ _ h => by simp at h⟩

end Sys2Proof.Tests
end

section
/-! PROOF. Commands as bodies that `finish` completes, and the frame of each body: what its rule does not name as written
is left alone. -/

namespace Sys2Proof.Machine

/-! What the commands of the opcode table do before they complete (30_encoding.md R107): one body per command, and
`exec` is its completion. -/

/-- The pseudocode of a command up to `finish`. -/
def body (i : Instr) (s : State) : Res Unit :=
  match i with
  | .nop => .ok () s
  | .clear => .ok () s.clearDatapath
  | .freqClear => .ok () s.clearFreq
  | .freqCount => freqCount s.srcOffset s.byteCount s
  | .pqClear => .ok () { s with heap := [] }
  | .pqInsert na => pqInsert na s
  | .pqExtract => pqExtract s
  | .pqSize => .ok () { s with result := BitVec.ofNat 32 s.pqSize }
  | .nodeClear => .ok () s.clearTree
  | .nodeLeaf sym => storeIndex (newLeaf sym s)
  | .nodeJoin na nb => storeIndex (newJoin na nb s)
  | .treeBuild => treeBuild s
  | .treeSetroot na => treeSetroot na s
  | .codeGen => codeGen s
  | .packInit => .ok () (s.initPacker s.dst)
  | .packHeader => packHeader s
  | .packSym sym => packSymbol sym s
  | .packData => packData s.srcOffset s.byteCount s
  | .packFlush => packFlush s
  | .hdrParse => hdrParse s.srcOffset s.byteCount s
  | .unpack => unpack true s.srcOffset s.byteCount s.dstOffset s
  | .compress => compress s
  | .decompress => decompress s

/-- Every command is its body and its completion (60_exceptions.md R252). -/
theorem exec_eq_complete_body (i : Instr) (s : State) : exec i s = .next (complete (body i s)) := by
  cases i <;> rfl

theorem complete_body_of_exec {i : Instr} {s t : State} (h : exec i s = .next t) : t = complete (body i s) := by
  rw [exec_eq_complete_body] at h
  exact (Host.Outcome.next.inj h).symm

/-- Completion leaves alone what does not read STATUS and ERRINFO. -/
theorem complete_keeps {γ : Type} {p : State → γ} (hp : ∀ (s : State) c i, p (s.finish c i) = p s) (r : Res Unit) :
    p (complete r) = p r.state := by
  cases r with
  | ok u s => exact hp s _ _
  | raised e s => exact hp s _ _

/-! Which pieces of state a command's rule names as written. -/

/-- The pieces of state some command writes. -/
structure Writes where
  result : Bool := false
  root   : Bool := false
  nodes  : Bool := false
  heap   : Bool := false
  counts : Bool := false
  code   : Bool := false
  walk   : Bool := false
  packer : Bool := false
  unpacker : Bool := false
  memory : Bool := false

/-- The writers named by the rules: RESULT (10_state.md R28), ROOT and the arrays (R30, R32, R40 to R43), the walk's scratch
state (R45), the packer (R33), the unpacker (R34) and DMEM (20_memory.md R85). -/
def writesOf : Instr → Writes
  | .nop => {}
  | .clear =>
    { result := true, root := true, nodes := true, heap := true, counts := true, code := true, packer := true, unpacker := true }
  | .freqClear => { counts := true }
  | .freqCount => { counts := true, result := true }
  | .pqClear => { heap := true }
  | .pqInsert _ => { heap := true }
  | .pqExtract => { heap := true, result := true }
  | .pqSize => { result := true }
  | .nodeClear => { root := true, nodes := true, heap := true }
  | .nodeLeaf _ => { nodes := true, result := true }
  | .nodeJoin _ _ => { nodes := true, result := true }
  | .treeBuild => { root := true, nodes := true, heap := true, result := true }
  | .treeSetroot _ => { root := true }
  | .codeGen => { code := true, walk := true, result := true }
  | .packInit => { packer := true }
  | .packHeader => { packer := true, memory := true }
  | .packSym _ => { packer := true, memory := true }
  | .packData => { packer := true, memory := true, result := true }
  | .packFlush => { packer := true, memory := true, result := true }
  | .hdrParse => { counts := true, result := true }
  | .unpack => { unpacker := true, memory := true, result := true }
  | .compress =>
    { root := true, nodes := true, heap := true, counts := true, code := true, walk := true, packer := true, memory := true
      result := true }
  | .decompress =>
    { root := true, nodes := true, heap := true, counts := true, unpacker := true, memory := true, result := true }

/-- The state with the pieces in `w`, and what completion writes, blotted out: two states with one mask agree on every
other piece. -/
def State.mask (w : Writes) (s : State) : State :=
  { s with
    status := { s.status with busy := false, done := false, err := false, phase := .idle, errcode := 0 }
    errinfo := 0
    result := bif w.result then 0 else s.result
    root := bif w.root then 0 else s.root
    nodes := bif w.nodes then [] else s.nodes
    heap := bif w.heap then [] else s.heap
    freq := bif w.counts then Vector.replicate 256 0 else s.freq
    total := bif w.counts then 0 else s.total
    code := bif w.code then Vector.replicate 256 .invalid else s.code
    walk := bif w.walk then { visited := [], stack := [] } else s.walk
    env := bif w.walk then { s.env with draws := 0 } else s.env
    pk := bif w.packer then { optr := 0, ocnt := 0, bblen := 0, bbuf := 0 } else s.pk
    up := bif w.unpacker then { iptr := 0, bitpos := 0, cursor := 0, emit := 0 } else s.up
    dmem := bif w.memory then [] else s.dmem }

/-- What a mask does not blot out is the same in two states with one mask. -/
theorem State.eq_of_mask {γ : Type} {w : Writes} {s t : State} (h : t.mask w = s.mask w) (get : State → γ)
    (hget : ∀ u : State, get (u.mask w) = get u) : get t = get s := by
  rw [← hget t, h, hget s]

/-- The frame of every command body: only what its rule names is written. -/
theorem body_frame (i : Instr) (s : State) : (body i s).state.mask (writesOf i) = s.mask (writesOf i) := by
  cases i with
  | nop | clear | freqClear | pqClear | pqSize | nodeClear | packInit => rfl
  | freqCount => exact freqCount_keeps (fun _ _ _ => rfl) (fun _ _ => rfl) _ _ s
  | pqInsert na => exact pqInsert_keeps (fun _ _ => rfl) na s
  | pqExtract => exact pqExtract_keeps (fun _ _ => rfl) (fun _ _ => rfl) s
  | nodeLeaf sym =>
    exact (storeIndex_keeps (fun _ _ => rfl) _).trans (newLeaf_keeps (fun _ _ => rfl) sym s)
  | nodeJoin na nb =>
    exact (storeIndex_keeps (fun _ _ => rfl) _).trans (newJoin_keeps (fun _ _ => rfl) na nb s)
  | treeBuild => exact treeBuild_keeps (fun _ _ => rfl) (fun _ _ => rfl) (fun _ => rfl) (fun _ _ => rfl) s
  | treeSetroot na => exact treeSetroot_keeps (fun _ _ => rfl) na s
  | codeGen => exact codeGen_keeps (fun _ _ => rfl) (fun _ _ _ _ => rfl) (fun _ => rfl) (fun _ => rfl) s
  | packHeader => exact packHeader_keeps (fun _ _ _ => rfl) (fun _ _ => rfl) s
  | packSym sym => exact packSymbol_keeps (fun _ _ _ => rfl) (fun _ _ => rfl) sym s
  | packData => exact packData_keeps (fun _ _ _ => rfl) (fun _ _ => rfl) (fun _ _ => rfl) _ _ s
  | packFlush => exact packFlush_keeps (fun _ _ _ => rfl) (fun _ _ => rfl) (fun _ _ => rfl) s
  | hdrParse => exact hdrParse_keeps (fun _ _ _ => rfl) (fun _ _ => rfl) (fun _ _ => rfl) _ _ s
  | unpack => exact unpack_keeps (fun _ _ _ => rfl) (fun _ _ => rfl) (fun _ _ => rfl) _ _ _ _ s
  | compress =>
    exact compress_keeps (fun _ _ _ => rfl) (fun _ => rfl) (fun _ _ => rfl) (fun _ _ => rfl) (fun _ => rfl) (fun _ _ => rfl)
      (fun _ _ => rfl) (fun _ _ _ _ => rfl) (fun _ => rfl) (fun _ => rfl) (fun _ _ _ => rfl) (fun _ _ => rfl)
      (fun _ _ => rfl) s
  | decompress =>
    exact decompress_keeps (fun _ _ _ => rfl) (fun _ _ => rfl) (fun _ _ => rfl) (fun _ _ => rfl) (fun _ => rfl)
      (fun _ _ => rfl) (fun _ _ _ => rfl) (fun _ _ => rfl) (fun _ _ => rfl) s

/-- The frame of every command: only what its rule names, and what completion writes, is written (60_exceptions.md R260). -/
theorem exec_frame {i : Instr} {s t : State} (h : exec i s = .next t) : t.mask (writesOf i) = s.mask (writesOf i) := by
  rw [complete_body_of_exec h, complete_keeps (p := State.mask (writesOf i)) (fun _ _ _ => rfl), body_frame]

end Sys2Proof.Machine
end

section
/-! PROOF. Where the commands store in DMEM (20_memory.md R85). -/

namespace Sys2Proof.Machine

/-- DMEM as the model holds it: in its canonical form, every listed cell inside DMEM (20_memory.md R72). -/
def MemoryOk (k : Fin 12) (m : List Host.Cell) : Prop := Memory.wf m ∧ ∀ c ∈ m, c.1 < Config.dmemSize k

theorem MemoryOk.store {k : Fin 12} {m : List Host.Cell} (h : MemoryOk k m) {a : Nat} (ha : a < Config.dmemSize k)
    (v : Byte) : MemoryOk k (Memory.store m a v) := by
  refine ⟨Memory.wf_store h.1 a v, fun c hc => ?_⟩
  rcases Memory.mem_store hc with rfl | hc
  · exact ha
  · exact h.2 c hc

/-- From s to t, DMEM was changed by byte writes inside DMEM to addresses of [lo, hi) alone. -/
structure StoresWithin (lo hi : Nat) (s t : State) : Prop where
  size : t.dmemLog = s.dmemLog
  epoch : t.env.epoch = s.env.epoch
  form : MemoryOk s.dmemLog s.dmem → MemoryOk t.dmemLog t.dmem
  others : ∀ x, ¬ (lo ≤ x ∧ x < hi) → t.byte x = s.byte x

/-- What a piece that writes no DMEM byte leaves alone of DMEM. -/
def State.memory (s : State) : List Host.Cell × Fin 12 × Nat := (s.dmem, s.dmemLog, s.env.epoch)

@[simp] theorem State.memory_advancePacker (s : State) (n : Word) : (s.advancePacker n).memory = s.memory := rfl

theorem State.memory_mask {w : Writes} (hw : w.memory = false) (s : State) : (s.mask w).memory = s.memory := by
  simp only [State.mask, State.memory, hw, cond_false]
  cases w.walk <;> rfl

theorem StoresWithin.of_memory {lo hi : Nat} {s t : State} (h : t.memory = s.memory) : StoresWithin lo hi s t := by
  simp only [State.memory, Prod.mk.injEq] at h
  obtain ⟨hm, hk, he⟩ := h
  exact ⟨hk, he, fun hf => by rwa [hm, hk], fun x _ => State.byte_congr hm he x⟩

/-- A sequence whose first piece keeps P, and whose rest makes Q of P, where P itself gives Q. -/
theorem Res.state_andThen_of {α β : Type} {r : Res α} {f : α → State → Res β} {P Q : State → Prop} (h1 : P r.state)
    (hPQ : ∀ t, P t → Q t) (h2 : ∀ a t, P t → Q (f a t).state) : Q (r.andThen f).state := by
  cases r with
  | ok a s => exact h2 a s h1
  | raised e s => exact hPQ s h1

theorem StoresWithin.refl {lo hi : Nat} (s : State) : StoresWithin lo hi s s := .of_memory rfl

theorem StoresWithin.trans {lo hi : Nat} {s t u : State} (h1 : StoresWithin lo hi s t) (h2 : StoresWithin lo hi t u) :
    StoresWithin lo hi s u where
  size := h2.size.trans h1.size
  epoch := h2.epoch.trans h1.epoch
  form h := h2.form (h1.form h)
  others x hx := (h2.others x hx).trans (h1.others x hx)

theorem StoresWithin.mono {lo hi lo' hi' : Nat} {s t : State} (h : StoresWithin lo hi s t) (hl : lo' ≤ lo) (hh : hi ≤ hi') :
    StoresWithin lo' hi' s t :=
  ⟨h.size, h.epoch, h.form, fun x hx => h.others x (by omega)⟩

/-- One byte written inside DMEM. -/
theorem StoresWithin.setByte {lo hi a : Nat} {s : State} (hs : a < s.dmemSize) (hl : lo ≤ a) (hh : a < hi) (v : Byte) :
    StoresWithin lo hi s (s.setByte a v) where
  size := rfl
  epoch := rfl
  form h := h.store hs v
  others x hx := by rw [State.byte_setByte, if_neg (by omega)]

/-! Big-endian fields (20_memory.md R76) -/

theorem storesWithin_putBigEndian {lo hi a n : Nat} (v : Nat) (hl : lo ≤ a) (hh : a + n ≤ hi) : ∀ (j : Nat) (s : State),
    a + n ≤ s.dmemSize → j ≤ n → StoresWithin lo hi s (State.putBigEndian a n v j s)
  | 0, s, _, _ => .refl s
  | j + 1, s, hs, hj =>
    (StoresWithin.setByte (a := a + (n - (j + 1))) (by omega) (by omega) (by omega) _).trans
      (storesWithin_putBigEndian v hl hh j _ hs (by omega))

theorem storesWithin_memWriteBE {lo hi a n : Nat} (v : Nat) (s : State) (hl : lo ≤ a) (hh : a + n ≤ hi) :
    StoresWithin lo hi s (memWriteBE a n v s).state := by
  by_cases hr : a + n ≤ s.dmemSize
  · rw [memWriteBE_ok hr]
    exact storesWithin_putBigEndian v hl hh n s hr le_rfl
  · rw [memWriteBE, checkRange_raises (by omega)]
    exact .refl s

/-! The packer (45_pack.md): it stores from where OPTR stood up to where OPTR stands. -/

/-- Since s, bytes were stored from lo up to OPTR alone. -/
def StoredToOptr (s : State) (lo : Nat) (t : State) : Prop := StoresWithin lo t.pk.optr.toNat s t

/-- Since s, the packer moved OPTR up from lo and stored no byte beyond it. -/
structure PackedFrom (s : State) (lo : Nat) (t : State) : Prop where
  start : lo ≤ t.pk.optr.toNat
  stores : StoredToOptr s lo t

theorem PackedFrom.refl (s : State) : PackedFrom s s.pk.optr.toNat s := ⟨le_rfl, .refl s⟩

/-- A change of neither DMEM nor OPTR. -/
theorem PackedFrom.congr {s t u : State} {lo : Nat} (h : PackedFrom s lo t) (hm : u.memory = t.memory)
    (ho : u.pk.optr = t.pk.optr) : PackedFrom s lo u := by
  refine ⟨by rw [ho]; exact h.start, ?_⟩
  rw [StoredToOptr, ho]
  exact StoresWithin.trans h.stores (.of_memory hm)

/-- A DMEM offset is far below the largest OPTR. -/
theorem optr_advance {p : Word} {n size : Nat} (h : p.toNat + n ≤ size) (hs : size ≤ 2 ^ 23) :
    (p + BitVec.ofNat 32 n).toNat = p.toNat + n := by
  rw [BitVec.toNat_add, BitVec.toNat_ofNat]; omega

/-- One byte written at OPTR, and OPTR past it (R201, R206). -/
theorem PackedFrom.writeByte {s t : State} {lo : Nat} (h : PackedFrom s lo t) (hs : t.pk.optr.toNat < t.dmemSize) (v : Byte) :
    PackedFrom s lo ((t.setByte t.pk.optr.toNat v).advancePacker 1) := by
  have ho : ((t.setByte t.pk.optr.toNat v).advancePacker 1).pk.optr.toNat = t.pk.optr.toNat + 1 :=
    optr_advance hs t.dmemSize_le
  have hlo := h.start
  refine ⟨by omega, ?_⟩
  rw [StoredToOptr, ho]
  exact ((StoresWithin.mono h.stores le_rfl (by omega)).trans (StoresWithin.setByte hs hlo (by omega) v)).trans (.of_memory rfl)

theorem drainBytes_packedFrom {s : State} {lo : Nat} : ∀ (f n acc : Nat) (t : State), PackedFrom s lo t →
    PackedFrom s lo (drainBytes f n acc t).state
  | 0, _, _, _, h => h
  | f + 1, n, acc, t, h => by
    unfold drainBytes
    split
    · by_cases hs : t.pk.optr.toNat < t.dmemSize
      · rw [memWrite_ok hs]
        exact drainBytes_packedFrom f _ _ _ (h.writeByte hs _)
      · rw [memWrite, if_pos (by omega)]
        exact h
    · exact h

theorem append_packedFrom {s t : State} {lo : Nat} (h : PackedFrom s lo t) (c l : Nat) :
    PackedFrom s lo (append c l t).state := by
  refine Res.state_andThen (P := PackedFrom s lo) (by rwa [checkRange_state]) fun _ u hu => ?_
  exact Res.state_andThen (P := PackedFrom s lo) (drainBytes_packedFrom _ _ _ u hu) fun r v hv => hv.congr rfl rfl

theorem packSymbol_packedFrom {s t : State} {lo : Nat} (h : PackedFrom s lo t) (sym : Sym) :
    PackedFrom s lo (packSymbol sym t).state := by
  unfold packSymbol
  split
  · exact append_packedFrom h _ _
  · exact h

theorem packLoop_packedFrom {s : State} {lo : Nat} (src : Nat) : ∀ (n i : Nat) (t : State), PackedFrom s lo t →
    PackedFrom s lo (packLoop src n i t).state
  | 0, _, _, h => h
  | n + 1, i, t, h => by
    refine Res.state_andThen (P := PackedFrom s lo) (by rwa [memRead_state]) fun b u hu => ?_
    exact Res.state_andThen (P := PackedFrom s lo) (packSymbol_packedFrom hu b) fun _ v hv =>
      packLoop_packedFrom src n _ _ (hv.congr rfl rfl)

theorem packData_packedFrom {s t : State} {lo : Nat} (h : PackedFrom s lo t) (src len : Nat) :
    PackedFrom s lo (packData src len t).state :=
  Res.state_andThen (P := PackedFrom s lo) (by rwa [checkRange_state]) fun _ _ hu =>
    packLoop_packedFrom src len 0 _ (hu.congr rfl rfl)

theorem headerLoop_storesWithin {s : State} {lo hi a : Nat} (hl : lo ≤ a) (hh : a + 1024 ≤ hi) : ∀ (n : Nat) (t : State),
    n ≤ 256 → StoresWithin lo hi s t → StoresWithin lo hi s (headerLoop a n t).state
  | 0, _, _, h => h
  | n + 1, t, hn, h => by
    unfold headerLoop
    refine Res.state_andThen (P := StoresWithin lo hi s) (h.trans (storesWithin_memWriteBE _ t ?_ ?_)) fun _ u hu =>
      headerLoop_storesWithin hl hh n u (by omega) hu
    · omega
    · omega

/-- The header's writes lie in the 1032 bytes from OPTR on (R203), whether the command succeeds or fails. -/
theorem packHeader_storesWithin {lo hi : Nat} {s : State} (hl : lo ≤ s.pk.optr.toNat) (hh : s.pk.optr.toNat + 1032 ≤ hi) :
    StoresWithin lo hi s (packHeader s).state := by
  unfold packHeader
  split
  · exact .refl s
  · refine Res.state_andThen (P := StoresWithin lo hi s) (by rw [checkRange_state]; exact .refl s) fun _ t ht => ?_
    refine Res.state_andThen (P := StoresWithin lo hi s)
      (headerLoop_storesWithin hl (by omega) 256 t le_rfl ht) fun _ u hu => ?_
    exact Res.state_andThen (P := StoresWithin lo hi s)
      (hu.trans (storesWithin_memWriteBE _ u (by omega) (by omega))) fun _ v hv =>
        hv.trans (.of_memory (v.memory_advancePacker _))

/-- PACK_HEADER writes its whole header or nothing, since its range is checked first (R203). -/
theorem packHeader_packedFrom {s t : State} {lo : Nat} (h : PackedFrom s lo t) : PackedFrom s lo (packHeader t).state := by
  have hlo := h.start
  by_cases hb : t.pk.bblen = 0
  · by_cases hr : t.pk.optr.toNat + 1032 ≤ t.dmemSize
    · obtain ⟨u, hu, hframe, -, -⟩ := packHeader_ok hb hr
      have hst := packHeader_storesWithin hlo (le_refl (t.pk.optr.toNat + 1032))
      rw [hu] at hst ⊢
      have ho : u.pk.optr.toNat = t.pk.optr.toNat + 1032 := by
        rw [hframe]; exact optr_advance hr t.dmemSize_le
      refine ⟨by simp only [Res.state_ok]; omega, ?_⟩
      simp only [Res.state_ok, StoredToOptr] at hst ⊢
      rw [ho]
      exact (StoresWithin.mono h.stores le_rfl (by omega)).trans hst
    · rw [packHeader, if_neg (not_not.mpr hb)]
      simp only [checkRange_raises (show t.dmemSize < t.pk.optr.toNat + Config.hdrBytes from Nat.lt_of_not_le hr)]
      exact h
  · rw [packHeader, if_pos hb]
    exact h

theorem flushPending_packedFrom {s t : State} {lo : Nat} (h : PackedFrom s lo t) :
    PackedFrom s lo (flushPending t).state := by
  unfold flushPending
  split
  · exact h
  · by_cases hs : t.pk.optr.toNat < t.dmemSize
    · rw [checkRange_ok hs, Res.ok_andThen, memWrite_ok hs]
      exact (h.writeByte hs _).congr rfl rfl
    · rw [checkRange_raises (by omega)]
      exact h

theorem packFlush_packedFrom {s t : State} {lo : Nat} (h : PackedFrom s lo t) : PackedFrom s lo (packFlush t).state :=
  Res.state_andThen (P := PackedFrom s lo) (flushPending_packedFrom h) fun _ _ hu => hu.congr rfl rfl

/-! The unpacker (46_unpack.md): it stores the EMIT bytes from DST on. -/

/-- Since s, the unpacker stored the first EMIT bytes from dst on. -/
def EmittedFrom (s : State) (dst : Nat) (t : State) : Prop := StoresWithin dst (dst + t.up.emit.toNat) s t

theorem EmittedFrom.congr {s t u : State} {dst : Nat} (h : EmittedFrom s dst t) (hm : u.memory = t.memory)
    (he : u.up.emit = t.up.emit) : EmittedFrom s dst u := by
  unfold EmittedFrom
  rw [he]
  exact StoresWithin.trans h (.of_memory hm)

theorem EmittedFrom.setCursor {s t : State} {dst : Nat} (h : EmittedFrom s dst t) (n : NodeIx) :
    EmittedFrom s dst (t.setCursor n) := h.congr rfl rfl

/-- A symbol emitted, where EMIT is below TOTAL and so does not wrap (R224, R226). -/
theorem emitSymbol_emittedFrom {s t : State} {dst : Nat} (h : EmittedFrom s dst t) (he : t.up.emit.toNat < t.total.toNat)
    (sym : Sym) : EmittedFrom s dst (emitSymbol true dst sym t).state := by
  by_cases hs : dst + t.up.emit.toNat < t.dmemSize
  · rw [emitSymbol, if_pos rfl, memWrite_ok hs]
    have hc : (t.setByte (dst + t.up.emit.toNat) sym).countSymbol.up.emit.toNat = t.up.emit.toNat + 1 := by
      have := t.total.isLt
      rw [State.countSymbol_emit, State.setByte_up, BitVec.toNat_add]
      exact Nat.mod_eq_of_lt (show t.up.emit.toNat + 1 < 2 ^ 64 by omega)
    simp only [Res.ok_andThen, Res.state_ok, EmittedFrom]
    rw [hc]
    exact ((StoresWithin.mono h le_rfl (by omega)).trans (StoresWithin.setByte hs (by omega) (by omega) sym)).trans
      (.of_memory rfl)
  · rw [emitSymbol, if_pos rfl, memWrite, if_pos (by omega)]
    exact h

theorem stepBit_emittedFrom {s t : State} {dst : Nat} (h : EmittedFrom s dst t) (he : t.up.emit.toNat < t.total.toNat) (b : Bool) :
    EmittedFrom s dst (stepBit true dst b t).state := by
  unfold stepBit
  split
  · exact emitSymbol_emittedFrom h he _
  · dsimp only
    split
    · exact Res.state_andThen (P := EmittedFrom s dst) (emitSymbol_emittedFrom (h.setCursor _) (by simpa using he) _)
        fun _ _ hu => hu.setCursor _
    · exact h.setCursor _

/-- A bit read leaves DMEM, EMIT and TOTAL alone (R223). -/
theorem nextBit_frame (iend : Nat) (t : State) :
    ((nextBit iend t).state.memory, (nextBit iend t).state.up.emit, (nextBit iend t).state.total)
      = (t.memory, t.up.emit, t.total) := by
  unfold nextBit
  split
  · rfl
  · exact Res.keeps_andThen (p := fun u => (u.memory, u.up.emit, u.total)) (by rw [memRead_state]) fun _ _ => rfl

/-- The unpacker's loop (R222, R226). -/
theorem unpackLoop_emittedFrom {s : State} {iend dst : Nat} : ∀ (n : Nat) (t : State), EmittedFrom s dst t →
    EmittedFrom s dst (unpackLoop true iend dst n t).state
  | 0, _, h => h
  | n + 1, t, h => by
    unfold unpackLoop
    split
    · rename_i hlt
      have hn := nextBit_frame iend t
      simp only [Prod.mk.injEq] at hn
      obtain ⟨hm, he, ht⟩ := hn
      refine Res.state_andThen_of (P := fun u => EmittedFrom s dst u ∧ u.up.emit.toNat < u.total.toNat)
        ⟨h.congr hm he, by rwa [he, ht]⟩ (fun _ hu => hu.1) fun b u hu => ?_
      exact Res.state_andThen (P := EmittedFrom s dst) (stepBit_emittedFrom hu.1 hu.2 b) fun _ v hv =>
        unpackLoop_emittedFrom n v hv
    · exact h

theorem unpack_emittedFrom {s t : State} (h : t.memory = s.memory) (src len dst : Nat) :
    EmittedFrom s dst (unpack true src len dst t).state := by
  refine Res.state_andThen_of (P := fun u => u.memory = s.memory) (by rwa [checkRange_state])
    (fun u hu => .of_memory hu) fun _ u hu => ?_
  have hinit : EmittedFrom s dst (u.initUnpacker src) := .of_memory hu
  dsimp only
  split
  · exact hinit
  · split
    · exact hinit
    · exact unpackLoop_emittedFrom _ _ hinit

/-! The codec (47_codec.md) -/

/-- What RESULT <- 0 on an error leaves alone holds of the whole sequence. -/
theorem Res.state_onRaise {α : Type} {r : Res α} {f : State → State} {Q : State → Prop} (h : Q r.state)
    (hf : ∀ t, Q t → Q (f t)) : Q (r.onRaise f).state := by
  cases r with
  | ok a t => exact h
  | raised e t => exact hf t h

/-- COMPRESS stores from DST up to where it leaves OPTR (R240). -/
theorem compress_storedToOptr (s : State) : StoredToOptr s s.dst.toNat (compress s).state := by
  have untouched : ∀ t : State, t.memory = s.memory → StoredToOptr s s.dst.toNat t := fun _ => .of_memory
  unfold compress compressLines
  refine Res.state_onRaise (Q := StoredToOptr s s.dst.toNat) ?_ fun t ht => StoresWithin.trans ht (.of_memory rfl)
  refine Res.state_andThen_of (P := fun t => t.memory = s.memory) (by rw [checkRange_state]) untouched fun _ t ht => ?_
  refine Res.state_andThen_of (P := fun t => t.memory = s.memory)
    ((freqCount_keeps (fun _ _ _ => rfl) (fun _ _ => rfl) _ _ _).trans ht) untouched fun _ t ht => ?_
  refine Res.state_andThen_of (P := fun t => t.memory = s.memory)
    ((treeBuild_keeps (fun _ _ => rfl) (fun _ _ => rfl) (fun _ => rfl) (fun _ _ => rfl) t).trans ht) untouched fun _ t ht => ?_
  refine Res.state_andThen_of (P := fun t => t.memory = s.memory)
    ((codeGen_keeps (fun _ _ => rfl) (fun _ _ _ _ => rfl) (fun _ => rfl) (fun _ => rfl) t).trans ht) untouched fun _ t ht => ?_
  refine Res.state_andThen_of (P := fun t => t.memory = s.memory) (by rwa [checkRange_state]) untouched fun _ t ht => ?_
  have hstart : PackedFrom s s.dst.toNat (t.initPacker s.dst) := ⟨le_rfl, .of_memory ht⟩
  refine Res.state_andThen_of (P := PackedFrom s s.dst.toNat) (packHeader_packedFrom hstart) (fun _ h => h.stores)
    fun _ u hu => ?_
  exact Res.state_andThen_of (P := PackedFrom s s.dst.toNat) (packData_packedFrom hu _ _) (fun _ h => h.stores)
    fun _ v hv => (packFlush_packedFrom hv).stores

/-- DECOMPRESS stores the EMIT bytes from DST on; its verify pass stores none (R241). -/
theorem decompress_emittedFrom (s : State) : EmittedFrom s s.dst.toNat (decompress s).state := by
  have untouched : ∀ t : State, t.memory = s.memory → EmittedFrom s s.dst.toNat t := fun _ => .of_memory
  unfold decompress decompressLines
  refine Res.state_onRaise (Q := EmittedFrom s s.dst.toNat) ?_ fun t ht => ht.congr rfl rfl
  refine Res.state_andThen_of (P := fun t => t.memory = s.memory) (by rw [checkRange_state]) untouched fun _ t ht => ?_
  refine Res.state_andThen_of (P := fun t => t.memory = s.memory)
    ((hdrParse_keeps (fun _ _ _ => rfl) (fun _ _ => rfl) (fun _ _ => rfl) _ _ t).trans ht) untouched fun _ t ht => ?_
  refine Res.state_andThen_of (P := fun t => t.memory = s.memory)
    ((treeBuild_keeps (fun _ _ => rfl) (fun _ _ => rfl) (fun _ => rfl) (fun _ _ => rfl) t).trans ht) untouched fun _ t ht => ?_
  refine Res.state_andThen_of (P := fun t => t.memory = s.memory)
    ((unpack_dry_keeps (fun _ _ => rfl) (fun _ _ => rfl) _ _ _ t).trans ht) untouched fun _ t ht => ?_
  refine Res.state_andThen_of (P := fun t => t.memory = s.memory) (by rwa [checkRange_state]) untouched fun _ t ht => ?_
  exact Res.state_andThen (P := EmittedFrom s s.dst.toNat) (unpack_emittedFrom ht _ _ _) fun _ u hu => hu.congr rfl rfl

/-! Every command -/

/-- The packing commands store from OPTR up to the OPTR they leave (20_memory.md R85). -/
theorem body_packing_storedToOptr {i : Instr} (hi : i.mnemonic ∈ ["PACK_HEADER", "PACK_SYM", "PACK_DATA", "PACK_FLUSH"])
    (s : State) : StoredToOptr s s.pk.optr.toNat (body i s).state := by
  cases i with
  | packHeader => exact (packHeader_packedFrom (.refl s)).stores
  | packSym sym => exact (packSymbol_packedFrom (.refl s) sym).stores
  | packData => exact (packData_packedFrom (.refl s) _ _).stores
  | packFlush => exact (packFlush_packedFrom (.refl s)).stores
  | _ => simp [Instr.mnemonic] at hi

/-- UNPACK and DECOMPRESS store the EMIT bytes from DST on (20_memory.md R85). -/
theorem body_unpacking_emittedFrom {i : Instr} (hi : i.mnemonic ∈ ["UNPACK", "DECOMPRESS"]) (s : State) :
    EmittedFrom s s.dst.toNat (body i s).state := by
  cases i with
  | unpack => exact unpack_emittedFrom rfl _ _ _
  | decompress => exact decompress_emittedFrom s
  | _ => simp [Instr.mnemonic] at hi

/-- COMPRESS stores from DST up to the OPTR it leaves (20_memory.md R85). -/
theorem body_compress_storedToOptr {i : Instr} (hi : i.mnemonic = "COMPRESS") (s : State) :
    StoredToOptr s s.dst.toNat (body i s).state := by
  cases i with
  | compress => exact compress_storedToOptr s
  | _ => simp [Instr.mnemonic] at hi

/-- Every command stores inside DMEM alone, if at all. -/
theorem body_stores (i : Instr) (s : State) : ∃ lo hi, StoresWithin lo hi s (body i s).state := by
  by_cases hw : (writesOf i).memory = false
  · exact ⟨0, 0, .of_memory (State.eq_of_mask (body_frame i s) State.memory (State.memory_mask hw))⟩
  · cases i with
    | packHeader | packSym | packData | packFlush =>
      exact ⟨_, _, body_packing_storedToOptr (by simp [Instr.mnemonic]) s⟩
    | unpack | decompress => exact ⟨_, _, body_unpacking_emittedFrom (by simp [Instr.mnemonic]) s⟩
    | compress => exact ⟨_, _, compress_storedToOptr s⟩
    | _ => exact absurd rfl hw


end Sys2Proof.Machine
end

section
/-! PROOF. What each command may write (10_state.md, 60_exceptions.md R260). -/

namespace Sys2Proof.Machine

/-- The opcode table's names against `writesOf`: for each piece of state, the commands listed are all its writers. -/
theorem writesOf_of_mnemonic (i : Instr) :
    (i.mnemonic ∉ ["CLEAR", "FREQ_COUNT", "PQ_EXTRACT", "PQ_SIZE", "NODE_LEAF", "NODE_JOIN", "TREE_BUILD", "CODE_GEN",
        "PACK_DATA", "PACK_FLUSH", "HDR_PARSE", "UNPACK", "COMPRESS", "DECOMPRESS"] → (writesOf i).result = false) ∧
    (i.mnemonic ∉ ["CLEAR", "NODE_CLEAR", "TREE_BUILD", "TREE_SETROOT", "COMPRESS", "DECOMPRESS"] →
      (writesOf i).root = false) ∧
    (i.mnemonic ∉ ["CLEAR", "NODE_CLEAR", "NODE_LEAF", "NODE_JOIN", "TREE_BUILD", "COMPRESS", "DECOMPRESS"] →
      (writesOf i).nodes = false) ∧
    (i.mnemonic ∉ ["CLEAR", "PQ_CLEAR", "PQ_INSERT", "PQ_EXTRACT", "NODE_CLEAR", "TREE_BUILD", "COMPRESS", "DECOMPRESS"] →
      (writesOf i).heap = false) ∧
    (i.mnemonic ∉ ["CLEAR", "FREQ_CLEAR", "FREQ_COUNT", "HDR_PARSE", "COMPRESS", "DECOMPRESS"] →
      (writesOf i).counts = false) ∧
    (i.mnemonic ∉ ["CLEAR", "CODE_GEN", "COMPRESS"] → (writesOf i).code = false) ∧
    (i.mnemonic ∉ ["CODE_GEN", "COMPRESS"] → (writesOf i).walk = false) ∧
    (i.mnemonic ∉ ["CLEAR", "PACK_INIT", "PACK_HEADER", "PACK_SYM", "PACK_DATA", "PACK_FLUSH", "COMPRESS"] →
      (writesOf i).packer = false) ∧
    (i.mnemonic ∉ ["CLEAR", "UNPACK", "DECOMPRESS"] → (writesOf i).unpacker = false) ∧
    (i.mnemonic ∉ ["PACK_HEADER", "PACK_SYM", "PACK_DATA", "PACK_FLUSH", "UNPACK", "COMPRESS", "DECOMPRESS"] →
      (writesOf i).memory = false) := by
  cases i <;> simp [Instr.mnemonic, writesOf]

/-- A mask blots out no operand register, and of the model's own fields the counter of draws alone. -/
theorem State.env_of_mask {w : Writes} {s t : State} (h : t.mask w = s.mask w) :
    t.env = { s.env with draws := t.env.draws } :=
  State.eq_of_mask h (fun u => { u.env with draws := t.env.draws }) fun u => by
    cases hw : w.walk <;> simp [State.mask, hw]

/-- Completion stores no byte. -/
theorem StoresWithin.complete {lo hi : Nat} {s : State} {r : Res Unit} (h : StoresWithin lo hi s r.state) :
    StoresWithin lo hi s (complete r) :=
  h.trans (.of_memory (complete_keeps (p := State.memory) (fun _ _ _ => rfl) r))

theorem StoredToOptr.complete {lo : Nat} {s : State} {r : Res Unit} (h : StoredToOptr s lo r.state) :
    StoredToOptr s lo (complete r) := by
  rw [StoredToOptr, complete_keeps (p := State.pk) (fun _ _ _ => rfl)]
  exact StoresWithin.complete h

theorem EmittedFrom.complete {dst : Nat} {s : State} {r : Res Unit} (h : EmittedFrom s dst r.state) :
    EmittedFrom s dst (complete r) := by
  rw [EmittedFrom, complete_keeps (p := State.up) (fun _ _ _ => rfl)]
  exact StoresWithin.complete h

theorem StoredToOptr.sameBytesBut {lo : Nat} {s t : State} (h : StoredToOptr s lo t) :
    s.sameBytesBut lo (t.pk.optr.toNat - lo) t :=
  fun x hx => h.others x (by omega)

/-- Settles O11: each clause is read off the command's frame, `exec_frame`, or off the addresses it stores to. -/
theorem onlyNamedCommandsWrite : Obligations.OnlyNamedCommandsWrite := by
  intro i s t h
  have hf := exec_frame h
  obtain rfl := complete_body_of_exec h
  obtain ⟨result, root, nodes, heap, counts, code, walk, packer, unpacker, memory⟩ := writesOf_of_mnemonic i
  have kept {γ : Type} (get : State → γ) := State.eq_of_mask (get := get) hf
  refine ⟨⟨kept State.ctrl fun _ => rfl, kept State.cmdword fun _ => rfl, kept State.src fun _ => rfl,
      kept State.len fun _ => rfl, kept State.dst fun _ => rfl, kept State.dmemLog fun _ => rfl, State.env_of_mask hf⟩,
    fun hi => kept State.result fun u => by simp [State.mask, result hi],
    fun hi => kept State.root fun u => by simp [State.mask, root hi],
    fun hi => kept State.nodes fun u => by simp [State.mask, nodes hi],
    fun hi => kept State.heap fun u => by simp [State.mask, heap hi],
    fun hi => ⟨kept State.freq fun u => by simp [State.mask, counts hi],
      kept State.total fun u => by simp [State.mask, counts hi]⟩,
    fun hi => kept State.code fun u => by simp [State.mask, code hi],
    fun hi => ⟨kept State.walk fun u => by simp [State.mask, walk hi],
      kept State.env fun u => by simp [State.mask, walk hi]⟩,
    fun hi => kept State.pk fun u => by simp [State.mask, packer hi],
    fun hi => kept State.up fun u => by simp [State.mask, unpacker hi],
    fun hi => kept State.dmem fun u => by simp [State.mask, memory hi],
    fun hi => (body_packing_storedToOptr hi s).complete.sameBytesBut,
    fun hi => (body_compress_storedToOptr hi s).complete.sameBytesBut,
    fun hi => (body_unpacking_emittedFrom hi s).complete.others⟩

end Sys2Proof.Machine
end

section
/-! PROOF. The invariant's parts, and that every command body keeps them (10_state.md R30, R33, R41 to R43). -/

namespace Sys2Proof.Machine

/-! The invariant's parts, each over the fields it speaks of, so that an update of other fields keeps it as it stands. -/

/-- The arena, the heap and the root (10_state.md R30, R41, R42). -/
structure ArenaOk (nodes : List Node) (heap : List NodeIx) (root : NodeIx) : Prop where
  bound : nodes.length ≤ 511
  below : ∀ k n, nodes[k]? = some n → childrenBelow k n
  heapBound : heap.length ≤ 512
  allocated : ∀ n ∈ heap, n.toNat < nodes.length
  rootAllocated : root = nilIx ∨ root.toNat < nodes.length

/-- The code table (R43). -/
def CodesOk (code : Vector CodeEntry 256) : Prop := ∀ sym : Sym, codeEntryOk (code[sym.toNat]'(sym.isLt))

/-- The pending bits (R33). -/
def PendingOk (pk : Packer) : Prop := pk.bbuf.toNat < 2 ^ pk.bblen.toNat

/-- STATUS.BUSY, PHASE and ERRCODE, and ERRINFO (R27, R29, 60_exceptions.md R250). -/
structure StatusOk (st : Status) (info : Word) : Prop where
  idlePhase : st.busy = false ↔ st.phase = .idle
  errorCode : st.errcode.toNat ≤ 0x0C
  okInfo : st.errcode = okCode → info = 0

theorem State.inv_iff (s : State) : s.Inv ↔
    MemoryOk s.dmemLog s.dmem ∧ ArenaOk s.nodes s.heap s.root ∧ (s.status.phase ≠ .init → CodesOk s.code) ∧
      PendingOk s.pk ∧ StatusOk s.status s.errinfo :=
  ⟨fun h => ⟨⟨h.memoryForm, h.memoryInside⟩,
      ⟨h.arenaBound, h.arenaBelow, h.heapBound, h.heapAllocated, h.rootAllocated⟩, h.codes, h.pending,
      ⟨h.idlePhase, h.errorCode, h.okInfo⟩⟩,
    fun ⟨hm, ha, hc, hp, hs⟩ => ⟨hm.1, hm.2, ha.bound, ha.below, ha.heapBound, ha.allocated, ha.rootAllocated, hc, hp,
      hs.idlePhase, hs.errorCode, hs.okInfo⟩⟩

/-! The arena, the heap and the root -/

theorem ArenaOk.empty : ArenaOk [] [] nilIx :=
  ⟨by simp, by simp, by simp, by simp, .inl rfl⟩

/-- Another heap over the same nodes. -/
theorem ArenaOk.withHeap {nodes : List Node} {heap heap' : List NodeIx} {root : NodeIx} (h : ArenaOk nodes heap root)
    (hb : heap'.length ≤ 512) (ha : ∀ n ∈ heap', n.toNat < nodes.length) : ArenaOk nodes heap' root :=
  ⟨h.bound, h.below, hb, ha, h.rootAllocated⟩

/-- One more node, over nodes made before it (R170). -/
theorem ArenaOk.addNode {nodes : List Node} {heap : List NodeIx} {root : NodeIx} (h : ArenaOk nodes heap root) {n : Node}
    (hlen : nodes.length ≠ 511) (hn : childrenBelow nodes.length n) : ArenaOk (nodes ++ [n]) heap root := by
  have hb := h.bound
  refine ⟨by simp; omega, fun k m hk => ?_, h.heapBound, fun x hx => ?_, h.rootAllocated.imp id fun hr => ?_⟩
  · rcases Nat.lt_trichotomy k nodes.length with hlt | rfl | hgt
    · exact h.below k m (by rwa [List.getElem?_append_left hlt] at hk)
    · obtain rfl : n = m := by simpa using hk
      exact hn
    · simp [List.getElem?_eq_none (show (nodes ++ [n]).length ≤ k by simp; omega)] at hk
  · have := h.allocated x hx
    simp; omega
  · simp; omega

/-- The same over a state. -/
abbrev State.ArenaOk (s : State) : Prop := Machine.ArenaOk s.nodes s.heap s.root

theorem heapInsert_arena {s : State} {n : NodeIx} (h : s.ArenaOk) (hn : n.toNat < s.nodeCount) :
    (heapInsert n s).state.ArenaOk := by
  unfold heapInsert
  split
  · exact h
  · rename_i hc
    have hlt : s.heap.length < 512 := lt_of_le_of_ne h.heapBound hc
    refine ArenaOk.withHeap h ?_ fun m hm => ?_
    · exact (pushHeap_length s.less s.heap n).trans_le hlt
    · rcases List.mem_cons.mp ((pushHeap_perm s.less s.heap n).subset hm) with rfl | hm
      · exact hn
      · exact h.allocated m hm

theorem heapExtract_arena {s : State} (h : s.ArenaOk) : (heapExtract s).state.ArenaOk := by
  unfold heapExtract
  split
  · exact h
  · rename_i hc
    refine ArenaOk.withHeap h ?_ fun m hm => ?_
    · exact (popHeap_length s.less s.heap).trans_le ((Nat.sub_le _ _).trans h.heapBound)
    · have hne : s.heap ≠ [] := fun he => hc (by simp [he])
      exact h.allocated m ((popHeap_perm s.less hne).symm.subset (List.mem_cons_of_mem _ hm))

theorem pqInsert_arena {s : State} (na : NodeIx) (h : s.ArenaOk) : (pqInsert na s).state.ArenaOk := by
  unfold pqInsert
  split
  · exact h
  · exact heapInsert_arena h (Nat.lt_of_not_le (by assumption))

theorem newLeaf_arena {s : State} (sym : Sym) (h : s.ArenaOk) : (newLeaf sym s).state.ArenaOk := by
  unfold newLeaf
  split
  · exact h
  · exact ArenaOk.addNode h (by assumption) trivial

theorem newJoin_arena {s : State} (a b : NodeIx) (h : s.ArenaOk) : (newJoin a b s).state.ArenaOk := by
  unfold newJoin
  split
  · exact h
  · rename_i ha
    split
    · exact h
    · rename_i hb
      split
      · exact h
      · dsimp only
        split
        · exact h
        · exact ArenaOk.addNode h (by assumption) ⟨Nat.lt_of_not_le ha, Nat.lt_of_not_le hb⟩

theorem treeSetroot_arena {s : State} (na : NodeIx) (h : s.ArenaOk) : (treeSetroot na s).state.ArenaOk := by
  unfold treeSetroot
  split
  · exact h
  · exact ⟨h.bound, h.below, h.heapBound, h.allocated, .inr (Nat.lt_of_not_le (by assumption))⟩

/-- TREE_BUILD makes an arena anew (43_tree.md R175). -/
theorem treeBuild_arena (s : State) : (treeBuild s).state.ArenaOk := by
  obtain ⟨u, hu, hframe, ht⟩ := treeBuild_spec s
  have hpos := s.positive_length_le
  have hsize := ht.size
  have hheap : u.heap = [] := by rw [hframe]
  rw [hu]
  refine ⟨by simp only [Res.state_ok]; omega, fun k n hk => ?_, by simp [hheap], by simp [hheap], ?_⟩
  · by_cases hlt : k < s.positive.length
    · have := ht.leaves k _ (List.getElem?_eq_getElem hlt)
      rw [Res.state_ok, this] at hk
      obtain rfl := Option.some.inj hk
      trivial
    · obtain ⟨f, l, r, rfl, hl, hr, -⟩ := ht.joins k n (by omega) hk
      exact ⟨hl, hr⟩
  · rw [Res.state_ok, ht.root]
    split
    · exact .inl rfl
    · rename_i hne
      have := List.length_pos_iff.mpr hne
      right
      rw [toNat_ofNat9 (by omega)]
      omega

/-! The code table -/

abbrev State.CodesOk (s : State) : Prop := Machine.CodesOk s.code

theorem clearCodes_codes (s : State) : s.clearCodes.CodesOk := fun sym => by
  show codeEntryOk (s.clearCodes.codeAt sym)
  rw [State.codeAt_clearCodes]
  exact codeEntryOk_invalid

/-- The path to a leaf under an internal root gives a code entry (44_codegen.md R191). -/
theorem codeEntryOk_of_leafAt {s : State} {p : List Bool} {sym : Sym} (hi : (s.node s.root).isInternal = true)
    (hl : LeafAt s s.root p sym) (hp : p.length ≤ 64) : codeEntryOk (pathCode p) := by
  refine codeEntryOk_pathCode (List.length_pos_iff.mpr fun hnil => ?_) hp
  obtain ⟨m, f, hm, hf⟩ := hl
  rw [hnil] at hm
  rw [hm.nil_inv] at hf
  rw [hf] at hi
  cases hi

/-- CODE_GEN makes a table anew, whichever way it ends (44_codegen.md R190 to R192). -/
theorem codeGen_codes (s : State) : (codeGen s).state.CodesOk := by
  intro sym
  show codeEntryOk ((codeGen s).state.codeAt sym)
  by_cases hr : s.root = nilIx
  · have hcg : codeGen s = .ok () s.clearCodes := by
      unfold codeGen
      exact if_pos hr
    rw [hcg]
    exact clearCodes_codes s sym
  · cases hroot : s.node s.root with
    | leaf k f =>
      have hcg : codeGen s = .ok () (s.clearCodes.assignCode k 1 0) := by
        simp only [codeGen, State.clearCodes_root, State.clearCodes_node, if_neg hr, hroot]
      rw [hcg, Res.state_ok, State.codeAt_assignCode]
      split
      · simp [codeEntryOk]
      · exact clearCodes_codes s sym
    | internal f l r =>
      have hi : (s.node s.root).isInternal = true := by rw [hroot]; rfl
      rcases codeGen_spec s hr hi with ⟨t, ht, -, -, hleaf, hnone, -⟩ | ⟨e, t, ht, hcodes, -⟩
      · rw [ht, Res.state_ok]
        by_cases hl : ∃ p, LeafAt s s.root p sym
        · obtain ⟨p, hp⟩ := hl
          obtain ⟨hc, hlen⟩ := hleaf p sym hp
          rw [hc]
          exact codeEntryOk_of_leafAt hi hp hlen
        · rw [hnone sym hl]
          exact codeEntryOk_invalid
      · rw [ht, Res.state_raised]
        rcases hcodes sym with ⟨p, hp, hlen, hc⟩ | hc
        · rw [hc]
          exact codeEntryOk_of_leafAt hi hp hlen
        · rw [hc]
          exact codeEntryOk_invalid

/-! The pending bits -/

theorem append_pending {s : State} {c l : Nat} (hc : c < 2 ^ l) (h : PendingOk s.pk) : PendingOk (append c l s).state.pk := by
  by_cases hs : s.pk.optr.toNat + (s.pk.bblen.toNat + l) / 8 ≤ s.dmemSize
  · obtain ⟨u, hu, -, hp⟩ := append_ok hc h rfl hs
    rw [hu]
    exact hp.number
  · rw [append_raises rfl (by omega)]
    exact h

/-! What every command body keeps, DMEM apart. -/

/-- The parts of the invariant about the arrays and the packer. -/
structure State.BodyOk (s : State) : Prop where
  arena : s.ArenaOk
  codes : s.CodesOk
  pending : PendingOk s.pk

/-- The fields `BodyOk` speaks of. -/
def State.arrays (s : State) : List Node × List NodeIx × NodeIx × Vector CodeEntry 256 × Packer :=
  (s.nodes, s.heap, s.root, s.code, s.pk)

/-- Those besides the arena, the heap and the root. -/
def State.besidesArena (s : State) : Vector CodeEntry 256 × Packer := (s.code, s.pk)

/-- Those besides the packer. -/
def State.besidesPacker (s : State) : List Node × List NodeIx × NodeIx × Vector CodeEntry 256 :=
  (s.nodes, s.heap, s.root, s.code)

theorem State.BodyOk.congr {s t : State} (h : s.BodyOk) (ht : t.arrays = s.arrays) : t.BodyOk := by
  simp only [State.arrays, Prod.mk.injEq] at ht
  obtain ⟨hn, hh, hr, hc, hp⟩ := ht
  exact ⟨by rw [State.ArenaOk, hn, hh, hr]; exact h.arena, by rw [State.CodesOk, hc]; exact h.codes,
    by rw [hp]; exact h.pending⟩

theorem State.BodyOk.withArena {s t : State} (h : s.BodyOk) (ha : t.ArenaOk) (ht : t.besidesArena = s.besidesArena) :
    t.BodyOk := by
  simp only [State.besidesArena, Prod.mk.injEq] at ht
  exact ⟨ha, by rw [State.CodesOk, ht.1]; exact h.codes, by rw [ht.2]; exact h.pending⟩

theorem State.BodyOk.withPacker {s t : State} (h : s.BodyOk) (hp : PendingOk t.pk)
    (ht : t.besidesPacker = s.besidesPacker) : t.BodyOk := by
  simp only [State.besidesPacker, Prod.mk.injEq] at ht
  obtain ⟨hn, hh, hr, hc⟩ := ht
  exact ⟨by rw [State.ArenaOk, hn, hh, hr]; exact h.arena, by rw [State.CodesOk, hc]; exact h.codes, hp⟩

theorem treeBuild_bodyOk {s : State} (h : s.BodyOk) : (treeBuild s).state.BodyOk :=
  h.withArena (treeBuild_arena s)
    (treeBuild_keeps (p := State.besidesArena) (fun _ _ => rfl) (fun _ _ => rfl) (fun _ => rfl) (fun _ _ => rfl) s)

theorem codeGen_bodyOk {s : State} (h : s.BodyOk) : (codeGen s).state.BodyOk := by
  have ht := codeGen_keeps (p := fun u => (u.nodes, u.heap, u.root, u.pk)) (fun _ _ => rfl) (fun _ _ _ _ => rfl)
    (fun _ => rfl) (fun _ => rfl) s
  simp only [Prod.mk.injEq] at ht
  obtain ⟨hn, hh, hr, hp⟩ := ht
  exact ⟨by rw [State.ArenaOk, hn, hh, hr]; exact h.arena, codeGen_codes s, by rw [hp]; exact h.pending⟩

theorem advancePacker_bodyOk {s : State} (h : s.BodyOk) (n : Word) : (s.advancePacker n).BodyOk :=
  ⟨h.arena, h.codes, h.pending⟩

theorem packHeader_bodyOk {s : State} (h : s.BodyOk) : (packHeader s).state.BodyOk := by
  unfold packHeader
  split
  · exact h
  · refine Res.state_andThen (P := State.BodyOk) (by rwa [checkRange_state]) fun _ t ht => ?_
    refine Res.state_andThen (P := State.BodyOk)
      (ht.congr (headerLoop_keeps (p := State.arrays) (fun _ _ _ => rfl) _ _ t)) fun _ u hu => ?_
    exact Res.state_andThen (P := State.BodyOk)
      (hu.congr (memWriteBE_keeps (p := State.arrays) (fun _ _ _ => rfl) _ _ _ u))
      fun _ v hv => advancePacker_bodyOk hv _

/-- A valid code entry's bits fit its length, so the bits left pending fit theirs (45_pack.md R201, R204). -/
theorem packSymbol_bodyOk {s : State} (h : s.BodyOk) (sym : Sym) : (packSymbol sym s).state.BodyOk := by
  refine h.withPacker ?_
    (packSymbol_keeps (p := State.besidesPacker) (fun _ _ _ => rfl) (fun _ _ => rfl) sym s)
  unfold packSymbol
  split
  · rename_i hv
    have hc : codeEntryOk (s.codeAt sym) := h.codes sym
    rw [codeEntryOk, if_pos hv] at hc
    exact append_pending hc.2.2 h.pending
  · exact h.pending

theorem packLoop_bodyOk (src : Nat) : ∀ (n i : Nat) (s : State), s.BodyOk → (packLoop src n i s).state.BodyOk
  | 0, _, _, h => h
  | n + 1, i, s, h => by
    refine Res.state_andThen (P := State.BodyOk) (by rwa [memRead_state]) fun b t ht => ?_
    exact Res.state_andThen (P := State.BodyOk) (packSymbol_bodyOk ht b) fun _ u hu =>
      packLoop_bodyOk src n _ _ (hu.congr rfl)

theorem packData_bodyOk {s : State} (h : s.BodyOk) (src len : Nat) : (packData src len s).state.BodyOk :=
  Res.state_andThen (P := State.BodyOk) (by rwa [checkRange_state]) fun _ _ ht =>
    packLoop_bodyOk src len 0 _ (ht.congr rfl)

theorem flushPending_bodyOk {s : State} (h : s.BodyOk) : (flushPending s).state.BodyOk := by
  unfold flushPending
  split
  · exact h
  · refine Res.state_andThen (P := State.BodyOk) (by rwa [checkRange_state]) fun _ t ht => ?_
    exact Res.state_andThen (P := State.BodyOk)
      (ht.congr (memWrite_keeps (p := State.arrays) (fun _ _ _ => rfl) _ _ t))
      fun _ u hu => ⟨hu.arena, hu.codes, Nat.one_pos⟩

theorem packFlush_bodyOk {s : State} (h : s.BodyOk) : (packFlush s).state.BodyOk :=
  Res.state_andThen (P := State.BodyOk) (flushPending_bodyOk h) fun _ _ ht => ht.congr rfl

theorem compress_bodyOk {s : State} (h : s.BodyOk) : (compress s).state.BodyOk := by
  unfold compress compressLines
  refine Res.state_onRaise (Q := State.BodyOk) ?_ fun t ht => ht.congr rfl
  refine Res.state_andThen (P := State.BodyOk) (by rwa [checkRange_state]) fun _ t ht => ?_
  refine Res.state_andThen (P := State.BodyOk) (ht.congr (freqCount_keeps
    (p := State.arrays) (fun _ _ _ => rfl) (fun _ _ => rfl) _ _ _)) fun _ t ht => ?_
  refine Res.state_andThen (P := State.BodyOk) (treeBuild_bodyOk ht) fun _ t ht => ?_
  refine Res.state_andThen (P := State.BodyOk) (codeGen_bodyOk ht) fun _ t ht => ?_
  refine Res.state_andThen (P := State.BodyOk) (by rwa [checkRange_state]) fun _ t ht => ?_
  refine Res.state_andThen (P := State.BodyOk) (packHeader_bodyOk ⟨ht.arena, ht.codes, Nat.one_pos⟩) fun _ t ht => ?_
  exact Res.state_andThen (P := State.BodyOk) (packData_bodyOk ht _ _) fun _ t ht => packFlush_bodyOk ht

theorem unpack_bodyOk {s : State} (h : s.BodyOk) (w : Bool) (src len dst : Nat) : (unpack w src len dst s).state.BodyOk :=
  h.congr (unpack_keeps (p := State.arrays) (fun _ _ _ => rfl) (fun _ _ => rfl)
    (fun _ _ => rfl) w src len dst s)

theorem decompress_bodyOk {s : State} (h : s.BodyOk) : (decompress s).state.BodyOk := by
  unfold decompress decompressLines
  refine Res.state_onRaise (Q := State.BodyOk) ?_ fun t ht => ht.congr rfl
  refine Res.state_andThen (P := State.BodyOk) (by rwa [checkRange_state]) fun _ t ht => ?_
  refine Res.state_andThen (P := State.BodyOk) (ht.congr (hdrParse_keeps
    (p := State.arrays) (fun _ _ _ => rfl) (fun _ _ => rfl) (fun _ _ => rfl) _ _ t))
    fun _ t ht => ?_
  refine Res.state_andThen (P := State.BodyOk) (treeBuild_bodyOk ht) fun _ t ht => ?_
  refine Res.state_andThen (P := State.BodyOk) (unpack_bodyOk ht _ _ _ _) fun _ t ht => ?_
  refine Res.state_andThen (P := State.BodyOk) (by rwa [checkRange_state]) fun _ t ht => ?_
  exact Res.state_andThen (P := State.BodyOk) (unpack_bodyOk ht _ _ _ _) fun _ t ht => ht.congr rfl

/-- Every command body keeps the arrays and the packer as 10_state.md bounds them. -/
theorem body_bodyOk (i : Instr) {s : State} (h : s.BodyOk) : (body i s).state.BodyOk := by
  cases i with
  | nop | freqClear | pqSize => exact h.congr rfl
  | freqCount | hdrParse | unpack =>
    exact h.congr (State.eq_of_mask (body_frame _ s) State.arrays fun _ => rfl)
  | clear => exact ⟨.empty, clearCodes_codes s, Nat.one_pos⟩
  | pqClear => exact h.withArena (h.arena.withHeap (Nat.zero_le _) fun _ hn => absurd hn List.not_mem_nil) rfl
  | nodeClear => exact h.withArena .empty rfl
  | pqInsert na =>
    exact h.withArena (pqInsert_arena na h.arena) (pqInsert_keeps (p := State.besidesArena) (fun _ _ => rfl) na s)
  | pqExtract =>
    exact h.withArena
      (Res.state_andThen (P := State.ArenaOk) (heapExtract_arena h.arena) fun _ _ ht => ht)
      (pqExtract_keeps (p := State.besidesArena) (fun _ _ => rfl) (fun _ _ => rfl) s)
  | nodeLeaf sym =>
    exact h.withArena (Res.state_andThen (P := State.ArenaOk) (newLeaf_arena sym h.arena) fun _ _ ht => ht)
      (State.eq_of_mask (body_frame (.nodeLeaf sym) s) State.besidesArena fun _ => rfl)
  | nodeJoin na nb =>
    exact h.withArena (Res.state_andThen (P := State.ArenaOk) (newJoin_arena na nb h.arena) fun _ _ ht => ht)
      (State.eq_of_mask (body_frame (.nodeJoin na nb) s) State.besidesArena fun _ => rfl)
  | treeBuild => exact treeBuild_bodyOk h
  | treeSetroot na =>
    exact h.withArena (treeSetroot_arena na h.arena)
      (treeSetroot_keeps (p := State.besidesArena) (fun _ _ => rfl) na s)
  | codeGen => exact codeGen_bodyOk h
  | packInit => exact h.withPacker Nat.one_pos rfl
  | packHeader => exact packHeader_bodyOk h
  | packSym sym => exact packSymbol_bodyOk h sym
  | packData => exact packData_bodyOk h _ _
  | packFlush => exact packFlush_bodyOk h
  | compress => exact compress_bodyOk h
  | decompress => exact decompress_bodyOk h

end Sys2Proof.Machine
end

section
/-! PROOF. Every step keeps the invariant (10_state.md; 60_exceptions.md R250). -/

namespace Sys2Proof.Machine

/-! Completion and the step -/

/-- Each cause has one of the codes of R250, and none is OK's. -/
theorem Error.code_range (e : Error) : e.code.toNat ≤ 0x0C ∧ e.code ≠ okCode := by
  cases e <;> simp [Error.code, okCode]

/-- Completion leaves STATUS and ERRINFO as R27, R29 and R250 say. -/
theorem complete_statusOk (r : Res Unit) : StatusOk (complete r).status (complete r).errinfo := by
  cases r with
  | ok u s => exact ⟨by simp [complete], by simp [complete], fun _ => rfl⟩
  | raised e s => exact ⟨by simp [complete], e.code_range.1, fun h => absurd h e.code_range.2⟩

/-- A command run past INIT keeps the invariant. -/
theorem exec_inv {i : Instr} {s t : State} (h : s.Inv) (hp : s.status.phase ≠ .init) (ht : exec i s = .next t) : t.Inv := by
  obtain ⟨hm, ha, hc, hpk, hs⟩ := s.inv_iff.mp h
  obtain ⟨lo, hi, hst⟩ := body_stores i s
  obtain ⟨ha', hc', hp'⟩ := body_bodyOk i (⟨ha, hc hp, hpk⟩ : s.BodyOk)
  obtain rfl := complete_body_of_exec ht
  have hst' := complete_statusOk (body i s)
  have hm' := hst.form hm
  generalize hr : body i s = r at *
  cases r with
  | ok _ v | raised _ v => exact (State.inv_iff _).mpr ⟨hm', ha', fun _ => hc', hp', hst'⟩

/-- An illegal word changes STATUS and ERRINFO alone (30_encoding.md R108). -/
theorem illegal_inv {s : State} (h : s.Inv) (hp : s.status.phase ≠ .init) (e : Error) : (complete (.raised e s)).Inv := by
  obtain ⟨hm, ha, hc, hpk, -⟩ := s.inv_iff.mp h
  exact (State.inv_iff _).mpr ⟨hm, ha, fun _ => hc hp, hpk, complete_statusOk (.raised e s)⟩

theorem runCommand_inv {s t : State} (h : s.Inv) (hp : s.status.phase ≠ .init) (ht : runCommand s = .next t) : t.Inv := by
  unfold runCommand at ht
  split at ht
  · exact exec_inv h hp ht
  · obtain rfl := Host.Outcome.next.inj ht
    exact illegal_inv h hp _

/-- INIT leaves the datapath cleared (70_reset_and_hazards.md R281). -/
theorem initialise_inv {s : State} (h : s.Inv) : s.initialise.Inv := by
  obtain ⟨hm, -, -, -, hs⟩ := s.inv_iff.mp h
  exact (State.inv_iff _).mpr ⟨hm, .empty, fun _ => clearCodes_codes s, Nat.one_pos,
    ⟨iff_of_true rfl rfl, hs.errorCode, hs.okInfo⟩⟩

theorem coreStep_inv {s t : State} (h : s.Inv) (ht : coreStep s = .next t) : t.Inv := by
  unfold coreStep at ht
  split at ht
  · exact Host.Outcome.next.inj ht ▸ h
  · split at ht
    · exact Host.Outcome.next.inj ht ▸ h
    · split at ht
      · exact Host.Outcome.next.inj ht ▸ initialise_inv h
      · exact runCommand_inv h (by assumption) ht

/-! Host transactions -/

/-- The model's own fields are not in the invariant. -/
theorem State.Inv.withEnv {s : State} (h : s.Inv) (e : Env) : ({ s with env := e } : State).Inv :=
  (State.inv_iff _).mpr (s.inv_iff.mp h)

/-- A change of STATUS that keeps BUSY, PHASE and ERRCODE. -/
theorem State.Inv.withStatus {s : State} (h : s.Inv) {st : Status} (hb : st.busy = s.status.busy)
    (hp : st.phase = s.status.phase) (he : st.errcode = s.status.errcode) : ({ s with status := st } : State).Inv := by
  obtain ⟨hm, ha, hc, hpk, hs⟩ := s.inv_iff.mp h
  refine (State.inv_iff _).mpr ⟨hm, ha, fun hi => hc (hp ▸ hi), hpk, ?_, ?_, fun ho => hs.okInfo (he ▸ ho)⟩
  · rw [hb, hp]; exact hs.idlePhase
  · rw [he]; exact hs.errorCode

theorem State.Inv.setByte {s : State} (h : s.Inv) {a : Nat} (ha : a < s.dmemSize) (v : Byte) : (s.setByte a v).Inv := by
  obtain ⟨hm, hrest⟩ := s.inv_iff.mp h
  exact (State.inv_iff _).mpr ⟨hm.store ha v, hrest⟩

/-- No command starts in the phases of idle or of INIT (10_state.md R27). -/
theorem firstPhase_ne (w : Word) : firstPhase w ≠ .init ∧ firstPhase w ≠ .idle := by
  unfold firstPhase
  split
  · rename_i i _
    cases i <;> exact ⟨nofun, nofun⟩
  · exact ⟨nofun, nofun⟩

theorem State.Inv.startCommand {s : State} (h : s.Inv) (hidle : s.status.busy = false) (w : Word) {p : Phase}
    (hi : p ≠ .idle) : (s.startCommand w p).Inv := by
  obtain ⟨hm, ha, hc, hpk, hs⟩ := s.inv_iff.mp h
  have hphase : s.status.phase ≠ .init := by rw [hs.idlePhase.mp hidle]; nofun
  exact (State.inv_iff _).mpr ⟨hm, ha, fun _ => hc hphase, hpk,
    ⟨iff_of_false (by simp [State.startCommand]) hi, hs.errorCode, hs.okInfo⟩⟩

theorem writeReg_inv {s : State} (h : s.Inv) (hidle : s.status.busy = false) (o : Nat) (w : Word) :
    (s.writeReg o w (firstPhase w)).Inv := by
  unfold State.writeReg
  split
  · exact (State.inv_iff _).mpr (s.inv_iff.mp h)
  · exact h.withStatus rfl rfl rfl
  · exact h.startCommand hidle w (firstPhase_ne w).2
  all_goals exact (State.inv_iff _).mpr (s.inv_iff.mp h)

/-- An aligned word of the DMEM window lies in DMEM whole, since DMEM_SIZE is a multiple of 4 (20_memory.md R71, R73). -/
theorem word_in_dmem {a : Nat} {s : State} (ha : a < s.dmemSize) (h4 : a % 4 = 0) : a + 3 < s.dmemSize := by
  have hdvd : 4 ∣ s.dmemSize := ⟨2 ^ (10 + s.dmemLog.val), by rw [State.dmemSize, Config.dmemSize]; ring⟩
  omega

/-- What an address in the DMEM window reaches (R71). -/
theorem State.region_dmem {s : State} {n a : Nat} (h : s.region n = .dmem a) : n = 0x800000 + a ∧ a < s.dmemSize := by
  unfold State.region at h
  split_ifs at h
  simp only [Region.dmem.injEq] at h
  exact ⟨by omega, by omega⟩

theorem writeIdle_inv {s : State} (h : s.Inv) (hidle : s.status.busy = false) {size : Size} {addr : Addr}
    (hacc : s.accepts size addr = true) (w : Word) : (s.writeIdle size (s.region addr.toNat) w (firstPhase w)).Inv := by
  cases hr : s.region addr.toNat with
  | reg o => exact writeReg_inv h hidle o w
  | freq sym => exact (State.inv_iff _).mpr (s.inv_iff.mp h)
  | dmem a =>
    obtain ⟨haddr, ha⟩ := State.region_dmem hr
    cases size with
    | b => exact h.setByte ha _
    | w =>
      have h4 : addr.toNat % 4 = 0 := by simpa [State.accepts, hr] using hacc
      have hin := word_in_dmem ha (by omega)
      exact (((h.setByte ha _).setByte (a := a + 1) (Nat.lt_of_le_of_lt (by omega) hin) _).setByte (a := a + 2)
        (Nat.lt_of_le_of_lt (by omega) hin) _).setByte hin _
  | code _ _ | node _ _ | heap _ | reserved => exact h

theorem writeBusy_inv {s : State} (h : s.Inv) (r : Region) (w : Word) : (s.writeBusy r w).Inv := by
  unfold State.writeBusy
  split
  all_goals exact h.withStatus rfl rfl rfl

theorem respondRead_inv {s : State} (h : s.Inv) (size : Size) (r : Region) (v : Option Word) :
    (s.respondRead size r v).Inv := by
  cases v with
  | some w => exact h.withEnv _
  | none => exact h.withEnv _

theorem hostStep_inv {s : State} (h : s.Inv) (t : Txn) : (hostStep t s).Inv := by
  unfold hostStep State.transact
  split
  · exact h.withEnv _
  · cases t with
    | rd size addr =>
      dsimp only
      split
      · split
        · exact (respondRead_inv h size _ _).withEnv _
        · exact respondRead_inv h size _ _
      · exact h.withEnv _
    | wr size addr w =>
      dsimp only
      split
      · refine State.Inv.withEnv ?_ _
        split
        · exact writeBusy_inv h _ w
        · rename_i hacc hidle
          exact writeIdle_inv h (Bool.eq_false_of_not_eq_true hidle) hacc w
      · exact h.withEnv _

/-- Every reset state meets the invariant (10_state.md R50). -/
theorem atReset_inv (k : Fin 12) (epoch : Nat) (env : Env) : (State.atReset k epoch env).Inv :=
  (State.inv_iff _).mpr ⟨⟨List.Pairwise.nil, nofun⟩, .empty, fun h => absurd rfl h, Nat.one_pos,
    ⟨iff_of_false nofun nofun, Nat.zero_le _, fun _ => rfl⟩⟩

theorem runEvent_inv {s t : State} (h : s.Inv) (e : Event) (ht : runEvent e s = .next t) : t.Inv := by
  cases e with
  | host x => exact Host.Outcome.next.inj ht ▸ hostStep_inv h x
  | core => exact coreStep_inv h ht
  | resetAssert => exact Host.Outcome.next.inj ht ▸ atReset_inv _ _ _
  | resetRelease => exact Host.Outcome.next.inj ht ▸ h.withEnv _

/-- Settles O7: every part of the invariant holds of the values at reset. -/
theorem resetMeetsInvariant : Obligations.ResetMeetsInvariant :=
  ⟨atReset_inv _ _ _, atReset_inv⟩

/-- Settles O8: the step is one event, and each kind of event keeps the invariant's parts. -/
theorem stepKeepsInvariant : Obligations.StepKeepsInvariant := by
  intro s t h ht
  unfold step nextStep at ht
  split at ht
  · exact coreStep_inv h ht
  · exact runEvent_inv (h.withEnv _) _ ht

end Sys2Proof.Machine
end

section
/-! PROOF. The step by the event that comes next, and reset (10_state.md R31, R50; 70_reset_and_hazards.md R280). -/

namespace Sys2Proof.Machine

/-! The step by the event that comes next -/

/-- The core's turn is the core's step, over the events that stand after it (10_state.md R31; log 1, log 10). -/
theorem step_of_coreTurn {s : State} {rest : List Event} (h : s.coreTurn rest) : step s = coreStep (s.withEvents rest) := by
  rcases h with ⟨hs, rfl⟩ | hs
  · have hself : s.withEvents [] = s := by rw [State.withEvents, ← hs]
    rw [hself, step, nextStep, hs]
  · rw [step, nextStep, hs]
    rfl

/-- The host's turn is its transaction, over the events that stand after it (20_memory.md R70, R86). -/
theorem step_of_hostTurn {s : State} {t : Txn} {rest : List Event} (h : s.hostTurn t rest) :
    step s = .next (hostStep t (s.withEvents rest)) := by
  rw [step, nextStep, show s.env.events = _ from h]
  rfl

/-- The core runs the command in CMDWORD where it is enabled and past INIT (10_state.md R31, 30_encoding.md R110). -/
theorem coreStep_of_decode {s : State} {i : Instr} (h : s.ready) (hd : decode s.cmdword = .ok i) :
    coreStep s = exec i s := by
  obtain ⟨hrst, hbusy, hphase⟩ := h
  simp [coreStep, hrst, hbusy, hphase, runCommand, hd]

/-- The four bytes of a word give it back (log 14). -/
theorem wordOfBytes_bytesOfWord (w : Word) :
    wordOfBytes (w.extractLsb' 0 8) (w.extractLsb' 8 8) (w.extractLsb' 16 8) (w.extractLsb' 24 8) = w := by
  rw [wordOfBytes, BitVec.extractLsb'_append_extractLsb'_eq_extractLsb' (show 24 = 16 + 8 from rfl),
    BitVec.extractLsb'_append_extractLsb'_eq_extractLsb' (show 16 = 8 + 8 from rfl),
    BitVec.extractLsb'_append_extractLsb'_eq_extractLsb' (show 8 = 0 + 8 from rfl)]
  exact BitVec.extractLsb'_eq_self

/-- The opcode table's words decode as CMDWORD does. -/
theorem decode_of_decodeTableWord {nbits w : Nat} {i : Instr} (h : decodeTableWord nbits w = some i) :
    decode (BitVec.ofNat 32 (w % 2 ^ nbits)) = .ok i := by
  simp only [decodeTableWord, bytesOfWord, decodeBytes, wordOfBytes_bytesOfWord] at h
  split at h
  · rename_i hd
    split at hd
    · simp_all
    · cases hd
  · cases h

/-- Settles O4: the core's turn is `coreStep`, which runs what CMDWORD decodes to; a placed word is such a CMDWORD. -/
theorem stepRunsDecodedCommand : Obligations.StepRunsDecodedCommand := by
  refine ⟨fun s rest i hready hturn hd => ?_, fun s nbits w i hd => ?_⟩
  · rw [step_of_coreTurn hturn]
    exact coreStep_of_decode hready hd
  · refine ⟨firstPhase (BitVec.ofNat 32 (w % 2 ^ nbits)), (firstPhase_ne _).1, ?_⟩
    rw [step_of_coreTurn (s := s.withFetchWord nbits w) (rest := s.env.events) (.inr rfl)]
    exact coreStep_of_decode ⟨rfl, rfl, (firstPhase_ne _).1⟩ (decode_of_decodeTableWord hd)

/-! Reset -/

theorem atReset_atReset (k : Fin 12) (epoch : Nat) (env : Env) : AtReset (State.atReset k epoch env) :=
  ⟨rfl, rfl, ⟨rfl, rfl, rfl⟩, ⟨rfl, rfl⟩, ⟨rfl, rfl, rfl⟩, rfl, rfl, rfl⟩

/-- While reset is asserted a transaction changes the model's own fields alone (70_reset_and_hazards.md R280, U9). -/
theorem hostStep_in_reset {s : State} (h : s.env.rst = true) (t : Txn) : hostStep t s = s.respondInReset t := by
  unfold hostStep State.transact
  exact if_pos h

theorem coreStep_in_reset {s : State} (h : s.env.rst = true) : coreStep s = .next s := by
  rw [coreStep, if_pos h]

/-- Settles O5: assertion is `State.atReset`; while it lasts a transaction only responds and the core waits. -/
theorem resetGivesResetValues : Obligations.ResetGivesResetValues := by
  refine ⟨fun s rest h => ?_, fun s rest h => ?_, fun s rest hrst => ⟨fun t ht => ?_, fun ht => ?_⟩, atReset_atReset _ _ _,
    rfl⟩
  · refine ⟨(s.withEvents rest).assertReset, ?_, atReset_atReset _ _ _, rfl, rfl, rfl, rfl⟩
    rw [step, nextStep, h]
    rfl
  · rw [step, nextStep, h]
    rfl
  · rw [step_of_hostTurn ht, hostStep_in_reset (s := s.withEvents rest) hrst]
    exact ⟨_, rfl, rfl, hrst⟩
  · rw [step_of_coreTurn ht, coreStep_in_reset (s := s.withEvents rest) hrst]

end Sys2Proof.Machine
end

section
/-! PROOF. The host port: what idle writes reach and what reads answer (10_state.md section 2; 20_memory.md R70 to R82). -/

namespace Sys2Proof.Machine

/-! The host port while idle -/

/-- A word address of the register block is accepted and reaches its register (20_memory.md R71, R73). -/
theorem State.region_reg (s : State) {a : Addr} (h : a.toNat < 0x58) : s.region a.toNat = .reg a.toNat := by
  rw [State.region, if_pos h]

/-- An aligned word access is accepted wherever something lies (R73). -/
theorem State.accepts_word {s : State} {a : Addr} (hr : s.region a.toNat ≠ .reserved) (h4 : a.toNat % 4 = 0) :
    s.accepts .w a = true := by
  unfold State.accepts
  cases hreg : s.region a.toNat with
  | reserved => exact absurd hreg hr
  | _ => exact beq_iff_eq.mpr h4

theorem State.accepts_reg (s : State) {a : Addr} (h : a.toNat < 0x58) (h4 : a.toNat % 4 = 0) : s.accepts .w a = true :=
  State.accepts_word (by rw [s.region_reg h]; nofun) h4

/-- An accepted word write while idle (R72, R73, R81). -/
theorem writesWord_idle {s : State} {a : Addr} (hrst : s.env.rst = false) (hidle : s.status.busy = false)
    (hacc : s.accepts .w a = true) (w : Word) :
    WritesWord s a w fun u => u.writeIdle .w (s.region a.toNat) w (firstPhase w) := by
  intro rest ht
  have hacc' : (s.withEvents rest).accepts .w a = true := hacc
  rw [step_of_hostTurn ht, hostStep]
  unfold State.transact
  simp only [State.withEvents_rst, hrst, State.withEvents_status, hidle, hacc', if_true]
  rfl

/-- A word write to a register while idle (10_state.md section 2). -/
theorem writesWord_reg {s : State} (hrst : s.env.rst = false) (hidle : s.status.busy = false) (w : Word) {a : Addr}
    (h : a.toNat < 0x58) (h4 : a.toNat % 4 = 0) : WritesWord s a w fun u => u.writeReg a.toNat w (firstPhase w) := by
  have hw := writesWord_idle hrst hidle (s.accepts_reg h h4) w
  rw [s.region_reg h] at hw
  exact hw

/-- An accepted exact read while idle (R72, R77 to R81). -/
theorem readsWord_idle {s : State} {a : Addr} (hrst : s.env.rst = false) (hidle : s.status.busy = false)
    (hacc : s.accepts .w a = true) {w : Word} (hw : s.readIdle .w (s.region a.toNat) = some w) : ReadsWord s a w := by
  intro rest ht
  have hacc' : (s.withEvents rest).accepts .w a = true := hacc
  have hw' : (s.withEvents rest).readIdle .w ((s.withEvents rest).region a.toNat) = some w := hw
  rw [step_of_hostTurn ht, hostStep]
  unfold State.transact
  simp only [State.withEvents_rst, hrst, State.withEvents_status, hidle, hacc', hw', if_true]
  rfl

theorem readsWord_reg {s : State} (hrst : s.env.rst = false) (hidle : s.status.busy = false) {a : Addr}
    (h : a.toNat < 0x58) (h4 : a.toNat % 4 = 0) : ReadsWord s a (s.readReg a.toNat) := by
  refine readsWord_idle hrst hidle (s.accepts_reg h h4) ?_
  rw [s.region_reg h]
  rfl

/-! Writes -/

/-- PHASE after a CMD write: the first phase of the command, EXEC for an illegal word (10_state.md R24, R27). -/
theorem firstPhase_of_decode {w : Word} {i : Instr} (h : decode w = .ok i) : (phasesOf i).head? = some (firstPhase w) := by
  simp only [firstPhase, decoded, h]
  cases i <;> rfl

theorem firstPhase_of_illegal {w : Word} (h : ¬ ∃ i, decode w = .ok i) : firstPhase w = .exec := by
  rw [firstPhase, decoded]
  cases hd : decode w with
  | ok i => exact absurd ⟨i, hd⟩ h
  | error e => rfl

/-- The address of FREQ[s] in the host map (20_memory.md R81). -/
theorem freqAddr_toNat (sym : Sym) : (BitVec.ofNat 24 (0x000400 + 4 * sym.toNat)).toNat = 0x000400 + 4 * sym.toNat := by
  have := sym.isLt
  rw [BitVec.toNat_ofNat]; omega

theorem State.region_freq (s : State) (sym : Sym) :
    s.region (BitVec.ofNat 24 (0x000400 + 4 * sym.toNat)).toNat = .freq sym := by
  have := sym.isLt
  rw [freqAddr_toNat, State.region, if_neg (by omega), if_neg (by omega), if_pos (by omega)]
  congr 1
  rw [show (0x000400 + 4 * sym.toNat - 0x000400) / 4 = sym.toNat by omega]
  rw [BitVec.ofNat_toNat, BitVec.setWidth_eq]

theorem State.accepts_freq (s : State) (sym : Sym) :
    s.accepts .w (BitVec.ofNat 24 (0x000400 + 4 * sym.toNat)) = true :=
  State.accepts_word (by rw [s.region_freq sym]; nofun) (by rw [freqAddr_toNat]; omega)

/-- Settles O56: each address reaches its register, and an accepted idle write is `writeReg` or `setFreq` of it. -/
theorem idleWritesReachTheirRegister : Obligations.IdleWritesReachTheirRegister := by
  intro s w hrst hidle
  have reg {a : Addr} (h : a.toNat < 0x58) (h4 : a.toNat % 4 = 0) := writesWord_reg hrst hidle w h h4
  refine ⟨⟨firstPhase w, (firstPhase_ne w).1, fun i hi => firstPhase_of_decode hi, firstPhase_of_illegal,
      reg (by decide) (by decide)⟩,
    reg (by decide) (by decide), reg (by decide) (by decide), reg (by decide) (by decide), reg (by decide) (by decide),
    reg (by decide) (by decide), reg (by decide) (by decide), reg (by decide) (by decide), fun sym => ?_⟩
  have hw := writesWord_idle hrst hidle (s.accepts_freq sym) w
  rw [s.region_freq sym] at hw
  exact hw

/-! Reads of registers made of fields -/

/-- The bits of a number with b below n. -/
theorem testBit_bit (b : Bool) (n j : Nat) : (Nat.bit b n).testBit j = if j = 0 then b else n.testBit (j - 1) := by
  cases j with
  | zero => exact Nat.testBit_bit_zero b n
  | succ j => exact Nat.testBit_bit_succ j b n

/-- The bits of CTRL as read (10_state.md R22). -/
theorem Ctrl.getLsbD_toWord (c : Ctrl) (j : Nat) : c.toWord.getLsbD j =
    if j = 0 then c.tiebrk else if j = 1 then c.ieDone else if j = 2 then c.ieErr else false := by
  have hbits : c.tiebrk.toNat + 2 * c.ieDone.toNat + 4 * c.ieErr.toNat
      = Nat.bit c.tiebrk (Nat.bit c.ieDone (Nat.bit c.ieErr 0)) := by
    simp only [Nat.bit_val]; omega
  rw [Ctrl.toWord, hbits, BitVec.getLsbD_ofNat]
  rcases j with _ | _ | _ | j <;> simp [testBit_bit]

/-- STATUS' flags as read while idle (10_state.md R23). -/
theorem State.statusWord_idle_flags (s : State) :
    (s.statusWord .idle).getLsbD 0 = s.status.busy ∧ (s.statusWord .idle).getLsbD 1 = s.status.done ∧
    (s.statusWord .idle).getLsbD 2 = s.status.err ∧ (s.statusWord .idle).getLsbD 3 = s.status.cmdOvr ∧
    (s.statusWord .idle).getLsbD 4 = s.status.wign ∧ (s.statusWord .idle).getLsbD 5 = s.irq := by
  have hbits : s.statusWord .idle = BitVec.ofNat 32
      (Nat.bit s.status.busy (Nat.bit s.status.done (Nat.bit s.status.err (Nat.bit s.status.cmdOvr
        (Nat.bit s.status.wign (Nat.bit s.irq (1024 * s.status.errcode.toNat))))))) := by
    rw [State.statusWord]
    congr 1
    simp only [Nat.bit_val, Phase.value]
    omega
  simp only [hbits, BitVec.getLsbD_ofNat, testBit_bit]
  simp

/-- Flags below bit 6, a byte in 23:16, every other bit 0. -/
theorem extract_flags_byte {f : Nat} (hf : f < 64) (e : BitVec 8) {w : Word} (hw : w.toNat = f + 65536 * e.toNat) :
    w.extractLsb' 6 10 = 0 ∧ w.extractLsb' 16 8 = e ∧ w.extractLsb' 24 8 = 0 := by
  have he := e.isLt
  refine ⟨?_, ?_, ?_⟩ <;>
  · apply BitVec.eq_of_toNat_eq
    simp only [BitVec.extractLsb'_toNat, Nat.shiftRight_eq_div_pow, hw, BitVec.ofNat_eq_ofNat, BitVec.toNat_ofNat,
      Nat.reducePow]
    omega

theorem State.statusWord_idle_fields (s : State) : (s.statusWord .idle).extractLsb' 6 10 = 0 ∧
    (s.statusWord .idle).extractLsb' 16 8 = s.status.errcode ∧ (s.statusWord .idle).extractLsb' 24 8 = 0 := by
  have hb (b : Bool) : b.toNat ≤ 1 := Bool.toNat_le b
  have := hb s.status.busy; have := hb s.status.done; have := hb s.status.err; have := hb s.status.cmdOvr
  have := hb s.status.wign; have := hb s.irq; have := s.status.errcode.isLt
  refine extract_flags_byte (f := s.status.busy.toNat + 2 * s.status.done.toNat + 4 * s.status.err.toNat
    + 8 * s.status.cmdOvr.toNat + 16 * s.status.wign.toNat + 32 * s.irq.toNat) (by omega) _ ?_
  simp only [State.statusWord, Phase.value, BitVec.toNat_ofNat]
  omega

/-- PK_BITS' fields: BBLEN in 2:0, the pending bits left-justified in 15:8 (10_state.md R33). -/
theorem Packer.bitsWord_fields (p : Packer) : p.bitsWord.extractLsb' 0 3 = p.bblen ∧ p.bitsWord.extractLsb' 3 5 = 0 ∧
    p.bitsWord.extractLsb' 16 16 = 0 ∧
    (p.bitsWord.extractLsb' 8 8).toNat = p.bbuf.toNat <<< (8 - p.bblen.toNat) % 256 := by
  have hl := p.bblen.isLt
  have hb : p.bbuf.toNat <<< (8 - p.bblen.toNat) % 256 < 256 := Nat.mod_lt _ (by omega)
  unfold Packer.bitsWord
  generalize p.bbuf.toNat <<< (8 - p.bblen.toNat) % 256 = b at hb ⊢
  have hw : (BitVec.ofNat 32 (p.bblen.toNat + 256 * b)).toNat = p.bblen.toNat + 256 * b := by
    rw [BitVec.toNat_ofNat]; omega
  refine ⟨BitVec.eq_of_toNat_eq ?_, BitVec.eq_of_toNat_eq ?_, BitVec.eq_of_toNat_eq ?_, ?_⟩ <;>
  · simp only [BitVec.extractLsb'_toNat, Nat.shiftRight_eq_div_pow, hw, BitVec.ofNat_eq_ofNat, BitVec.toNat_ofNat,
      Nat.reducePow]
    omega

/-- The byte in PK_BITS is the pending bits and zeros behind them (R33). -/
theorem State.bitsOf_bitsWord (s : State) : bitsOf 8 (s.pk.bitsWord.extractLsb' 8 8).toNat
    = s.pendingBits ++ List.replicate (8 - s.pk.bblen.toNat) false := by
  have hl := s.pk.bblen.isLt
  have h8 : 8 = s.pk.bblen.toNat + (8 - s.pk.bblen.toNat) := by omega
  rw [s.pk.bitsWord_fields.2.2.2, State.pendingBits, ← bitsOf_shiftLeft, ← h8]
  exact bitsOf_mod 8 _

/-- UP_STATE's fields: BITPOS in 2:0, CURSOR in 24:16 (10_state.md R34). -/
theorem Unpacker.stateWord_eq (u : Unpacker) : u.stateWord = 0#7 ++ u.cursor ++ 0#13 ++ u.bitpos := by
  have hb := u.bitpos.isLt
  have hc := u.cursor.isLt
  apply BitVec.eq_of_toNat_eq
  rw [BitVec.toNat_append, ← Nat.shiftLeft_add_eq_or_of_lt hb]
  simp only [Unpacker.stateWord, BitVec.toNat_append, BitVec.toNat_ofNat, Nat.shiftLeft_eq]
  simp
  omega

/-! Reads while busy, and the reserved bits of the windows -/

/-- An accepted read outside the register block (20_memory.md R77 to R80). -/
theorem readsWithin_window {s : State} (hrst : s.env.rst = false) {n : Nat} (hn : n < 2 ^ 24) (h4 : n % 4 = 0) {r : Region}
    (hr : s.region n = r) (hres : r ≠ .reserved) (hreg : ∀ o, r ≠ .reg o) {bits : Word} (hbits : r.openBits .w = bits) :
    ReadsWithin s .w (BitVec.ofNat 24 n) bits := by
  have hnat : (BitVec.ofNat 24 n).toNat = n := by rw [BitVec.toNat_ofNat]; exact Nat.mod_eq_of_lt hn
  have hw := readsWithin (size := .w) (addr := BitVec.ofNat 24 n) hrst
    (State.accepts_word (by rw [hnat, hr]; exact hres) (by rw [hnat]; exact h4))
    (fun o ho => absurd (by rw [← hr, ← ho, hnat]) (hreg o))
  rwa [hnat, hr, hbits] at hw

theorem State.region_code (s : State) (sym : Sym) {k : Nat} (hk : k < 4) :
    s.region (0x001000 + 16 * sym.toNat + 4 * k) = .code sym k := by
  have := sym.isLt
  rw [State.region, if_neg (by omega), if_neg (by omega), if_neg (by omega), if_neg (by omega), if_pos (by omega)]
  rw [show (0x001000 + 16 * sym.toNat + 4 * k - 0x001000) / 16 = sym.toNat by omega,
    show (0x001000 + 16 * sym.toNat + 4 * k) % 16 / 4 = k by omega, BitVec.ofNat_toNat, BitVec.setWidth_eq]

theorem State.region_node (s : State) {i k : Nat} (hi : i < 512) (hk : k < 4) :
    s.region (0x002000 + 16 * i + 4 * k) = .node i k := by
  rw [State.region, if_neg (by omega), if_neg (by omega), if_neg (by omega), if_neg (by omega), if_neg (by omega),
    if_pos (by omega), show (0x002000 + 16 * i + 4 * k - 0x002000) / 16 = i by omega,
    show (0x002000 + 16 * i + 4 * k) % 16 / 4 = k by omega]

theorem State.region_heap (s : State) {k : Nat} (hk : k < 512) : s.region (0x004000 + 4 * k) = .heap k := by
  rw [State.region, if_neg (by omega), if_neg (by omega), if_neg (by omega), if_neg (by omega), if_neg (by omega),
    if_neg (by omega), if_pos (by omega), show (0x004000 + 4 * k - 0x004000) / 4 = k by omega]

/-- A window word's reserved bits read 0 in every read (R77 to R80). -/
theorem windowsKeepReservedBits {s : State} (hrst : s.env.rst = false) : WindowsKeepReservedBits s := by
  refine ⟨fun sym => ?_, fun i hi => ?_, fun k hk => ?_, fun k hk => ?_⟩
  · have := sym.isLt
    have h1 : 0x001004 + 16 * sym.toNat = 0x001000 + 16 * sym.toNat + 4 * 1 := by omega
    exact ⟨readsWithin_window hrst (by omega) (by omega) (s.region_code sym (k := 0) (by omega)) nofun nofun rfl,
      readsWithin_window hrst (r := .code sym 1) (by omega) (by omega) (by rw [h1, s.region_code sym (by omega)]) nofun nofun rfl⟩
  · have h1 : 0x002004 + 16 * i = 0x002000 + 16 * i + 4 * 1 := by omega
    exact ⟨readsWithin_window hrst (by omega) (by omega) (s.region_node (k := 0) (by omega) (by omega)) nofun nofun
        (if_neg hi.ne),
      readsWithin_window hrst (r := .node i 1) (by omega) (by omega) (by rw [h1, s.region_node (by omega) (by omega)])
        nofun nofun (if_neg hi.ne)⟩
  · exact readsWithin_window hrst (by omega) (by omega) (s.region_node (i := 511) (by omega) hk) nofun nofun rfl
  · exact readsWithin_window hrst (by omega) (by omega) (s.region_heap hk) nofun nofun rfl

/-- A busy read of a register besides ID, VERSION, CTRL and STATUS (R82). -/
theorem readsWithin_reg_busy {s : State} (hrst : s.env.rst = false) (hbusy : s.status.busy = true) {a : Addr}
    (h : a.toNat < 0x58) (h4 : a.toNat % 4 = 0) (ha : a.toNat ∉ [0x000, 0x004, 0x008, 0x00C]) :
    ReadsWithin s .w a ((Region.reg a.toNat).openBits .w) := by
  have hw := readsWithin (size := .w) hrst (s.accepts_reg h h4)
    (fun o ho => ⟨hbusy, by rw [s.region_reg h] at ho; rwa [← Region.reg.inj ho]⟩)
  rwa [s.region_reg h] at hw

/-- Settles O57: each address reaches its register, an accepted idle read is `readReg` of it, and the registers made of
fields are read bit by bit. -/
theorem idleRegisterReads : Obligations.IdleRegisterReads := by
  refine ⟨fun s hrst hbusy => ⟨fun a bits hmem => ?_, windowsKeepReservedBits hrst⟩, fun s hrst hidle _ => ?_⟩
  · simp only [List.mem_cons, Prod.mk.injEq, List.not_mem_nil, or_false] at hmem
    rcases hmem with ⟨rfl, rfl⟩ | ⟨rfl, rfl⟩ | ⟨rfl, rfl⟩ | ⟨rfl, rfl⟩ | ⟨rfl, rfl⟩ <;>
      exact readsWithin_reg_busy hrst hbusy (by decide) (by decide) (by decide)
  · have reg {a : Addr} (h : a.toNat < 0x58) (h4 : a.toNat % 4 = 0) := readsWord_reg hrst hidle h h4
    obtain ⟨hbusy, hdone, herr, hovr, hwign, hirq⟩ := s.statusWord_idle_flags
    obtain ⟨hmid, hcode, htop⟩ := s.statusWord_idle_fields
    obtain ⟨hlen, hgap, hhigh, -⟩ := s.pk.bitsWord_fields
    refine ⟨reg (by decide) (by decide), reg (by decide) (by decide), reg (by decide) (by decide),
      ⟨s.ctrl.toWord, reg (by decide) (by decide), s.ctrl.getLsbD_toWord⟩,
      ⟨s.statusWord .idle, reg (by decide) (by decide), hbusy.trans hidle, hdone, herr, hovr, hwign, hirq, hmid, hcode, htop⟩,
      reg (by decide) (by decide), reg (by decide) (by decide), reg (by decide) (by decide),
      reg (by decide) (by decide), reg (by decide) (by decide), reg (by decide) (by decide),
      reg (by decide) (by decide), reg (by decide) (by decide), reg (by decide) (by decide),
      reg (by decide) (by decide), reg (by decide) (by decide), reg (by decide) (by decide),
      ⟨s.pk.bitsWord, reg (by decide) (by decide), hlen, hgap, hhigh, s.bitsOf_bitsWord⟩,
      reg (by decide) (by decide), s.up.stateWord_eq ▸ reg (by decide) (by decide),
      reg (by decide) (by decide), reg (by decide) (by decide)⟩

end Sys2Proof.Machine
end

section
/-! PROOF. The host port's checks (20_memory.md R73): which accesses BERR answers, and what a read-only location ignores. -/

namespace Sys2Proof.Machine

/-! What an address reaches, and which accesses are accepted -/

/-- An address reaches nothing exactly where R71's map reserves it. -/
theorem State.region_eq_reserved_iff (s : State) (n : Nat) : s.region n = .reserved ↔ s.reservedAddr n := by
  unfold State.region State.reservedAddr
  generalize s.dmemSize = size
  split_ifs <;> simp only [true_iff, false_iff] <;> omega

theorem State.region_eq_dmem_iff (s : State) (n a : Nat) : s.region n = .dmem a ↔ n = 0x800000 + a ∧ a < s.dmemSize := by
  refine ⟨State.region_dmem, fun ⟨hn, ha⟩ => ?_⟩
  subst hn
  unfold State.region
  iterate 8 rw [if_neg (by omega)]
  rw [if_pos (Nat.add_lt_add_left ha _), Nat.add_sub_cancel_left]

theorem State.accepts_word_iff (s : State) (a : Addr) :
    s.accepts .w a = true ↔ ¬ s.reservedAddr a.toNat ∧ a.toNat % 4 = 0 := by
  rw [← s.region_eq_reserved_iff]
  refine ⟨fun h => ?_, fun ⟨hr, h4⟩ => State.accepts_word hr h4⟩
  unfold State.accepts at h
  cases hr : s.region a.toNat <;> simp_all

/-- A byte access is accepted exactly in the DMEM window (R73). -/
theorem State.accepts_byte_iff (s : State) (a : Addr) :
    s.accepts .b a = true ↔ 0x800000 ≤ a.toNat ∧ a.toNat < 0x800000 + s.dmemSize := by
  constructor
  · intro h
    obtain ⟨o, ho⟩ := State.dmem_of_accepts_byte h
    obtain ⟨hn, hlt⟩ := State.region_dmem ho
    omega
  · rintro ⟨hlo, hhi⟩
    have hr : s.region a.toNat = .dmem (a.toNat - 0x800000) := (s.region_eq_dmem_iff _ _).mpr (by omega)
    simp only [State.accepts, hr]

/-- R73's three cases are the accesses that are not accepted. -/
theorem State.not_accepts_iff (s : State) (size : Size) (a : Addr) :
    s.accepts size a = false ↔
      s.reservedAddr a.toNat ∨ (size = .b ∧ a.toNat < 0x800000) ∨ (size = .w ∧ a.toNat % 4 ≠ 0) := by
  rw [← Bool.not_eq_true]
  cases size with
  | w => simp only [s.accepts_word_iff, not_and_or, not_not, reduceCtorEq, false_and, true_and, false_or, ne_eq]
  | b =>
    rw [s.accepts_byte_iff]
    unfold State.reservedAddr
    generalize s.dmemSize = size
    have := a.isLt
    simp only [reduceCtorEq, true_and, false_and, or_false]
    omega

/-! The step by what becomes of the host's transaction -/

/-- An access that is not accepted is answered BERR and changes nothing (R73). -/
theorem step_of_not_accepts {s : State} {rest : List Event} (hrst : s.env.rst = false) {t : Txn} {size : Size} {a : Addr}
    {w : Word} (ht : t = .rd size a ∨ t = .wr size a w) (hturn : s.hostTurn t rest) (hacc : s.accepts size a = false) :
    step s = .next ((s.withEvents rest).respond .berr) := by
  have hacc' : (s.withEvents rest).accepts size a = false := hacc
  rw [step_of_hostTurn hturn]
  rcases ht with rfl | rfl <;> simp [hostStep, State.transact, hrst, hacc']

/-- An accepted read is served by what lies at the address (R72, R82). -/
theorem step_of_read {s : State} {rest : List Event} (hrst : s.env.rst = false) {size : Size} {a : Addr}
    (hturn : s.hostTurn (.rd size a) rest) (hacc : s.accepts size a = true) :
    step s = .next
      (if s.status.busy then
        ((s.withEvents rest).respondRead size (s.region a.toNat)
          (s.readBusy (decoded s.cmdword) (s.region a.toNat))).draw
      else (s.withEvents rest).respondRead size (s.region a.toNat) (s.readIdle size (s.region a.toNat))) := by
  have hacc' : (s.withEvents rest).accepts size a = true := hacc
  rw [step_of_hostTurn hturn, hostStep, State.transact]
  simp only [State.withEvents_rst, hrst, hacc', if_true]
  rfl

/-- An accepted write is answered OK, whatever the gating makes of it (R73, R82). -/
theorem step_of_write {s : State} {rest : List Event} (hrst : s.env.rst = false) {size : Size} {a : Addr} {w : Word}
    (hturn : s.hostTurn (.wr size a w) rest) (hacc : s.accepts size a = true) :
    step s = .next ((if s.status.busy then (s.withEvents rest).writeBusy (s.region a.toNat) w
      else (s.withEvents rest).writeIdle size (s.region a.toNat) w (firstPhase w)).respond .ok) := by
  have hacc' : (s.withEvents rest).accepts size a = true := hacc
  rw [step_of_hostTurn hturn, hostStep, State.transact]
  simp only [State.withEvents_rst, hrst, hacc', if_true]
  rfl

/-- A read that is served is answered with data, and changes nothing but the counter of free values. -/
theorem State.respondRead_eq (s : State) (size : Size) (r : Region) (v : Option Word) : ∃ w n,
    s.respondRead size r v = { s.respond (.data w) with env := { (s.respond (.data w)).env with draws := n } } := by
  cases v with
  | some w => exact ⟨w, s.env.draws, rfl⟩
  | none => exact ⟨s.drawnWord size r, s.env.draws + 1, rfl⟩

/-- Every accepted read answers some word and changes nothing else, idle or busy (R70, R83). -/
theorem readsWithin_word {s : State} {size : Size} {a : Addr} (hrst : s.env.rst = false)
    (hacc : s.accepts size a = true) : ReadsWithin s size a 0xFFFFFFFF#32 := by
  intro rest hturn
  rw [step_of_read hrst hturn hacc]
  split
  · obtain ⟨w, n, h⟩ := (s.withEvents rest).respondRead_eq size (s.region a.toNat)
      (s.readBusy (decoded s.cmdword) (s.region a.toNat))
    exact ⟨w, n + 1, by simp, by rw [h]; rfl⟩
  · obtain ⟨w, n, h⟩ := (s.withEvents rest).respondRead_eq size (s.region a.toNat) (s.readIdle size (s.region a.toNat))
    exact ⟨w, n, by simp, by rw [h]⟩

/-- An accepted access is not answered BERR (R73). -/
theorem step_of_accepts {s : State} {rest : List Event} (hrst : s.env.rst = false) {t : Txn} {size : Size} {a : Addr}
    {w : Word} (ht : t = .rd size a ∨ t = .wr size a w) (hturn : s.hostTurn t rest) (hacc : s.accepts size a = true) :
    ∃ u r, step s = .next u ∧ u.env.response = some r ∧ r ≠ .berr := by
  rcases ht with rfl | rfl
  · obtain ⟨d, n, -, hstep⟩ := readsWithin_word hrst hacc rest hturn
    exact ⟨_, .data d, hstep, rfl, nofun⟩
  · exact ⟨_, .ok, step_of_write hrst hturn hacc, rfl, nofun⟩

/-! Writes to read-only locations -/

/-- The offsets of the read-only registers (10_state.md section 2). -/
def readOnlyRegs : List Nat :=
  [0x000, 0x004, 0x020, 0x024, 0x028, 0x02C, 0x030, 0x03C, 0x040, 0x044, 0x048, 0x04C, 0x050, 0x054]

/-- The read-only registers and windows (20_memory.md R71, R73). -/
def Region.readOnly : Region → Prop
  | .reg o => o ∈ readOnlyRegs
  | .code _ _ | .node _ _ | .heap _ => True
  | .freq _ | .dmem _ | .reserved => False

/-- A busy write to a read-only location changes nothing and sets no WIGN (R73, R82). -/
theorem State.writeBusy_readOnly (s : State) {r : Region} (h : r.readOnly) (w : Word) : s.writeBusy r w = s := by
  cases r with
  | reg o =>
    have hall : ∀ o ∈ readOnlyRegs, s.writeBusy (.reg o) w = s := by simp [readOnlyRegs, State.writeBusy]
    exact hall o h
  | code _ _ | node _ _ | heap _ => rfl
  | freq _ | dmem _ | reserved => exact h.elim

theorem State.writeIdle_readOnly (s : State) {r : Region} (h : r.readOnly) (size : Size) (w : Word) (p : Phase) :
    s.writeIdle size r w p = s := by
  cases r with
  | reg o =>
    have hall : ∀ o ∈ readOnlyRegs, s.writeReg o w p = s := by simp [readOnlyRegs, State.writeReg]
    exact hall o h
  | code _ _ | node _ _ | heap _ => rfl
  | freq _ | dmem _ | reserved => exact h.elim

theorem lt_of_mem_readOnlyRegs {o : Nat} (h : o ∈ readOnlyRegs) : o < 0x58 ∧ o % 4 = 0 := by
  have hall : ∀ o ∈ readOnlyRegs, o < 0x58 ∧ o % 4 = 0 := by decide
  exact hall o h

/-- The CODE, NODE and HEAP windows are read-only (R78 to R80). -/
theorem State.region_arrays_readOnly (s : State) {n : Nat} (hlo : 0x001000 ≤ n) (hhi : n < 0x004800) :
    (s.region n).readOnly := by
  unfold State.region
  iterate 4 rw [if_neg (by omega)]
  rw [if_pos hhi]
  split_ifs <;> trivial

/-- A word write while busy is `writeBusy` of what the address reaches (R82). -/
theorem writesWord_busy {s : State} {a : Addr} (hrst : s.env.rst = false) (hbusy : s.status.busy = true)
    (hacc : s.accepts .w a = true) (w : Word) : WritesWord s a w fun u => u.writeBusy (s.region a.toNat) w := by
  intro rest ht
  rw [step_of_write hrst ht hacc, if_pos hbusy]

/-- A word write to a read-only location, idle or busy (R73). -/
theorem writesWord_readOnly {s : State} {a : Addr} (hrst : s.env.rst = false) (h4 : a.toNat % 4 = 0)
    (hro : (s.region a.toNat).readOnly) (w : Word) : WritesWord s a w fun u => u := by
  have hacc : s.accepts .w a = true := State.accepts_word (fun hr => by rw [hr] at hro; exact hro) h4
  cases hbusy : s.status.busy with
  | true => simpa only [State.writeBusy_readOnly _ hro] using writesWord_busy hrst hbusy hacc w
  | false => simpa only [State.writeIdle_readOnly _ hro] using writesWord_idle hrst hbusy hacc w

/-- The read-only addresses of R71's map. -/
theorem State.region_readOnly (s : State) {a : Addr}
    (h : a.toNat ∈ readOnlyRegs ∨ (0x001000 ≤ a.toNat ∧ a.toNat < 0x004800)) : (s.region a.toNat).readOnly := by
  rcases h with h | ⟨hlo, hhi⟩
  · rw [s.region_reg (lt_of_mem_readOnlyRegs h).1]; exact h
  · exact s.region_arrays_readOnly hlo hhi

/-- Settles O54: BERR answers the accesses that are not accepted, which are R73's three cases, and every write leaves a
read-only location alone. -/
theorem busErrorsChangeNothing : Obligations.BusErrorsChangeNothing := by
  refine fun s rest size addr data hrst => ⟨fun t ht hturn => ?_, fun _ h4 hro => ?_⟩
  · rw [← s.not_accepts_iff size addr]
    exact ⟨step_of_not_accepts hrst ht hturn,
      fun hacc => step_of_accepts hrst ht hturn (Bool.eq_true_of_not_eq_false hacc)⟩
  · exact writesWord_readOnly hrst h4 (s.region_readOnly hro) data

end Sys2Proof.Machine
end

section
/-! PROOF. The host port while busy, the array windows, and the DMEM window (20_memory.md R72 to R83). -/

namespace Sys2Proof.Machine

/-! Accesses while busy -/

theorem State.runningPhases_ne_nil (s : State) (i : Option Instr) : s.runningPhases i ≠ [] := by
  unfold State.runningPhases
  split
  · nofun
  · cases i with
    | none => nofun
    | some i => cases i <;> nofun

/-- The PHASE a busy STATUS read reports is one of the running command's (10_state.md R27). -/
theorem State.drawnPhase_mem (s : State) (i : Option Instr) : s.drawnPhase i ∈ s.runningPhases i := by
  have hpos : 0 < (s.runningPhases i).length := List.length_pos_of_ne_nil (s.runningPhases_ne_nil i)
  simp only [State.drawnPhase, List.getElem?_eq_getElem (Nat.mod_lt _ hpos), Option.getD_some]
  exact List.getElem_mem _

/-- An exact read of a register while busy (R82). -/
theorem step_of_exact_read_busy {s : State} {rest : List Event} (hrst : s.env.rst = false) (hbusy : s.status.busy = true)
    {a : Addr} (hturn : s.hostTurn (.rd .w a) rest) (h : a.toNat < 0x58) (h4 : a.toNat % 4 = 0) {w : Word}
    (hw : s.readBusy (decoded s.cmdword) (.reg a.toNat) = some w) :
    ∃ n, step s = .next { (s.withEvents rest).respond (.data w) with
      env := { ((s.withEvents rest).respond (.data w)).env with draws := n } } := by
  rw [step_of_read hrst hturn (s.accepts_reg h h4), if_pos hbusy, s.region_reg h, hw]
  exact ⟨_, rfl⟩

theorem writesWord_reg_busy {s : State} {a : Addr} (hrst : s.env.rst = false) (hbusy : s.status.busy = true)
    (h : a.toNat < 0x58) (h4 : a.toNat % 4 = 0) (w : Word) :
    WritesWord s a w fun u => u.writeBusy (.reg a.toNat) w := by
  have hw := writesWord_busy hrst hbusy (s.accepts_reg h h4) w
  rwa [s.region_reg h] at hw

/-- The offsets of the registers whose busy writes set WIGN: CTRL, SRC, LEN, DST, TOTAL (R82). -/
def gatedRegs : List Nat := [0x008, 0x014, 0x018, 0x01C, 0x034, 0x038]

/-- The registers and windows whose busy writes set WIGN (R82, 70_reset_and_hazards.md R284). -/
def Region.gated : Region → Prop
  | .reg o => o ∈ gatedRegs
  | .freq _ | .dmem _ => True
  | .code _ _ | .node _ _ | .heap _ | .reserved => False

theorem State.writeBusy_gated (s : State) {r : Region} (h : r.gated) (w : Word) : s.writeBusy r w = s.setWign := by
  cases r with
  | reg o =>
    have hall : ∀ o ∈ gatedRegs, s.writeBusy (.reg o) w = s.setWign := by simp [gatedRegs, State.writeBusy]
    exact hall o h
  | freq _ | dmem _ => rfl
  | code _ _ | node _ _ | heap _ | reserved => exact h.elim

theorem lt_of_mem_gatedRegs {o : Nat} (h : o ∈ gatedRegs) : o < 0x58 ∧ o % 4 = 0 := by
  have hall : ∀ o ∈ gatedRegs, o < 0x58 ∧ o % 4 = 0 := by decide
  exact hall o h

/-- An address of the DMEM window reaches the byte at its offset (R71). -/
theorem State.region_dmemWindow (s : State) {n : Nat} (hlo : 0x800000 ≤ n) (hhi : n < 0x800000 + s.dmemSize) :
    s.region n = .dmem (n - 0x800000) :=
  (s.region_eq_dmem_iff _ _).mpr ⟨by omega, by omega⟩

theorem State.region_freqWindow_gated (s : State) {n : Nat} (hlo : 0x000400 ≤ n) (hhi : n < 0x000800) :
    (s.region n).gated := by
  unfold State.region
  rw [if_neg (by omega), if_neg (by omega), if_pos hhi]
  trivial

/-- A word write to a gated location while busy sets WIGN and nothing else (R82). -/
theorem writesWord_gated {s : State} {a : Addr} (hrst : s.env.rst = false) (hbusy : s.status.busy = true)
    (h4 : a.toNat % 4 = 0) (hg : (s.region a.toNat).gated) (w : Word) : WritesWord s a w State.setWign := by
  have hacc : s.accepts .w a = true := State.accepts_word (fun hr => by rw [hr] at hg; exact hg) h4
  simpa only [State.writeBusy_gated _ hg] using writesWord_busy hrst hbusy hacc w

/-- Settles O55: an accepted busy read is `readBusy` of its register and answers within its location's bits, and an
accepted busy write is `writeBusy` of what the address reaches. -/
theorem busyAccessesAreGated : Obligations.BusyAccessesAreGated := by
  intro s hrst hbusy
  refine ⟨fun rest hturn => ?_, fun a w hmem rest hturn => ?_,
    fun a hres h4 => readsWithin_word hrst ((s.accepts_word_iff a).mpr ⟨hres, h4⟩), (windowsKeepReservedBits hrst).2.2.1,
    writesWord_reg_busy hrst hbusy (by decide) (by decide), writesWord_reg_busy hrst hbusy (by decide) (by decide),
    fun a w h => ?_, fun a w h => ?_, fun a rest hlo hhi => ?_⟩
  · have hphase := s.drawnPhase_mem (decoded s.cmdword)
    obtain ⟨n, hn⟩ := step_of_exact_read_busy hrst hbusy hturn (by decide) (by decide) rfl
    exact ⟨_, n, hphase, hn⟩
  · simp only [List.mem_cons, Prod.mk.injEq, List.not_mem_nil, or_false] at hmem
    rcases hmem with ⟨rfl, rfl⟩ | ⟨rfl, rfl⟩ | ⟨rfl, rfl⟩ <;>
      exact step_of_exact_read_busy hrst hbusy hturn (by decide) (by decide) rfl
  · rcases h with hreg | ⟨hlo, hhi, h4⟩ | ⟨hlo, hhi, h4⟩
    · obtain ⟨hlt, h4⟩ := lt_of_mem_gatedRegs hreg
      exact writesWord_gated hrst hbusy h4 (by rw [s.region_reg hlt]; exact hreg) w
    · exact writesWord_gated hrst hbusy h4 (s.region_freqWindow_gated hlo hhi) w
    · exact writesWord_gated hrst hbusy h4 (by rw [s.region_dmemWindow hlo hhi]; trivial) w
  · rcases h with hreg | ⟨hlo, hhi, h4⟩
    · exact writesWord_readOnly hrst (lt_of_mem_readOnlyRegs hreg).2 (s.region_readOnly (.inl hreg)) w
    · exact writesWord_readOnly hrst h4 (s.region_readOnly (.inr ⟨hlo, hhi⟩)) w
  · have hacc := (s.accepts_byte_iff a).mpr ⟨hlo, hhi⟩
    have hr := s.region_dmemWindow hlo hhi
    refine ⟨readsWithin hrst hacc (fun o ho => absurd (hr.symm.trans ho) nofun), fun w hturn => ?_⟩
    rw [step_of_write hrst hturn hacc, if_pos hbusy, hr]
    rfl

/-! The array windows while idle -/

/-- An exact word read of the map while idle, by what lies at the address (R77 to R81). -/
theorem readsWord_window {s : State} (hrst : s.env.rst = false) (hidle : s.status.busy = false) {n : Nat} (hn : n < 2 ^ 24)
    (h4 : n % 4 = 0) {r : Region} (hr : s.region n = r) {w : Word} (hw : s.readIdle .w r = some w) :
    ReadsWord s (BitVec.ofNat 24 n) w := by
  have hnat : (BitVec.ofNat 24 n).toNat = n := by rw [BitVec.toNat_ofNat]; exact Nat.mod_eq_of_lt hn
  have hres : r ≠ .reserved := by rintro rfl; cases hw
  refine readsWord_idle hrst hidle (State.accepts_word ?_ ?_) ?_ <;> rw [hnat]
  · rwa [hr]
  · exact h4
  · rwa [hr]

theorem readsWord_freq {s : State} (hrst : s.env.rst = false) (hidle : s.status.busy = false) (sym : Sym) :
    ReadsWord s (BitVec.ofNat 24 (0x000400 + 4 * sym.toNat)) (s.freqAt sym) := by
  refine readsWord_idle hrst hidle (s.accepts_freq sym) ?_
  rw [s.region_freq sym]
  rfl

theorem readsWord_code {s : State} (hrst : s.env.rst = false) (hidle : s.status.busy = false) (sym : Sym) {k n : Nat}
    (hk : k < 4) (hn : n = 0x001000 + 16 * sym.toNat + 4 * k) :
    ReadsWord s (BitVec.ofNat 24 n) (CodeEntry.windowWord (s.codeAt sym) k) := by
  have := sym.isLt
  exact readsWord_window hrst hidle (by omega) (by omega) (by rw [hn, s.region_code sym hk]) rfl

theorem readsWord_node {s : State} (hrst : s.env.rst = false) (hidle : s.status.busy = false) {i : NodeIx}
    (hi : i.toNat < s.nodeCount) (hne : i ≠ nilIx) {k n : Nat} (hk : k < 4) (hn : n = 0x002000 + 16 * i.toNat + 4 * k) :
    ReadsWord s (BitVec.ofNat 24 n) (Node.windowWord (s.node i) k) := by
  have hlt := i.isLt
  have hcap : i.toNat ≠ Config.nodeCap := fun h => hne (BitVec.eq_of_toNat_eq h)
  refine readsWord_window hrst hidle (by omega) (by omega) (by rw [hn, s.region_node hlt hk]) ?_
  simp [State.readIdle, hcap, State.node, List.getElem?_eq_getElem hi]

theorem readsWord_slot511 {s : State} (hrst : s.env.rst = false) (hidle : s.status.busy = false) {k : Nat} (hk : k < 4) :
    ReadsWord s (BitVec.ofNat 24 (0x003FF0 + 4 * k)) 0 :=
  readsWord_window hrst hidle (by omega) (by omega) (s.region_node (i := 511) (by omega) hk) rfl

theorem readsWord_heap {s : State} (hrst : s.env.rst = false) (hidle : s.status.busy = false) {k : Nat} (hk : k < 512)
    {n : NodeIx} (hn : s.heap[k]? = some n) : ReadsWord s (BitVec.ofNat 24 (0x004000 + 4 * k)) (n.zeroExtend 32) := by
  refine readsWord_window hrst hidle (by omega) (by omega) (s.region_heap hk) ?_
  rw [State.readIdle, hn]
  rfl

/-- A field at bit 0 and one above a gap of reserved bits, as a number. -/
theorem toNat_append_gap {a b : Nat} (x : BitVec a) (y : BitVec b) (gap : Nat) :
    (y ++ 0#gap ++ x).toNat = x.toNat + 2 ^ (gap + a) * y.toNat := by
  rw [BitVec.toNat_append, ← Nat.shiftLeft_add_eq_or_of_lt x.isLt, BitVec.toNat_append, BitVec.toNat_zero, Nat.or_zero,
    Nat.shiftLeft_eq, Nat.shiftLeft_eq, Nat.pow_add]
  ring

/-- Word 0 of a CODE entry: VALID in bit 31, LEN in 6:0 (R78). -/
theorem CodeEntry.windowWord_zero (e : CodeEntry) :
    CodeEntry.windowWord e 0 = BitVec.ofBool e.valid ++ 0#24 ++ e.len := by
  have := e.len.isLt
  have := Bool.toNat_lt e.valid
  apply BitVec.eq_of_toNat_eq
  rw [toNat_append_gap, CodeEntry.windowWord, BitVec.toNat_ofNat, BitVec.toNat_ofBool]
  omega

/-- Word 0 of a NODE slot: SYM in 15:8, TAG in bit 0 (R79). -/
theorem Node.windowWord_zero (n : Node) :
    Node.windowWord n 0 = 0#16 ++ n.sym ++ 0#7 ++ BitVec.ofBool n.isInternal := by
  have := n.sym.isLt
  have := Bool.toNat_lt n.isInternal
  apply BitVec.eq_of_toNat_eq
  rw [toNat_append_gap, Node.windowWord, BitVec.toNat_ofNat, BitVec.toNat_ofBool, BitVec.toNat_append, BitVec.toNat_zero,
    Nat.zero_shiftLeft, Nat.zero_or]
  omega

/-- Word 1 of a NODE slot: RIGHT in 24:16, LEFT in 8:0 (R79). -/
theorem Node.windowWord_one (n : Node) : Node.windowWord n 1 = 0#7 ++ n.right ++ 0#7 ++ n.left := by
  have := n.left.isLt
  have := n.right.isLt
  apply BitVec.eq_of_toNat_eq
  rw [toNat_append_gap, Node.windowWord, BitVec.toNat_ofNat, BitVec.toNat_append, BitVec.toNat_zero,
    Nat.zero_shiftLeft, Nat.zero_or]
  omega

/-- Settles O58: each window word reaches its array entry, and an accepted idle read is the entry's word. -/
theorem windowsShowTheArrays : Obligations.WindowsShowTheArrays := by
  refine ⟨fun s hrst => (windowsKeepReservedBits hrst).2.2.1, fun s hrst hidle => ⟨fun sym => ?_, fun i hi hne => ?_,
    fun k hk => readsWord_slot511 hrst hidle hk, fun k n hk hn => readsWord_heap hrst hidle hk hn,
    fun a hlo hhi h4 => ?_, windowsKeepReservedBits hrst⟩⟩
  · have word {k n : Nat} (hk : k < 4) (hn) := readsWord_code (n := n) hrst hidle sym hk hn
    exact ⟨readsWord_freq hrst hidle sym, CodeEntry.windowWord_zero (s.codeAt sym) ▸ word (k := 0) (by omega) (by omega),
      word (k := 1) (by omega) (by omega), word (k := 2) (by omega) (by omega), word (k := 3) (by omega) (by omega)⟩
  · have word {k n : Nat} (hk : k < 4) (hn) := readsWord_node (n := n) hrst hidle hi hne hk hn
    exact ⟨Node.windowWord_zero (s.node i) ▸ word (k := 0) (by omega) (by omega),
      Node.windowWord_one (s.node i) ▸ word (k := 1) (by omega) (by omega),
      word (k := 2) (by omega) (by omega), word (k := 3) (by omega) (by omega)⟩
  · refine readsWithin_word hrst ((s.accepts_word_iff a).mpr ⟨?_, h4⟩)
    unfold State.reservedAddr
    omega

/-! The DMEM window while idle -/

/-- The host address of DMEM[a] (R71, R72). -/
theorem dmemAddr_toNat {s : State} {a : Nat} (ha : a < s.dmemSize) :
    (BitVec.ofNat 24 (0x800000 + a)).toNat = 0x800000 + a := by
  have hmax : s.dmemSize ≤ 2 ^ 23 := Nat.pow_le_pow_right (by omega) (by have := s.dmemLog.isLt; omega)
  rw [BitVec.toNat_ofNat]
  omega

theorem State.region_dmemAddr {s : State} {a : Nat} (ha : a < s.dmemSize) :
    s.region (BitVec.ofNat 24 (0x800000 + a)).toNat = .dmem a := by
  rw [dmemAddr_toNat ha]
  exact (s.region_eq_dmem_iff _ _).mpr ⟨rfl, ha⟩

theorem State.accepts_dmem_byte {s : State} {a : Nat} (ha : a < s.dmemSize) :
    s.accepts .b (BitVec.ofNat 24 (0x800000 + a)) = true := by
  rw [s.accepts_byte_iff, dmemAddr_toNat ha]
  omega

theorem State.accepts_dmem_word {s : State} {a : Nat} (ha : a < s.dmemSize) (h4 : a % 4 = 0) :
    s.accepts .w (BitVec.ofNat 24 (0x800000 + a)) = true :=
  State.accepts_word (by rw [State.region_dmemAddr ha]; nofun) (by rw [dmemAddr_toNat ha]; omega)

/-- DMEM after a word is written little-endian (R74). -/
theorem State.byte_putLittleEndian (s : State) (a x : Nat) (w : Word) : (s.putLittleEndian a w).byte x =
    if x = a + 3 then w.extractLsb' 24 8 else if x = a + 2 then w.extractLsb' 16 8
    else if x = a + 1 then w.extractLsb' 8 8 else if x = a then w.extractLsb' 0 8 else s.byte x := by
  simp only [State.putLittleEndian, State.byte_setByte]

/-- A word written little-endian is read back (R74). -/
theorem State.littleEndian_putLittleEndian (s : State) (a : Nat) (w : Word) :
    (s.putLittleEndian a w).littleEndian a = w := by
  simp only [State.littleEndian, State.byte_putLittleEndian]
  simpa [wordOfBytes] using wordOfBytes_bytesOfWord w

/-- A byte read has its byte in 7:0 and zeros above (R70). -/
theorem zeroExtend_byte (b : Byte) : b.zeroExtend 32 = 0#24 ++ b := by
  have := b.isLt
  apply BitVec.eq_of_toNat_eq
  rw [BitVec.toNat_append, BitVec.toNat_zero, Nat.zero_shiftLeft, Nat.zero_or, BitVec.toNat_setWidth]
  omega

/-- Settles O59: an accepted idle access to the DMEM window is a byte or a little-endian word of DMEM, and byte writes
touch nothing else. -/
theorem dmemWindowIsLittleEndian : Obligations.DmemWindowIsLittleEndian := by
  intro s a hrst hidle ha
  have hnot : ¬ s.status.busy = true := by rw [hidle]; nofun
  have hregion := State.region_dmemAddr ha
  have hbyte := State.accepts_dmem_byte ha
  refine ⟨fun rest hturn => ?_, fun rest w hturn => ?_, fun h4 => ⟨?_, fun rest w hturn => ?_⟩⟩
  · rw [step_of_read hrst hturn hbyte, if_neg hnot, hregion]
    rw [← zeroExtend_byte]
    rfl
  · refine ⟨(s.withEvents rest).setByte a (w.extractLsb' 0 8), ?_, rfl, State.byte_setByte_same _ _ _, fun x hx => ?_⟩
    · rw [step_of_write hrst hturn hbyte, if_neg hnot, hregion]
      rfl
    · rw [State.byte_setByte, if_neg (by omega)]
      rfl
  · refine readsWord_idle hrst hidle (State.accepts_dmem_word ha h4) ?_
    rw [hregion]
    rfl
  · refine ⟨(s.withEvents rest).putLittleEndian a w, ?_, rfl, State.littleEndian_putLittleEndian _ _ _, fun x hx => ?_⟩
    · rw [step_of_write hrst hturn (State.accepts_dmem_word ha h4), if_neg hnot, hregion]
      rfl
    · rw [State.byte_putLittleEndian, if_neg (by omega), if_neg (by omega), if_neg (by omega), if_neg (by omega)]
      rfl

end Sys2Proof.Machine
end

section
/-! PROOF. The decoder and the encoder undo each other (30_encoding.md R100 to R106, R110). -/

namespace Sys2Proof

/-! The decoder -/

/-- A word is a command exactly when its OPC selects the row and the row's must-be-zero bits are 0 (R108, R110). -/
theorem decode_eq_ok_iff {w : Word} {i : Instr} :
    decode w = .ok i ↔ rowOf w = some i ∧ operandOf w &&& i.format.mbz = 0 := by
  unfold decode
  cases rowOf w with
  | none => simp
  | some j =>
    dsimp only
    by_cases hclear : operandOf w &&& j.format.mbz = 0
    · rw [if_pos hclear, Except.ok.injEq, Option.some.injEq]
      exact ⟨fun h => ⟨h, h ▸ hclear⟩, And.left⟩
    · rw [if_neg hclear]
      exact ⟨nofun, fun ⟨hj, hi⟩ => absurd (Option.some.inj hj ▸ hi) hclear⟩

/-- The row OPC selects is a command with that OPC. -/
theorem opcOf_of_rowOf {w : Word} {i : Instr} (h : rowOf w = some i) : opcOf w = i.opc := by
  unfold rowOf at h
  split at h <;> cases h
  all_goals exact BitVec.eq_of_toNat_eq ‹_›

/-- A command's OPC is listed with the command's format (R107). -/
theorem formatOf_opc (i : Instr) : formatOf i.opc = some i.format := by
  cases i <;> rfl

/-- Every OPC with a format selects a row (R107). -/
theorem exists_rowOf {w : Word} {f : Format} (h : formatOf (opcOf w) = some f) : ∃ i, rowOf w = some i := by
  unfold formatOf at h
  split at h <;> rename_i hopc
  case h_24 => cases h
  all_goals
    rw [rowOf, hopc]
    exact ⟨_, rfl⟩

/-- The row a word selects has the format listed for the word's OPC (R107). -/
theorem formatOf_of_rowOf {w : Word} {i : Instr} (h : rowOf w = some i) : formatOf (opcOf w) = some i.format := by
  rw [opcOf_of_rowOf h, formatOf_opc]

/-- Both checks of R108 on a word. -/
theorem exists_decode_iff (w : Word) :
    (∃ i, decode w = .ok i) ↔ ∃ f, formatOf (opcOf w) = some f ∧ operandOf w &&& f.mbz = 0 := by
  constructor
  · rintro ⟨i, h⟩
    obtain ⟨hrow, hclear⟩ := decode_eq_ok_iff.mp h
    exact ⟨i.format, formatOf_of_rowOf hrow, hclear⟩
  · rintro ⟨f, hf, hclear⟩
    obtain ⟨i, hrow⟩ := exists_rowOf hf
    have hformat : f = i.format := Option.some.inj (hf.symm.trans (formatOf_of_rowOf hrow))
    exact ⟨i, decode_eq_ok_iff.mpr ⟨hrow, hformat ▸ hclear⟩⟩

/-! Encoding and decoding back -/

/-- An encoded command selects its own row, operands read back (R101 to R107). -/
theorem rowOf_encode (i : Instr) : rowOf (encode i) = some i := by
  unfold rowOf
  rw [Laws.opcOf_encode]
  cases i with
  | pqInsert na => exact congrArg (some ∘ Instr.pqInsert) (Laws.naOf_append_i _ na)
  | treeSetroot na => exact congrArg (some ∘ Instr.treeSetroot) (Laws.naOf_append_i _ na)
  | nodeLeaf sym => exact congrArg (some ∘ Instr.nodeLeaf) (Laws.symOf_append _ sym)
  | packSym sym => exact congrArg (some ∘ Instr.packSym) (Laws.symOf_append _ sym)
  | nodeJoin na nb =>
    exact congrArg some (congrArg₂ Instr.nodeJoin (Laws.naOf_append_j _ na nb) (Laws.nbOf_append_j _ na nb))
  | _ => rfl

/-- What a command's well-formedness says of its operand field (R108). -/
theorem operand_clear_of_wellFormed {i : Instr} (h : i.WellFormed = true) : i.operand &&& i.format.mbz = 0 := by
  simpa [Instr.WellFormed, RawCommand.WellFormed, RawCommand.opcodeListed, RawCommand.operandClear, Instr.raw,
    formatOf_opc] using h

theorem decode_encode {i : Instr} (h : i.WellFormed = true) : decode (encode i) = .ok i := by
  rw [decode_eq_ok_iff, Laws.operandOf_encode]
  exact ⟨rowOf_encode i, operand_clear_of_wellFormed h⟩

/-- The bytes of a word decode as the word does, and what follows them is left (log 14). -/
theorem decodeBytes_of_decode {w : Word} {i : Instr} (h : decode w = .ok i) (rest : List Byte) :
    decodeBytes (bytesOfWord w ++ rest) = .ok (i, rest) := by
  simp only [bytesOfWord, List.cons_append, List.nil_append, decodeBytes, Machine.wordOfBytes_bytesOfWord, h]

/-! Decoding and encoding back -/

/-- How many of the operand field's low bits hold operands (R101 to R105). -/
def Format.operandBits : Format → Nat
  | .n => 0
  | .m => 0
  | .s => 8
  | .i => 9
  | .j => 18

/-- The must-be-zero bits are all those above the operands (R110). -/
theorem Format.mbz_eq_shiftLeft (f : Format) : f.mbz = BitVec.allOnes 24 <<< f.operandBits := by
  cases f <;> rfl

/-- An operand field with its must-be-zero bits 0 is the word's operand bits and zeros above. -/
theorem operandOf_eq_of_clear {w : Word} {f : Format} (h : operandOf w &&& f.mbz = 0) :
    operandOf w = (w.extractLsb' 0 f.operandBits).setWidth 24 := by
  apply BitVec.eq_of_getLsbD_eq
  intro k hk
  have hbit := congrArg (BitVec.getLsbD · k) h
  simp only [f.mbz_eq_shiftLeft, operandOf, BitVec.getLsbD_and, BitVec.getLsbD_shiftLeft, BitVec.getLsbD_allOnes,
    BitVec.getLsbD_extractLsb'] at hbit
  simp only [operandOf, BitVec.getLsbD_setWidth, BitVec.getLsbD_extractLsb']
  by_cases hop : k < f.operandBits
  · simp [hk, hop]
  · have : k - f.operandBits < 24 := by omega
    simpa [hk, hop, this] using hbit

/-- A command read from a word has the word's operand bits as its operand field (R106). -/
theorem operand_of_rowOf {w : Word} {i : Instr} (h : rowOf w = some i) :
    i.operand = (w.extractLsb' 0 i.format.operandBits).setWidth 24 := by
  have hnone : (w.extractLsb' 0 0).setWidth 24 = 0#24 := congrArg (BitVec.setWidth 24) BitVec.of_length_zero
  have hsym : (w.extractLsb' 0 8).setWidth 24 = 0#16 ++ symOf w := BitVec.setWidth_eq_append (by decide)
  have hna : (w.extractLsb' 0 9).setWidth 24 = 0#15 ++ naOf w := BitVec.setWidth_eq_append (by decide)
  have hpair : (w.extractLsb' 0 18).setWidth 24 = 0#6 ++ nbOf w ++ naOf w := by
    rw [BitVec.append_assoc, nbOf, naOf, BitVec.extractLsb'_append_extractLsb'_eq_extractLsb' (by rfl)]
    exact BitVec.setWidth_eq_append (by decide)
  unfold rowOf at h
  split at h <;> cases h
  all_goals simp only [Instr.operand, Instr.format, Format.operandBits, hnone, hsym, hna, hpair]

/-- No two words mean one command: a legal word's two fields are those of its command (R110). -/
theorem encode_of_decode {w : Word} {i : Instr} (h : decode w = .ok i) : encode i = w := by
  obtain ⟨hrow, hclear⟩ := decode_eq_ok_iff.mp h
  have hopc : opcOf w = i.opc := opcOf_of_rowOf hrow
  have hoperand : operandOf w = i.operand := (operandOf_eq_of_clear hclear).trans (operand_of_rowOf hrow).symm
  rw [encode, ← hopc, ← hoperand, ← Laws.word_eq_append]

/-- Settles O1: the encoder's fields read back, and a legal word's fields are those of the command read from it. -/
theorem decodeEncodeRoundTrip : Obligations.DecodeEncodeRoundTrip :=
  ⟨fun _ hi => ⟨decode_encode hi, decodeBytes_of_decode (decode_encode hi)⟩, fun _ _ => encode_of_decode⟩

/-- Settles O3: each word is the encoding of a well-formed command. -/
theorem specWordsDecode : Obligations.SpecWordsDecode :=
  ⟨decode_encode (i := .nop) rfl, decode_encode (i := .freqCount) rfl, decode_encode (i := .pqInsert 0x1FF#9) rfl,
    decode_encode (i := .nodeLeaf 0x41#8) rfl, decode_encode (i := .nodeJoin 2#9 1#9) rfl,
    decode_encode (i := .nodeJoin 0#9 3#9) rfl, decode_encode (i := .treeSetroot 4#9) rfl,
    decode_encode (i := .packSym 0x43#8) rfl, decode_encode (i := .hdrParse) rfl, decode_encode (i := .decompress) rfl⟩

end Sys2Proof
end

section
/-! PROOF. A word is one row of the opcode table or illegal, and what an illegal word does (30_encoding.md R107 to R109). -/

namespace Sys2Proof.Machine

/-! The opcode table -/

/-- What a row fixes: all of OPC, and the must-be-zero bits of its OPC's format (R107). -/
theorem fields_of_mem_opcodeTable : ∀ r ∈ opcodeTable, opcOf r.mask = BitVec.allOnes 8 ∧ operandOf r.pattern = 0 ∧
    (formatOf (opcOf r.pattern)).map Format.mbz = some (operandOf r.mask) := by decide

/-- Two words are equal when their fields are (R100). -/
theorem word_eq_iff {v w : Word} : v = w ↔ opcOf v = opcOf w ∧ operandOf v = operandOf w := by
  refine ⟨fun h => ⟨congrArg opcOf h, congrArg operandOf h⟩, fun ⟨hopc, hoperand⟩ => ?_⟩
  rw [Laws.word_eq_append v, hopc, hoperand, ← Laws.word_eq_append]

/-- A word selects a row exactly when it has the row's OPC and passes the check of that OPC's format (R107, R108). -/
theorem selectedBy_iff {r : TableRow} (hr : r ∈ opcodeTable) (w : Word) : r.selectedBy w = true ↔
    opcOf w = opcOf r.pattern ∧ ∃ f, formatOf (opcOf w) = some f ∧ operandOf w &&& f.mbz = 0 := by
  obtain ⟨hmask, hpattern, hformat⟩ := fields_of_mem_opcodeTable r hr
  obtain ⟨f, hf, hmbz⟩ := Option.map_eq_some_iff.mp hformat
  have hopc : opcOf (w &&& r.mask) = opcOf w := by
    rw [opcOf, BitVec.extractLsb'_and, ← opcOf, ← opcOf, hmask, BitVec.and_allOnes]
  have hoperand : operandOf (w &&& r.mask) = operandOf w &&& f.mbz := by
    rw [operandOf, BitVec.extractLsb'_and, ← operandOf, ← operandOf, hmbz]
  rw [TableRow.selectedBy, beq_iff_eq, word_eq_iff, hopc, hoperand, hpattern]
  refine and_congr_right fun h => ?_
  simp [h, hf]

/-- Every command has its row (R107). -/
theorem exists_row (i : Instr) : ∃ r ∈ opcodeTable, opcOf r.pattern = i.opc ∧ r.mnemonic = i.mnemonic := by
  cases i <;> dsimp only [Instr.opc, Instr.mnemonic] <;> decide

/-- No OPC stands in two rows (R107). -/
theorem opcodeTable_opc_nodup : (opcodeTable.map (opcOf ·.pattern)).Nodup := by decide

/-- No mnemonic stands in two rows (R107). -/
theorem opcodeTable_mnemonic_nodup : (opcodeTable.map TableRow.mnemonic).Nodup := by decide

/-- A row is a command's by its OPC or by its mnemonic (R107). -/
theorem opc_eq_iff_mnemonic_eq {r : TableRow} (hr : r ∈ opcodeTable) (i : Instr) :
    i.opc = opcOf r.pattern ↔ r.mnemonic = i.mnemonic := by
  obtain ⟨q, hq, hopc, hname⟩ := exists_row i
  rw [← hopc, ← hname]
  constructor
  · intro h
    rw [List.inj_on_of_nodup_map opcodeTable_opc_nodup hq hr h]
  · intro h
    rw [List.inj_on_of_nodup_map opcodeTable_mnemonic_nodup hr hq h]

/-- A legal word selects its command's row and no other (R107). -/
theorem selectedBy_iff_of_decode {w : Word} {i : Instr} (h : decode w = .ok i) {r : TableRow} (hr : r ∈ opcodeTable) :
    r.selectedBy w = true ↔ r.mnemonic = i.mnemonic := by
  rw [selectedBy_iff hr, and_iff_left ((exists_decode_iff w).mp ⟨i, h⟩), opcOf_of_rowOf (decode_eq_ok_iff.mp h).1]
  exact opc_eq_iff_mnemonic_eq hr i

/-- A word is legal exactly when it selects a row of the table (R108). -/
theorem exists_decode_iff_selected (w : Word) :
    (∃ i, decode w = .ok i) ↔ ∃ r ∈ opcodeTable, r.selectedBy w = true := by
  constructor
  · rintro ⟨i, h⟩
    obtain ⟨r, hr, -, hname⟩ := exists_row i
    exact ⟨r, hr, (selectedBy_iff_of_decode h hr).mpr hname⟩
  · rintro ⟨r, hr, h⟩
    exact (exists_decode_iff w).mpr ((selectedBy_iff hr w).mp h).2

/-- The OPC ranges that R109 leaves unlisted. -/
def unlistedOpcs : List (Nat × Nat) :=
  [(0x02, 0x0F), (0x12, 0x1F), (0x24, 0x2F), (0x33, 0x3F), (0x42, 0x4F), (0x51, 0x5F), (0x65, 0x6F), (0x72, 0x7F),
    (0x82, 0xFF)]

/-- No row's OPC lies in an unlisted range (R107, R109). -/
theorem opc_not_unlisted : ∀ r ∈ opcodeTable, ∀ p ∈ unlistedOpcs,
    ¬ (p.1 ≤ (opcOf r.pattern).toNat ∧ (opcOf r.pattern).toNat ≤ p.2) := by decide

/-- An unlisted OPC is illegal whatever the other bits (R109). -/
theorem not_decodes_of_unlisted {w : Word} {lo hi : Nat} (hp : (lo, hi) ∈ unlistedOpcs) (hlo : lo ≤ (opcOf w).toNat)
    (hhi : (opcOf w).toNat ≤ hi) : ¬ ∃ i, decode w = .ok i := by
  rw [exists_decode_iff_selected]
  rintro ⟨r, hr, h⟩
  have hopc : opcOf w = opcOf r.pattern := ((selectedBy_iff hr w).mp h).1
  rw [hopc] at hlo hhi
  exact opc_not_unlisted r hr _ hp ⟨hlo, hhi⟩

/-! An illegal word -/

/-- The core's step on an illegal word raises ILLEGAL_CMD(word) (R108; 60_exceptions.md R252). -/
theorem coreStep_of_illegal {s : State} (h : s.ready) (hd : ¬ ∃ i, decode s.cmdword = .ok i) :
    coreStep s = .next (s.finished 0x01#8 s.cmdword) := by
  obtain ⟨hrst, hbusy, hphase⟩ := h
  simp only [coreStep, hrst, hbusy, hphase, runCommand]
  cases hw : decode s.cmdword with
  | ok i => exact absurd ⟨i, hw⟩ hd
  | error e => rfl

/-- Settles O2: a row's pattern and mask are its OPC and its format's must-be-zero bits, so a word selects the row its
OPC names exactly when it passes R108's checks. -/
theorem everyWordIsOneRowOrIllegal : Obligations.EveryWordIsOneRowOrIllegal := by
  refine ⟨exists_decode_iff_selected, fun w i h r hr => selectedBy_iff_of_decode h hr, exists_decode_iff,
    fun s rest hready hturn hd => ?_, fun w lo hi => not_decodes_of_unlisted⟩
  rw [step_of_coreTurn hturn]
  exact coreStep_of_illegal (s := s.withEvents rest) hready hd

end Sys2Proof.Machine
end

section
/-! PROOF. The control commands, and the parts every command's statement shares: operand bits that make a word illegal, and
completion without an error (40_control.md R130, R131; 30_encoding.md R108; 60_exceptions.md R252). -/

namespace Sys2Proof.Machine

/-! What the commands' statements share -/

/-- A command whose format has no operand bit accepts only operand field 0 (R108, formats N and M). -/
theorem not_decodes_of_operand {w : Word} {i : Instr} (hopc : opcOf w = i.opc) (hmbz : i.format.mbz = BitVec.allOnes 24)
    (hoperand : operandOf w ≠ 0) : ¬ ∃ j, decode w = .ok j := by
  rw [exists_decode_iff, hopc, formatOf_opc]
  rintro ⟨f, hf, hclear⟩
  cases hf
  rw [hmbz, BitVec.and_allOnes] at hclear
  exact hoperand hclear

/-- An operand bit set makes a command of formats N and M illegal, and an illegal word only completes with its error. -/
theorem rejectsOperand (i : Instr) (hmbz : i.format.mbz = BitVec.allOnes 24) : RejectsOperand i.opc := by
  intro s rest hready hturn hopc hoperand
  rw [step_of_coreTurn hturn]
  exact coreStep_of_illegal (s := s.withEvents rest) hready (not_decodes_of_operand hopc hmbz hoperand)

/-- A command whose body raises nothing leaves the body's state, completed with OK and detail 0 (R252). -/
theorem exec_of_body_ok {i : Instr} {s t : State} (h : body i s = .ok () t) : exec i s = .next (t.finished 0x00#8 0) := by
  rw [exec_eq_complete_body, h, complete_ok]
  rfl

/-! The control commands -/

/-- Settles O14: NOP's body is empty, and a CMD write while busy sets CMD_OVR whatever word it carries. -/
theorem nopDoesNothing : Obligations.NopDoesNothing :=
  ⟨decode_encode (i := .nop) rfl, rejectsOperand .nop rfl, fun _ => exec_of_body_ok (i := .nop) rfl,
    fun _ hrst hbusy => writesWord_reg_busy hrst hbusy (by decide) (by decide) _⟩

/-- Settles O15: CLEAR's body is `State.clearDatapath`, which writes the fields R131 lists and no other. -/
theorem clearResetsTheDatapath : Obligations.ClearResetsTheDatapath :=
  ⟨decode_encode (i := .clear) rfl, rejectsOperand .clear rfl, fun _ => exec_of_body_ok (i := .clear) rfl⟩

end Sys2Proof.Machine
end

section
/-! PROOF. The frequency table commands (41_frequency.md R140 to R142). -/

namespace Sys2Proof.Machine

/-- A command whose body raises an error leaves the state at the raise, completed with the error's code and detail word
(R252, R253). -/
theorem exec_of_body_raised {i : Instr} {s t : State} {e : Error} (h : body i s = .raised e t) :
    exec i s = .next (t.finished e.code e.info) := by
  rw [exec_eq_complete_body, h, complete_raised]
  rfl

/-- A command whose body raises nothing answers no state but the body's, completed with OK and detail 0 (R252). -/
theorem eq_finished_of_body_ok {i : Instr} {s t u : State} (hbody : body i s = .ok () t) (hexec : exec i s = .next u) :
    u = t.finished 0x00#8 0 :=
  (Host.Outcome.next.inj ((exec_of_body_ok hbody).symm.trans hexec)).symm

/-! FREQ_CLEAR -/

/-- Settles O16: FREQ_CLEAR's body is `State.clearFreq`, which writes FREQ and TOTAL and no other field. -/
theorem freqClearZeroesTheTable : Obligations.FreqClearZeroesTheTable :=
  ⟨decode_encode (i := .freqClear) rfl, rejectsOperand .freqClear rfl, fun _ => exec_of_body_ok (i := .freqClear) rfl⟩

/-! FREQ_COUNT -/

/-- RESULT after n bytes of a loop that started from RESULT 0 is n, the empty loop included. -/
theorem ite_result_eq (n : Nat) : (if n = 0 then (0 : Word) else BitVec.ofNat 32 n) = BitVec.ofNat 32 n :=
  ite_eq_right_iff.mpr fun h => h ▸ rfl

/-- Inside DMEM, FREQ_COUNT is its loop from RESULT 0 (R141). -/
theorem freqCount_eq_countLoop {src len : Nat} {s : State} (hr : src + len ≤ s.dmemSize) :
    freqCount src len s = countLoop src len 0 { s with result := 0 } := by
  rw [freqCount, checkRange_ok hr, Res.ok_andThen]

/-- Outside DMEM, FREQ_COUNT completes with BOUNDS and changes nothing (R141). -/
theorem exec_freqCount_bounds {s : State} (hr : s.dmemSize < s.src.toNat + s.len.toNat) :
    exec .freqCount s = .next (s.finished 0x07#8 (BitVec.ofNat 32 (max s.src.toNat s.dmemSize))) := by
  have hbody : body .freqCount s = .raised (.bounds (max s.src.toNat s.dmemSize)) s := by
    rw [body, freqCount, State.srcOffset, State.byteCount, checkRange_raises hr, Res.raised_andThen]
  exact exec_of_body_raised hbody

/-- A region whose every byte can be counted is counted whole (R141). -/
theorem freqCount_counts_all {s : State} (hr : s.src.toNat + s.len.toNat ≤ s.dmemSize) (hc : s.countable s.len.toNat) :
    ∃ u, body .freqCount s = .ok () u ∧ u = { s with freq := u.freq, total := u.total, result := s.len } ∧
      s.counted s.len.toNat u := by
  obtain ⟨hcounts, htotal⟩ := hc
  obtain ⟨u, hloop, hframe, hfreq, htot⟩ :=
    countLoop_ok s.src.toNat s.len.toNat 0 { s with result := 0 } hr hcounts htotal
  rw [Nat.zero_add, ite_result_eq, BitVec.ofNat_toNat, BitVec.setWidth_eq] at hframe
  exact ⟨u, (freqCount_eq_countLoop hr).trans hloop, hframe, hfreq, htot⟩

/-- Where byte k is the first that cannot be counted, FREQ_COUNT stops there with the k bytes before it counted (R141). -/
theorem freqCount_stops_at_full {s : State} {k : Nat} (hr : s.src.toNat + s.len.toNat ≤ s.dmemSize)
    (hk : k < s.len.toNat) (hc : s.countable k) (hfull : ¬ s.countable (k + 1)) :
    ∃ u, body .freqCount s = .raised (.arithOverflow (s.src.toNat + k)) u ∧
      u = { s with freq := u.freq, total := u.total, result := BitVec.ofNat 32 k } ∧ s.counted k u := by
  obtain ⟨hcounts, htotal⟩ := hc
  obtain ⟨u, hloop, hframe, hfreq, htot⟩ :=
    countLoop_raises (s := { s with result := 0 }) s.src.toNat hk hr hcounts htotal hfull
  rw [ite_result_eq] at hframe
  exact ⟨u, (freqCount_eq_countLoop hr).trans hloop, hframe, hfreq, htot⟩

/-- Settles O17: the range check decides the first case, and the loop runs to the end of the region or to the first byte
whose count, or TOTAL, is full. -/
theorem freqCountTallies : Obligations.FreqCountTallies := by
  refine ⟨decode_encode (i := .freqCount) rfl, fun s => ⟨exec_freqCount_bounds, fun hr hc => ?_,
    fun k hr hk hc hfull => ?_⟩⟩
  · obtain ⟨u, hbody, hu⟩ := freqCount_counts_all hr hc
    exact ⟨u, exec_of_body_ok hbody, hu⟩
  · obtain ⟨u, hbody, hu⟩ := freqCount_stops_at_full hr hk hc hfull
    exact ⟨u, exec_of_body_raised hbody, hu⟩

/-! Counting from a cleared table -/

/-- A table that holds the byte counts of a list sums to the list's length. -/
theorem State.freqSum_eq_length {s : State} {l : List Byte} (h : ∀ sym, (s.freqAt sym).toNat = l.count sym) :
    s.freqSum = l.length := by
  calc s.freqSum
      = ((List.range 256).map fun k => l.count (BitVec.ofNat 8 k) * 1).sum := by
        simp only [State.freqSum, s.freq_toList, List.map_map, Function.comp_def, h, Nat.mul_one]
    _ = (l.map fun _ => 1).sum := (sum_map_eq_sum_count (fun _ => 1) 256 rfl l).symm
    _ = l.length := by simp

/-- FREQ_COUNT that completes with OK had its region inside DMEM (R141). -/
theorem range_of_freqCount_ok {s u : State} (h : exec .freqCount s = .next u) (hok : u.status.errcode = 0x00#8) :
    s.src.toNat + s.len.toNat ≤ s.dmemSize := by
  by_contra hr
  rw [exec_freqCount_bounds (Nat.lt_of_not_le hr)] at h
  obtain rfl := Host.Outcome.next.inj h
  exact absurd hok (by simp [State.finished])

/-- Settles O18: a success means the region is inside DMEM, so the loop counts all of it from a table of zeros; the table
then holds the region's byte counts, which sum to its length. -/
theorem frequencyConservation : Obligations.FrequencyConservation := by
  intro s t u src len hclear hcount hok
  obtain rfl : t = s.clearFreq.finished 0x00#8 0 := eq_finished_of_body_ok rfl hclear
  have hr : src.toNat + len.toNat ≤ s.dmemSize := range_of_freqCount_ok hcount hok
  obtain ⟨v, hbody, hframe, hcounts⟩ :=
    freqCount_cleared { s.clearFreq.finished 0x00#8 0 with src := src, len := len } hr
  obtain rfl : u = v.finished 0x00#8 0 := eq_finished_of_body_ok (i := .freqCount) hbody hcount
  have hsum : v.freqSum = len.toNat := (State.freqSum_eq_length hcounts).trans (State.bytesAt_length _ _ _)
  have htotal : v.total.toNat = len.toNat := by
    have hv : v.total = BitVec.ofNat 64 len.toNat := congrArg State.total hframe
    have hlt := len.isLt
    rw [hv, BitVec.toNat_ofNat, Nat.mod_eq_of_lt (by omega)]
  exact ⟨hsum, htotal, hcounts⟩

end Sys2Proof.Machine
end

section
/-! PROOF. The heap commands (42_heap.md R150 to R158). -/

namespace Sys2Proof.Machine

/-! The words of the commands -/

/-- A command's word is its OPC in the top byte and its operand field below (30_encoding.md R100). -/
theorem encode_eq_or (i : Instr) : encode i = (i.opc ++ 0#24) ||| i.operand.setWidth 32 := by
  apply BitVec.eq_of_getLsbD_eq
  intro k hk
  simp only [encode, BitVec.getLsbD_append, BitVec.getLsbD_or, BitVec.getLsbD_setWidth, BitVec.getLsbD_zero]
  by_cases h : k < 24
  · simp [h, hk]
  · simp [h, BitVec.getLsbD_of_ge i.operand k (by omega)]

/-- The word of PQ_INSERT decodes to it, whatever its operand (R155). -/
theorem decode_pqInsert (na : NodeIx) : decode (0x21000000#32 ||| na.zeroExtend 32) = .ok (.pqInsert na) := by
  have hopc : 0x21000000#32 = 0x21#8 ++ 0#24 := by decide
  have hoperand : na.zeroExtend 32 = (0#15 ++ na : BitVec 24).setWidth 32 := by
    have happend : na.setWidth 24 = 0#15 ++ na := BitVec.setWidth_eq_append (by decide)
    rw [← happend]
    exact (BitVec.setWidth_setWidth (by decide)).symm
  rw [hopc, hoperand]
  exact encode_eq_or (.pqInsert na) ▸ decode_encode (Laws.WellFormedCommand.pqInsert na)

/-! The sifts run as the loops of R152 and R153 -/

theorem siftUp_runs (lt : NodeIx → NodeIx → Bool) :
    ∀ (fuel k : Nat) (h : List NodeIx), k ≤ fuel → SiftUp lt k h (siftUp lt fuel k h)
  | 0, k, h, hf => by
    obtain rfl := Nat.le_zero.mp hf
    exact .root h
  | fuel + 1, k, h, hf => by
    rw [siftUp]
    by_cases hk : k = 0
    · rw [if_pos hk, hk]
      exact .root h
    · rw [if_neg hk]
      dsimp only
      split
      next hlt => exact .swap (Nat.pos_of_ne_zero hk) hlt (siftUp_runs lt fuel _ _ (by omega))
      next hlt => exact .stop (Nat.pos_of_ne_zero hk) (Bool.eq_false_of_not_eq_true hlt)

/-- The turn of heap_extract's loop, with the child it compares by its name (R153). -/
theorem siftDown_succ (lt : NodeIx → NodeIx → Bool) (fuel k : Nat) (h : List NodeIx) :
    siftDown lt (fuel + 1) k h =
      if h.length ≤ 2 * k + 1 then h
      else if lt (slot h (lesserChild lt h k)) (slot h k) then
        siftDown lt fuel (lesserChild lt h k) (h.swap (lesserChild lt h k) k)
      else h := rfl

theorem lt_lesserChild (lt : NodeIx → NodeIx → Bool) (h : List NodeIx) (k : Nat) : k < lesserChild lt h k := by
  unfold lesserChild
  split <;> omega

theorem siftDown_runs (lt : NodeIx → NodeIx → Bool) :
    ∀ (fuel k : Nat) (h : List NodeIx), h.length ≤ k + fuel → SiftDown lt k h (siftDown lt fuel k h)
  | 0, k, h, hf => .leaf (by omega)
  | fuel + 1, k, h, hf => by
    have hc := lt_lesserChild lt h k
    rw [siftDown_succ]
    split
    next hleaf => exact .leaf hleaf
    next hleaf =>
      split
      next hlt => exact .swap (by omega) hlt (siftDown_runs lt fuel _ _ (by rw [List.length_swap]; omega))
      next hlt => exact .stop (by omega) (Bool.eq_false_of_not_eq_true hlt)

/-- An extract from two or more elements sifts the last one down from the root (R153). -/
theorem popHeap_runs (lt : NodeIx → NodeIx → Bool) (r last : NodeIx) (front : List NodeIx) :
    SiftDown lt 0 (last :: front) (popHeap lt (r :: (front ++ [last]))) := by
  have hpop : popHeap lt (r :: (front ++ [last])) = siftDown lt (front.length + 1) 0 (last :: front) := by
    simp [popHeap, slot]
  rw [hpop]
  exact siftDown_runs lt _ _ _ (by simp)

/-! What PQ_INSERT and PQ_EXTRACT do -/

/-- PQ_INSERT of a node not allocated (R155). -/
theorem exec_pqInsert_badNode {s : State} {na : NodeIx} (hna : s.nodeCount ≤ na.toNat) :
    exec (.pqInsert na) s = .next (s.finished 0x05#8 (na.zeroExtend 32)) :=
  exec_of_body_raised (e := .badNode na) (if_pos hna)

/-- PQ_INSERT into a full heap (R152, R155). -/
theorem exec_pqInsert_full {s : State} {na : NodeIx} (hna : na.toNat < s.nodeCount) (hfull : s.pqSize = 512) :
    exec (.pqInsert na) s = .next (s.finished 0x03#8 (na.zeroExtend 32)) :=
  exec_of_body_raised (e := .queueFull na) ((if_neg (Nat.not_le.mpr hna)).trans (if_pos hfull))

/-- PQ_INSERT otherwise (R152, R155). -/
theorem exec_pqInsert_ok {s : State} {na : NodeIx} (hna : na.toNat < s.nodeCount) (hroom : s.pqSize ≠ 512) :
    exec (.pqInsert na) s = .next (({ s with heap := pushHeap s.less s.heap na } : State).finished 0x00#8 0) :=
  exec_of_body_ok ((if_neg (Nat.not_le.mpr hna)).trans (heapInsert_ok hroom))

/-- PQ_EXTRACT from an empty heap (R153, R156). -/
theorem exec_pqExtract_empty {s : State} (hempty : s.heap = []) : exec .pqExtract s = .next (s.finished 0x02#8 0) := by
  have hbody : body .pqExtract s = .raised .emptyQueue s := by simp [body, pqExtract, heapExtract, hempty]
  exact exec_of_body_raised hbody

/-- What PQ_EXTRACT leaves of a heap with an element (R153, R156). -/
def State.popped (s : State) : State :=
  ({ s with heap := popHeap s.less s.heap, result := (slot s.heap 0).zeroExtend 32 } : State).finished 0x00#8 0

theorem exec_pqExtract_ok {s : State} (hne : s.heap ≠ []) : exec .pqExtract s = .next s.popped := by
  have hbody : body .pqExtract s =
      .ok () { s with heap := popHeap s.less s.heap, result := (slot s.heap 0).zeroExtend 32 } := by
    rw [body, pqExtract, heapExtract_ok hne, Res.ok_andThen]
  exact exec_of_body_ok hbody

@[simp] theorem State.popped_heap (s : State) : s.popped.heap = popHeap s.less s.heap := rfl

@[simp] theorem State.popped_less (s : State) : s.popped.less = s.less := State.less_congr rfl rfl

/-- RESULT holds the root's index (R156). -/
theorem State.popped_result (s : State) : s.popped.result.truncate 9 = slot s.heap 0 :=
  BitVec.setWidth_setWidth_of_le _ (by decide)

/-- Settles O19: PQ_CLEAR's body empties the heap and raises nothing. -/
theorem pqClearEmptiesTheHeap : Obligations.PqClearEmptiesTheHeap :=
  ⟨decode_encode (i := .pqClear) rfl, rejectsOperand .pqClear rfl, fun _ => exec_of_body_ok (i := .pqClear) rfl⟩

/-- Settles O22: PQ_SIZE's body writes RESULT and raises nothing. -/
theorem pqSizeReportsTheCount : Obligations.PqSizeReportsTheCount :=
  ⟨decode_encode (i := .pqSize) rfl, rejectsOperand .pqSize rfl, fun _ => exec_of_body_ok (i := .pqSize) rfl⟩

/-- Settles O20: the node check comes before the capacity check, and k turns are enough to sift up from slot k. -/
theorem pqInsertSiftsUp : Obligations.PqInsertSiftsUp :=
  fun _ na => ⟨decode_pqInsert na, exec_pqInsert_badNode, exec_pqInsert_full, fun hna hroom =>
    ⟨_, exec_pqInsert_ok hna hroom, siftUp_runs _ _ _ _ le_rfl, pushHeap_length _ _ _⟩⟩

/-- Settles O21: an extract pops the heap, and as many turns as there are elements are enough to sift down. -/
theorem pqExtractSiftsDown : Obligations.PqExtractSiftsDown := by
  refine ⟨decode_encode (i := .pqExtract) rfl, fun s =>
    ⟨fun hsize => exec_pqExtract_empty (List.length_eq_zero_iff.mp hsize), fun r rest hheap => ?_⟩⟩
  have hexec := exec_pqExtract_ok (s := s) (hheap ▸ List.cons_ne_nil r rest)
  rw [State.popped, hheap] at hexec
  refine ⟨_, hexec, popHeap_length s.less (r :: rest), fun last front hrest => ?_⟩
  rw [hrest]
  exact popHeap_runs s.less r last front

/-! The heap order along the commands -/

/-- Settles O23: a failed command leaves the heap and the comparison; an insert pushes and an extract pops, which keep the
heap order and the elements. -/
theorem heapInvariantIsKept : Obligations.HeapInvariantIsKept := by
  refine ⟨fun s t na ho ht => ?_, fun s t ho ht => ?_⟩
  · by_cases hna : s.nodeCount ≤ na.toNat
    · obtain rfl := Host.Outcome.next.inj ((exec_pqInsert_badNode hna).symm.trans ht)
      exact ⟨ho, nofun⟩
    by_cases hfull : s.pqSize = 512
    · obtain rfl := Host.Outcome.next.inj ((exec_pqInsert_full (Nat.not_le.mp hna) hfull).symm.trans ht)
      exact ⟨ho, nofun⟩
    · obtain rfl := Host.Outcome.next.inj ((exec_pqInsert_ok (Nat.not_le.mp hna) hfull).symm.trans ht)
      exact ⟨pushHeap_ordered s.less_weakOrder ho na, fun _ => pushHeap_perm s.less s.heap na⟩
  · by_cases hempty : s.heap = []
    · obtain rfl := Host.Outcome.next.inj ((exec_pqExtract_empty hempty).symm.trans ht)
      exact ⟨ho, nofun⟩
    · obtain rfl := Host.Outcome.next.inj ((exec_pqExtract_ok hempty).symm.trans ht)
      rw [State.popped_less, State.popped_heap, State.popped_result]
      exact ⟨popHeap_ordered s.less_weakOrder ho, fun _ => popHeap_perm s.less hempty⟩

/-! Extracting every element -/

/-- The elements popped from a heap, one after the other. -/
def popRun (lt : NodeIx → NodeIx → Bool) : Nat → List NodeIx → List NodeIx
  | 0, _ => []
  | k + 1, h => slot h 0 :: popRun lt k (popHeap lt h)

/-- Successive PQ_EXTRACTs return what successive pops under one comparison give. -/
theorem extractRun_eq_popRun : ∀ (k : Nat) (s : State), k ≤ s.pqSize → extractRun k s = popRun s.less k s.heap
  | 0, _, _ => rfl
  | k + 1, s, hk => by
    have hne : s.heap ≠ [] := List.length_pos_iff.mp (Nat.zero_lt_of_lt hk)
    have hk' : k ≤ s.popped.pqSize := by
      rw [State.pqSize, State.popped_heap, popHeap_length]
      exact Nat.le_sub_one_of_lt hk
    rw [extractRun, exec_pqExtract_ok hne]
    dsimp only
    rw [extractRun_eq_popRun k s.popped hk', State.popped_result, State.popped_less, State.popped_heap, popRun]

/-- Popping a heap until it is empty gives its elements. -/
theorem popRun_perm (lt : NodeIx → NodeIx → Bool) :
    ∀ (k : Nat) (h : List NodeIx), h.length = k → (popRun lt k h).Perm h
  | 0, h, hk => by
    rw [List.length_eq_zero_iff.mp hk]
    exact .refl _
  | k + 1, h, hk => by
    have hrest := popRun_perm lt k (popHeap lt h) (by rw [popHeap_length, hk, Nat.add_sub_cancel])
    exact (hrest.cons _).trans (popHeap_perm lt (List.ne_nil_of_length_eq_add_one hk)).symm

/-- An ordered heap pops in order: each element popped is the root, which is least, and the heap left is ordered
again (R150). -/
theorem popRun_sorted {lt : NodeIx → NodeIx → Bool} (ho : WeakOrder lt) :
    ∀ (k : Nat) (h : List NodeIx), h.length = k → HeapOrdered lt h → (popRun lt k h).Pairwise fun a b => lt b a = false
  | 0, _, _, _ => .nil
  | k + 1, h, hk, hh => by
    have hk' : (popHeap lt h).length = k := by rw [popHeap_length, hk, Nat.add_sub_cancel]
    refine .cons (fun m hm => ?_) (popRun_sorted ho k _ hk' (popHeap_ordered ho hh))
    have hmem : m ∈ popHeap lt h := (popRun_perm lt k _ hk').subset hm
    exact hh.root_least_mem ho
      ((popHeap_perm lt (List.ne_nil_of_length_eq_add_one hk)).symm.subset (List.mem_cons_of_mem _ hmem))

theorem extractRun_perm (s : State) : (extractRun s.pqSize s).Perm s.heap := by
  rw [extractRun_eq_popRun _ _ le_rfl]
  exact popRun_perm s.less _ _ rfl

theorem extractRun_sorted {s : State} (h : HeapOrdered s.less s.heap) :
    (extractRun s.pqSize s).Pairwise fun a b => s.less b a = false := by
  rw [extractRun_eq_popRun _ _ le_rfl]
  exact popRun_sorted s.less_weakOrder _ _ rfl h

/-- Under TIEBRK = 1 two different indices are never equal under the comparison (R151). -/
theorem State.eq_of_not_less {s : State} (ht : s.ctrl.tiebrk = true) {a b : NodeIx} (hab : s.less a b = false)
    (hba : s.less b a = false) : a = b := by
  obtain ⟨hwab, hiab⟩ := (s.less_eq_false a b).mp hab
  obtain ⟨hwba, hiba⟩ := (s.less_eq_false b a).mp hba
  have hw := Nat.le_antisymm hwba hwab
  exact BitVec.eq_of_toNat_eq (Nat.le_antisymm (hiba ht hw.symm) (hiab ht hw))

/-- `less` reads TIEBRK and the nodes alone (R151). -/
theorem State.less_congr_tiebrk {s t : State} (ht : t.ctrl.tiebrk = s.ctrl.tiebrk) (hn : t.nodes = s.nodes) :
    t.less = s.less := by
  have hnode : t.node = s.node := by
    funext i
    rw [State.node, hn, State.node]
  funext a b
  rw [Bool.eq_iff_iff, State.less_eq, State.less_eq, hnode, ht]

/-- Settles O24: the run is the heap's elements sorted under `less`; under TIEBRK = 1 different indices are strictly
ordered, and in a run without copies any two are different. -/
theorem extractsComeOutInOrder : Obligations.ExtractsComeOutInOrder := by
  intro s h
  have hsorted := extractRun_sorted h
  refine ⟨extractRun_perm s, hsorted.imp fun hba => ((s.less_eq_false _ _).mp hba).1, fun ht hnodup => ?_⟩
  have hdistinct : (extractRun s.pqSize s).Nodup := (extractRun_perm s).nodup_iff.mpr hnodup
  refine (hsorted.and hdistinct).imp fun {a b} ⟨hba, hne⟩ => ?_
  have hab : s.less a b = true := Bool.eq_true_of_not_eq_false fun hab => hne (State.eq_of_not_less ht hab hba)
  exact ((s.less_eq a b).mp hab).imp_right And.right

/-- Settles O25: both runs are the same elements sorted under one comparison, which no two different indices tie. -/
theorem canonicalOrderIgnoresInsertion : Obligations.CanonicalOrderIgnoresInsertion := by
  intro s t hs ht hnodes hperm _ hso hto
  have hless := State.less_congr_tiebrk (ht.trans hs.symm) hnodes
  have hsorted := extractRun_sorted hto
  rw [hless] at hsorted
  refine List.Perm.eq_of_pairwise (fun a b _ _ hba hab => State.eq_of_not_less hs hab hba) hsorted (extractRun_sorted hso) ?_
  exact (extractRun_perm t).trans (hperm.trans (extractRun_perm s).symm)

end Sys2Proof.Machine
end

section
/-! PROOF. The node commands and the arena (43_tree.md R170 to R173, R179). -/

namespace Sys2Proof.Machine

/-! The words of the commands -/

/-- A command's word, the bitwise or of its OPC in the top byte and its operand field, decodes to it (30_encoding.md R100,
R110). -/
theorem decode_opc_or_operand {i : Instr} (h : i.WellFormed = true) {opc operand : Word} (hopc : opc = i.opc ++ 0#24)
    (hoperand : operand = i.operand.setWidth 32) : decode (opc ||| operand) = .ok i := by
  rw [hopc, hoperand, ← encode_eq_or]
  exact decode_encode h

/-- Zero bits above an operand widen with it (30_encoding.md R102, R103). -/
theorem setWidth_zero_append {n : Nat} (k : Nat) (x : BitVec n) : (0#k ++ x).setWidth 32 = x.zeroExtend 32 :=
  BitVec.eq_of_toNat_eq (by simp)

/-- The word that holds NB above NA, from the two operands as numbers (30_encoding.md R104). -/
theorem ofNat_nodePair (na nb : NodeIx) :
    BitVec.ofNat 32 (nb.toNat <<< 9 ||| na.toNat) = nb.zeroExtend 32 <<< 9 ||| na.zeroExtend 32 := by
  have hnb : nb.toNat % 2 ^ 32 = nb.toNat := Nat.mod_eq_of_lt (nb.isLt.trans (by decide))
  apply BitVec.eq_of_toNat_eq
  simp only [BitVec.toNat_ofNat, BitVec.toNat_or, BitVec.toNat_shiftLeft, BitVec.zeroExtend, BitVec.toNat_setWidth, hnb,
    Nat.or_mod_two_pow]

theorem setWidth_nodePair (na nb : NodeIx) :
    (0#6 ++ nb ++ na : BitVec 24).setWidth 32 = nb.zeroExtend 32 <<< 9 ||| na.zeroExtend 32 := by
  have hpair : (0#6 ++ nb ++ na).toNat = nb.toNat <<< 9 ||| na.toNat := by
    rw [BitVec.toNat_append, BitVec.toNat_append]
    simp
  rw [← ofNat_nodePair, ← hpair]
  exact (BitVec.ofNat_toNat 32 _).symm

/-- The word of NODE_LEAF decodes to it, whatever its operand (R172). -/
theorem decode_nodeLeaf (sym : Sym) : decode (0x31000000#32 ||| sym.zeroExtend 32) = .ok (.nodeLeaf sym) :=
  decode_opc_or_operand (Laws.WellFormedCommand.nodeLeaf sym)
    (show 0x31000000#32 = 0x31#8 ++ 0#24 by decide) (setWidth_zero_append 16 sym).symm

/-- The word of TREE_SETROOT decodes to it, whatever its operand (R179). -/
theorem decode_treeSetroot (na : NodeIx) : decode (0x41000000#32 ||| na.zeroExtend 32) = .ok (.treeSetroot na) :=
  decode_opc_or_operand (Laws.WellFormedCommand.treeSetroot na)
    (show 0x41000000#32 = 0x41#8 ++ 0#24 by decide) (setWidth_zero_append 15 na).symm

/-- The word of NODE_JOIN decodes to it, whatever its operands (R173). -/
theorem decode_nodeJoin (na nb : NodeIx) :
    decode (0x32000000#32 ||| nb.zeroExtend 32 <<< 9 ||| na.zeroExtend 32) = .ok (.nodeJoin na nb) := by
  rw [BitVec.or_assoc]
  exact decode_opc_or_operand (Laws.WellFormedCommand.nodeJoin na nb)
    (show 0x32000000#32 = 0x32#8 ++ 0#24 by decide) (setWidth_nodePair na nb).symm

/-! NODE_CLEAR -/

/-- Settles O26: NODE_CLEAR's body is `State.clearTree`, which writes the arena, the heap and the root and no other
field. -/
theorem nodeClearEmptiesTheArena : Obligations.NodeClearEmptiesTheArena :=
  ⟨decode_encode (i := .nodeClear) rfl, rejectsOperand .nodeClear rfl, fun _ => exec_of_body_ok (i := .nodeClear) rfl⟩

/-! NODE_LEAF and NODE_JOIN -/

/-- The index the next node gets is NODE_COUNT, in RESULT too (R170). -/
theorem State.nextNode_zeroExtend {s : State} (h : s.nodeCount < 511) :
    s.nextNode.zeroExtend 32 = BitVec.ofNat 32 s.nodeCount :=
  BitVec.eq_of_toNat_eq (by simp [State.nextNode]; omega)

/-- A command that allocates a node puts its index, NODE_COUNT, in RESULT (R172, R173). -/
theorem storeIndex_addNode {s : State} (h : s.nodeCount < 511) (n : Node) :
    storeIndex (.ok s.nextNode (s.addNode n)) =
      .ok () { s with nodes := s.nodes ++ [n], result := BitVec.ofNat 32 s.nodeCount } := by
  rw [← State.nextNode_zeroExtend h]
  rfl

/-- NODE_LEAF into a full arena (R172). -/
theorem exec_nodeLeaf_full {s : State} (sym : Sym) (h : s.nodeCount = 511) :
    exec (.nodeLeaf sym) s = .next (s.finished 0x04#8 511#32) :=
  exec_of_body_raised (e := .nodeFull) (congrArg storeIndex (if_pos h))

/-- NODE_LEAF otherwise (R172). -/
theorem exec_nodeLeaf_ok {s : State} (sym : Sym) (h : s.nodeCount < 511) :
    exec (.nodeLeaf sym) s = .next
      (({ s with
          nodes := s.nodes ++ [.leaf sym ((s.freqAt sym).zeroExtend 64)]
          result := BitVec.ofNat 32 s.nodeCount } : State).finished 0x00#8 0) :=
  exec_of_body_ok ((congrArg storeIndex (newLeaf_ok h.ne)).trans (storeIndex_addNode h _))

/-- Settles O27: the arena is full, or NODE_LEAF adds the leaf and stores its index. -/
theorem nodeLeafAllocates : Obligations.NodeLeafAllocates :=
  fun _ sym => ⟨decode_nodeLeaf sym, exec_nodeLeaf_full sym, exec_nodeLeaf_ok sym⟩

/-! What `new_join` raises, check by check (R170, R173; 60_exceptions.md R254) -/

theorem newJoin_badLeft {s : State} {a b : NodeIx} (ha : s.nodeCount ≤ a.toNat) : newJoin a b s = .raised (.badNode a) s :=
  if_pos ha

theorem newJoin_badRight {s : State} {a b : NodeIx} (ha : a.toNat < s.nodeCount) (hb : s.nodeCount ≤ b.toNat) :
    newJoin a b s = .raised (.badNode b) s :=
  (if_neg (Nat.not_le.mpr ha)).trans (if_pos hb)

theorem newJoin_full {s : State} {a b : NodeIx} (ha : a.toNat < s.nodeCount) (hb : b.toNat < s.nodeCount)
    (hfull : s.nodeCount = 511) : newJoin a b s = .raised .nodeFull s :=
  (if_neg (Nat.not_le.mpr ha)).trans ((if_neg (Nat.not_le.mpr hb)).trans (if_pos hfull))

theorem newJoin_overflow {s : State} {a b : NodeIx} (ha : a.toNat < s.nodeCount) (hb : b.toNat < s.nodeCount)
    (hroom : s.nodeCount < 511) (hsum : 2 ^ 64 ≤ s.weight a + s.weight b) :
    newJoin a b s = .raised (.arithOverflow (b.toNat <<< 9 ||| a.toNat)) s :=
  (if_neg (Nat.not_le.mpr ha)).trans ((if_neg (Nat.not_le.mpr hb)).trans ((if_neg hroom.ne).trans (if_pos hsum)))

/-- NODE_JOIN whose checks raise completes with the error and changes nothing else (R173). -/
theorem exec_nodeJoin_raised {s : State} {na nb : NodeIx} {e : Error} (h : newJoin na nb s = .raised e s) :
    exec (.nodeJoin na nb) s = .next (s.finished e.code e.info) :=
  exec_of_body_raised (congrArg storeIndex h)

/-- Settles O28: each check raises where those before it pass, and past all four the node is added and its index stored. -/
theorem nodeJoinAllocates : Obligations.NodeJoinAllocates := by
  refine fun s na nb => ⟨decode_nodeJoin na nb, fun ha => exec_nodeJoin_raised (newJoin_badLeft ha),
    fun ha hb => exec_nodeJoin_raised (newJoin_badRight ha hb),
    fun ha hb hfull => exec_nodeJoin_raised (newJoin_full ha hb hfull),
    fun ha hb hroom hsum => ?_, fun ha hb hroom hsum => ?_⟩
  · rw [← ofNat_nodePair]
    exact exec_nodeJoin_raised (newJoin_overflow ha hb hroom hsum)
  · exact exec_of_body_ok
      ((congrArg storeIndex (newJoin_ok ha hb hroom.ne hsum)).trans (storeIndex_addNode hroom _))

/-! TREE_SETROOT -/

/-- Settles O29: the body is one check, then one write. -/
theorem treeSetrootSetsTheRoot : Obligations.TreeSetrootSetsTheRoot :=
  fun _ na => ⟨decode_treeSetroot na, fun hna => exec_of_body_raised (i := .treeSetroot na) (e := .badNode na) (if_pos hna),
    fun hna => exec_of_body_ok (i := .treeSetroot na) (if_neg (Nat.not_le.mpr hna))⟩

/-! What adds a node, and what leaves the arena alone (R170) -/

/-- From s to t, at most one node was added behind the others. -/
def AddsAtMostOne (s t : State) : Prop := ∃ new, t.nodes = s.nodes ++ new ∧ new.length ≤ 1

theorem AddsAtMostOne.of_eq {s t : State} (h : t.nodes = s.nodes) : AddsAtMostOne s t :=
  ⟨[], by rw [h, List.append_nil], Nat.zero_le _⟩

theorem addsAtMostOne_addNode (s : State) (n : Node) : AddsAtMostOne s (s.addNode n) := ⟨[n], rfl, le_rfl⟩

theorem newLeaf_addsAtMostOne (sym : Sym) (s : State) : AddsAtMostOne s (newLeaf sym s).state := by
  unfold newLeaf
  split
  · exact .of_eq rfl
  · exact addsAtMostOne_addNode s _

theorem newJoin_addsAtMostOne (a b : NodeIx) (s : State) : AddsAtMostOne s (newJoin a b s).state := by
  unfold newJoin
  split
  · exact .of_eq rfl
  split
  · exact .of_eq rfl
  split
  · exact .of_eq rfl
  dsimp only
  split
  · exact .of_eq rfl
  · exact addsAtMostOne_addNode s _

/-- Storing the index and completing leave the arena alone. -/
theorem complete_storeIndex_nodes (r : Res NodeIx) : (complete (storeIndex r)).nodes = r.state.nodes :=
  (complete_keeps (p := State.nodes) (fun _ _ _ => rfl) _).trans (storeIndex_keeps (p := State.nodes) (fun _ _ => rfl) r)

/-- A command that does not write the arena leaves every node as it is. -/
theorem exec_nodes {i : Instr} {s t : State} (hw : (writesOf i).nodes = false) (h : exec i s = .next t) :
    t.nodes = s.nodes :=
  State.eq_of_mask (exec_frame h) State.nodes fun u => by simp [State.mask, hw]

/-- Host writes reach no node (20_memory.md R73, R79). -/
theorem writeReg_nodes (s : State) (o : Nat) (w : Word) (p : Phase) : (s.writeReg o w p).nodes = s.nodes := by
  unfold State.writeReg
  split <;> rfl

theorem writeIdle_nodes (s : State) (size : Size) (r : Region) (w : Word) (p : Phase) :
    (s.writeIdle size r w p).nodes = s.nodes := by
  cases r with
  | reg o => exact writeReg_nodes s o w p
  | dmem a => cases size <;> rfl
  | freq _ | code _ _ | node _ _ | heap _ | reserved => rfl

theorem writeBusy_nodes (s : State) (r : Region) (w : Word) : (s.writeBusy r w).nodes = s.nodes := by
  unfold State.writeBusy
  split <;> rfl

theorem respondRead_nodes (s : State) (size : Size) (r : Region) (v : Option Word) :
    (s.respondRead size r v).nodes = s.nodes := by
  cases v <;> rfl

/-- No host transaction changes a node, idle or busy (R170). -/
theorem step_of_hostTurn_nodes {s u : State} {t : Txn} {rest : List Event} (hrst : s.env.rst = false)
    (hturn : s.hostTurn t rest) (h : step s = .next u) : u.nodes = s.nodes := by
  cases t with
  | rd size a =>
    cases hacc : s.accepts size a with
    | false =>
      obtain rfl := Host.Outcome.next.inj ((step_of_not_accepts (w := 0) hrst (.inl rfl) hturn hacc).symm.trans h)
      rfl
    | true =>
      obtain rfl := Host.Outcome.next.inj ((step_of_read hrst hturn hacc).symm.trans h)
      split
      · exact respondRead_nodes (s.withEvents rest) size _ _
      · exact respondRead_nodes (s.withEvents rest) size _ _
  | wr size a w =>
    cases hacc : s.accepts size a with
    | false =>
      obtain rfl := Host.Outcome.next.inj ((step_of_not_accepts hrst (.inr rfl) hturn hacc).symm.trans h)
      rfl
    | true =>
      obtain rfl := Host.Outcome.next.inj ((step_of_write hrst hturn hacc).symm.trans h)
      rw [State.respond_nodes]
      split
      · exact writeBusy_nodes (s.withEvents rest) _ w
      · exact writeIdle_nodes (s.withEvents rest) size _ w _

/-- Settles O12: NODE_LEAF and NODE_JOIN add at most one node behind the others; no other of the commands writes the arena,
and no host write reaches it. -/
theorem nodesNeverChange : Obligations.NodesNeverChange := by
  refine ⟨fun i s t hi h => ?_, fun s u t rest hrst hturn h => step_of_hostTurn_nodes hrst hturn h⟩
  cases hw : (writesOf i).nodes with
  | false => exact ⟨[], by rw [exec_nodes hw h, List.append_nil], Nat.zero_le _, fun _ => rfl⟩
  | true =>
    obtain rfl := complete_body_of_exec h
    cases i with
    | nodeLeaf sym =>
      obtain ⟨new, hnodes, hlen⟩ := newLeaf_addsAtMostOne sym s
      exact ⟨new, (complete_storeIndex_nodes _).trans hnodes, hlen, fun hn => absurd (by simp [Instr.mnemonic]) hn⟩
    | nodeJoin na nb =>
      obtain ⟨new, hnodes, hlen⟩ := newJoin_addsAtMostOne na nb s
      exact ⟨new, (complete_storeIndex_nodes _).trans hnodes, hlen, fun hn => absurd (by simp [Instr.mnemonic]) hn⟩
    | clear | nodeClear | treeBuild | compress | decompress => exact absurd (by simp [Instr.mnemonic]) hi
    | _ => cases hw

end Sys2Proof.Machine
end

section
/-! PROOF. The tree builder (43_tree.md R174 to R178, R180, R181). -/

namespace Sys2Proof.Machine

/-- Settles O30: TREE_BUILD's body ends well in a built tree. -/
theorem treeBuildMakesATree : Obligations.TreeBuildMakesATree := by
  refine ⟨decode_encode (i := .treeBuild) rfl, fun s => ?_⟩
  obtain ⟨u, hbody, hframe, htree⟩ := treeBuild_spec s
  exact ⟨u, exec_of_body_ok (i := .treeBuild) hbody, hframe, htree⟩

/-- Settles O32: TREE_BUILD over t is TREE_BUILD over s grafted onto t. -/
theorem treeBuildIsDeterministic : Obligations.TreeBuildIsDeterministic := by
  intro s t u v hfreq htiebrk hu hv
  obtain ⟨w, hs, hframe, -⟩ := treeBuild_spec s
  have ht := treeBuild_graft (b := t) ⟨hfreq.symm, htiebrk.symm⟩ hs
  obtain rfl := eq_finished_of_body_ok (i := .treeBuild) hs hu
  obtain rfl := eq_finished_of_body_ok (i := .treeBuild) ht hv
  exact ⟨rfl, rfl, rfl, congrArg State.heap hframe, rfl⟩

/-! TREE_BUILD's loops as runs of commands: between two commands the machine stands in the loop's state, but for RESULT and
what the completion of NODE_CLEAR wrote. -/

/-- The arena, the heap and the root of u, RESULT r, and everything else as in b. -/
def State.between (b : State) (r : Word) (u : State) : State := ({ b with result := r } : State).graft u

/-- RESULT gives back the index stored in it. -/
theorem State.between_index (b u : State) (k : NodeIx) : (b.between (k.zeroExtend 32) u).result.truncate 9 = k :=
  BitVec.setWidth_setWidth_of_le _ (by decide)

/-- A completion with OK would change nothing, as after one. -/
def State.CompletedOk (b : State) : Prop := b.finished 0x00#8 0 = b

theorem State.completedOk_finished (s : State) : (s.finished 0x00#8 0).CompletedOk := by
  simp [State.CompletedOk, State.finished, okCode]

theorem State.CompletedOk.errcode {b : State} (hb : b.CompletedOk) (r : Word) (u : State) :
    (b.between r u).status.errcode = 0x00#8 :=
  (congrArg (fun s => s.status.errcode) hb).symm

/-- A command whose body ends well between two commands. -/
theorem State.CompletedOk.exec_between {b : State} (hb : b.CompletedOk) {i : Instr} {s u : State} {r : Word}
    (h : body i s = .ok () (b.between r u)) : exec i s = .next (b.between r u) := by
  have hdone : (b.between r u).finished 0x00#8 0 = b.between r u := congrArg (State.between · r u) hb
  rw [exec_of_body_ok h, hdone]

section Commands

variable {b u v : State} (hb : b.CompletedOk) (r : Word)
include hb

theorem exec_nodeLeaf_between {sym : Sym} {k : NodeIx} (h : newLeaf sym u = .ok k v) (hc : SameCounts b u) :
    exec (.nodeLeaf sym) (b.between r u) = .next (b.between (k.zeroExtend 32) v) := by
  refine hb.exec_between ?_
  rw [body, State.between, newLeaf_graft (b := { b with result := r }) hc, h]
  rfl

theorem exec_nodeJoin_between {x y k : NodeIx} (h : newJoin x y u = .ok k v) :
    exec (.nodeJoin x y) (b.between r u) = .next (b.between (k.zeroExtend 32) v) := by
  refine hb.exec_between ?_
  rw [body, State.between, newJoin_graft, h]
  rfl

theorem exec_pqExtract_between {k : NodeIx} (h : heapExtract u = .ok k v) (hc : SameCounts b u) :
    exec .pqExtract (b.between r u) = .next (b.between (k.zeroExtend 32) v) := by
  refine hb.exec_between ?_
  rw [body, pqExtract, State.between, heapExtract_graft (b := { b with result := r }) hc, h]
  rfl

theorem exec_pqInsert_between {k : NodeIx} (h : heapInsert k u = .ok () v) (hc : SameCounts b u)
    (hk : k.toNat < u.nodeCount) : exec (.pqInsert k) (b.between r u) = .next (b.between r v) := by
  have hk' : ¬ (b.between r u).nodeCount ≤ k.toNat := Nat.not_le.mpr hk
  refine hb.exec_between ?_
  rw [body, pqInsert, if_neg hk', State.between, heapInsert_graft (b := { b with result := r }) hc, h]
  rfl

end Commands

/-- An insert that ends well writes the heap alone. -/
theorem heapInsert_eq_ok {n : NodeIx} {s t : State} (h : heapInsert n s = .ok () t) :
    t = { s with heap := pushHeap s.less s.heap n } := by
  unfold heapInsert at h
  split at h
  · cases h
  · exact ((Res.ok.inj h).2).symm

/-- A node added to an arena with room gets an index of the arena. -/
theorem State.nextNode_lt_addNode {s : State} (h : s.nodeCount < 511) (n : Node) :
    s.nextNode.toNat < (s.addNode n).nodeCount := by
  have hk : s.nextNode.toNat = s.nodeCount := toNat_ofNat9 (by omega)
  have hcount : (s.addNode n).nodeCount = s.nodeCount + 1 := List.length_append
  omega

/-! TB_LEAF (R176) -/

/-- One leaf of positive count: NODE_LEAF, then PQ_INSERT. -/
theorem leafRun_turn {b u v w z : State} (hb : b.CompletedOk) {r : Word} {sym : Sym} {rest : List Sym} {k : NodeIx}
    (hleaf : newLeaf sym u = .ok k v) (hins : heapInsert k v = .ok () w) (hu : SameCounts b u) (hv : SameCounts b v)
    (hk : k.toNat < v.nodeCount) (hrun : LeafRun rest (b.between (k.zeroExtend 32) w) z) :
    LeafRun (sym :: rest) (b.between r u) z := by
  refine .leaf (exec_nodeLeaf_between hb r hleaf hu) (hb.errcode _ _) ?_ (hb.errcode _ _) hrun
  rw [State.between_index]
  exact exec_pqInsert_between hb _ hins hv hk

/-- TB_LEAF over the symbols 256-n, …, 255, where it ends well, is the run of NODE_LEAF and PQ_INSERT over those of
positive count. -/
theorem leafRun_of_leafLoop {b v : State} (hb : b.CompletedOk) {m : Nat} : ∀ (n : Nat) {leaves : Nat} (u : State) (r : Word),
    leafLoop n leaves u = .ok m v → n ≤ 256 → SameCounts b u → u.nodeCount ≤ 511 →
    ∃ r', LeafRun ((tailSyms n).filter u.counts) (b.between r u) (b.between r' v)
  | 0, _, u, r, h, _, _, _ => by
    obtain ⟨-, rfl⟩ := Res.ok.inj h
    exact ⟨r, .done _⟩
  | n + 1, leaves, u, r, h, hn, hc, hu => by
    rw [tailSyms_succ (by omega)]
    rw [leafLoop] at h
    generalize (BitVec.ofNat 8 (256 - (n + 1)) : Sym) = sym at h ⊢
    by_cases hpos : 0 < (u.freqAt sym).toNat
    · rw [if_pos hpos] at h
      obtain ⟨k, t, hleaf, h⟩ := Res.andThen_eq_ok h
      obtain ⟨⟨⟩, w, hins, h⟩ := Res.andThen_eq_ok h
      have hroom : u.nodeCount < 511 := by
        refine lt_of_le_of_ne hu fun hfull => ?_
        rw [newLeaf, if_pos hfull] at hleaf
        cases hleaf
      obtain ⟨rfl, rfl⟩ := Res.ok.inj ((newLeaf_ok hroom.ne).symm.trans hleaf)
      obtain rfl := heapInsert_eq_ok hins
      have hw : u.nodes.length + 1 ≤ 511 := hroom
      obtain ⟨r', hrun⟩ := leafRun_of_leafLoop hb n _ (u.nextNode.zeroExtend 32) h (by omega) hc
        (List.length_append.trans_le hw)
      have hcounts : u.counts sym = true := decide_eq_true hpos
      rw [List.filter_cons_of_pos hcounts]
      exact ⟨r', leafRun_turn hb hleaf hins hc hc (State.nextNode_lt_addNode hroom _) hrun⟩
    · rw [if_neg hpos] at h
      rw [List.filter_cons_of_neg (by simpa [State.counts] using hpos)]
      exact leafRun_of_leafLoop hb n u r h (by omega) hc hu

/-! TB_MERGE (R177) -/

/-- One turn: PQ_EXTRACT, PQ_EXTRACT, NODE_JOIN, then PQ_INSERT. -/
theorem mergeRun_turn {b u u1 u2 u3 w z : State} (hb : b.CompletedOk) {r : Word} {x y k : NodeIx} (h1 : 1 < u.pqSize)
    (hx : heapExtract u = .ok x u1) (hy : heapExtract u1 = .ok y u2) (hjoin : newJoin x y u2 = .ok k u3)
    (hins : heapInsert k u3 = .ok () w) (hc : SameCounts b u) (hc1 : SameCounts b u1) (hc3 : SameCounts b u3)
    (hk : k.toNat < u3.nodeCount) (hrun : MergeRun (b.between (k.zeroExtend 32) w) z) : MergeRun (b.between r u) z := by
  refine .join (v := b.between (k.zeroExtend 32) u3) h1 (exec_pqExtract_between hb r hx hc) (hb.errcode _ _)
    (exec_pqExtract_between hb _ hy hc1) (hb.errcode _ _) ?_ (hb.errcode _ _) ?_ (hb.errcode _ _) hrun
  · rw [State.between_index, State.between_index]
    exact exec_nodeJoin_between hb _ hjoin
  · rw [State.between_index]
    exact exec_pqInsert_between hb _ hins hc3 hk

/-- TB_MERGE over a forest is the run of PQ_EXTRACT, PQ_EXTRACT, NODE_JOIN and PQ_INSERT. -/
theorem mergeRun_of_mergeLoop {b v : State} (hb : b.CompletedOk) {n W : Nat} (hn : n ≤ 256) (hW : W < 2 ^ 64) :
    ∀ (fuel : Nat) (u : State) (r : Word), SameCounts b u → Forest u n W → u.heap.length ≤ fuel →
    mergeLoop fuel u = .ok () v → ∃ r', MergeRun (b.between r u) (b.between r' v)
  | 0, u, r, _, _, hl, h => by
    obtain ⟨-, rfl⟩ := Res.ok.inj h
    exact ⟨r, .done (Nat.le_succ_of_le hl)⟩
  | fuel + 1, u, r, hc, hF, hl, h => by
    rw [mergeLoop] at h
    by_cases h1 : 1 < u.pqSize
    · obtain ⟨x, y, w, hx, hy, hjoin, hins, hFw, hlw⟩ := hF.merge hn hW h1
      rw [if_pos h1, hx, Res.ok_andThen, hy, Res.ok_andThen, hjoin, Res.ok_andThen, hins, Res.ok_andThen] at h
      have hcw : SameCounts b w := by
        rw [heapInsert_eq_ok hins]
        exact hc
      have hroom : u.nodeCount < 511 := by
        have hcount := hF.count
        simp only [State.nodeCount, State.pqSize] at h1 ⊢
        omega
      obtain ⟨r', hrun⟩ := mergeRun_of_mergeLoop hb hn hW fuel w (u.nextNode.zeroExtend 32) hcw hFw (by omega) h
      exact ⟨r', mergeRun_turn hb h1 hx hy hjoin hins hc hc hc (State.nextNode_lt_addNode hroom _) hrun⟩
    · rw [if_neg h1] at h
      obtain ⟨-, rfl⟩ := Res.ok.inj h
      exact ⟨r, .done (Nat.le_of_not_lt h1)⟩

/-! TREE_BUILD (R174, R178) -/

/-- TREE_BUILD's phases: TB_LEAF makes a forest, TB_MERGE joins it, and the loops write the arena and the heap alone (R175 to
R177, R181). -/
theorem treeBuild_phases (s : State) : ∃ u v : State, leafLoop 256 0 s.clearTree = .ok s.positive.length u ∧
    Forest u s.positive.length s.freqSum ∧ u = { s.clearTree with nodes := u.nodes, heap := u.heap } ∧
    mergeLoop u.pqSize u = .ok () v ∧ Forest v s.positive.length s.freqSum ∧ v.pqSize ≤ 1 ∧
    v = { s.clearTree with nodes := v.nodes, heap := v.heap } ∧
    body .treeBuild s = .ok () (v.takeRoot s.positive.length) := by
  have hpos : (tailSyms 256).filter s.clearTree.counts = s.positive := s.positive_eq.symm
  obtain ⟨u, hleaf, hFu, -, hu⟩ := leafLoop_spec 256 0 0 s.clearTree le_rfl le_rfl (.empty rfl rfl) rfl
  simp only [hpos, Nat.zero_add] at hleaf hFu
  replace hFu : Forest u s.positive.length s.freqSum := s.sum_positive ▸ hFu
  have hW : s.freqSum < 2 ^ 64 := s.freqSum_lt.trans (by decide)
  obtain ⟨v, hmerge, hFv, hlen, -, hv⟩ := mergeLoop_spec s.positive_length_le hW u.pqSize u hFu le_rfl
  refine ⟨u, v, hleaf, hFu, hu, hmerge, hFv, hlen.trans_le (Nat.min_le_left _ _), ?_, ?_⟩
  · rw [hu] at hv
    exact hv
  · rw [body, treeBuild, hleaf, Res.ok_andThen, hmerge, Res.ok_andThen]

/-- TB_DONE where at most one tree is left: the heap is empty, whether that tree became the root or there was none (R178). -/
theorem State.takeRoot_eq {v : State} (h : v.pqSize ≤ 1) (n : Nat) : v.takeRoot n =
    { v with root := if v.pqSize = 1 then slot v.heap 0 else v.root, heap := [], result := BitVec.ofNat 32 n } := by
  have hheap : (if v.pqSize = 1 then [] else v.heap) = [] := by
    split
    next => rfl
    next hne => exact List.length_eq_zero_iff.mp (Nat.lt_one_iff.mp (lt_of_le_of_ne h hne))
  rw [State.takeRoot, hheap]

/-- Settles O31: each loop is the run of its commands, since a command's completion and its RESULT are read by none of them;
and each join of a forest took the two least nodes. -/
theorem treeBuildJoinsTheTwoLeast : Obligations.TreeBuildJoinsTheTwoLeast := by
  refine ⟨fun s t h => ?_, fun s t h k f l r hk => ?_⟩
  · obtain ⟨u, v, hleaf, hFu, hu, hmerge, -, hlen, hv, hbody⟩ := treeBuild_phases s
    obtain rfl := eq_finished_of_body_ok hbody h
    have hb := s.clearTree.completedOk_finished
    have hc : SameCounts (s.clearTree.finished 0x00#8 0) u := by
      rw [hu]
      exact ⟨rfl, rfl⟩
    obtain ⟨r, hleaves⟩ := leafRun_of_leafLoop hb 256 s.clearTree s.result hleaf le_rfl ⟨rfl, rfl⟩ (Nat.zero_le _)
    obtain ⟨r', hjoins⟩ := mergeRun_of_mergeLoop hb s.positive_length_le (s.freqSum_lt.trans (by decide)) _ u r hc hFu
      le_rfl hmerge
    refine ⟨_, _, _, exec_of_body_ok (i := .nodeClear) rfl, s.positive_eq ▸ hleaves, hjoins, ?_⟩
    rw [State.takeRoot_eq hlen, hv]
    rfl
  · obtain ⟨u, v, -, -, -, -, hFv, -, -, hbody⟩ := treeBuild_phases s
    obtain rfl := eq_finished_of_body_ok hbody h
    exact (hFv.least k f l r hk).congr (fun _ _ => rfl) fun _ _ _ _ => rfl

end Sys2Proof.Machine
end

section
/-! PROOF. The code-table generator (44_codegen.md R190 to R193). -/

namespace Sys2Proof.Machine

/-! CODE_GEN without a walk (R190, R192) -/

/-- The empty tree gives no code. -/
theorem codeGen_nil {s : State} (hroot : s.root = nilIx) : codeGen s = .ok () s.clearCodes :=
  if_pos hroot

/-- A root leaf gives its symbol the one code. -/
theorem codeGen_rootLeaf {s : State} {sym : Sym} {f : DWord} (hroot : s.root ≠ nilIx) (hleaf : s.node s.root = .leaf sym f) :
    codeGen s = .ok () (s.clearCodes.assignCode sym 1 0) := by
  have hleaf' : s.clearCodes.node s.root = .leaf sym f := hleaf
  simp only [codeGen, State.clearCodes_root, hroot, if_false, hleaf']

theorem State.codeAt_rootLeaf (s : State) (sym x : Sym) : (s.clearCodes.assignCode sym 1 0).codeAt x =
    if x = sym then { valid := true, len := 1, code := 0 } else { valid := false, len := 0, code := 0 } := by
  rw [State.codeAt_assignCode, State.codeAt_clearCodes]

/-- Settles O33: neither tree is walked. -/
theorem codeGenWithoutAWalk : Obligations.CodeGenWithoutAWalk :=
  ⟨decode_encode (i := .codeGen) rfl, fun _ hroot => exec_of_body_ok (i := .codeGen) (codeGen_nil hroot),
    fun s sym _ hroot hleaf => ⟨s.clearCodes.assignCode sym 1 0,
      exec_of_body_ok (i := .codeGen) (codeGen_rootLeaf hroot hleaf), rfl, s.codeAt_rootLeaf sym⟩⟩

/-! CODE_GEN with a walk (R190, R191) -/

theorem State.codeCount_eq_filter (s : State) : s.codeCount = (s.code.toList.filter fun e => e.valid).length :=
  List.countP_eq_length_filter

/-- In a proper tree the walk has nothing to raise at. -/
theorem WalkFails.not_properTree {s t : State} {r : NodeIx} {e : Error} (h : WalkFails s r e t) : ¬ ProperTree s r := by
  intro hproper
  obtain ⟨p, n, ⟨-, hp, q, hq, hshared | ⟨sym, f, hn, hleaf⟩⟩ | ⟨-, ⟨hp, hlen, hi⟩, -⟩, -⟩ := h
  · exact Before.irrefl (hproper.noSharing q p n hshared hp ▸ hq)
  · exact Before.irrefl (hproper.oneLeaf q p sym hleaf ⟨n, f, hp, hn⟩ ▸ hq)
  · exact (hproper.depth p n hp hi).ne hlen

/-- A valid entry of a table of path codes is the path of a leaf. -/
theorem CodesArePaths.leafAt {s t : State} {r : NodeIx} (h : CodesArePaths s r t) {sym : Sym}
    (hvalid : (t.codeAt sym).valid = true) : LeafAt s r (t.codeBits sym) sym := by
  rcases h sym with ⟨p, hleaf, hlen, hcode⟩ | hnone
  · rwa [codeBits_of_path hcode hlen]
  · rw [hnone] at hvalid
    exact absurd hvalid Bool.false_ne_true

/-- Settles O34: on a proper tree the walk cannot raise, so it ends with every leaf's path as its code. -/
theorem codeGenAssignsPathCodes : Obligations.CodeGenAssignsPathCodes := by
  intro s hroot hi hproper
  rcases codeGen_spec s hroot hi with ⟨u, hgen, -, hframe, hleaves, hothers, hcount⟩ | ⟨e, u, -, -, hfails, -⟩
  · have hdraws : u.env.draws = s.env.draws + 1 := congrArg (fun v => v.env.draws) hframe
    exact ⟨u, exec_of_body_ok (i := .codeGen) hgen, hdraws ▸ hframe, fun p sym h => (hleaves p sym h).1, hothers,
      hcount.trans u.codeCount_eq_filter⟩
  · exact absurd hproper hfails.not_properTree

/-- Where the walk raises, the completed state reports the first rejecting node and holds the codes of the leaves before it
(R191; 60_exceptions.md R251, R253). -/
theorem WalkFails.finished {s u : State} {e : Error} (h : WalkFails s s.root e u) :
    ∃ (p : List Bool) (n : NodeIx), e.info = n.zeroExtend 32 ∧
      ((e.code = 0x08#8 ∧ s.badTreeAt p n) ∨ (e.code = 0x0B#8 ∧ s.tooLongAt p n ∧ ¬ s.badTreeAt p n)) ∧
      (∀ (q : List Bool) (m : NodeIx), Before q p → ¬ s.badTreeAt q m ∧ ¬ s.tooLongAt q m) ∧
      (u.finished e.code e.info).holdsCodesOf s fun q => Before q p := by
  obtain ⟨p, n, hwhy, hfirst, hbefore, hothers, hcount⟩ := h
  have hholds : u.holdsCodesOf s fun q => Before q p := ⟨hbefore, hothers, hcount.trans u.codeCount_eq_filter⟩
  rcases hwhy with ⟨rfl, hbad⟩ | ⟨rfl, hlong⟩
  · exact ⟨p, n, rfl, .inl ⟨rfl, hbad⟩, hfirst, hholds⟩
  · exact ⟨p, n, rfl, .inr ⟨rfl, hlong⟩, hfirst, hholds⟩

/-- Settles O35: the walk either visits every path, so that the tree is proper, or raises at the first path R191 rejects. -/
theorem codeGenRejectsImproperTrees : Obligations.CodeGenRejectsImproperTrees := by
  intro s t _ hroot hi hexec
  rcases codeGen_spec s hroot hi with ⟨u, hgen, hproper, -, hleaves, hothers, -⟩ | ⟨e, u, hgen, hpaths, hfails, -⟩
  · obtain rfl := eq_finished_of_body_ok (i := .codeGen) hgen hexec
    have hpaths : CodesArePaths s s.root u := fun sym => by
      by_cases h : ∃ p, LeafAt s s.root p sym
      · obtain ⟨p, hleaf⟩ := h
        obtain ⟨hcode, hlen⟩ := hleaves p sym hleaf
        exact .inl ⟨p, hleaf, hlen, hcode⟩
      · exact .inr (hothers sym h)
    exact ⟨fun _ => hproper, fun hne => absurd rfl hne, fun _ => hpaths.leafAt⟩
  · obtain rfl := Host.Outcome.next.inj ((exec_of_body_raised (i := .codeGen) hgen).symm.trans hexec)
    obtain ⟨p, n, hinfo, hwhy, hrest⟩ := hfails.finished
    refine ⟨fun hok => ?_, fun _ => ⟨p, n, hinfo, hwhy, hrest⟩, fun _ => hpaths.leafAt⟩
    have hcode : e.code = 0x00#8 := hok
    rcases hwhy with ⟨h, -⟩ | ⟨h, -⟩ <;> exact absurd (hcode.symm.trans h) (by decide)

/-! The codes of a built tree (R193) -/

/-- A completed TREE_BUILD is a body that ends well, run from a state that differs in registers no body reads. -/
theorem exists_relabel_treeBuild {s t : State} (h : exec .treeBuild s = .next t) :
    ∃ l, treeBuild (s.relabel l) = .ok () t := by
  obtain ⟨u, hbuild, -⟩ := treeBuild_spec s
  obtain rfl := eq_finished_of_body_ok (i := .treeBuild) hbuild h
  refine ⟨⟨(u.finished 0x00#8 0).status, 0, u.src, u.len, u.dst⟩, ?_⟩
  rw [treeBuild_blind, hbuild]
  rfl

/-- Over two leaves or more the root is a join. -/
theorem BuiltTree.root_isInternal {s u : State} (h : BuiltTree s u) (h2 : 2 ≤ s.positive.length) :
    (u.node u.root).isInternal = true := by
  have hsize := h.size
  have hle := s.positive_length_le
  have hroot : u.root.toNat = u.nodes.length - 1 := by
    rw [h.root, if_neg (List.ne_nil_of_length_pos (by omega)), toNat_ofNat9 (by omega)]
  obtain ⟨f, l, r, hjoin, -⟩ := h.joins u.root.toNat (u.node u.root) (by omega)
    (State.getElem?_of_lt (show u.root.toNat < u.nodes.length by omega))
  rw [hjoin]
  rfl

/-- The only leaf is the root. -/
theorem BuiltTree.root_leaf {s u : State} (h : BuiltTree s u) {sym : Sym} (h1 : s.positive = [sym]) :
    u.root ≠ nilIx ∧ ∃ f, u.node u.root = .leaf sym f := by
  have hroot : u.root = 0 := by
    rw [h.root, h.size, h1]
    rfl
  rw [hroot]
  exact ⟨by decide, _, State.node_of_getElem? (h.leaves 0 sym (by rw [h1]; rfl))⟩

theorem codeEntryOk.one_le_len {e : CodeEntry} (h : codeEntryOk e) (hvalid : e.valid = true) : 1 ≤ e.len.toNat := by
  rw [codeEntryOk, if_pos hvalid] at h
  exact h.1

/-- The entries that hold a code are those of the symbols in use. -/
theorem State.validCodes_eq {s u : State} (h : ∀ sym, (u.codeAt sym).valid = true ↔ sym ∈ s.positive) :
    u.code.toList.filter (fun e => e.valid) = s.positive.map u.codeAt := by
  have htable : u.code.toList = ((List.range 256).map fun k => (BitVec.ofNat 8 k : Sym)).map u.codeAt := by
    rw [u.code_toList, List.map_map]
    rfl
  rw [htable, List.filter_map, State.positive]
  refine congrArg (List.map u.codeAt) (List.filter_congr fun sym _ => ?_)
  rw [Function.comp_apply, Bool.eq_iff_iff, h, s.mem_positive, decide_eq_true_iff]

section PathTable

variable {t u : State} {pos : List Sym} (hproper : ProperTree t t.root) (hpos : pos.Nodup)
  (hleaf : ∀ sym p, LeafAt t t.root p sym ↔ sym ∈ pos ∧ u.codeBits sym = p)
include hproper hpos hleaf

/-- Where the codes of the symbols in `pos` are the paths of the tree's leaves, the leaves are those symbols with their
codes, each once. -/
theorem leafPaths_perm_codes :
    (leafPaths t 65 t.root).Perm (pos.map fun sym => (sym, u.codeBits sym)) := by
  have hcodes : (pos.map fun sym => (sym, u.codeBits sym)).Nodup :=
    hpos.map fun _ _ h => (Prod.mk.inj h).1
  refine (List.perm_ext_iff_of_nodup (nodup_leafPaths 65 _) hcodes).mpr fun ⟨sym, p⟩ => ?_
  rw [mem_leafPaths hproper.depth, hleaf]
  simp

/-- The Kraft sum of the codes is 1, in units of 2^(-64). -/
theorem kraft_codes : (pos.map fun sym => 2 ^ (64 - (u.codeAt sym).len.toNat)).sum = 2 ^ 64 := by
  have hkraft := kraft_leafPaths (D := 64) hproper.depth le_rfl
  rw [((leafPaths_perm_codes hproper hpos hleaf).map _).sum_eq, List.map_map] at hkraft
  simpa [Function.comp_def, State.codeBits] using hkraft

/-- Each code is shorter than the number of symbols. -/
theorem codeLen_lt_length {sym : Sym} (hsym : sym ∈ pos) : (u.codeAt sym).len.toNat + 1 ≤ pos.length := by
  have hperm := leafPaths_perm_codes hproper hpos hleaf
  have hmem : (sym, u.codeBits sym) ∈ leafPaths t 65 t.root := hperm.mem_iff.mpr (List.mem_map_of_mem hsym)
  have hlen := depth_lt_leafPaths hproper.depth _ hmem
  rwa [hperm.length_eq, List.length_map, State.codeBits, bitsOf_length] at hlen

end PathTable

/-- Over two leaves or more the codes of a built tree are the paths of its leaves. -/
theorem properTree_and_leafAt_iff {s t u : State} (hbuild : treeBuild s = .ok () t) (hcodes : TreeCodes t u s.positive)
    (h2 : 2 ≤ s.positive.length) : ProperTree t t.root ∧
      ∀ sym p, LeafAt t t.root p sym ↔ sym ∈ s.positive ∧ u.codeBits sym = p := by
  obtain ⟨t₁, h₁, -, htree⟩ := treeBuild_spec s
  obtain ⟨t₂, h₂, -, hproper, hsyms⟩ := treeBuild_proper s (List.ne_nil_of_length_pos (by omega))
  obtain rfl : t = t₁ := (Res.ok.inj (hbuild.symm.trans h₁)).2
  obtain rfl : t = t₂ := (Res.ok.inj (hbuild.symm.trans h₂)).2
  have hpath : ∀ sym ∈ s.positive, LeafAt t t.root (u.codeBits sym) sym := fun sym hsym => by
    rcases hcodes.emits sym ((hcodes.valid sym).mpr hsym) with ⟨-, h⟩ | ⟨-, f, h⟩
    · exact h
    · have hi := htree.root_isInternal h2
      rw [h] at hi
      exact absurd hi Bool.false_ne_true
  refine ⟨hproper, fun sym p => ⟨fun h => ?_, fun ⟨hsym, h⟩ => h ▸ hpath sym hsym⟩⟩
  have hsym := (hsyms sym).mp ⟨p, h⟩
  exact ⟨hsym, hproper.oneLeaf _ _ sym (hpath sym hsym) h⟩

/-- The code of the only leaf is 0. -/
theorem codeBits_single {s t u : State} (hbuild : treeBuild s = .ok () t) (hgen : codeGen t = .ok () u) {sym : Sym}
    (h1 : s.positive = [sym]) : u.codeBits sym = [false] := by
  obtain ⟨t₁, h₁, -, htree⟩ := treeBuild_spec s
  obtain rfl : t = t₁ := (Res.ok.inj (hbuild.symm.trans h₁)).2
  obtain ⟨hroot, f, hnode⟩ := htree.root_leaf h1
  obtain rfl := (Res.ok.inj (hgen.symm.trans (codeGen_rootLeaf hroot hnode))).2
  rw [State.codeBits, State.codeAt_rootLeaf, if_pos rfl]
  rfl

/-- Settles O36: the codes are the leaves' paths in a proper tree, so no code is a prefix of another and the leaves' Kraft
equality is the codes'. -/
theorem builtTreesHavePrefixFreeCodes : Obligations.BuiltTreesHavePrefixFreeCodes := by
  intro s t hexec
  obtain ⟨l, hbuild⟩ := exists_relabel_treeBuild hexec
  obtain ⟨u, hgen, -, hcodes⟩ := codeGen_built hbuild
  refine ⟨_, exec_of_body_ok (i := .codeGen) hgen, rfl, hcodes.result,
    fun sym => (hcodes.valid sym).trans (s.mem_positive sym), fun h2 => ?_, fun _ => codeBits_single hbuild hgen⟩
  obtain ⟨hproper, hleaf⟩ := properTree_and_leafAt_iff hbuild hcodes h2
  have hpath : ∀ sym, (u.codeAt sym).valid = true → LeafAt t t.root (u.codeBits sym) sym := fun sym hv =>
    (hleaf sym _).mpr ⟨(hcodes.valid sym).mp hv, rfl⟩
  refine ⟨fun a b ha hb hprefix => ((hpath a ha).prefix_eq (hpath b hb) hprefix).2, ?_, fun sym hv => ⟨?_, ?_⟩⟩
  · show ((u.code.toList.filter fun e => e.valid).map _).sum = _
    rw [State.validCodes_eq hcodes.valid, List.map_map]
    exact kraft_codes hproper (s.relabel l).nodup_positive hleaf
  · exact (hcodes.entry sym).one_le_len hv
  · exact Nat.le_sub_one_of_lt
      (codeLen_lt_length hproper (s.relabel l).nodup_positive hleaf ((hcodes.valid sym).mp hv))

end Sys2Proof.Machine
end

section
/-! PROOF. The packing commands (45_pack.md R200 to R208). -/

namespace Sys2Proof.Machine

/-! PACK_INIT -/

/-- Settles O37: PACK_INIT's body is `State.initPacker`, which writes the packer and no other field. -/
theorem packInitStartsAStream : Obligations.PackInitStartsAStream :=
  ⟨decode_encode (i := .packInit) rfl, rejectsOperand .packInit rfl, fun _ => exec_of_body_ok (i := .packInit) rfl⟩

/-! What the packing commands raise: nothing is changed before the raise (R201, R203, R204, R206). -/

theorem packHeader_sequence {s : State} (hb : s.pk.bblen ≠ 0) : packHeader s = .raised (.sequence s.pk.bblen) s :=
  if_pos hb

theorem packHeader_bounds {s : State} (hb : s.pk.bblen = 0) (hs : s.dmemSize < s.pk.optr.toNat + 1032) :
    packHeader s = .raised (.bounds (max s.pk.optr.toNat s.dmemSize)) s := by
  rw [packHeader, if_neg (not_not.mpr hb)]
  exact congrArg (Res.andThen · _) (checkRange_raises hs)

theorem packSymbol_noCode {sym : Sym} {s : State} (hv : (s.codeAt sym).valid = false) :
    packSymbol sym s = .raised (.noCode sym) s :=
  if_neg (by rw [hv]; exact Bool.false_ne_true)

theorem packSymbol_bounds {sym : Sym} {s : State} (hv : (s.codeAt sym).valid = true)
    (hs : s.dmemSize < s.pk.optr.toNat + (s.pk.bblen.toNat + (s.codeAt sym).len.toNat) / 8) :
    packSymbol sym s = .raised (.bounds (max s.pk.optr.toNat s.dmemSize)) s :=
  (if_pos hv).trans (append_raises rfl hs)

theorem packData_bounds {src len : Nat} {s : State} (hr : s.dmemSize < src + len) :
    packData src len s = .raised (.bounds (max src s.dmemSize)) s := by
  rw [packData, checkRange_raises hr, Res.raised_andThen]

theorem packFlush_bounds {s : State} (hb : s.pk.bblen ≠ 0) (hs : s.dmemSize < s.pk.optr.toNat + 1) :
    packFlush s = .raised (.bounds (max s.pk.optr.toNat s.dmemSize)) s := by
  rw [packFlush, flushPending, if_neg hb, checkRange_raises hs, Res.raised_andThen, Res.raised_andThen]

/-! PACK_HEADER -/

/-- Settles O38: the two checks raise in turn, and past both the header is written whole. -/
theorem packHeaderWritesTheHeader : Obligations.PackHeaderWritesTheHeader := by
  refine ⟨decode_encode (i := .packHeader) rfl, fun s =>
    ⟨fun hb => exec_of_body_raised (i := .packHeader) (packHeader_sequence hb),
      fun hb hs => exec_of_body_raised (i := .packHeader) (packHeader_bounds hb hs), fun hb hs => ?_⟩⟩
  obtain ⟨u, hbody, hu⟩ := packHeader_ok hb hs
  exact ⟨u, exec_of_body_ok (i := .packHeader) hbody, hu⟩

/-! PACK_SYM -/

/-- The word of PACK_SYM decodes to it, whatever its operand (R204). -/
theorem decode_packSym (sym : Sym) : decode (0x62000000#32 ||| sym.zeroExtend 32) = .ok (.packSym sym) :=
  decode_opc_or_operand (Laws.WellFormedCommand.packSym sym)
    (show 0x62000000#32 = 0x62#8 ++ 0#24 by decide) (setWidth_zero_append 16 sym).symm

/-- The packer after k bytes written and n bits left pending. -/
theorem Packed.pk_eq {s u : State} {k n : Nat} {bits : List Bool} (h : Packed s k n bits u) :
    u.pk = { optr := s.pk.optr + BitVec.ofNat 32 k, ocnt := s.pk.ocnt + BitVec.ofNat 32 k, bblen := BitVec.ofNat 3 n
             bbuf := u.pk.bbuf } := by
  have hbblen : u.pk.bblen = BitVec.ofNat 3 n := by rw [← h.bblen, BitVec.ofNat_toNat, BitVec.setWidth_eq]
  rw [← h.optr, ← h.ocnt, ← hbblen]

/-- Settles O39: the code's presence and the room are checked in turn, and past both `append` writes the whole bytes. -/
theorem packSymAppendsTheCode : Obligations.PackSymAppendsTheCode := by
  refine fun s sym => ⟨decode_packSym sym, fun hv => exec_of_body_raised (i := .packSym sym) (packSymbol_noCode hv), ?_⟩
  rintro k rfl hv
  refine ⟨fun hs => exec_of_body_raised (i := .packSym sym) (packSymbol_bounds hv hs), fun hs hp hc => ?_⟩
  obtain ⟨u, hbody, hframe, hu⟩ := packSymbol_ok hv hc hp rfl hs
  refine ⟨u, exec_of_body_ok (i := .packSym sym) hbody, ?_, hu.number, hu.stream, hu.outside⟩
  rw [← hu.pk_eq]
  exact hframe

/-! PACK_FLUSH -/

theorem packFlush_aligned {s : State} (hb : s.pk.bblen = 0) : packFlush s = .ok () { s with result := s.pk.ocnt } := by
  rw [packFlush, flushPending, if_pos hb, Res.ok_andThen]

/-- PACK_FLUSH's body where bits are pending and a byte fits (R206). -/
theorem packFlush_pads {s : State} (hb : s.pk.bblen ≠ 0) (hp : s.pk.bbuf.toNat < 2 ^ s.pk.bblen.toNat)
    (hs : s.pk.optr.toNat + 1 ≤ s.dmemSize) :
    ∃ u, packFlush s = .ok () u ∧
      u = { s with
        pk := { optr := s.pk.optr + 1, ocnt := s.pk.ocnt + 1, bblen := 0, bbuf := 0 }
        result := s.pk.ocnt + 1
        dmem := u.dmem } ∧
      u.bitsAt s.pk.optr.toNat 1 = s.pendingBits ++ List.replicate (8 - s.pk.bblen.toNat) false ∧
      s.sameBytesBut s.pk.optr.toNat 1 u := by
  obtain ⟨u, hbody, hframe, hbits, hout⟩ := flushPending_ok hb hp hs
  refine ⟨{ u with result := u.pk.ocnt }, ?_, ?_, hbits, hout⟩
  · rw [packFlush, hbody, Res.ok_andThen]
  · rw [hframe]

/-- Settles O41: with no bit pending only RESULT is written; else the padded byte is written where it fits. -/
theorem packFlushPadsToAByte : Obligations.PackFlushPadsToAByte := by
  refine ⟨decode_encode (i := .packFlush) rfl, fun s =>
    ⟨fun hb => exec_of_body_ok (i := .packFlush) (packFlush_aligned hb),
      fun hb hs => exec_of_body_raised (i := .packFlush) (packFlush_bounds hb hs), fun hb hs hp => ?_⟩⟩
  obtain ⟨u, hbody, hu⟩ := packFlush_pads hb hp hs
  exact ⟨u, exec_of_body_ok (i := .packFlush) hbody, hu⟩

/-! PACK_DATA's loop, byte by byte (R205) -/

/-- RESULT <- n. -/
def State.withResult (s : State) (n : Nat) : State := { s with result := BitVec.ofNat 32 n }

theorem packData_eq_packLoop {src len : Nat} {s : State} (hr : src + len ≤ s.dmemSize) :
    packData src len s = packLoop src len 0 (s.withResult 0) := by
  rw [packData, checkRange_ok hr, Res.ok_andThen]
  rfl

/-- The loop's next byte, inside DMEM. -/
theorem packLoop_succ {src n i : Nat} {s : State} (hr : src + i < s.dmemSize) :
    packLoop src (n + 1) i s =
      (packSymbol (s.byte (src + i)) s).andThen fun _ u => packLoop src n (i + 1) (u.withResult (i + 1)) := by
  rw [packLoop, memRead_ok hr, Res.ok_andThen]
  rfl

/-- A code appended writes no field but the packer and DMEM. -/
theorem packSymbol_frame {sym : Sym} {s u : State} {w : Unit} (h : packSymbol sym s = .ok w u) :
    u.dmemLog = s.dmemLog ∧ u.code = s.code := by
  have hkeep := packSymbol_keeps (p := fun t => (t.dmemLog, t.code)) (fun _ _ _ => rfl) (fun _ _ => rfl) sym s
  rw [h] at hkeep
  exact Prod.mk.inj hkeep

/-- The loop over one byte more is the loop, then the byte behind it as the loop left it. -/
theorem packLoop_concat (src : Nat) : ∀ (n i : Nat) (s : State), src + i + n < s.dmemSize →
    packLoop src (n + 1) i s = (packLoop src n i s).andThen fun _ u =>
      (packSymbol (u.byte (src + i + n)) u).andThen fun _ v => .ok () (v.withResult (i + n + 1))
  | 0, i, s, hr => packLoop_succ hr
  | n + 1, i, s, hr => by
    rw [packLoop_succ (n := n + 1) (by omega), packLoop_succ (n := n) (by omega)]
    cases hsym : packSymbol (s.byte (src + i)) s with
    | raised e u => rfl
    | ok _ u =>
      have hd : u.dmemSize = s.dmemSize := congrArg Config.dmemSize (packSymbol_frame hsym).1
      rw [Res.ok_andThen, Res.ok_andThen,
        packLoop_concat src n (i + 1) (u.withResult (i + 1)) (show src + (i + 1) + n < u.dmemSize by omega)]
      have hsrc : src + (i + 1) + n = src + i + (n + 1) := by omega
      have hi : i + 1 + n = i + (n + 1) := by omega
      rw [hsrc, hi]

/-- RESULT counts the bytes of a loop that ends well. -/
theorem packLoop_result (src : Nat) : ∀ (n i : Nat) (s u : State), packLoop src n i s = .ok () u →
    s.result = BitVec.ofNat 32 i → u.result = BitVec.ofNat 32 (i + n)
  | 0, i, s, u, h, hi => by
    obtain rfl := (Res.ok.inj h).2
    exact hi
  | n + 1, i, s, u, h, hi => by
    obtain ⟨b, v, -, hv⟩ := Res.andThen_eq_ok h
    obtain ⟨-, w, -, hw⟩ := Res.andThen_eq_ok hv
    rw [packLoop_result src n (i + 1) _ u hw rfl, Nat.add_assoc, Nat.add_comm 1]

/-- The registers no body reads, as PACK_DATA finds them with LEN = k. -/
def State.labelWithLen (s : State) (k : Nat) : Label :=
  { status := s.status, errinfo := s.errinfo, src := s.src, len := BitVec.ofNat 32 k, dst := s.dst }

/-- PACK_DATA with LEN = k is its loop over k bytes, whatever LEN was. -/
theorem exec_packData_withLen {s : State} {k : Nat} (hr : s.src.toNat + k ≤ s.dmemSize) :
    exec .packData { s with len := BitVec.ofNat 32 k } = .next (complete
      ((packLoop s.src.toNat k 0 (s.withResult 0)).mapState (State.relabel (s.labelWithLen k)))) := by
  have hk : (BitVec.ofNat 32 k).toNat = k := by
    have := s.dmemSize_le
    rw [BitVec.toNat_ofNat]
    omega
  have hbody : body .packData { s with len := BitVec.ofNat 32 k } =
      packData s.src.toNat k { s with len := BitVec.ofNat 32 k } := by
    simp only [body, State.srcOffset, State.byteCount, hk]
  rw [exec_eq_complete_body, hbody, packData_eq_packLoop (s := { s with len := BitVec.ofNat 32 k }) hr]
  exact congrArg (fun r => Host.Outcome.next (complete r))
    (packLoop_blind s.src.toNat k 0 (s.labelWithLen k) (s.withResult 0))

/-- Completing again leaves what completing once would have, where the first completion was OK (R252). -/
theorem Status.finish_finish_ok (st : Status) (c : BitVec 8) : (st.finish okCode).finish c = st.finish c := by
  simp [Status.finish]

/-- PACK_DATA over one byte more, where the loop before it raised. -/
theorem exec_packData_stopped {s : State} {k : Nat} (hr : s.src.toNat + (k + 1) ≤ s.dmemSize) {e : Error} {u : State}
    (hloop : packLoop s.src.toNat k 0 (s.withResult 0) = .raised e u) :
    exec .packData { s with len := BitVec.ofNat 32 (k + 1) } =
      .next ((u.relabel (s.labelWithLen (k + 1))).finished e.code e.info) := by
  rw [exec_packData_withLen hr, packLoop_concat _ _ _ (s.withResult 0) (show s.src.toNat + 0 + k < s.dmemSize by omega), hloop]
  rfl

/-- PACK_DATA over one byte more, where the loop before it ended well. -/
theorem exec_packData_next {s : State} {k : Nat} (hr : s.src.toNat + (k + 1) ≤ s.dmemSize) {u : State}
    (hloop : packLoop s.src.toNat k 0 (s.withResult 0) = .ok () u) :
    exec .packData { s with len := BitVec.ofNat 32 (k + 1) } = .next (complete
      (((packSymbol (u.byte (s.src.toNat + k)) u).andThen fun _ v => .ok () (v.withResult (k + 1))).mapState
        (State.relabel (s.labelWithLen (k + 1))))) := by
  rw [exec_packData_withLen hr, packLoop_concat _ _ _ (s.withResult 0) (show s.src.toNat + 0 + k < s.dmemSize by omega), hloop,
    Res.ok_andThen, Nat.add_zero, Nat.zero_add]

/-- The registers no body reads, as PACK_DATA's completion leaves them where LEN = k and it raised nothing. -/
def State.labelAfterLoop (s : State) (k : Nat) : Label :=
  { s.labelWithLen k with status := s.status.finish okCode, errinfo := 0 }

/-- PACK_SYM from where PACK_DATA's loop left the machine and completed is PACK_SYM's body from the loop's state. -/
theorem exec_packSym_afterLoop (s u : State) (k : Nat) (sym : Sym) :
    exec (.packSym sym) ((u.relabel (s.labelWithLen k)).finish okCode 0) =
      .next (complete ((packSymbol sym u).mapState (State.relabel (s.labelAfterLoop k)))) :=
  (exec_eq_complete_body _ _).trans
    (congrArg (fun r => Host.Outcome.next (complete r)) (packSymbol_blind sym (s.labelAfterLoop k) u))

/-- PACK_DATA's last turn, completed, against the same code appended by a PACK_SYM that follows a completed PACK_DATA: LEN
and RESULT tell them apart. -/
theorem complete_lastTurn (s : State) (k : Nat) {r : Res Unit} {v : State}
    (hv : v = complete (r.mapState (State.relabel (s.labelAfterLoop k))))
    (hresult : ∀ e w, r = .raised e w → w.result = BitVec.ofNat 32 k) :
    complete ((r.andThen fun _ w => .ok () (w.withResult (k + 1))).mapState (State.relabel (s.labelWithLen (k + 1)))) =
      { v with
        len := BitVec.ofNat 32 (k + 1)
        result := if v.status.errcode = 0x00#8 then BitVec.ofNat 32 (k + 1) else BitVec.ofNat 32 k } := by
  subst hv
  cases r with
  | ok _ w =>
    simp [complete, Res.mapState, State.finish, State.relabel, State.labelAfterLoop, State.labelWithLen, State.withResult,
      Status.finish_finish_ok]
  | raised e w =>
    simp [complete, Res.mapState, State.finish, State.relabel, State.labelAfterLoop, State.labelWithLen,
      Status.finish_finish_ok, e.code_range.2, hresult e w rfl]

/-- Settles O40: PACK_DATA is its loop, whose last turn is PACK_SYM's body run from where the earlier turns left the machine;
that a PACK_DATA was completed in between is read by neither. -/
theorem packDataPacksByteByByte : Obligations.PackDataPacksByteByByte := by
  refine ⟨decode_encode (i := .packData) rfl, fun s =>
    ⟨fun hr => exec_of_body_raised (i := .packData) (packData_bounds hr), fun hr hlen => ?_, fun k t hr ht => ?_⟩⟩
  · have hcount : s.byteCount = 0 := congrArg BitVec.toNat hlen
    refine exec_of_body_ok (i := .packData) ?_
    rw [body, hcount, packData_eq_packLoop (src := s.srcOffset) (len := 0) hr]
    rfl
  rw [exec_packData_withLen (by omega)] at ht
  obtain rfl := Host.Outcome.next.inj ht
  clear ht
  cases hloop : packLoop s.src.toNat k 0 (s.withResult 0) with
  | raised e u =>
    refine ⟨fun _ => ?_, fun hok => absurd hok e.code_range.2⟩
    rw [exec_packData_stopped hr hloop]
    rfl
  | ok _ u =>
    refine ⟨fun herr => absurd rfl herr, fun _ v hv => ?_⟩
    change exec (.packSym (u.byte (s.src.toNat + k))) ((u.relabel (s.labelWithLen k)).finish okCode 0) = _ at hv
    rw [exec_packSym_afterLoop] at hv
    rw [exec_packData_next hr hloop, complete_lastTurn s k (Host.Outcome.next.inj hv).symm fun e w hsym => ?_]
    have hkeep := packSymbol_keeps (p := State.result) (fun _ _ _ => rfl) (fun _ _ => rfl) (u.byte (s.src.toNat + k)) u
    rw [hsym, packLoop_result _ k 0 _ u hloop rfl, Nat.zero_add] at hkeep
    exact hkeep

end Sys2Proof.Machine
end

section
/-! PROOF. The packer's stream (45_pack.md R200, R205, R208). -/

namespace Sys2Proof.Machine

/-! What R200 speaks of, and when it stays as it is -/

/-- The pieces of state the packer's stream is read from. -/
def State.streamParts (s : State) : Packer × List Host.Cell × Fin 12 × Nat := (s.pk, s.memory)

theorem State.streamParts_eq {s t : State} (h : t.streamParts = s.streamParts) : t.pk = s.pk ∧ ∀ x, t.byte x = s.byte x := by
  simp only [State.streamParts, State.memory, Prod.mk.injEq] at h
  obtain ⟨hpk, hmem, -, hepoch⟩ := h
  exact ⟨hpk, State.byte_congr hmem hepoch⟩

@[simp] theorem State.pendingBits_length (s : State) : s.pendingBits.length = s.pk.bblen.toNat := bitsOf_length _ _

@[simp] theorem State.codeBits_length (s : State) (sym : Sym) : (s.codeBits sym).length = (s.codeAt sym).len.toNat :=
  bitsOf_length _ _

theorem State.pendingBits_aligned {s : State} (hb : s.pk.bblen = 0) : s.pendingBits = [] := by
  rw [State.pendingBits, hb]
  rfl

/-- The stream is the bytes written behind dst0, then the pending bits. -/
theorem streamInv_iff {s : State} {dst0 : Nat} {P : List Bool} : StreamInv s dst0 P ↔
    s.pk.optr.toNat = dst0 + s.pk.ocnt.toNat ∧ s.pk.bbuf.toNat < 2 ^ s.pk.bblen.toNat ∧
      s.bitsAt dst0 s.pk.ocnt.toNat ++ s.pendingBits = P := by
  constructor
  · exact fun h => ⟨h.pointer, h.number, by rw [h.written, h.pending, List.take_append_drop]⟩
  · rintro ⟨hpointer, hnumber, rfl⟩
    have hlen := s.bitsAt_length dst0 s.pk.ocnt.toNat
    exact ⟨by simp, hpointer, (List.drop_left' hlen).symm, hnumber, (List.take_left' hlen).symm⟩

theorem StreamInv.congr {s t : State} {dst0 : Nat} {P : List Bool} (h : StreamInv s dst0 P)
    (ht : t.streamParts = s.streamParts) : StreamInv t dst0 P := by
  obtain ⟨hpk, hbyte⟩ := State.streamParts_eq ht
  obtain ⟨hpointer, hnumber, rfl⟩ := streamInv_iff.mp h
  refine streamInv_iff.mpr ⟨by rwa [hpk], by rwa [hpk], ?_⟩
  rw [State.pendingBits, hpk, State.bitsAt_congr fun x _ _ => hbyte x]
  rfl

theorem complete_streamParts (r : Res Unit) : (complete r).streamParts = r.state.streamParts :=
  complete_keeps (fun _ _ _ => rfl) r

/-! A stretch of packing -/

theorem Packed.congr {s s' u u' : State} {k n : Nat} {bits : List Bool} (h : Packed s k n bits u)
    (hs : s'.streamParts = s.streamParts) (hu : u'.streamParts = u.streamParts) : Packed s' k n bits u' := by
  obtain ⟨hspk, hsbyte⟩ := State.streamParts_eq hs
  obtain ⟨hupk, hubyte⟩ := State.streamParts_eq hu
  refine ⟨by rw [hspk, hupk]; exact h.optr, by rw [hspk, hupk]; exact h.ocnt, by rw [hupk]; exact h.bblen,
    by rw [hupk]; exact h.number, ?_, fun x hx => ?_⟩
  · rw [State.pendingBits, State.pendingBits, hspk, hupk, State.bitsAt_congr fun x _ _ => hubyte x]
    exact h.stream
  · rw [hubyte, hsbyte]
    exact h.outside x (by rwa [← hspk])

/-- From s to u the packer appended the bits to the stream, OPTR past the whole bytes they completed. -/
def Appends (s : State) (bits : List Bool) (u : State) : Prop :=
  ∃ k n, u.pk.optr.toNat = s.pk.optr.toNat + k ∧ Packed s k n bits u

theorem Appends.refl {s : State} (hp : PendingOk s.pk) : Appends s [] s :=
  ⟨0, s.pk.bblen.toNat, rfl, ⟨(add_zero _).symm, (add_zero _).symm, rfl, hp, (List.append_nil _).symm, fun _ _ => rfl⟩⟩

theorem Appends.trans {s t u : State} {b c : List Bool} (h1 : Appends s b t) (h2 : Appends t c u) : Appends s (b ++ c) u := by
  obtain ⟨k, n, ht, hst⟩ := h1
  obtain ⟨l, m, hu, htu⟩ := h2
  exact ⟨k + l, m, by omega, hst.trans htu ht⟩

theorem Appends.congr {s s' u u' : State} {bits : List Bool} (h : Appends s bits u) (hs : s'.streamParts = s.streamParts)
    (hu : u'.streamParts = u.streamParts) : Appends s' bits u' := by
  obtain ⟨k, n, ho, hp⟩ := h
  exact ⟨k, n, by rw [(State.streamParts_eq hs).1, (State.streamParts_eq hu).1]; exact ho, hp.congr hs hu⟩

theorem Appends.optr_le {s u : State} {bits : List Bool} (h : Appends s bits u) : s.pk.optr.toNat ≤ u.pk.optr.toNat := by
  obtain ⟨k, n, ho, -⟩ := h
  omega

theorem Appends.outside {s u : State} {bits : List Bool} (h : Appends s bits u) {x : Nat}
    (hx : ¬ (s.pk.optr.toNat ≤ x ∧ x < u.pk.optr.toNat)) : u.byte x = s.byte x := by
  obtain ⟨k, n, ho, hp⟩ := h
  exact hp.outside x (by omega)

/-- Packing inside DMEM, or packing that completes no byte, does not wrap OPTR. -/
theorem Packed.appends {s u : State} {k n : Nat} {bits : List Bool} (h : Packed s k n bits u)
    (hk : k = 0 ∨ s.pk.optr.toNat + k ≤ s.dmemSize) : Appends s bits u := by
  refine ⟨k, n, ?_, h⟩
  rcases hk with rfl | hk
  · rw [h.optr]
    simp
  · exact optr_add h hk

/-- What is appended extends the stream (R200). -/
theorem StreamInv.append {s u : State} {dst0 : Nat} {P bits : List Bool} (h : StreamInv s dst0 P) (hu : Appends s bits u) :
    StreamInv u dst0 (P ++ bits) := by
  obtain ⟨hpointer, -, hP⟩ := streamInv_iff.mp h
  obtain ⟨k, n, ho, hp⟩ := hu
  have hocnt : u.pk.ocnt.toNat = s.pk.ocnt.toNat + k := by
    have hlt := u.pk.optr.isLt
    rw [hp.ocnt, BitVec.toNat_add, BitVec.toNat_ofNat]
    omega
  have hold : u.bitsAt dst0 s.pk.ocnt.toNat = s.bitsAt dst0 s.pk.ocnt.toNat :=
    State.bitsAt_congr fun x _ hx => hp.outside x (by omega)
  refine streamInv_iff.mpr ⟨by omega, hp.number, ?_⟩
  rw [hocnt, State.bitsAt_add, ← hpointer, hold, List.append_assoc, hp.stream, ← List.append_assoc, hP]

/-! Each packing command's body appends its bits, or raises with nothing changed -/

/-- The body raises with nothing changed, or appends the bits. -/
def AppendsOrRaises (s : State) (bits : List Bool) (r : Res Unit) : Prop :=
  (∃ e, r = .raised e s) ∨ ∃ u, r = .ok () u ∧ Appends s bits u

/-- The code of a symbol (R204). -/
theorem packSymbol_appends {s : State} (h : s.BodyOk) (sym : Sym) : AppendsOrRaises s (s.codeBits sym) (packSymbol sym s) := by
  by_cases hv : (s.codeAt sym).valid = true
  · by_cases hs : s.pk.optr.toNat + (s.pk.bblen.toNat + (s.codeAt sym).len.toNat) / 8 ≤ s.dmemSize
    · obtain ⟨u, hbody, -, hu⟩ := packSymbol_ok hv (h.codes sym) h.pending rfl hs
      exact .inr ⟨u, hbody, hu.appends (.inr hs)⟩
    · exact .inl ⟨_, packSymbol_bounds hv (Nat.lt_of_not_le hs)⟩
  · exact .inl ⟨_, packSymbol_noCode (Bool.eq_false_of_not_eq_true hv)⟩

/-- The header's bytes (R203). -/
theorem packHeader_appends {s : State} (hp : PendingOk s.pk) : (∃ e, packHeader s = .raised e s) ∨
    ∃ u, packHeader s = .ok () u ∧ Appends s (u.bitsAt s.pk.optr.toNat 1032) u ∧ u.holdsHeader s.pk.optr.toNat s := by
  by_cases hb : s.pk.bblen = 0
  · by_cases hs : s.pk.optr.toNat + 1032 ≤ s.dmemSize
    · obtain ⟨u, hbody, hframe, hheader, hout⟩ := packHeader_ok hb hs
      have hbu : u.pk.bblen = 0 := (congrArg (fun t : State => t.pk.bblen) hframe).trans hb
      have hnumber : PendingOk u.pk := by
        rw [PendingOk, hbu]
        rw [PendingOk, hb] at hp
        exact (congrArg (fun t : State => t.pk.bbuf.toNat) hframe).trans_lt hp
      have hu : Packed s 1032 0 (u.bitsAt s.pk.optr.toNat 1032) u :=
        ⟨by rw [hframe]; rfl, by rw [hframe]; rfl, congrArg BitVec.toNat hbu, hnumber,
          by rw [State.pendingBits_aligned hb, State.pendingBits_aligned hbu, List.append_nil, List.nil_append], hout⟩
      exact .inr ⟨u, hbody, hu.appends (.inr hs), hheader⟩
    · exact .inl ⟨_, packHeader_bounds hb (Nat.lt_of_not_le hs)⟩
  · exact .inl ⟨_, packHeader_sequence hb⟩

/-- The bits that pad the pending ones to whole bytes (R206). -/
def State.padding (s : State) : List Bool := List.replicate ((8 - s.pk.bblen.toNat) % 8) false

/-- PACK_FLUSH's body, where its byte fits or it needs none (R206). -/
theorem packFlush_packed {s : State} (hp : PendingOk s.pk) (hs : s.pk.bblen ≠ 0 → s.pk.optr.toNat + 1 ≤ s.dmemSize) :
    ∃ u, packFlush s = .ok () u ∧ Packed s ((s.pk.bblen.toNat + 7) / 8) 0 s.padding u := by
  by_cases hb : s.pk.bblen = 0
  · refine ⟨_, packFlush_aligned hb, ?_⟩
    have h0 : s.pk.bblen.toNat = 0 := congrArg BitVec.toNat hb
    rw [State.padding, h0]
    exact ⟨(add_zero _).symm, (add_zero _).symm, h0, hp, (List.append_nil _).symm, fun _ _ => rfl⟩
  · obtain ⟨u, hbody, hframe, hbits, hout⟩ := packFlush_pads hb hp (hs hb)
    have hpk : u.pk = { optr := s.pk.optr + 1, ocnt := s.pk.ocnt + 1, bblen := 0, bbuf := 0 } := congrArg State.pk hframe
    have hbu : u.pk.bblen = 0 := by rw [hpk]
    have h0 : s.pk.bblen.toNat ≠ 0 := fun h => hb (BitVec.eq_of_toNat_eq h)
    have h8 := s.pk.bblen.isLt
    have hk : (s.pk.bblen.toNat + 7) / 8 = 1 := by omega
    have hpad : (8 - s.pk.bblen.toNat) % 8 = 8 - s.pk.bblen.toNat := by omega
    refine ⟨u, hbody, ?_⟩
    rw [hk, State.padding, hpad]
    exact ⟨congrArg Packer.optr hpk, congrArg Packer.ocnt hpk, congrArg BitVec.toNat hbu, by rw [hpk]; exact Nat.one_pos,
      by rw [State.pendingBits_aligned hbu, List.append_nil]; exact hbits, hout⟩

/-- The padding (R206). -/
theorem packFlush_appends {s : State} (hp : PendingOk s.pk) : AppendsOrRaises s s.padding (packFlush s) := by
  by_cases hs : s.pk.bblen ≠ 0 → s.pk.optr.toNat + 1 ≤ s.dmemSize
  · obtain ⟨u, hbody, hu⟩ := packFlush_packed hp hs
    refine .inr ⟨u, hbody, hu.appends ?_⟩
    by_cases hb : s.pk.bblen = 0
    · exact .inl (by rw [hb]; rfl)
    · have := hs hb
      have := s.pk.bblen.isLt
      exact .inr (by omega)
  · obtain ⟨hb, hs⟩ := Classical.not_imp.mp hs
    exact .inl ⟨_, packFlush_bounds hb (Nat.lt_of_not_le hs)⟩

/-! PACK_DATA's loop, however it ends (R205) -/

/-- From s to u the loop packed the bytes from byte i on: RESULT counts them, their codes are appended, and where the packer's
output lies apart from them they are the input region's. -/
structure PackedBytes (src i : Nat) (s : State) (bytes : List Byte) (u : State) : Prop where
  result : u.result = BitVec.ofNat 32 (i + bytes.length)
  appends : Appends s (bytes.flatMap s.codeBits) u
  input : apart (src + i) bytes.length s.pk.optr.toNat (u.pk.optr.toNat - s.pk.optr.toNat) →
    bytes = s.bytesAt (src + i) bytes.length

theorem PackedBytes.nil {src i : Nat} {s : State} (hp : PendingOk s.pk) (hi : s.result = BitVec.ofNat 32 i) :
    PackedBytes src i s [] s :=
  ⟨hi, .refl hp, fun _ => rfl⟩

/-- One more byte in front, read before any of the others was packed. -/
theorem PackedBytes.cons {src i : Nat} {s u v : State} {bytes : List Byte} (hu : Appends s (s.codeBits (s.byte (src + i))) u)
    (hcode : u.codeBits = s.codeBits) (hv : PackedBytes src (i + 1) (u.withResult (i + 1)) bytes v) :
    PackedBytes src i s (s.byte (src + i) :: bytes) v where
  result := by rw [hv.result, List.length_cons, Nat.add_assoc, Nat.add_comm 1]
  appends := by
    have happ : Appends u (bytes.flatMap u.codeBits) v := hv.appends.congr rfl rfl
    rw [hcode] at happ
    exact hu.trans happ
  input hapart := by
    have hsu := hu.optr_le
    have huv : u.pk.optr.toNat ≤ v.pk.optr.toNat := hv.appends.optr_le
    rw [List.length_cons] at hapart ⊢
    have hbytes : u.bytesAt (src + i + 1) bytes.length = s.bytesAt (src + i + 1) bytes.length :=
      State.bytesAt_congr fun x h1 h2 => hu.outside fun hx => hapart x (by omega) (by omega) (by omega) (by omega)
    rw [State.bytesAt_cons, ← hbytes]
    have htail : apart (src + (i + 1)) bytes.length u.pk.optr.toNat (v.pk.optr.toNat - u.pk.optr.toNat) :=
      fun x h1 h2 h3 h4 => hapart x (by omega) (by omega) (by omega) (by omega)
    exact congrArg _ (hv.input htail)

/-- The loop packs a first stretch of its bytes, all of them where it ends well. -/
theorem packLoop_packedBytes (src : Nat) : ∀ (n i : Nat) (s : State), s.BodyOk → s.result = BitVec.ofNat 32 i →
    src + i + n ≤ s.dmemSize → ∃ bytes, bytes.length ≤ n ∧
      (∀ u, packLoop src n i s = .ok () u → bytes.length = n) ∧ PackedBytes src i s bytes (packLoop src n i s).state
  | 0, i, s, h, hi, _ => ⟨[], le_rfl, fun _ _ => rfl, .nil h.pending hi⟩
  | n + 1, i, s, h, hi, hr => by
    rw [packLoop_succ (by omega)]
    rcases packSymbol_appends h (s.byte (src + i)) with ⟨e, hsym⟩ | ⟨u, hsym, hu⟩
    · rw [hsym, Res.raised_andThen]
      exact ⟨[], Nat.zero_le _, fun _ hok => (nomatch hok), .nil h.pending hi⟩
    · obtain ⟨hlog, hcode⟩ := packSymbol_frame hsym
      have hd : u.dmemSize = s.dmemSize := congrArg Config.dmemSize hlog
      have hok : u.BodyOk := by
        have := packSymbol_bodyOk h (s.byte (src + i))
        rwa [hsym] at this
      obtain ⟨bytes, hle, hall, hv⟩ := packLoop_packedBytes src n (i + 1) (u.withResult (i + 1)) (hok.congr rfl) rfl
        (show src + (i + 1) + n ≤ u.dmemSize by omega)
      rw [hsym]
      refine ⟨s.byte (src + i) :: bytes, Nat.succ_le_succ hle, fun v hloop => congrArg (· + 1) (hall v hloop), hv.cons hu ?_⟩
      funext sym
      rw [State.codeBits, State.codeAt, hcode]
      rfl

/-- PACK_DATA whose region is in range (R205). -/
theorem packData_packedBytes {src len : Nat} {s : State} (h : s.BodyOk) (hr : src + len ≤ s.dmemSize) :
    ∃ bytes, bytes.length ≤ len ∧ (∀ u, packData src len s = .ok () u → bytes.length = len) ∧
      (packData src len s).state.result = BitVec.ofNat 32 bytes.length ∧
      Appends s (bytes.flatMap s.codeBits) (packData src len s).state ∧
      (apart src bytes.length s.pk.optr.toNat ((packData src len s).state.pk.optr.toNat - s.pk.optr.toNat) →
        bytes = s.bytesAt src bytes.length) := by
  rw [packData_eq_packLoop hr]
  obtain ⟨bytes, hle, hall, hresult, happ, hinput⟩ := packLoop_packedBytes src len 0 (s.withResult 0) (h.congr rfl) rfl hr
  exact ⟨bytes, hle, hall, hresult.trans (by rw [Nat.zero_add]), happ.congr rfl rfl, hinput⟩

/-! The stream after each packing command -/

theorem State.Inv.bodyOk {s : State} (h : s.Inv) (hp : s.status.phase ≠ .init) : s.BodyOk := by
  obtain ⟨-, harena, hcodes, hpending, -⟩ := s.inv_iff.mp h
  exact ⟨harena, hcodes hp, hpending⟩

/-- A command that completes with OK raised nothing, and one that does not raised. -/
theorem complete_errcode_eq_ok (r : Res Unit) : (complete r).status.errcode = 0x00#8 ↔ ∃ u, r = .ok () u := by
  cases r with
  | ok _ u => exact iff_of_true rfl ⟨u, rfl⟩
  | raised e u => exact iff_of_false e.code_range.2 fun ⟨_, hok⟩ => nomatch hok

/-- The stream after a body that appends its bits or raises with nothing changed. -/
theorem StreamInv.after_complete {s : State} {dst0 : Nat} {P bits : List Bool} (h : StreamInv s dst0 P) {r : Res Unit}
    (hr : AppendsOrRaises s bits r) :
    ((complete r).status.errcode = 0x00#8 → StreamInv (complete r) dst0 (P ++ bits)) ∧
      ((complete r).status.errcode ≠ 0x00#8 → StreamInv (complete r) dst0 P) := by
  rcases hr with ⟨e, rfl⟩ | ⟨u, rfl, hu⟩
  · exact ⟨fun hok => absurd hok e.code_range.2, fun _ => h.congr rfl⟩
  · exact ⟨fun _ => (h.append hu).congr rfl, fun herr => absurd rfl herr⟩

/-- The stream after PACK_DATA whose region is in range, whether it succeeds or fails (R205). -/
theorem StreamInv.after_packData {s t : State} {dst0 : Nat} {P : List Bool} (h : StreamInv s dst0 P) (hok : s.BodyOk)
    (hr : s.src.toNat + s.len.toNat ≤ s.dmemSize) (ht : t = complete (packData s.src.toNat s.len.toNat s)) :
    ∃ bytes : List Byte,
      bytes.length = t.result.toNat ∧ t.result.toNat ≤ s.len.toNat ∧ (t.status.errcode = 0x00#8 → t.result = s.len) ∧
      StreamInv t dst0 (P ++ bytes.flatMap s.codeBits) ∧
      (apart s.src.toNat s.len.toNat s.pk.optr.toNat (t.pk.optr.toNat - s.pk.optr.toNat) →
        bytes = s.bytesAt s.src.toNat t.result.toNat) := by
  obtain ⟨bytes, hle, hall, hresult, happ, hinput⟩ := packData_packedBytes hok hr
  have hlen : t.result.toNat = bytes.length := by
    have hlt := s.len.isLt
    rw [ht, complete_keeps (p := State.result) (fun _ _ _ => rfl), hresult, BitVec.toNat_ofNat]
    omega
  have hpk : t.pk = (packData s.src.toNat s.len.toNat s).state.pk := by
    rw [ht, complete_keeps (p := State.pk) (fun _ _ _ => rfl)]
  rw [hlen, hpk]
  refine ⟨bytes, rfl, hle, fun herr => BitVec.eq_of_toNat_eq ?_, ?_,
    fun hapart => hinput fun x h1 h2 => hapart x h1 (by omega)⟩
  · rw [ht] at herr
    obtain ⟨u, hu⟩ := (complete_errcode_eq_ok _).mp herr
    rw [hlen, hall u hu]
  · rw [ht]
    exact (h.append happ).congr (complete_streamParts _)

/-- Settles O42: each body appends what R200 says it contributes, or raises with nothing changed; PACK_DATA's, which may raise
behind a stretch it has packed, appends that stretch. -/
theorem packerKeepsTheStream : Obligations.PackerKeepsTheStream := by
  refine ⟨fun s t ht => ?_, fun s t dst0 P hinv hphase h => ?_⟩
  · obtain rfl := complete_body_of_exec ht
    exact streamInv_iff.mpr ⟨rfl, Nat.one_pos, rfl⟩
  have hok := hinv.bodyOk hphase
  refine ⟨fun ht => ?_, fun sym ht => ?_, fun ht => ⟨fun hr => ?_, fun hr => ?_⟩, fun ht => ?_⟩
  · obtain rfl := complete_body_of_exec ht
    rw [body]
    rcases packHeader_appends hok.pending with ⟨e, hbody⟩ | ⟨u, hbody, hu, hheader⟩ <;> rw [hbody]
    · exact ⟨fun hok => absurd hok e.code_range.2, fun _ => h.congr rfl⟩
    · exact ⟨fun _ => ⟨(h.append hu).congr rfl, hheader⟩, fun herr => absurd rfl herr⟩
  · exact complete_body_of_exec ht ▸ h.after_complete (packSymbol_appends hok sym)
  · have hbody : body .packData s = .raised _ s := packData_bounds hr
    obtain rfl := complete_body_of_exec ht
    rw [hbody]
    exact h.congr rfl
  · exact h.after_packData hok hr (complete_body_of_exec ht)
  · exact complete_body_of_exec ht ▸ h.after_complete (packFlush_appends hok.pending)

/-! The length of a packed region (R208) -/

/-- The codes of the bytes are as long together as their lengths' sum. -/
theorem codeBits_flatMap_length (s : State) (bytes : List Byte) :
    (bytes.flatMap s.codeBits).length = (bytes.map fun b => (s.codeAt b).len.toNat).sum := by
  simp [List.length_flatMap]

/-- Settles O43: from a byte boundary PACK_DATA leaves L / 8 whole bytes and L % 8 bits of L, and PACK_FLUSH one byte more where
bits are left. -/
theorem packedLength : Obligations.PackedLength := by
  intro s n hinv hphase hb hr hcoded hn hs hapart
  have hok := hinv.bodyOk hphase
  generalize hbits : (s.bytesAt s.src.toNat s.len.toNat).flatMap s.codeBits = bits
  rw [← codeBits_flatMap_length, hbits] at hn
  have h0 : s.pk.bblen.toNat = 0 := congrArg BitVec.toNat hb
  obtain ⟨t, hdata, hframe, ht⟩ := packData_ok hr (fun b hmem => ⟨hcoded b hmem, hok.codes b⟩) hok.pending hbits.symm rfl
    (by omega) fun x h1 h2 h3 h4 => hapart x h1 h2 h3 (by omega)
  rw [h0, Nat.zero_add] at ht
  have hbblen := ht.bblen
  have ho : t.pk.optr.toNat = s.pk.optr.toNat + bits.length / 8 := optr_add ht (by omega)
  have hsize : t.dmemSize = s.dmemSize := by rw [hframe]
  have hresult : t.result = s.len := by rw [hframe, BitVec.ofNat_toNat, BitVec.setWidth_eq]
  have hfits : t.pk.bblen ≠ 0 → t.pk.optr.toNat + 1 ≤ t.dmemSize := fun hpad => by
    have : t.pk.bblen.toNat ≠ 0 := fun h => hpad (BitVec.eq_of_toNat_eq h)
    omega
  obtain ⟨u, hflush, hu⟩ := packFlush_packed (s := t.finished 0x00#8 0) ht.number hfits
  have hall : Packed s (bits.length / 8 + (t.pk.bblen.toNat + 7) / 8) 0 _ u :=
    (ht.congr (u' := t.finished 0x00#8 0) rfl rfl).trans hu ho
  have hn' : bits.length / 8 + (t.pk.bblen.toNat + 7) / 8 = n := by omega
  rw [hn'] at hall
  exact ⟨_, _, exec_of_body_ok (i := .packData) hdata, rfl, hresult, exec_of_body_ok (i := .packFlush) hflush, rfl, hall.optr,
    hall.ocnt, hall.outside⟩

end Sys2Proof.Machine
end

section
/-! PROOF. The header parser and the unpacker (46_unpack.md R220 to R227). -/

namespace Sys2Proof.Machine

/-! HDR_PARSE (R220, R221) -/

/-- HDR_PARSE raises BOUNDS before it changes anything. -/
theorem hdrParse_bounds {src len : Nat} {s : State} (hr : s.dmemSize < src + len) :
    hdrParse src len s = .raised (.bounds (max src s.dmemSize)) s := by
  rw [hdrParse, checkRange_raises hr, Res.raised_andThen]

/-- HDR_PARSE raises MALFORMED_HEADER(0) before it changes anything. -/
theorem hdrParse_short {src len : Nat} {s : State} (hr : src + len ≤ s.dmemSize) (hl : len < 1032) :
    hdrParse src len s = .raised (.malformedHeader 0) s := by
  rw [hdrParse, checkRange_ok hr, Res.ok_andThen, if_pos (show len < Config.hdrBytes from hl)]

/-- Settles O44: behind the two checks HDR_PARSE loads FREQ and TOTAL, and `checkHeader` decides whether RESULT is written. -/
theorem hdrParseLoadsTheHeader : Obligations.HdrParseLoadsTheHeader := by
  refine ⟨decode_encode (i := .hdrParse) rfl, fun s loaded hloaded => ?_⟩
  have hbody (hr : s.src.toNat + s.len.toNat ≤ s.dmemSize) (hl : 1032 ≤ s.len.toNat) : body .hdrParse s =
      (checkHeader loaded).andThen fun _ t => .ok () { t with result := t.total.truncate 32 } :=
    hloaded ▸ hdrParse_eq hr hl
  refine ⟨fun hr => exec_of_body_raised (i := .hdrParse) (hdrParse_bounds hr),
    fun hr hl => exec_of_body_raised (i := .hdrParse) (hdrParse_short hr hl), fun hr hl hsum => ?_, fun hr hl hsum => ?_⟩
  · have hraised := hbody hr hl
    rw [checkHeader, if_neg hsum, Res.raised_andThen] at hraised
    exact exec_of_body_raised hraised
  · have hok := hbody hr hl
    rw [checkHeader, if_pos hsum, Res.ok_andThen] at hok
    exact exec_of_body_ok hok

/-! UNPACK before any bit is read (R222) -/

/-- UNPACK raises BOUNDS for its input before it changes anything. -/
theorem unpack_bounds {write : Bool} {src len dst : Nat} {s : State} (hr : s.dmemSize < src + len) :
    unpack write src len dst s = .raised (.bounds (max src s.dmemSize)) s := by
  rw [unpack, checkRange_raises hr, Res.raised_andThen]

/-- With TOTAL = 0 UNPACK only starts the unpacker. -/
theorem unpack_noSymbols {write : Bool} {src len dst : Nat} {s : State} (hr : src + len ≤ s.dmemSize) (h0 : s.total = 0) :
    unpack write src len dst s = .ok () (s.initUnpacker src) := by
  rw [unpack, checkRange_ok hr, Res.ok_andThen]
  exact if_pos h0

/-- With symbols declared and no tree UNPACK raises MALFORMED_HEADER(3). -/
theorem unpack_noTree {write : Bool} {src len dst : Nat} {s : State} (hr : src + len ≤ s.dmemSize) (h0 : s.total ≠ 0)
    (hroot : s.root = nilIx) : unpack write src len dst s = .raised (.malformedHeader 3) (s.initUnpacker src) := by
  rw [unpack, checkRange_ok hr, Res.ok_andThen]
  exact (if_neg h0).trans (if_pos hroot)

/-- With a tree UNPACK is its loop, which has no turn to make where TOTAL = 0. -/
theorem unpack_eq_unpackLoop {write : Bool} {src len dst : Nat} {s : State} (hr : src + len ≤ s.dmemSize)
    (hroot : s.root ≠ nilIx) :
    unpack write src len dst s = unpackLoop write (src + len) dst (8 * len + 1) (s.initUnpacker src) := by
  by_cases h0 : s.total = 0
  · have hdone : (s.initUnpacker src).total.toNat ≤ (s.initUnpacker src).up.emit.toNat := by
      rw [State.initUnpacker_total, h0]
      exact Nat.zero_le _
    rw [unpack_noSymbols hr h0, unpackLoop_done hdone]
  · rw [unpack, checkRange_ok hr, Res.ok_andThen]
    exact (if_neg h0).trans (if_neg hroot)

/-- The unpacker started at SRC (R222). -/
theorem initUnpacker_src (s : State) : s.initUnpacker s.src.toNat =
    { s with up := { iptr := s.src, bitpos := 0, cursor := s.root, emit := 0 }, result := 0 } := by
  rw [State.initUnpacker, BitVec.ofNat_toNat, BitVec.setWidth_eq]

/-- Settles O45: each check of R222 decides one case before the loop is entered. -/
theorem unpackChecksBeforeDecoding : Obligations.UnpackChecksBeforeDecoding := by
  refine ⟨decode_encode (i := .unpack) rfl, fun s started hstarted => ?_⟩
  obtain rfl := hstarted.trans (initUnpacker_src s).symm
  exact ⟨fun hr => exec_of_body_raised (i := .unpack) (unpack_bounds hr),
    fun hr h0 => exec_of_body_ok (i := .unpack) (unpack_noSymbols hr h0),
    fun hr h0 hroot => exec_of_body_raised (i := .unpack) (unpack_noTree hr h0 hroot)⟩

/-! The loop from a symbol's first bit on (R223 to R226): what is left of the stream begins with a symbol's code, or ends
inside one. -/

/-- From s0 to s at most TOTAL and what the unpacker's loop writes were changed. -/
def ChangesOnlyDecoding (s0 s : State) : Prop :=
  s = { s0 with total := s.total, up := s.up, result := s.result, dmem := s.dmem }

theorem ChangesOnlyDecoding.node {s0 s : State} (h : ChangesOnlyDecoding s0 s) : s.node = s0.node := by
  rw [h]
  rfl

theorem ChangesOnlyDecoding.root {s0 s : State} (h : ChangesOnlyDecoding s0 s) : s.root = s0.root := by
  rw [h]

theorem ChangesOnlyDecoding.dmemSize {s0 s : State} (h : ChangesOnlyDecoding s0 s) : s.dmemSize = s0.dmemSize := by
  rw [h]

theorem ChangesOnlyDecoding.emitCursor {s0 s : State} (h : ChangesOnlyDecoding s0 s) {p : List Bool} {c : NodeIx}
    (hc : emitCursor s0 p c) : emitCursor s p c := by
  rw [Machine.emitCursor, h.node, h.root]
  exact hc.imp_left fun hi hint => (hi hint).congr h.node

/-- Bits left of the stream are among its 8 · LEN. -/
theorem length_of_drop_bitsAt {s : State} {src len j : Nat} {p : List Bool} (hd : (s.bitsAt src len).drop j = p) :
    p.length = 8 * len - j := by
  rw [← hd, List.length_drop, State.bitsAt_length]

section Loop

/-! The tree is s0's, and the loop has reached s: the cursor on the root before bit j, e symbols written and TOTAL above e.
`hfuel` says that the turns left are enough for the bits left (log 12). -/

variable {write : Bool} {src len dst j e fuel : Nat} {s0 s : State} {p rest : List Bool} {sym : Sym} {c : NodeIx}
  (hs : ChangesOnlyDecoding s0 s) (hr : src + len ≤ s0.dmemSize) (hu : s.up = unpackerAt src j s0.root e)
  (het : e < s.total.toNat) (hfuel : 8 * len < fuel + j)
include hs hr hu het hfuel

/-- Where the stream ends inside a code, the cursor follows the bits there are, and the next fetch raises (R223). -/
theorem unpackLoop_ends (hj : j ≤ 8 * len) (hd : (s.bitsAt src len).drop j = p) (hp : Reach s0 s0.root p c)
    (hc : p ≠ [] → (s0.node c).isInternal = true) :
    unpackLoop write (src + len) dst fuel s
      = .raised (.malformedHeader 2) { s with up := unpackerAt src (8 * len) c e } := by
  have hlt := s.total.isLt
  have hlen := length_of_drop_bitsAt hd
  rw [← hs.dmemSize] at hr
  rw [← hs.root] at hu hp
  rw [← hs.node] at hc
  replace hp := hp.congr hs.node
  obtain ⟨n, rfl⟩ : ∃ n, fuel = n + 1 + p.length := ⟨fuel - p.length - 1, by omega⟩
  have hend : j + p.length = 8 * len := by omega
  have hwalk : unpackLoop write (src + len) dst (n + 1 + p.length) s
      = unpackLoop write (src + len) dst (n + 1) { s with up := unpackerAt src (8 * len) c e } := by
    rw [← hend]
    cases p with
    | nil => rw [hp.nil_inv, List.length_nil, Nat.add_zero j, ← hu]
    | cons b q =>
      exact unpackLoop_walk _ s j e (n + 1) s.root c [] hr hu (by omega) het hp.cons_inv.1 hp hc
        (hd.trans (List.append_nil _).symm)
  rw [hwalk, unpackLoop, if_pos (show (unpackerAt src (8 * len) c e).emit.toNat < _ by rwa [unpackerAt_emit (by omega)]),
    nextBit_raises (s := { s with up := unpackerAt src (8 * len) c e }) hr rfl, Res.raised_andThen]

/-- Where a whole code follows, the loop comes to its emission (R224, R225). -/
theorem unpackLoop_emission (hd : (s.bitsAt src len).drop j = p ++ rest) (hp : s0.emits p sym) (hc : emitCursor s0 p c) :
    ∃ n, unpackLoop write (src + len) dst fuel s
      = (emitSymbol write dst sym { s with up := unpackerAt src (j + p.length) c e }).andThen
          fun _ t => unpackLoop write (src + len) dst n (t.setCursor s0.root) := by
  have hlt := s.total.isLt
  have hlen := length_of_drop_bitsAt hd
  rw [List.length_append] at hlen
  obtain ⟨n, rfl⟩ : ∃ n, fuel = n + p.length := ⟨fuel - p.length, by omega⟩
  rw [← hs.dmemSize] at hr
  rw [← hs.root] at hu ⊢
  exact ⟨n, unpackLoop_emits hr hu (by omega) het (State.emits_congr hs.node hs.root hp) (hs.emitCursor hc) hd⟩

/-- Where a symbol's byte does not fit, its bits are consumed and the cursor stays where they led (R224). -/
theorem unpackLoop_noRoom (hd : (s.bitsAt src len).drop j = p ++ rest) (hp : s0.emits p sym) (hc : emitCursor s0 p c)
    (hfull : s0.dmemSize ≤ dst + e) :
    unpackLoop true (src + len) dst fuel s
      = .raised (.bounds (dst + e)) { s with up := unpackerAt src (j + p.length) c e } := by
  obtain ⟨n, hloop⟩ := unpackLoop_emission (write := true) hs hr hu het hfuel hd hp hc
  have hlt := s.total.isLt
  rw [hloop, emitSymbol_raises (s := { s with up := unpackerAt src (j + p.length) c e }) rfl (by omega)
    (hs.dmemSize.trans_le hfull), Res.raised_andThen]

/-- Where TOTAL is one symbol away and its byte fits, the byte is written and the loop ends on the root (R224, R226). -/
theorem unpackLoop_lastSymbol (hd : (s.bitsAt src len).drop j = p ++ rest) (hp : s0.emits p sym)
    (hlast : s.total.toNat = e + 1) (hfit : dst + e < s0.dmemSize) :
    ∃ u, unpackLoop true (src + len) dst fuel s = .ok () u ∧
      u = { s with
        up := unpackerAt src (j + p.length) s0.root (e + 1), result := BitVec.ofNat 32 (e + 1), dmem := u.dmem } ∧
      u.byte (dst + e) = sym ∧ s.sameBytesBut (dst + e) 1 u := by
  obtain ⟨c, hc⟩ := State.emits_cursor hp
  obtain ⟨n, hloop⟩ := unpackLoop_emission (write := true) hs hr hu het hfuel hd hp hc
  have hlt := s.total.isLt
  obtain ⟨v, hemit, hv, hbyte, -⟩ := emitSymbol_ok (write := true) (dst := dst) (sym := sym)
    (s := { s with up := unpackerAt src (j + p.length) c e }) rfl (by omega) fun _ => hfit.trans_eq hs.dmemSize.symm
  have hframe : v.setCursor s0.root = { s with
      up := unpackerAt src (j + p.length) s0.root (e + 1), result := BitVec.ofNat 32 (e + 1), dmem := v.dmem } := by
    rw [hv]
    rfl
  have hdone : (v.setCursor s0.root).total.toNat ≤ (v.setCursor s0.root).up.emit.toNat := by
    rw [hframe, unpackerAt_emit (by omega)]
    exact hlast.le
  refine ⟨v.setCursor s0.root, ?_, hframe, (hbyte rfl _).trans (if_pos rfl), fun x hx => ?_⟩
  · rw [hloop, hemit, Res.ok_andThen, unpackLoop_done hdone]
  · exact (hbyte rfl x).trans (if_neg (by omega))

end Loop

/-! One symbol more (20_memory.md R85) -/

/-- UNPACK of T > k symbols raises where UNPACK of k does, and goes on from where that ends. -/
theorem unpack_more {write : Bool} {src len dst k : Nat} {T : DWord} {s : State} (hr : src + len ≤ s.dmemSize)
    (hroot : s.root ≠ nilIx) (hk : k + 1 < 2 ^ 64) (hT : k < T.toNat) :
    (∃ e u, unpack write src len dst (s.withTotal (BitVec.ofNat 64 k)) = .raised e u ∧
      unpack write src len dst (s.withTotal T) = .raised e (u.withTotal T)) ∨
    ∃ u n fuel, unpack write src len dst (s.withTotal (BitVec.ofNat 64 k)) = .ok () u ∧
      unpack write src len dst (s.withTotal T) = unpackLoop write (src + len) dst fuel (u.withTotal T) ∧
      u.up = unpackerAt src n s.root k ∧ n ≤ 8 * len ∧ 8 * len < fuel + n ∧
      ChangesOnlyDecoding s (u.withTotal T) := by
  have hmore := unpackLoop_more (write := write) (dst := dst) hT hk (8 * len + 1)
    ((s.withTotal (BitVec.ofNat 64 k)).initUnpacker src) 0 0 s.root hr (initUnpacker_up _ src) (Nat.zero_le k)
    (fun _ => rfl) (Nat.mod_eq_of_lt (by omega)) (Nat.zero_le _) le_rfl
  rw [unpack_eq_unpackLoop (s := s.withTotal (BitVec.ofNat 64 k)) hr hroot,
    unpack_eq_unpackLoop (s := s.withTotal T) hr hroot]
  rcases hmore with hraised | ⟨u, n, fuel, hok, hrest, hup, hn, hfuel, hframe⟩
  · exact .inl hraised
  · exact .inr ⟨u, n, fuel, hok, hrest, hup, hn, hfuel, congrArg (State.withTotal · T) hframe⟩

/-- A completion with OK leaves no trace in a later completion (60_exceptions.md R252). -/
theorem State.finished_finished (s : State) (code : BitVec 8) (info : Word) :
    (s.finished 0x00#8 0).finished code info = s.finished code info := by
  simp [State.finished, okCode]

/-- Where a body raises, it is all the same whether the state it reached was completed with OK before. -/
theorem exec_of_body_raised_after_ok {i : Instr} {s t : State} {e : Error} (h : body i s = .raised e t) :
    exec i s = .next ((t.finished 0x00#8 0).finished e.code e.info) := by
  rw [exec_of_body_raised h, State.finished_finished]

/-- Settles O46: on a stream that spells TOTAL bytes the loop decodes them all; apart or not, the loop for k + 1 symbols
raises with the loop for k, or goes on from its end with one code, part of one, or a byte that does not fit. -/
theorem unpackDecodesTheStream : Obligations.UnpackDecodesTheStream := by
  refine ⟨fun s bytes bits after hr hroot hb hspells ht hfit hapart => ?_, fun s t k hr hroot hk hexec => ?_⟩
  · obtain ⟨u, hbody, hframe, hbytes, hout, -⟩ :=
      unpack_ok (write := true) hr (.inl hroot) hb hspells ht fun _ => ⟨hfit, hapart⟩
    exact ⟨u, exec_of_body_ok (i := .unpack) hbody, hframe, hbytes rfl, hout⟩
  generalize hT : BitVec.ofNat 64 (k + 1) = T
  have hlast : T.toNat = k + 1 := hT ▸ Nat.mod_eq_of_lt hk
  have hlt : k < T.toNat := hlast ▸ Nat.lt_succ_self k
  rcases unpack_more (write := true) (dst := s.dst.toNat) hr hroot hk hlt with
    ⟨e, u, hbody, hbody'⟩ | ⟨u, n, fuel, hbody, hbody', hup, hn, hfuel, hframe⟩
  · obtain rfl := Host.Outcome.next.inj ((exec_of_body_raised (i := .unpack) hbody).symm.trans hexec)
    exact ⟨fun _ => exec_of_body_raised (i := .unpack) hbody', fun hok => absurd hok e.code_range.2⟩
  obtain rfl := eq_finished_of_body_ok (i := .unpack) hbody hexec
  refine ⟨fun herr => absurd rfl herr, fun _ => ⟨n, _, hn, hup, rfl, fun p after sym hlater hp hfit => ?_,
    fun p after sym c hlater hp hinternal hleaf hfull => ?_, fun c hreach hc => ?_⟩⟩
  · obtain ⟨v, hloop, hv, hbyte, hout⟩ := unpackLoop_lastSymbol hframe hr hup hlt hfuel hlater hp hlast hfit
    refine ⟨v.finished 0x00#8 0, ?_, congrArg (State.finished · 0x00#8 0) hv, hbyte, hout⟩
    rw [State.finished_finished]
    exact exec_of_body_ok (i := .unpack) (hbody'.trans hloop)
  · exact exec_of_body_raised_after_ok (i := .unpack)
      (hbody'.trans (unpackLoop_noRoom hframe hr hup hlt hfuel hlater hp ⟨hinternal, hleaf⟩ hfull))
  · exact exec_of_body_raised_after_ok (i := .unpack)
      (hbody'.trans (unpackLoop_ends hframe hr hup hlt hfuel hn rfl hreach hc))

/-! The symbols before an error (R222 to R224) -/

/-- Where the stream begins with the codes of bytes that fit, UNPACK writes them and goes on with what follows. -/
theorem unpack_writes_first_bytes {src len dst : Nat} {s : State} {bits rest : List Bool} {bytes : List Byte}
    (hr : src + len ≤ s.dmemSize) (hroot : s.root ≠ nilIx) (hb : s.bitsAt src len = bits ++ rest)
    (hspells : Spells s bits bytes) (ht : bytes.length ≤ s.total.toNat) (hapart : apart src len dst bytes.length)
    (hfit : bytes = [] ∨ dst + bytes.length ≤ s.dmemSize) :
    ∃ u fuel, unpack true src len dst s = unpackLoop true (src + len) dst fuel u ∧ bits.length ≤ 8 * len ∧
      8 * len < fuel + bits.length ∧
      u = { s with
        up := unpackerAt src bits.length s.root bytes.length, result := BitVec.ofNat 32 bytes.length, dmem := u.dmem } ∧
      (u.bitsAt src len).drop bits.length = rest ∧ u.bytesAt dst bytes.length = bytes ∧ s.sameBytesBut dst bytes.length u := by
  rw [unpack_eq_unpackLoop hr hroot]
  have hlen : bits.length ≤ 8 * len := by
    have := congrArg List.length hb
    rw [State.bitsAt_length, List.length_append] at this
    omega
  obtain ⟨n, hn⟩ : ∃ n, 8 * len + 1 = n + bits.length := ⟨8 * len + 1 - bits.length, by omega⟩
  have hbits : ∀ u, s.sameBytesBut dst bytes.length u → (u.bitsAt src len).drop bits.length = rest := fun u hout => by
    rw [State.bitsAt_congr fun x h1 h2 => hout x fun h => hapart x h1 h2 h.1 h.2, hb, List.drop_left]
  rcases hfit with rfl | hfit
  · cases hspells
    have hframe : s.initUnpacker src = { s with up := unpackerAt src 0 s.root 0, result := 0 } := by
      rw [← initUnpacker_up]
      rfl
    exact ⟨s.initUnpacker src, 8 * len + 1, rfl, Nat.zero_le _, Nat.lt_succ_self _, hframe,
      hbits _ fun _ _ => rfl, rfl, fun _ _ => rfl⟩
  obtain ⟨u, hloop, hframe, hbytes, hout, -⟩ := unpackLoop_spells (write := true) (src := src) (len := len) (dst := dst)
    hspells (s.initUnpacker src) 0 0 n rest rfl rfl hr (initUnpacker_up s src) (by rw [Nat.zero_add]; exact ht) hb
    fun _ => ⟨hfit, hapart⟩
  rw [Nat.zero_add, Nat.zero_add] at hframe
  have hresult : (if bytes = [] then (s.initUnpacker src).result else BitVec.ofNat 32 bytes.length)
      = BitVec.ofNat 32 bytes.length := ite_eq_right_iff.mpr fun h => h ▸ rfl
  rw [hresult] at hframe
  exact ⟨u, n, by rw [hn, hloop], hlen, by omega, hframe, hbits u hout, hbytes rfl, hout⟩

/-- Settles O47: the bytes before the failure are decoded, and there the loop ends as it does inside a code or at a byte that
does not fit. -/
theorem unpackStopsWhereTheStreamFails : Obligations.UnpackStopsWhereTheStreamFails := by
  intro s bytes bits hr hroot hspells ht hapart
  refine ⟨fun p c hb hreach hc hfit => ?_, fun p after sym c hb hp hinternal hleaf hfull hfit => ?_⟩
  · obtain ⟨u, fuel, hbody, hlen, hfuel, hframe, hrest, hbytes, hout⟩ :=
      unpack_writes_first_bytes hr hroot hb hspells ht.le hapart (.inr hfit)
    have hs : ChangesOnlyDecoding s u := by rw [ChangesOnlyDecoding, hframe]
    have hends := unpackLoop_ends (write := true) (dst := s.dst.toNat) hs hr (by rw [hframe]) (by rwa [hframe]) hfuel hlen
      hrest hreach hc
    refine ⟨_, exec_of_body_raised (i := .unpack) (hbody.trans hends), ?_, hbytes, hout⟩
    rw [hframe]
  · rw [List.append_assoc] at hb
    obtain ⟨u, fuel, hbody, -, hfuel, hframe, hrest, hbytes, hout⟩ :=
      unpack_writes_first_bytes hr hroot hb hspells ht.le hapart (hfit.imp_right Eq.le)
    have hs : ChangesOnlyDecoding s u := by rw [ChangesOnlyDecoding, hframe]
    have hfails := unpackLoop_noRoom (dst := s.dst.toNat) hs hr (by rw [hframe]) (by rwa [hframe]) hfuel hrest hp
      ⟨hinternal, hleaf⟩ hfull
    refine ⟨_, exec_of_body_raised (i := .unpack) (hbody.trans hfails), ?_, hbytes, hout⟩
    rw [hframe]

/-! Decoding reverses packing (R227) -/

/-- Every code that CODE_GEN leaves in the table is a path by which the unpacker emits its symbol (R191, R192). -/
theorem emits_codeBits_of_codeGen {r t : State} (hinv : r.Inv) (h : exec .codeGen r = .next t) {sym : Sym}
    (hv : (t.codeAt sym).valid = true) : r.root ≠ nilIx ∧ r.emits (t.codeBits sym) sym := by
  obtain ⟨-, hempty, hsole⟩ := codeGenWithoutAWalk
  by_cases hroot : r.root = nilIx
  · obtain rfl := Host.Outcome.next.inj ((hempty r hroot).symm.trans h)
    simp [State.codeAt, State.finished] at hv
  refine ⟨hroot, ?_⟩
  cases hnode : r.node r.root with
  | leaf only f =>
    obtain ⟨u, hexec, -, hcodes⟩ := hsole r only f hroot hnode
    obtain rfl := Host.Outcome.next.inj (hexec.symm.trans h)
    have hcode : (u.finished 0x00#8 0).codeAt sym = _ := hcodes sym
    by_cases hsym : sym = only
    · rw [if_pos hsym] at hcode
      exact .inr ⟨by rw [State.codeBits, hcode]; rfl, f, hsym ▸ hnode⟩
    · rw [hcode, if_neg hsym] at hv
      exact absurd hv Bool.false_ne_true
  | internal f lc rc =>
    have hi : (r.node r.root).isInternal = true := by rw [hnode]; rfl
    obtain ⟨-, -, hpaths⟩ := codeGenRejectsImproperTrees r t hinv hroot hi h
    exact .inl ⟨hi, hpaths sym hv⟩

/-- Bytes that each have an emitting code are spelled by their codes in a row. -/
theorem spells_flatMap_codeBits {s t : State} : ∀ {bytes : List Byte}, (∀ b ∈ bytes, s.emits (t.codeBits b) b) →
    Spells s (bytes.flatMap t.codeBits) bytes
  | [], _ => .nil
  | _ :: _, h => .cons (h _ List.mem_cons_self) (spells_flatMap_codeBits fun _ hb => h _ (List.mem_cons_of_mem _ hb))

/-- Settles O48: the codes are emitting paths of the tree they were made from, so the stream spells the bytes. -/
theorem decodingReversesPacking : Obligations.DecodingReversesPacking := by
  intro r t s bytes after hinv hgen _ _ hnodes hroot hcoded hr hb ht hfit hapart
  have hnode' : s.node = r.node := by
    unfold State.node
    rw [hnodes, exec_nodes rfl hgen]
  have hroot' : s.root = r.root := hroot.trans (State.eq_of_mask (exec_frame hgen) State.root fun _ => rfl)
  have hcodes : ∀ b ∈ bytes, r.root ≠ nilIx ∧ r.emits (t.codeBits b) b := fun b hmem =>
    emits_codeBits_of_codeGen hinv hgen (hcoded b hmem)
  have hspells : Spells s (bytes.flatMap t.codeBits) bytes :=
    spells_flatMap_codeBits fun b hmem => State.emits_congr hnode' hroot' (hcodes b hmem).2
  have htree : s.root ≠ nilIx ∨ bytes = [] := by
    cases bytes with
    | nil => exact .inr rfl
    | cons b _ => exact .inl (hroot' ▸ (hcodes b List.mem_cons_self).1)
  obtain ⟨u, hbody, hframe, hbytes, hout, -⟩ := unpack_ok (write := true) hr htree hb hspells ht fun _ => ⟨hfit, hapart⟩
  exact ⟨u, exec_of_body_ok (i := .unpack) hbody, hbytes rfl, hout, congrArg State.up hframe⟩

end Sys2Proof.Machine
end


section
/-! PROOF. COMPRESS's lines, and that they are the commands they name (47_codec.md R240). -/

namespace Sys2Proof.Machine

/-! Between two commands: no body reads what a completion with OK wrote, so the next command ends as if none had come
before it. -/

/-- The registers no body reads, as they stand. -/
def State.label (s : State) : Label := ⟨s.status, s.errinfo, s.src, s.len, s.dst⟩

/-- The same as a completion with OK leaves them. -/
def State.labelAfterOk (s : State) : Label := ⟨s.status.finish okCode, 0, s.src, s.len, s.dst⟩

/-- A body leaves alone the registers no body reads. -/
theorem Blind.state_label {f : State → Res Unit} (hf : Blind f) (s : State) :
    (f s).state.relabel s.label = (f s).state := by
  have h : f s = (f s).mapState (State.relabel s.label) := hf s.label s
  exact (Res.state_mapState _ _).symm.trans (congrArg Res.state h.symm)

/-- Completing twice is completing once, where the first completion was OK (60_exceptions.md R252). -/
theorem complete_relabel_afterOk {s : State} {r : Res Unit} (hr : r.state.relabel s.label = r.state) :
    complete (r.mapState (State.relabel s.labelAfterOk)) = complete r := by
  have hfinish (t : State) (ht : t.relabel s.label = t) (code : BitVec 8) (info : Word) :
      (t.relabel s.labelAfterOk).finish code info = t.finish code info := by
    rw [← ht]
    simp only [State.relabel, State.label, State.labelAfterOk, State.finish, Status.finish_finish_ok]
  cases r with
  | ok _ t => exact hfinish t hr _ _
  | raised e t => exact hfinish t hr _ _

/-- A command run behind one that completed with OK. -/
theorem exec_finished_ok {i : Instr} {f : State → Res Unit} (hf : Blind f) {s : State}
    (hs : body i (s.finished 0x00#8 0) = f (s.finished 0x00#8 0)) :
    exec i (s.finished 0x00#8 0) = .next (complete (f s)) := by
  have hlabel : f (s.finished 0x00#8 0) = (f s).mapState (State.relabel s.labelAfterOk) := hf s.labelAfterOk s
  rw [exec_eq_complete_body, hs, hlabel, complete_relabel_afterOk (hf.state_label s)]

/-- Of an error RESULT <- 0 alone is seen (R240, R241). -/
theorem complete_onRaise_zeroResult (r : Res Unit) :
    complete (r.onRaise State.zeroResult) =
      if (complete r).status.errcode = 0x00#8 then complete r else { complete r with result := 0 } := by
  cases r with
  | ok _ t => rfl
  | raised e t => exact (if_neg (show ¬ e.code = 0x00#8 from e.code_range.2)).symm

/-! The lines up to the output check -/

theorem body_compress (s : State) :
    body .compress s = (compressLines s.src.toNat s.len.toNat s.dst s).onRaise State.zeroResult := rfl

/-- COMPRESS up to its output check: t holds the counts, u the tree, v the codes. -/
structure AnalysisRun (s : State) (src len : Nat) (t u v : State) : Prop where
  count : freqCount src len s.clearFreq = .ok () t
  build : treeBuild t = .ok () u
  gen : codeGen u = .ok () v
  analysed : Analysed s src len v

theorem exists_analysisRun {s : State} {src len : Nat} (hr : src + len ≤ s.dmemSize) :
    ∃ t u v, AnalysisRun s src len t u v := by
  obtain ⟨t, u, v, hcount, hbuild, hgen, hv⟩ := analysed s hr
  exact ⟨t, u, v, hcount, hbuild, hgen, hv⟩

namespace AnalysisRun

variable {s t u v : State} {src len : Nat} (h : AnalysisRun s src len t u v)
include h

theorem dmemSize_eq : v.dmemSize = s.dmemSize := by rw [h.analysed.frame]

theorem ctrl_eq : v.ctrl = s.ctrl := by rw [h.analysed.frame]

theorem operands_eq : v.src = s.src ∧ v.len = s.len ∧ v.dst = s.dst := by
  rw [h.analysed.frame]
  exact ⟨rfl, rfl, rfl⟩

theorem bytesAt_eq (a n : Nat) : v.bytesAt a n = s.bytesAt a n := by
  rw [h.analysed.frame]
  rfl

/-- COMPRESS comes to its output check with the input analysed. -/
theorem compressLines_eq (hr : src + len ≤ s.dmemSize) (dst : Word) : compressLines src len dst s =
    (checkRange dst.toNat v.fileBytes v).andThen fun _ v =>
      (packHeader (v.initPacker dst)).andThen fun _ t => (packData src len t).andThen fun _ u => packFlush u := by
  rw [compressLines, checkRange_ok hr, Res.ok_andThen, h.count, Res.ok_andThen, h.build, Res.ok_andThen, h.gen,
    Res.ok_andThen]

end AnalysisRun

/-- The lines, run as commands. -/
theorem AnalysisRun.exec_lines {s t u v : State} (h : AnalysisRun s s.src.toNat s.len.toNat t u v) :
    exec .freqClear s = .next (s.clearFreq.finished 0x00#8 0) ∧
      exec .freqCount (s.clearFreq.finished 0x00#8 0) = .next (t.finished 0x00#8 0) ∧
      exec .treeBuild (t.finished 0x00#8 0) = .next (u.finished 0x00#8 0) ∧
      exec .codeGen (u.finished 0x00#8 0) = .next (v.finished 0x00#8 0) := by
  refine ⟨exec_of_body_ok (i := .freqClear) rfl, ?_, ?_, ?_⟩
  · rw [exec_finished_ok (i := .freqCount) (s := s.clearFreq) (freqCount_blind s.src.toNat s.len.toNat) rfl, h.count]
    rfl
  · rw [exec_finished_ok (i := .treeBuild) treeBuild_blind rfl, h.build]
    rfl
  · rw [exec_finished_ok (i := .codeGen) codeGen_blind rfl, h.gen]
    rfl

/-- Where the output does not fit, COMPRESS ends at its output check (R240). -/
theorem AnalysisRun.compress_noRoom {s t u v : State} (h : AnalysisRun s s.src.toNat s.len.toNat t u v)
    (hr : s.src.toNat + s.len.toNat ≤ s.dmemSize) (hs : s.dmemSize < s.dst.toNat + v.fileBytes) :
    body .compress s = .raised (.bounds (max s.dst.toNat s.dmemSize)) v.zeroResult := by
  have hd := h.dmemSize_eq
  rw [body_compress, h.compressLines_eq hr, checkRange_raises (hd ▸ hs), Res.raised_andThen, Res.raised_onRaise, hd]

/-- Where the output fits, the header is written, and the packing lines are left (R240). -/
theorem AnalysisRun.compress_room {s t u v : State} (h : AnalysisRun s s.src.toNat s.len.toNat t u v)
    (hr : s.src.toNat + s.len.toNat ≤ s.dmemSize) (hs : s.dst.toNat + v.fileBytes ≤ s.dmemSize) :
    body .compress s = ((packHeader (v.initPacker s.dst)).andThen fun _ t =>
      (packData s.src.toNat s.len.toNat t).andThen fun _ u => packFlush u).onRaise State.zeroResult := by
  have hd := h.dmemSize_eq
  rw [body_compress, h.compressLines_eq hr, checkRange_ok (hd ▸ hs), Res.ok_andThen]

/-! COMPRESS as its commands (R240) -/

theorem compress_bounds {s : State} (hr : s.dmemSize < s.src.toNat + s.len.toNat) :
    body .compress s = .raised (.bounds (max s.src.toNat s.dmemSize)) s.zeroResult := by
  rw [body_compress, compressLines, checkRange_raises hr, Res.raised_andThen, Res.raised_onRaise]

/-- The header's room is part of the file's. -/
theorem hdrBytes_le_fileBytes (v : State) : 1032 ≤ v.fileBytes := Nat.le_add_right _ _

theorem initPacker_blind (dst : Word) : Blind fun s => .ok () (s.initPacker dst) :=
  .ok _ _ (fun _ _ => rfl) fun _ _ => rfl

/-- PACK_INIT behind the analysis starts the packer at COMPRESS's DST. -/
theorem AnalysisRun.exec_packInit {s t u v : State} {src len : Nat} (h : AnalysisRun s src len t u v) :
    exec .packInit (v.finished 0x00#8 0) = .next ((v.initPacker s.dst).finished 0x00#8 0) := by
  obtain ⟨-, -, hdst⟩ := h.operands_eq
  rw [← hdst]
  exact exec_finished_ok (i := .packInit) (initPacker_blind v.dst) rfl

/-- The header fits where the file does, and writing it leaves the operands alone. -/
theorem AnalysisRun.packHeader_ok {s t u v : State} {src len : Nat} (h : AnalysisRun s src len t u v)
    (hs : s.dst.toNat + v.fileBytes ≤ s.dmemSize) :
    ∃ w, packHeader (v.initPacker s.dst) = .ok () w ∧ w.src = s.src ∧ w.len = s.len := by
  have hle := hdrBytes_le_fileBytes v
  have hroom : (v.initPacker s.dst).pk.optr.toNat + 1032 ≤ (v.initPacker s.dst).dmemSize := by
    show s.dst.toNat + 1032 ≤ v.dmemSize
    rw [h.dmemSize_eq]
    omega
  obtain ⟨w, hw, hframe, -⟩ := Machine.packHeader_ok rfl hroom
  obtain ⟨hsrc, hlen, -⟩ := h.operands_eq
  exact ⟨w, hw, (congrArg State.src hframe).trans hsrc, (congrArg State.len hframe).trans hlen⟩

/-- Settles O50: the lines are blind to the completions between the commands, so each command's outcome is its line's. -/
theorem compressIsItsCommands : Obligations.CompressIsItsCommands := by
  refine fun s => ⟨fun hr => exec_of_body_raised (i := .compress) (compress_bounds hr), ?_⟩
  intro s1 s2 s3 s4 hr h1 h2 h3 h4
  obtain ⟨t, u, v, h⟩ := exists_analysisRun hr
  obtain ⟨hclear, hcount, hbuild, hgen⟩ := h.exec_lines
  obtain rfl := Host.Outcome.next.inj (hclear.symm.trans h1)
  obtain rfl := Host.Outcome.next.inj (hcount.symm.trans h2)
  obtain rfl := Host.Outcome.next.inj (hbuild.symm.trans h3)
  obtain rfl := Host.Outcome.next.inj (hgen.symm.trans h4)
  refine ⟨fun hs => ?_, fun s5 s6 s7 s8 hs h5 h6 h7 h8 => ?_⟩
  · exact exec_of_body_raised_after_ok (i := .compress) (h.compress_noRoom hr hs)
  change s.dst.toNat + v.fileBytes ≤ s.dmemSize at hs
  obtain rfl := Host.Outcome.next.inj (h.exec_packInit.symm.trans h5)
  obtain ⟨w, hw, hsrc, hlen⟩ := h.packHeader_ok hs
  rw [exec_finished_ok (i := .packHeader) packHeader_blind rfl, hw] at h6
  obtain rfl := Host.Outcome.next.inj h6
  have hdata : exec .packData (w.finished 0x00#8 0) = .next (complete (packData s.src.toNat s.len.toNat w)) := by
    rw [← hsrc, ← hlen]
    exact exec_finished_ok (i := .packData) (packData_blind w.src.toNat w.len.toNat) rfl
  obtain rfl := Host.Outcome.next.inj (hdata.symm.trans h7)
  have hcompress : exec .compress s = .next (complete (((packData s.src.toNat s.len.toNat w).andThen fun _ x =>
      packFlush x).onRaise State.zeroResult)) := by
    rw [exec_eq_complete_body, h.compress_room hr hs, hw, Res.ok_andThen]
  rw [hcompress]
  cases hpack : packData s.src.toNat s.len.toNat w with
  | raised e x => exact ⟨fun hok => absurd hok e.code_range.2, fun _ => rfl, fun hok => absurd hok e.code_range.2⟩
  | ok _ x =>
    rw [hpack] at h8
    have hflush : exec .packFlush (x.finished 0x00#8 0) = .next (complete (packFlush x)) :=
      exec_finished_ok (i := .packFlush) packFlush_blind rfl
    obtain rfl := Host.Outcome.next.inj (hflush.symm.trans h8)
    rw [Res.ok_andThen, complete_onRaise_zeroResult]
    exact ⟨fun _ hok => by rw [if_pos hok], fun herr => absurd rfl herr, fun _ herr => by rw [if_neg herr]⟩

end Sys2Proof.Machine
end

section
/-! PROOF. The file COMPRESS writes (47_codec.md R240, R243). -/

namespace Sys2Proof.Machine

theorem codeEntryOk.len_le {e : CodeEntry} (h : codeEntryOk e) : e.len.toNat ≤ 64 := by
  cases hvalid : e.valid with
  | true =>
    rw [codeEntryOk, if_pos hvalid] at h
    exact h.2.1
  | false =>
    rw [codeEntryOk, hvalid, if_neg Bool.false_ne_true] at h
    rw [h.1]
    exact Nat.zero_le 64

/-- Each code has at most 64 bits, so a file needs at most eight bytes per input byte behind its header (R243). -/
theorem Analysed.fileBytes_le {s v : State} {src len : Nat} (h : Analysed s src len v) :
    v.fileBytes ≤ 1032 + 8 * len := by
  have hbits : v.packedBits ≤ len * 64 := by
    rw [h.bits, codeBits_flatMap_length]
    have := List.sum_le_card_nsmul ((s.bytesAt src len).map fun b => (v.codeAt b).len.toNat) 64 fun n hn => by
      obtain ⟨b, -, rfl⟩ := List.mem_map.mp hn
      exact (h.codes.entry b).len_le
    rwa [List.length_map, State.bytesAt_length, smul_eq_mul] at this
  have : v.fileBytes = 1032 + (v.packedBits + 7) / 8 := rfl
  omega

/-- Every field of v that the analysis may write is v's, every other s's. -/
theorem Analysed.eq_with {s v : State} {src len : Nat} (h : Analysed s src len v) : v = { s with
    freq := v.freq, total := v.total, nodes := v.nodes, heap := [], root := v.root, code := v.code, walk := v.walk
    result := v.result, env := { s.env with draws := v.env.draws } } := by
  have htotal : v.total = BitVec.ofNat 64 len := congrArg State.total h.frame
  rw [htotal]
  exact h.frame

/-- A length up to DMEM_SIZE fits a register. -/
theorem toNat_ofNat32_of_le {s : State} {n : Nat} (h : n ≤ s.dmemSize) : (BitVec.ofNat 32 n).toNat = n := by
  have := s.dmemSize_le
  rw [BitVec.toNat_ofNat]
  omega

/-- COMPRESS where the file fits apart from the input (R240). -/
theorem AnalysisRun.compress_ok {s t u v : State} (h : AnalysisRun s s.src.toNat s.len.toNat t u v)
    (hr : s.src.toNat + s.len.toNat ≤ s.dmemSize) (hs : s.dst.toNat + v.fileBytes ≤ s.dmemSize)
    (hapart : apart s.src.toNat s.len.toNat s.dst.toNat v.fileBytes) :
    ∃ (w : State) (pad : List Bool), body .compress s = .ok () w ∧
      w = { v with
        pk := { optr := s.dst + BitVec.ofNat 32 v.fileBytes, ocnt := BitVec.ofNat 32 v.fileBytes, bblen := 0, bbuf := 0 }
        result := BitVec.ofNat 32 v.fileBytes, dmem := w.dmem } ∧
      w.holdsHeader s.dst.toNat v ∧
      w.bitsAt (s.dst.toNat + 1032) (v.fileBytes - 1032) =
        (s.bytesAt s.src.toNat s.len.toNat).flatMap v.codeBits ++ pad ∧
      (∀ b ∈ pad, b = false) ∧ pad.length < 8 ∧ s.sameBytesBut s.dst.toNat v.fileBytes w := by
  obtain ⟨x, y, w, pad, hheader, hdata, hflush, hw⟩ := compressLines_ok hr h.analysed hs hapart
  refine ⟨w, pad, ?_, hw⟩
  rw [h.compress_room hr hs, hheader, Res.ok_andThen, hdata, Res.ok_andThen, hflush, Res.ok_onRaise]

/-- Settles O49: the analysis fixes the file's length, and behind the output check nothing can fail. -/
theorem compressWritesTheFile : Obligations.CompressWritesTheFile := by
  refine ⟨decode_encode (i := .compress) rfl, fun s hr => ?_, fun s hr hs hapart => ?_⟩
  · obtain ⟨t, u, v, h⟩ := exists_analysisRun hr
    obtain ⟨hclear, hcount, hbuild, hgen⟩ := h.exec_lines
    have ha := h.analysed
    refine ⟨_, _, _, _, v.fileBytes, hclear, hcount, hbuild, hgen, rfl, ha.fileBytes_le, ha.counts,
      congrArg State.total ha.frame, ha.tree.congr rfl rfl rfl, ha.coded, ha.bits, fun hs hapart => ?_⟩
    obtain ⟨w, pad, hbody, hw, hfile⟩ := h.compress_ok hr hs hapart
    refine ⟨w, pad, exec_of_body_ok hbody, hw.trans ?_, hfile⟩
    exact congrArg (fun x : State => { x with
      pk := { optr := s.dst + BitVec.ofNat 32 v.fileBytes, ocnt := BitVec.ofNat 32 v.fileBytes, bblen := 0, bbuf := 0 }
      result := BitVec.ofNat 32 v.fileBytes, dmem := w.dmem }) ha.eq_with
  · obtain ⟨t, u, v, h⟩ := exists_analysisRun hr
    have hle := h.analysed.fileBytes_le
    have hfits : s.dst.toNat + v.fileBytes ≤ s.dmemSize := by omega
    obtain ⟨w, pad, hbody, hw, -, -, -, -, hout⟩ :=
      h.compress_ok hr hfits fun x h1 h2 h3 h4 => hapart x h1 h2 h3 (by omega)
    have hbytes : w.fileBytes = v.fileBytes := by
      rw [hw]
      rfl
    have hresult : w.result = BitVec.ofNat 32 v.fileBytes := congrArg State.result hw
    refine ⟨w, exec_of_body_ok hbody, ?_, by rwa [hbytes]⟩
    show w.result.toNat = w.fileBytes
    rw [hresult, hbytes, toNat_ofNat32_of_le (s := s) (by omega)]

end Sys2Proof.Machine
end

section
/-! PROOF. DECOMPRESS's lines, and the bytes it writes of a well-formed file (47_codec.md R241). -/

namespace Sys2Proof.Machine

/-! The header (R220, R221) -/

/-- FREQ and TOTAL as the header at src has them. -/
def State.loadHeader (s : State) (src : Nat) : State :=
  { s with freq := s.headerFreq src, total := BitVec.ofNat 64 (s.headerTotal src) }

theorem State.headerTotal_lt (s : State) (src : Nat) : s.headerTotal src < 2 ^ 64 := s.bigEndian_lt (src + 1024) 8

theorem State.loadHeader_total (s : State) (src : Nat) : (s.loadHeader src).total.toNat = s.headerTotal src :=
  Nat.mod_eq_of_lt (s.headerTotal_lt src)

/-- HDR_PARSE of counts that sum to the length. -/
theorem hdrParse_ok {src len : Nat} {s : State} (hr : src + len ≤ s.dmemSize) (hl : 1032 ≤ len)
    (hsum : (s.loadHeader src).freqSum = s.headerTotal src) :
    hdrParse src len s =
      .ok () { s.loadHeader src with result := (s.loadHeader src).total.truncate 32 } := by
  have hcheck : checkHeader (s.loadHeader src) = .ok () (s.loadHeader src) :=
    if_pos (hsum.trans (s.loadHeader_total src).symm)
  rw [hdrParse_eq hr hl]
  exact congrArg (Res.andThen · _) hcheck

/-- HDR_PARSE of counts that do not. -/
theorem hdrParse_badSum {src len : Nat} {s : State} (hr : src + len ≤ s.dmemSize) (hl : 1032 ≤ len)
    (hsum : (s.loadHeader src).freqSum ≠ s.headerTotal src) :
    hdrParse src len s = .raised (.malformedHeader 1) (s.loadHeader src) := by
  have hcheck : checkHeader (s.loadHeader src) = .raised (.malformedHeader 1) (s.loadHeader src) :=
    if_neg fun h => hsum (h.trans (s.loadHeader_total src))
  rw [hdrParse_eq hr hl]
  exact congrArg (Res.andThen · _) hcheck

/-- HDR_PARSE that ends well loaded the header. -/
theorem hdrParse_eq_ok {src len : Nat} {s t : State} {x : Unit} (h : hdrParse src len s = .ok x t) :
    t = { s.loadHeader src with result := t.result } := by
  by_cases hr : src + len ≤ s.dmemSize
  · by_cases hl : 1032 ≤ len
    · by_cases hsum : (s.loadHeader src).freqSum = s.headerTotal src
      · rw [hdrParse_ok hr hl hsum] at h
        rw [← (Res.ok.inj h).2]
      · rw [hdrParse_badSum hr hl hsum] at h
        cases h
    · rw [hdrParse_short hr (Nat.lt_of_not_le hl)] at h
      cases h
  · rw [hdrParse_bounds (Nat.lt_of_not_le hr)] at h
    cases h

/-! The lines behind the header -/

theorem body_decompress (s : State) : body .decompress s =
    (decompressLines s.src.toNat s.len.toNat s.dst.toNat s).onRaise State.zeroResult := rfl

/-- The tree of v in s, as TREE_BUILD leaves it. -/
def State.withTreeOf (s v : State) : State :=
  { s with nodes := v.nodes, heap := [], root := v.root, result := v.result }

theorem treeBuild_withTreeOf {b s v : State} (h : SameCounts b s) (hv : treeBuild s = .ok () v) :
    treeBuild b = .ok () (b.withTreeOf v) := treeBuild_graft h hv

/-- The bits spell the same bytes over the same tree. -/
theorem Spells.withTreeOf {v : State} {bits : List Bool} {bytes : List Byte} (h : Spells v bits bytes) (s : State) :
    Spells (s.withTreeOf v) bits bytes :=
  Spells.congr (s := v) (t := s.withTreeOf v) rfl rfl h

theorem spells_finished {v : State} {code : BitVec 8} {info : Word} {bits : List Bool} {bytes : List Byte} :
    Spells (v.finished code info) bits bytes ↔ Spells v bits bytes :=
  ⟨Spells.congr (s := v.finished code info) (t := v) rfl rfl, Spells.congr (s := v) (t := v.finished code info) rfl rfl⟩

/-- The verify pass, the output check, and the write pass (R241). -/
def decodeLines (src len dst : Nat) (s : State) : Res Unit :=
  (unpack false src len dst s).andThen fun _ s =>
    (checkRange dst s.total.toNat s).andThen fun _ s =>
      (unpack true src len dst s).andThen fun _ s => .ok () { s with result := s.up.emit.truncate 32 }

/-- Where the header's counts sum to its length, its tree is built: v's, where v is TREE_BUILD's over the same counts under
the same TIEBRK. -/
theorem decompressLines_eq {src len : Nat} (dst : Nat) {s b v : State} (hr : src + len ≤ s.dmemSize) (hl : 1032 ≤ len)
    (hsum : (s.loadHeader src).freqSum = s.headerTotal src) (hv : treeBuild b = .ok () v)
    (hb : SameCounts (s.loadHeader src) b) :
    decompressLines src len dst s = decodeLines (src + 1032) (len - 1032) dst ((s.loadHeader src).withTreeOf v) := by
  have hbuild := treeBuild_withTreeOf
    (b := { s.loadHeader src with result := (s.loadHeader src).total.truncate 32 }) hb hv
  rw [decompressLines, checkRange_ok hr, Res.ok_andThen, hdrParse_ok hr hl hsum, Res.ok_andThen, hbuild, Res.ok_andThen]
  rfl

/-- A tree built of a positive number of bytes has a root. -/
theorem BuiltTree.root_ne_nil {s v : State} (h : BuiltTree s v) (hpos : 0 < s.freqSum) : v.root ≠ nilIx := by
  have hne : s.positive ≠ [] := fun hnil => by
    rw [← s.sum_positive, hnil] at hpos
    exact Nat.lt_irrefl 0 hpos
  have hsize := h.size
  have hle := s.positive_length_le
  rw [h.root, if_neg hne]
  intro hnil
  have := congrArg BitVec.toNat hnil
  rw [toNat_ofNat9 (by omega)] at this
  change v.nodes.length - 1 = 511 at this
  omega

/-! The stream of a well-formed file -/

/-- The verify pass where the stream ends before TOTAL symbols (R222, R223). -/
theorem unpack_verify_ends {src len dst : Nat} {s : State} {bits p : List Bool} {bytes : List Byte} {c : NodeIx}
    (hr : src + len ≤ s.dmemSize) (hroot : s.root ≠ nilIx) (hb : s.bitsAt src len = bits ++ p)
    (hspells : Spells s bits bytes) (ht : bytes.length < s.total.toNat) (hp : Reach s s.root p c)
    (hc : p ≠ [] → (s.node c).isInternal = true) :
    unpack false src len dst s = .raised (.malformedHeader 2) { s with
      up := unpackerAt src (8 * len) c bytes.length, result := BitVec.ofNat 32 bytes.length } := by
  rw [unpack_eq_unpackLoop hr hroot]
  have hlen : bits.length ≤ 8 * len := by
    have := congrArg List.length hb
    rw [State.bitsAt_length, List.length_append] at this
    omega
  obtain ⟨n, hn⟩ : ∃ n, 8 * len + 1 = n + bits.length := ⟨8 * len + 1 - bits.length, by omega⟩
  obtain ⟨u, hloop, hframe, -, -, hdmem⟩ := unpackLoop_spells (write := false) (src := src) (len := len) (dst := dst)
    hspells (s.initUnpacker src) 0 0 n p rfl rfl hr (initUnpacker_up s src) (by rw [Nat.zero_add]; exact ht.le) hb
    fun h => absurd h Bool.false_ne_true
  have hresult : (if bytes = [] then (s.initUnpacker src).result else BitVec.ofNat 32 (0 + bytes.length))
      = BitVec.ofNat 32 bytes.length := by
    rw [Nat.zero_add]
    exact ite_eq_right_iff.mpr fun h => h ▸ rfl
  rw [hresult, Nat.zero_add, Nat.zero_add, hdmem rfl] at hframe
  have hu : u = { s with
      up := unpackerAt src bits.length s.root bytes.length, result := BitVec.ofNat 32 bytes.length } := hframe
  have hrest : (u.bitsAt src len).drop bits.length = p := by
    have hsame : u.bitsAt src len = s.bitsAt src len := by
      rw [hu]
      rfl
    rw [hsame, hb, List.drop_left]
  rw [hn, hloop, unpackLoop_ends (s0 := s) (by rw [ChangesOnlyDecoding, hu]) hr (by rw [hu]) (by rw [hu]; exact ht)
    (by omega) hlen hrest hp hc, hu]

/-- Following bits from a node comes to a leaf, or uses them all up on the way. -/
theorem exists_leafAt_or_reach (v : State) : ∀ (bits : List Bool) (n : NodeIx),
    (∃ p rest sym, bits = p ++ rest ∧ LeafAt v n p sym) ∨ ∃ m, Reach v n bits m ∧ (v.node m).isInternal = true
  | bits, n => by
    cases hn : v.node n with
    | leaf sym f => exact .inl ⟨[], bits, sym, rfl, n, f, .here n, hn⟩
    | internal f l r =>
      have hi : (v.node n).isInternal = true := by rw [hn]; rfl
      cases bits with
      | nil => exact .inr ⟨n, .here n, hi⟩
      | cons b bits =>
        rcases exists_leafAt_or_reach v bits (Node.child b (v.node n)) with
          ⟨p, rest, sym, rfl, m, g, hm, hleaf⟩ | ⟨m, hm, hmi⟩
        · exact .inl ⟨b :: p, rest, sym, rfl, m, g, hm.cons hi, hleaf⟩
        · exact .inr ⟨m, hm.cons hi, hmi⟩

/-- In a proper tree 64 bits begin with the path of a symbol (44_codegen.md R193). -/
theorem ProperTree.exists_emits {v : State} (h : ProperTree v v.root) {bits : List Bool} (hlen : 64 ≤ bits.length) :
    ∃ p rest sym, bits = p ++ rest ∧ p.length ≤ 64 ∧ v.emits p sym := by
  have h64 : (bits.take 64).length = 64 := by rw [List.length_take]; omega
  cases hroot : v.node v.root with
  | leaf sym f =>
    exact ⟨bits.take 1, bits.drop 1, sym, (List.take_append_drop 1 bits).symm, by rw [List.length_take]; omega,
      .inr ⟨by rw [List.length_take]; omega, f, hroot⟩⟩
  | internal f l r =>
    rcases exists_leafAt_or_reach v (bits.take 64) v.root with ⟨p, rest, sym, hp, hleaf⟩ | ⟨m, hm, hi⟩
    · refine ⟨p, rest ++ bits.drop 64, sym, ?_, ?_, .inl ⟨by rw [hroot]; rfl, hleaf⟩⟩
      · rw [← List.append_assoc, ← hp, List.take_append_drop]
      · rw [hp, List.length_append] at h64
        omega
    · have := h.depth _ m hm hi
      omega

/-- 64 bits a symbol are always enough (44_codegen.md R193). -/
theorem exists_spells {v : State} (h : ProperTree v v.root) : ∀ (n : Nat) (stream : List Bool),
    64 * n ≤ stream.length → ∃ bytes bits after, bytes.length = n ∧ stream = bits ++ after ∧ Spells v bits bytes
  | 0, stream, _ => ⟨[], [], stream, rfl, rfl, .nil⟩
  | n + 1, stream, hlen => by
    obtain ⟨p, rest, sym, rfl, hp, hemits⟩ := h.exists_emits (bits := stream) (by omega)
    rw [List.length_append] at hlen
    obtain ⟨bytes, bits, after, rfl, rfl, hspells⟩ := exists_spells h n rest (by omega)
    exact ⟨sym :: bytes, p ++ bits, after, rfl, (List.append_assoc _ _ _).symm, .cons hemits hspells⟩

/-- Over a built tree the same, where the counts sum to the number of symbols. -/
theorem exists_spells_of_built {b v : State} (hv : treeBuild b = .ok () v) {stream : List Bool}
    (hlen : 64 * b.freqSum ≤ stream.length) :
    ∃ bytes bits after, bytes.length = b.freqSum ∧ stream = bits ++ after ∧ Spells v bits bytes := by
  by_cases hpos : b.positive = []
  · have hsum : b.freqSum = 0 := by
      rw [← b.sum_positive, hpos]
      rfl
    exact ⟨[], [], stream, hsum.symm, rfl, .nil⟩
  · obtain ⟨w, hw, -, hproper, -⟩ := treeBuild_proper b hpos
    obtain rfl := (Res.ok.inj (hv.symm.trans hw)).2
    exact exists_spells hproper _ _ hlen

/-- DECOMPRESS of a well-formed file with room apart from it (R241). -/
theorem decompress_ok {s b v : State} {bytes : List Byte} {bits after : List Bool}
    (hr : s.src.toNat + s.len.toNat ≤ s.dmemSize) (hl : 1032 ≤ s.len.toNat)
    (hsum : (s.loadHeader s.src.toNat).freqSum = s.headerTotal s.src.toNat) (hv : treeBuild b = .ok () v)
    (hb : SameCounts (s.loadHeader s.src.toNat) b) (hlen : bytes.length = s.headerTotal s.src.toNat)
    (hbits : s.bitsAt (s.src.toNat + 1032) (s.len.toNat - 1032) = bits ++ after) (hspells : Spells v bits bytes)
    (hfit : s.dst.toNat + bytes.length ≤ s.dmemSize) (hapart : apart s.src.toNat s.len.toNat s.dst.toNat bytes.length) :
    ∃ u, body .decompress s = .ok () u ∧
      u = { s with
        freq := s.headerFreq s.src.toNat, total := BitVec.ofNat 64 bytes.length, nodes := v.nodes, heap := []
        root := v.root, up := unpackerAt (s.src.toNat + 1032) bits.length v.root bytes.length
        result := BitVec.ofNat 32 bytes.length, dmem := u.dmem } ∧
      u.bytesAt s.dst.toNat bytes.length = bytes ∧ s.sameBytesBut s.dst.toNat bytes.length u := by
  have hbuild := treeBuild_withTreeOf (b := { s with
    freq := s.headerFreq s.src.toNat, total := BitVec.ofNat 64 bytes.length, result := BitVec.ofNat 32 bytes.length }) hb hv
  obtain ⟨u, hlines, hu⟩ := decompressLines_ok hr hl hbuild (hsum.trans hlen.symm) hlen.symm hbits
    (hspells.withTreeOf _) hfit hapart
  exact ⟨u, by rw [body_decompress, hlines, Res.ok_onRaise], hu⟩

/-- Settles O51: the verify pass decodes the bits that spell the bytes, so the write pass does; a proper tree spells any
stream long enough. -/
theorem decompressWritesTheBytes : Obligations.DecompressWritesTheBytes := by
  refine ⟨decode_encode (i := .decompress) rfl, fun s hr hl hsum => ?_⟩
  obtain ⟨v, hv, -⟩ := treeBuild_spec { s with freq := s.headerFreq s.src.toNat }
  have hok {bytes : List Byte} {bits after : List Bool} (hlen hbits) (hspells : Spells v bits bytes) :=
    decompress_ok (after := after) hr hl hsum hv ⟨rfl, rfl⟩ hlen hbits hspells
  refine ⟨_, exec_of_body_ok (i := .treeBuild) hv, fun bytes bits after hlen hbits hspells hfit hapart => ?_,
    fun hroom hfit hapart => ?_⟩
  · obtain ⟨u, hbody, hu⟩ := hok hlen hbits (spells_finished.mp hspells) hfit hapart
    exact ⟨u, exec_of_body_ok hbody, hu⟩
  · obtain ⟨bytes, bits, after, hlen, hbits, hspells⟩ := exists_spells_of_built hv
      (stream := s.bitsAt (s.src.toNat + 1032) (s.len.toNat - 1032)) (by rw [hsum, State.bitsAt_length]; omega)
    replace hlen := hlen.trans hsum
    obtain ⟨u, hbody, hu, hbytes, hout⟩ := hok hlen hbits hspells (hlen ▸ hfit) (hlen ▸ hapart)
    exact ⟨u, bytes, bits, after, exec_of_body_ok hbody, hlen ▸ congrArg State.result hu, hlen, hbits,
      spells_finished.mpr hspells, hlen ▸ hbytes, hlen ▸ hout⟩

end Sys2Proof.Machine
end

section
/-! PROOF. DECOMPRESS's errors (47_codec.md R241, 60_exceptions.md R253). -/

namespace Sys2Proof.Machine

/-- An error in the lines of DECOMPRESS. -/
theorem exec_decompress_of_raised {s t : State} {e : Error}
    (h : decompressLines s.src.toNat s.len.toNat s.dst.toNat s = .raised e t) :
    exec .decompress s = .next (t.zeroResult.finished e.code e.info) :=
  exec_of_body_raised (i := .decompress) (by rw [body_decompress, h, Res.raised_onRaise])

theorem decompressLines_bounds {src len dst : Nat} {s : State} (hr : s.dmemSize < src + len) :
    decompressLines src len dst s = .raised (.bounds (max src s.dmemSize)) s := by
  rw [decompressLines, checkRange_raises hr, Res.raised_andThen]

/-- An error of HDR_PARSE is DECOMPRESS's. -/
theorem decompressLines_of_hdrParse {src len dst : Nat} {s t : State} {e : Error} (hr : src + len ≤ s.dmemSize)
    (h : hdrParse src len s = .raised e t) : decompressLines src len dst s = .raised e t := by
  rw [decompressLines, checkRange_ok hr, Res.ok_andThen, h, Res.raised_andThen]

/-- Where the output does not fit, the passes end at the output check, with the whole stream decoded (R241). -/
theorem decodeLines_noRoom {src len dst : Nat} {s : State} {bits after : List Bool} {bytes : List Byte}
    (hr : src + len ≤ s.dmemSize) (hroot : s.root ≠ nilIx ∨ bytes = []) (hb : s.bitsAt src len = bits ++ after)
    (hspells : Spells s bits bytes) (ht : s.total.toNat = bytes.length) (hs : s.dmemSize < dst + bytes.length) :
    decodeLines src len dst s = .raised (.bounds (max dst s.dmemSize)) { s with
      up := unpackerAt src bits.length s.root bytes.length, result := BitVec.ofNat 32 bytes.length } := by
  obtain ⟨u, hverify, hframe, -, -, hdmem⟩ := unpack_ok (write := false) (dst := dst) hr hroot hb hspells ht
    fun h => absurd h Bool.false_ne_true
  rw [hdmem rfl] at hframe
  subst hframe
  rw [decodeLines, hverify, Res.ok_andThen, ht, checkRange_raises (by exact hs), Res.raised_andThen]

/-! No output byte on an error (R241, R253) -/

/-- The verify pass writes only the unpacker and RESULT. -/
theorem unpack_verify_frame {src len dst : Nat} {s u : State} {x : Unit} (h : unpack false src len dst s = .ok x u) :
    u = { s with up := u.up, result := u.result } := by
  have hkeep := unpack_dry_keeps (p := fun t : State => ({ t with up := u.up, result := u.result } : State))
    (fun _ _ => rfl) (fun _ _ => rfl) src len dst s
  rw [h] at hkeep
  exact hkeep

/-- The passes raise only before a byte is written, where the output lies apart from the stream. -/
theorem decodeLines_raised_dmem {src len dst : Nat} {s t : State} {e : Error}
    (hapart : apart src len dst s.total.toNat) (h : decodeLines src len dst s = .raised e t) : t.dmem = s.dmem := by
  rcases Res.andThen_eq_raised h with hverify | ⟨_, u, hverify, hrest⟩
  · have hdry := unpack_verify_dmem src len dst s
    rwa [hverify] at hdry
  have hu := unpack_verify_frame hverify
  rcases Res.andThen_eq_raised hrest with hcheck | ⟨_, u', hcheck, hlast⟩
  · rw [(checkRange_eq_raised hcheck).1, hu]
  obtain ⟨rfl, hfit⟩ := checkRange_eq_ok hcheck
  have htotal : u'.total = s.total := by rw [hu]
  have hsize : u'.dmemSize = s.dmemSize := by rw [hu]
  have hdmem : u'.dmem = s.dmem := by rw [hu]
  have hbyte : ∀ x, u'.byte x = s.byte x := State.byte_congr hdmem (by rw [hu])
  rw [htotal, hsize] at hfit
  obtain ⟨w, hwrite, -⟩ := unpack_sim (t := u') (hu.trans (by rw [hdmem])) (fun x _ _ => hbyte x) hfit hapart hverify
  rw [hwrite] at hlast
  cases hlast

/-- With output and file apart, no line of DECOMPRESS raises behind a byte written. -/
theorem decompressLines_raised_dmem {src len dst : Nat} {s t : State} {e : Error}
    (hapart : apart src len dst (s.headerTotal src)) (h : decompressLines src len dst s = .raised e t) :
    t.dmem = s.dmem := by
  rcases Res.andThen_eq_raised h with hcheck | ⟨_, s', hcheck, hrest⟩
  · rw [(checkRange_eq_raised hcheck).1]
  obtain ⟨rfl, -⟩ := checkRange_eq_ok hcheck
  have hparse := hdrParse_keeps (p := State.dmem) (fun _ _ _ => rfl) (fun _ _ => rfl) (fun _ _ => rfl) src len s'
  rcases Res.andThen_eq_raised hrest with hraised | ⟨_, u, hok, hrest⟩
  · rwa [hraised] at hparse
  rw [hok] at hparse
  have hbuild := treeBuild_keeps (p := fun w => (w.dmem, w.total)) (fun _ _ => rfl) (fun _ _ => rfl) (fun _ => rfl)
    (fun _ _ => rfl) u
  obtain ⟨v, hv, -⟩ := treeBuild_spec u
  rw [hv] at hrest hbuild
  obtain ⟨hdmem, htotal⟩ := Prod.mk.inj hbuild
  have hlength : v.total.toNat = s'.headerTotal src := by
    rw [show v.total = u.total from htotal, hdrParse_eq_ok hok]
    exact s'.loadHeader_total src
  have hdecode : decodeLines (src + Config.hdrBytes) (len - Config.hdrBytes) dst v = .raised e t := by
    rw [Res.ok_andThen] at hrest
    exact hrest
  have hapart' : apart (src + Config.hdrBytes) (len - Config.hdrBytes) dst v.total.toNat := by
    rw [hlength]
    exact fun x h1 h2 => hapart x (by omega) (by omega)
  exact (decodeLines_raised_dmem hapart' hdecode).trans (hdmem.trans hparse)

/-- Settles O52: each error is that of the line that raises it, and where output and file lie apart the verify pass has
foretold the write pass. -/
theorem failedDecompressWritesNothing : Obligations.FailedDecompressWritesNothing := by
  refine fun s => ⟨fun hr => exec_decompress_of_raised (decompressLines_bounds hr),
    fun hr hl => exec_decompress_of_raised (decompressLines_of_hdrParse hr (hdrParse_short hr hl)), ?_,
    fun t ht herr => ?_⟩
  · rintro loaded rfl hr hl
    have htotal := s.loadHeader_total s.src.toNat
    refine ⟨fun hsum => ?_, fun v bytes bits hsum hv hspells => ?_⟩
    · exact exec_decompress_of_raised (decompressLines_of_hdrParse hr (hdrParse_badSum hr hl (htotal ▸ hsum)))
    replace hsum : (s.loadHeader s.src.toNat).freqSum = s.headerTotal s.src.toNat := hsum.trans htotal
    obtain ⟨b, hb, -, htree⟩ := treeBuild_spec (s.loadHeader s.src.toNat).zeroResult
    obtain rfl := eq_finished_of_body_ok (i := .treeBuild) hb hv
    rw [spells_finished] at hspells
    have hlines := decompressLines_eq (len := s.len.toNat) s.dst.toNat hr hl hsum hb ⟨rfl, rfl⟩
    have hr' : s.src.toNat + 1032 + (s.len.toNat - 1032) ≤ s.dmemSize := by omega
    have hroot (hpos : 0 < s.headerTotal s.src.toNat) : b.root ≠ nilIx := htree.root_ne_nil (hsum ▸ hpos)
    refine ⟨fun p c hlt hbits hreach hc => ?_, fun after hlen hbits hfull => ?_⟩
    · have hends := unpack_verify_ends (dst := s.dst.toNat) (s := (s.loadHeader s.src.toNat).withTreeOf b) hr'
        (hroot (Nat.zero_lt_of_lt hlt)) hbits (hspells.withTreeOf _) (htotal ▸ hlt)
        (Reach.congr (s := b.finished 0x00#8 0) (t := (s.loadHeader s.src.toNat).withTreeOf b) rfl hreach) hc
      exact exec_decompress_of_raised (hlines.trans (by rw [decodeLines, hends, Res.raised_andThen]))
    · have hroot' : b.root ≠ nilIx ∨ bytes = [] :=
        (Nat.eq_zero_or_pos bytes.length).symm.imp (fun hpos => hroot (hlen ▸ hpos)) List.eq_nil_of_length_eq_zero
      have hnoRoom := decodeLines_noRoom (s := (s.loadHeader s.src.toNat).withTreeOf b) hr'
        hroot' hbits (hspells.withTreeOf _) (htotal.trans hlen.symm) hfull
      exact exec_decompress_of_raised (hlines.trans hnoRoom)
  · cases hlines : decompressLines s.src.toNat s.len.toNat s.dst.toNat s with
    | ok x u =>
      have hbody : body .decompress s = .ok () u := by rw [body_decompress, hlines, Res.ok_onRaise]
      rw [eq_finished_of_body_ok hbody ht] at herr
      exact absurd rfl herr
    | raised e u =>
      obtain rfl := Host.Outcome.next.inj ((exec_decompress_of_raised hlines).symm.trans ht)
      exact ⟨rfl, fun hapart => show u.dmem = s.dmem from decompressLines_raised_dmem hapart hlines⟩

end Sys2Proof.Machine
end

section
/-! PROOF. The round trip (47_codec.md R242). -/

namespace Sys2Proof.Machine

/-- A command that completed with OK is a body that raised nothing. -/
theorem exists_body_ok {i : Instr} {s t : State} (h : exec i s = .next t) (hok : t.status.errcode = 0x00#8) :
    ∃ w, body i s = .ok () w ∧ t = w.finished 0x00#8 0 := by
  obtain rfl := complete_body_of_exec h
  obtain ⟨w, hw⟩ := (complete_errcode_eq_ok _).mp hok
  exact ⟨w, hw, by rw [hw]; rfl⟩

/-- Regions that hold the same bytes agree byte by byte. -/
theorem State.byte_eq_of_bytesAt {s t : State} {a n : Nat} (h : t.bytesAt a n = s.bytesAt a n) {x : Nat} (h1 : a ≤ x)
    (h2 : x < a + n) : t.byte x = s.byte x := by
  have := List.map_inj_left.mp h (x - a) (List.mem_range.mpr (by omega))
  rwa [Nat.add_sub_cancel' h1] at this

/-! The file that a COMPRESS with OK wrote -/

theorem Res.onRaise_eq_ok {α : Type} {r : Res α} {f : State → State} {a : α} {s : State} (h : r.onRaise f = .ok a s) :
    r = .ok a s := by
  cases r with
  | ok b t => exact h
  | raised e t => cases h

/-- Appended bits that the body reported. -/
theorem AppendsOrRaises.appends {s w : State} {bits : List Bool} {r : Res Unit} (h : AppendsOrRaises s bits r)
    (hr : r = .ok () w) : Appends s bits w := by
  rcases h with ⟨e, he⟩ | ⟨u, hu, happ⟩
  · cases he.symm.trans hr
  · obtain rfl := (Res.ok.inj (hu.symm.trans hr)).2
    exact happ

theorem packHeader_appends_of_ok {s x : State} (hp : PendingOk s.pk) (h : packHeader s = .ok () x) :
    Appends s (x.bitsAt s.pk.optr.toNat 1032) x := by
  rcases packHeader_appends hp with ⟨e, he⟩ | ⟨u, hu, happ, -⟩
  · cases he.symm.trans h
  · obtain rfl := (Res.ok.inj (hu.symm.trans h)).2
    exact happ

/-- The state the packing lines start from is as the invariant bounds it. -/
theorem AnalysisRun.bodyOk {s t u v : State} {src len : Nat} (h : AnalysisRun s src len t u v) (dst : Word) :
    (v.initPacker dst).BodyOk := by
  have harena := treeBuild_arena t
  rw [h.build] at harena
  have hkeep := codeGen_keeps (p := fun w => (w.nodes, w.heap, w.root)) (fun _ _ => rfl) (fun _ _ _ _ => rfl)
    (fun _ => rfl) (fun _ => rfl) u
  rw [h.gen] at hkeep
  simp only [Res.state_ok, Prod.mk.injEq] at hkeep harena
  obtain ⟨hn, hh, hroot⟩ := hkeep
  refine ⟨?_, h.analysed.codes.entry, Nat.one_pos⟩
  show Machine.ArenaOk v.nodes v.heap v.root
  rw [hn, hh, hroot]
  exact harena

/-- PACK_FLUSH's RESULT is the OCNT it leaves (R206). -/
theorem packFlush_result {s w : State} (h : packFlush s = .ok () w) : w.result = w.pk.ocnt := by
  obtain ⟨_, u, -, hu⟩ := Res.andThen_eq_ok h
  rw [← (Res.ok.inj hu).2]

/-- Packing a file that ends well appended the header, the codes of the bytes it read, and the padding; where the codes went
apart from the input, those are the input's bytes as the header left them. -/
theorem packFile_appends {p x y w : State} {src len : Nat} (hok : p.BodyOk) (hr : src + len ≤ p.dmemSize)
    (hheader : packHeader p = .ok () x) (hdata : packData src len x = .ok () y) (hflush : packFlush y = .ok () w) :
    Appends p (x.bitsAt p.pk.optr.toNat 1032) x ∧ Appends y y.padding w ∧
      ∃ bytes, Appends x (bytes.flatMap p.codeBits) y ∧
        (apart src len x.pk.optr.toNat (y.pk.optr.toNat - x.pk.optr.toNat) → bytes = x.bytesAt src len) := by
  have hokx : x.BodyOk := by
    have := packHeader_bodyOk hok
    rwa [hheader] at this
  have hoky : y.BodyOk := by
    have := packData_bodyOk hokx src len
    rwa [hdata] at this
  obtain ⟨hcode, hsize⟩ : x.code = p.code ∧ x.dmemSize = p.dmemSize := by
    have := packHeader_keeps (p := fun z => (z.code, z.dmemSize)) (fun _ _ _ => rfl) (fun _ _ => rfl) p
    rw [hheader] at this
    exact Prod.mk.inj this
  have hcodes : x.codeBits = p.codeBits := by
    funext sym
    rw [State.codeBits, State.codeAt, hcode]
    rfl
  obtain ⟨bytes, -, hall, -, happ, hinput⟩ := packData_packedBytes hokx (hsize ▸ hr)
  rw [hdata, hcodes] at happ
  rw [hdata, hall y hdata] at hinput
  exact ⟨packHeader_appends_of_ok hok.pending hheader, (packFlush_appends hoky.pending).appends hflush, bytes, happ,
    hinput⟩

/-- Packing a file from a stream's start that ends well gives a length in whole bytes, that of the header and the input's
codes, where all it wrote lies apart from the input. -/
theorem packFile_result {p x y w : State} {src len dst : Nat} (hok : p.BodyOk) (hstart : StreamInv p dst [])
    (hr : src + len ≤ p.dmemSize) (hheader : packHeader p = .ok () x) (hdata : packData src len x = .ok () y)
    (hflush : packFlush y = .ok () w) (hapart : apart src len dst w.result.toNat) :
    w.result.toNat = 1032 + (((p.bytesAt src len).flatMap p.codeBits).length + 7) / 8 := by
  obtain ⟨happx, happw, bytes, happy, hinput⟩ := packFile_appends hok hr hheader hdata hflush
  have hx := hstart.append happx
  have hy := hx.append happy
  have hw := hy.append happw
  have hxy := happy.optr_le
  have hyw := happw.optr_le
  have hend : w.pk.optr.toNat = dst + w.result.toNat := by rw [packFlush_result hflush, hw.pointer]
  have hlow : dst ≤ p.pk.optr.toNat ∧ dst ≤ x.pk.optr.toNat :=
    ⟨hstart.pointer ▸ Nat.le_add_right _ _, hx.pointer ▸ Nat.le_add_right _ _⟩
  have hread : bytes = p.bytesAt src len := by
    rw [hinput fun a h1 h2 h3 h4 => hapart a h1 h2 (by omega) (by omega)]
    exact State.bytesAt_congr fun a h1 h2 => happx.outside fun h => hapart a h1 h2 (by omega) (by omega)
  have hylen := hy.length
  have hwlen := hw.length
  simp only [List.length_append, List.length_nil, State.bitsAt_length, State.padding, List.length_replicate, hread]
    at hylen hwlen
  have hylt := y.pk.bblen.isLt
  have hwlt := w.pk.bblen.isLt
  rw [packFlush_result hflush]
  omega

/-- A COMPRESS with OK whose file lies apart from the input wrote as many bytes as the analysis foretold. -/
theorem AnalysisRun.result_eq {s t u v w : State} (h : AnalysisRun s s.src.toNat s.len.toNat t u v)
    (hr : s.src.toNat + s.len.toNat ≤ s.dmemSize) (hs : s.dst.toNat + v.fileBytes ≤ s.dmemSize)
    (hw : body .compress s = .ok () w) (hapart : apart s.src.toNat s.len.toNat s.dst.toNat w.result.toNat) :
    w.result.toNat = v.fileBytes := by
  rw [h.compress_room hr hs] at hw
  obtain ⟨⟨⟩, x, hheader, hrest⟩ := Res.andThen_eq_ok (Res.onRaise_eq_ok hw)
  obtain ⟨⟨⟩, y, hdata, hflush⟩ := Res.andThen_eq_ok hrest
  have hstart : StreamInv (v.initPacker s.dst) s.dst.toNat [] := streamInv_iff.mpr ⟨rfl, Nat.one_pos, rfl⟩
  rw [packFile_result (h.bodyOk s.dst) hstart (h.dmemSize_eq.symm ▸ hr) hheader hdata hflush hapart]
  show 1032 + (((v.bytesAt _ _).flatMap v.codeBits).length + 7) / 8 = 1032 + (v.packedBits + 7) / 8
  rw [h.bytesAt_eq, h.analysed.bits]

/-! The file read back -/

theorem headerFreq_of_holdsHeader {r v : State} {a : Nat} (h : r.holdsHeader a v) : r.headerFreq a = v.freq :=
  State.freq_ext (s := { r with freq := r.headerFreq a }) fun sym => by
    rw [State.freqAt_ofFn, h.1 sym, BitVec.ofNat_toNat, BitVec.setWidth_eq]

/-- A header is its bytes. -/
theorem State.holdsHeader.congr {r w v : State} {a : Nat} (h : w.holdsHeader a v)
    (hbyte : ∀ x, a ≤ x → x < a + 1032 → r.byte x = w.byte x) : r.holdsHeader a v :=
  ⟨fun sym => (State.bigEndian_congr fun x h1 h2 => hbyte x (by omega) (by have := sym.isLt; omega)).trans (h.1 sym),
    (State.bigEndian_congr fun x h1 h2 => hbyte x (by omega) (by omega)).trans h.2⟩

/-- What the tree was built from, and that CODE_GEN left it alone. -/
theorem AnalysisRun.tree_eq {s t u v : State} {src len : Nat} (h : AnalysisRun s src len t u v) :
    t.freq = v.freq ∧ t.ctrl = s.ctrl ∧ u.nodes = v.nodes ∧ u.root = v.root := by
  have hgen := codeGen_keeps (p := fun x => (x.freq, x.ctrl, x.nodes, x.root)) (fun _ _ => rfl) (fun _ _ _ _ => rfl)
    (fun _ => rfl) (fun _ => rfl) u
  have hbuild := treeBuild_keeps (p := fun x => (x.freq, x.ctrl)) (fun _ _ => rfl) (fun _ _ => rfl) (fun _ => rfl)
    (fun _ _ => rfl) t
  rw [h.gen] at hgen
  rw [h.build] at hbuild
  simp only [Res.state_ok, Prod.mk.injEq] at hgen hbuild
  obtain ⟨hvfreq, hvctrl, hnodes, hroot⟩ := hgen
  obtain ⟨hufreq, huctrl⟩ := hbuild
  exact ⟨(hvfreq.trans hufreq).symm, (hvctrl.trans huctrl).symm.trans h.ctrl_eq, hnodes.symm, hroot.symm⟩

/-- Over the tree it was packed with, the packed input spells the input (R227). -/
theorem AnalysisRun.spells {s t u v : State} {src len : Nat} (h : AnalysisRun s src len t u v) :
    Spells u ((s.bytesAt src len).flatMap v.codeBits) (s.bytesAt src len) := by
  obtain ⟨-, -, hnodes, hroot⟩ := h.tree_eq
  have hnode : u.node = v.node := by
    unfold State.node
    rw [hnodes]
  exact spells_flatMap_codeBits fun b hb =>
    State.emits_congr hnode hroot (h.analysed.codes.emits b (h.analysed.coded b hb))

/-- A file that holds the analysis's header and the packed input decompresses to the input, under the same TIEBRK. -/
theorem AnalysisRun.decompress_file {s t u v r : State} {src len : Nat} (h : AnalysisRun s src len t u v)
    (hsrc : src + len ≤ s.dmemSize) (htiebrk : r.ctrl.tiebrk = s.ctrl.tiebrk)
    (hr : r.src.toNat + r.len.toNat ≤ r.dmemSize) (hl : 1032 ≤ r.len.toNat) (hheader : r.holdsHeader r.src.toNat v)
    {pad : List Bool} (hbits : r.bitsAt (r.src.toNat + 1032) (r.len.toNat - 1032) =
      (s.bytesAt src len).flatMap v.codeBits ++ pad)
    (hfit : r.dst.toNat + len ≤ r.dmemSize) (hapart : apart r.src.toNat r.len.toNat r.dst.toNat len) :
    ∃ x, body .decompress r = .ok () x ∧ x.result = BitVec.ofNat 32 len ∧
      x.bytesAt r.dst.toNat len = s.bytesAt src len := by
  have hlength : (s.bytesAt src len).length = len := s.bytesAt_length src len
  obtain ⟨hfreq, hctrl, -, -⟩ := h.tree_eq
  have hheaderFreq := headerFreq_of_holdsHeader hheader
  have htotal : r.headerTotal r.src.toNat = len := by
    have hsz := s.dmemSize_le
    have hv : v.total = BitVec.ofNat 64 len := congrArg State.total h.analysed.frame
    rw [State.headerTotal, hheader.2, hv, BitVec.toNat_ofNat]
    omega
  have hsum : (r.loadHeader r.src.toNat).freqSum = r.headerTotal r.src.toNat := by
    have hv : (r.loadHeader r.src.toNat).freqSum = v.freqSum := by
      rw [State.freqSum, State.freqSum, State.loadHeader, hheaderFreq]
    rw [hv, State.freqSum_eq_length h.analysed.counts, hlength, htotal]
  have hcounts : SameCounts (r.loadHeader r.src.toNat) t :=
    ⟨hheaderFreq.trans hfreq.symm, htiebrk.trans (congrArg Ctrl.tiebrk hctrl).symm⟩
  obtain ⟨x, hbody, hx, hbytes, -⟩ := decompress_ok hr hl hsum h.build hcounts (hlength.trans htotal.symm) hbits h.spells
    (hlength.symm ▸ hfit) (hlength.symm ▸ hapart)
  rw [hlength] at hbytes
  exact ⟨x, hbody, (congrArg State.result hx).trans (congrArg (BitVec.ofNat 32) hlength), hbytes⟩

/-- Settles O53: a COMPRESS with OK wrote the file the analysis foretold, and that file decompresses to the input. -/
theorem roundTrip : Obligations.RoundTrip := by
  intro s t r e hcompress hok hapart htiebrk hlog hbytes hsrc hlen hdst hfit hapartOut
  obtain ⟨w, hw, rfl⟩ := exists_body_ok hcompress hok
  have hr : s.src.toNat + s.len.toNat ≤ s.dmemSize := by
    by_contra hr
    rw [compress_bounds (Nat.lt_of_not_le hr)] at hw
    cases hw
  obtain ⟨c, b, v, h⟩ := exists_analysisRun hr
  have hs : s.dst.toNat + v.fileBytes ≤ s.dmemSize := by
    by_contra hs
    rw [h.compress_noRoom hr (Nat.lt_of_not_le hs)] at hw
    cases hw
  have hresult := h.result_eq hr hs hw hapart
  change apart _ _ _ w.result.toNat at hapart hapartOut
  change r.bytesAt _ w.result.toNat = w.bytesAt _ w.result.toNat at hbytes
  rw [hresult] at hapart hapartOut hbytes
  obtain ⟨w', pad, hw', -, hheader, hbits, -⟩ := h.compress_ok hr hs hapart
  obtain rfl := (Res.ok.inj (hw.symm.trans hw')).2
  have hle := hdrBytes_le_fileBytes v
  have hrlen : r.len.toNat = v.fileBytes := (congrArg BitVec.toNat hlen).trans hresult
  have hsize : r.dmemSize = s.dmemSize := congrArg Config.dmemSize hlog
  have hbyte (x : Nat) (h1 : s.dst.toNat ≤ x) (h2 : x < s.dst.toNat + v.fileBytes) : r.byte x = w.byte x :=
    State.byte_eq_of_bytesAt hbytes h1 h2
  obtain ⟨x, hx, hxresult, hxbytes⟩ := h.decompress_file (r := r) (pad := pad) hr htiebrk
    (by rw [hsrc, hrlen, hsize]; exact hs) (hrlen ▸ hle)
    (by rw [hsrc]; exact hheader.congr fun x h1 h2 => hbyte x h1 (by omega))
    (by rw [hsrc, hrlen, ← hbits]; exact State.bitsAt_congr fun x h1 h2 => hbyte x (by omega) (by omega))
    (by rw [hdst, hsize]; exact hfit)
    (by rw [hsrc, hrlen, hdst]; exact fun x h1 h2 h3 h4 => hapartOut x h3 h4 h1 h2)
  rw [hdst] at hxbytes
  refine ⟨_, exec_of_body_ok hx, rfl, ?_, hxbytes⟩
  show x.result = s.len
  rw [hxresult, BitVec.ofNat_toNat, BitVec.setWidth_eq]

end Sys2Proof.Machine
end

section
/-! PROOF. The codes a command may complete with (60_exceptions.md R250, column "raised by"). -/

namespace Sys2Proof.Machine

/-! What a piece of pseudocode raises -/

/-- Whatever the piece raises has its code in the list. -/
def Res.RaisesOnly {α : Type} (r : Res α) (cs : List (BitVec 8)) : Prop := ∀ e s, r = .raised e s → e.code ∈ cs

namespace Res

variable {α β : Type} {cs : List (BitVec 8)}

theorem raisesOnly_ok (a : α) (s : State) : (ok a s).RaisesOnly cs := by
  rintro _ _ ⟨⟩

theorem raisesOnly_raised {e : Error} (h : e.code ∈ cs) (s : State) : (raised e s : Res α).RaisesOnly cs := by
  rintro _ _ ⟨⟩
  exact h

theorem RaisesOnly.andThen {r : Res α} {f : α → State → Res β} (hr : r.RaisesOnly cs)
    (hf : ∀ a s, (f a s).RaisesOnly cs) : (r.andThen f).RaisesOnly cs := by
  intro e t h
  rcases andThen_eq_raised h with h | ⟨a, s, -, h⟩
  · exact hr e t h
  · exact hf a s e t h

theorem RaisesOnly.ite {c : Prop} [Decidable c] {r r' : Res α} (hr : r.RaisesOnly cs) (hr' : r'.RaisesOnly cs) :
    (if c then r else r').RaisesOnly cs := by
  split
  · exact hr
  · exact hr'

theorem RaisesOnly.mapState {r : Res α} (h : r.RaisesOnly cs) (f : State → State) : (r.mapState f).RaisesOnly cs := by
  cases r with
  | ok a s => exact raisesOnly_ok a (f s)
  | raised e s => exact raisesOnly_raised (h e s rfl) (f s)

theorem RaisesOnly.onRaise {r : Res α} (h : r.RaisesOnly cs) (f : State → State) : (r.onRaise f).RaisesOnly cs := by
  cases r with
  | ok a s => exact raisesOnly_ok a s
  | raised e s => exact raisesOnly_raised (h e s rfl) (f s)

/-- The code of the completion (60_exceptions.md R252). -/
theorem RaisesOnly.errcode_complete {r : Res Unit} (h : r.RaisesOnly cs) :
    (complete r).status.errcode = 0x00#8 ∨ (complete r).status.errcode ∈ cs := by
  cases r with
  | ok _ s => exact .inl rfl
  | raised e s => exact .inr (h e s rfl)

end Res

open Res

/-! The primitives and the parts of the commands, each with the codes it needs in the list -/

section Parts

variable {cs : List (BitVec 8)}

theorem checkRange_raisesOnly (hbounds : 0x07#8 ∈ cs) (a n : Nat) (s : State) : (checkRange a n s).RaisesOnly cs :=
  .ite (raisesOnly_raised hbounds _) (raisesOnly_ok _ _)

theorem memRead_raisesOnly (hbounds : 0x07#8 ∈ cs) (a : Nat) (s : State) : (memRead a s).RaisesOnly cs :=
  .ite (raisesOnly_raised hbounds _) (raisesOnly_ok _ _)

theorem memWrite_raisesOnly (hbounds : 0x07#8 ∈ cs) (a : Nat) (v : Byte) (s : State) : (memWrite a v s).RaisesOnly cs :=
  .ite (raisesOnly_raised hbounds _) (raisesOnly_ok _ _)

theorem memReadBE_raisesOnly (hbounds : 0x07#8 ∈ cs) (a n : Nat) (s : State) : (memReadBE a n s).RaisesOnly cs :=
  (checkRange_raisesOnly hbounds a n s).andThen fun _ _ => raisesOnly_ok _ _

theorem memWriteBE_raisesOnly (hbounds : 0x07#8 ∈ cs) (a n v : Nat) (s : State) : (memWriteBE a n v s).RaisesOnly cs :=
  (checkRange_raisesOnly hbounds a n s).andThen fun _ _ => raisesOnly_ok _ _

theorem countLoop_raisesOnly (hbounds : 0x07#8 ∈ cs) (hoverflow : 0x06#8 ∈ cs) (src : Nat) :
    ∀ n i s, (countLoop src n i s).RaisesOnly cs
  | 0, _, _ => raisesOnly_ok _ _
  | n + 1, _, s => (memRead_raisesOnly hbounds _ s).andThen fun _ _ =>
      .ite (raisesOnly_raised hoverflow _)
        (.ite (raisesOnly_raised hoverflow _) (countLoop_raisesOnly hbounds hoverflow src n _ _))

theorem freqCount_raisesOnly (hbounds : 0x07#8 ∈ cs) (hoverflow : 0x06#8 ∈ cs) (src len : Nat) (s : State) :
    (freqCount src len s).RaisesOnly cs :=
  (checkRange_raisesOnly hbounds _ _ s).andThen fun _ _ => countLoop_raisesOnly hbounds hoverflow src len _ _

theorem heapInsert_raisesOnly (hfull : 0x03#8 ∈ cs) (n : NodeIx) (s : State) : (heapInsert n s).RaisesOnly cs :=
  .ite (raisesOnly_raised hfull _) (raisesOnly_ok _ _)

theorem pqInsert_raisesOnly (hfull : 0x03#8 ∈ cs) (hbad : 0x05#8 ∈ cs) (na : NodeIx) (s : State) :
    (pqInsert na s).RaisesOnly cs :=
  .ite (raisesOnly_raised hbad _) (heapInsert_raisesOnly hfull na s)

theorem heapExtract_raisesOnly (hempty : 0x02#8 ∈ cs) (s : State) : (heapExtract s).RaisesOnly cs :=
  .ite (raisesOnly_raised hempty _) (raisesOnly_ok _ _)

theorem newLeaf_raisesOnly (hfull : 0x04#8 ∈ cs) (sym : Sym) (s : State) : (newLeaf sym s).RaisesOnly cs :=
  .ite (raisesOnly_raised hfull _) (raisesOnly_ok _ _)

theorem newJoin_raisesOnly (hfull : 0x04#8 ∈ cs) (hbad : 0x05#8 ∈ cs) (hoverflow : 0x06#8 ∈ cs) (a b : NodeIx)
    (s : State) : (newJoin a b s).RaisesOnly cs :=
  .ite (raisesOnly_raised hbad _) (.ite (raisesOnly_raised hbad _) (.ite (raisesOnly_raised hfull _)
    (.ite (raisesOnly_raised hoverflow _) (raisesOnly_ok _ _))))

theorem storeIndex_raisesOnly {r : Res NodeIx} (h : r.RaisesOnly cs) : (storeIndex r).RaisesOnly cs :=
  h.andThen fun _ _ => raisesOnly_ok _ _

theorem treeSetroot_raisesOnly (hbad : 0x05#8 ∈ cs) (na : NodeIx) (s : State) : (treeSetroot na s).RaisesOnly cs :=
  .ite (raisesOnly_raised hbad _) (raisesOnly_ok _ _)

/-- TREE_BUILD raises nothing: its arena and its heap hold what the 256 counts can need (43_tree.md R181). -/
theorem treeBuild_raisesOnly (s : State) : (treeBuild s).RaisesOnly cs := by
  obtain ⟨u, hu, -⟩ := treeBuild_spec s
  rw [hu]
  exact raisesOnly_ok () u

theorem walkLoop_raisesOnly (hbad : 0x08#8 ∈ cs) (hlong : 0x0B#8 ∈ cs) : ∀ fuel s, (walkLoop fuel s).RaisesOnly cs
  | 0, _ => raisesOnly_ok _ _
  | fuel + 1, s => by
    unfold walkLoop
    split
    · exact raisesOnly_ok _ _
    · refine .ite (raisesOnly_raised hbad _) ?_
      dsimp only
      split
      · exact .ite (raisesOnly_raised hbad _) (walkLoop_raisesOnly hbad hlong fuel _)
      · exact .ite (raisesOnly_raised hlong _) (walkLoop_raisesOnly hbad hlong fuel _)

theorem codeGen_raisesOnly (hbad : 0x08#8 ∈ cs) (hlong : 0x0B#8 ∈ cs) (s : State) : (codeGen s).RaisesOnly cs := by
  refine .ite (raisesOnly_ok _ _) ?_
  split
  · exact raisesOnly_ok _ _
  · exact (walkLoop_raisesOnly hbad hlong _ _).mapState _

theorem drainBytes_raisesOnly (hbounds : 0x07#8 ∈ cs) : ∀ fuel n acc s, (drainBytes fuel n acc s).RaisesOnly cs
  | 0, _, _, _ => raisesOnly_ok _ _
  | fuel + 1, _, _, s =>
    .ite ((memWrite_raisesOnly hbounds _ _ s).andThen fun _ _ => drainBytes_raisesOnly hbounds fuel _ _ _)
      (raisesOnly_ok _ _)

theorem append_raisesOnly (hbounds : 0x07#8 ∈ cs) (c l : Nat) (s : State) : (append c l s).RaisesOnly cs :=
  (checkRange_raisesOnly hbounds _ _ s).andThen fun _ t =>
    (drainBytes_raisesOnly hbounds _ _ _ t).andThen fun _ _ => raisesOnly_ok _ _

theorem packSymbol_raisesOnly (hbounds : 0x07#8 ∈ cs) (hcode : 0x09#8 ∈ cs) (sym : Sym) (s : State) :
    (packSymbol sym s).RaisesOnly cs :=
  .ite (append_raisesOnly hbounds _ _ s) (raisesOnly_raised hcode _)

theorem packLoop_raisesOnly (hbounds : 0x07#8 ∈ cs) (hcode : 0x09#8 ∈ cs) (src : Nat) :
    ∀ n i s, (packLoop src n i s).RaisesOnly cs
  | 0, _, _ => raisesOnly_ok _ _
  | n + 1, _, s => (memRead_raisesOnly hbounds _ s).andThen fun b t =>
      (packSymbol_raisesOnly hbounds hcode b t).andThen fun _ _ => packLoop_raisesOnly hbounds hcode src n _ _

theorem packData_raisesOnly (hbounds : 0x07#8 ∈ cs) (hcode : 0x09#8 ∈ cs) (src len : Nat) (s : State) :
    (packData src len s).RaisesOnly cs :=
  (checkRange_raisesOnly hbounds _ _ s).andThen fun _ _ => packLoop_raisesOnly hbounds hcode src len _ _

theorem headerLoop_raisesOnly (hbounds : 0x07#8 ∈ cs) (a : Nat) : ∀ n s, (headerLoop a n s).RaisesOnly cs
  | 0, _ => raisesOnly_ok _ _
  | n + 1, s => (memWriteBE_raisesOnly hbounds _ _ _ s).andThen fun _ t => headerLoop_raisesOnly hbounds a n t

theorem packHeader_raisesOnly (hbounds : 0x07#8 ∈ cs) (hsequence : 0x0C#8 ∈ cs) (s : State) :
    (packHeader s).RaisesOnly cs :=
  .ite (raisesOnly_raised hsequence _) <| (checkRange_raisesOnly hbounds _ _ s).andThen fun _ t =>
    (headerLoop_raisesOnly hbounds _ _ t).andThen fun _ u =>
      (memWriteBE_raisesOnly hbounds _ _ _ u).andThen fun _ _ => raisesOnly_ok _ _

theorem packFlush_raisesOnly (hbounds : 0x07#8 ∈ cs) (s : State) : (packFlush s).RaisesOnly cs := by
  have hpending : (flushPending s).RaisesOnly cs :=
    .ite (raisesOnly_ok _ _) <| (checkRange_raisesOnly hbounds _ _ s).andThen fun _ t =>
      (memWrite_raisesOnly hbounds _ _ t).andThen fun _ _ => raisesOnly_ok _ _
  exact hpending.andThen fun _ _ => raisesOnly_ok _ _

theorem loadLoop_raisesOnly (hbounds : 0x07#8 ∈ cs) (src : Nat) : ∀ n s, (loadLoop src n s).RaisesOnly cs
  | 0, _ => raisesOnly_ok _ _
  | n + 1, s => (memReadBE_raisesOnly hbounds _ _ s).andThen fun _ _ => loadLoop_raisesOnly hbounds src n _

theorem hdrParse_raisesOnly (hbounds : 0x07#8 ∈ cs) (hmalformed : 0x0A#8 ∈ cs) (src len : Nat) (s : State) :
    (hdrParse src len s).RaisesOnly cs := by
  have hcheck (t : State) : (checkHeader t).RaisesOnly cs := .ite (raisesOnly_ok _ _) (raisesOnly_raised hmalformed _)
  refine (checkRange_raisesOnly hbounds _ _ s).andThen fun _ t => .ite (raisesOnly_raised hmalformed _) ?_
  exact (loadLoop_raisesOnly hbounds _ _ t).andThen fun _ u =>
    (memReadBE_raisesOnly hbounds _ _ u).andThen fun _ _ => (hcheck _).andThen fun _ _ => raisesOnly_ok _ _

theorem nextBit_raisesOnly (hbounds : 0x07#8 ∈ cs) (hmalformed : 0x0A#8 ∈ cs) (iend : Nat) (s : State) :
    (nextBit iend s).RaisesOnly cs :=
  .ite (raisesOnly_raised hmalformed _) <| (memRead_raisesOnly hbounds _ s).andThen fun _ _ => raisesOnly_ok _ _

theorem emitSymbol_raisesOnly (hbounds : 0x07#8 ∈ cs) (write : Bool) (dst : Nat) (sym : Sym) (s : State) :
    (emitSymbol write dst sym s).RaisesOnly cs :=
  (RaisesOnly.ite (memWrite_raisesOnly hbounds _ _ s) (raisesOnly_ok _ _)).andThen fun _ _ => raisesOnly_ok _ _

theorem stepBit_raisesOnly (hbounds : 0x07#8 ∈ cs) (write : Bool) (dst : Nat) (b : Bool) (s : State) :
    (stepBit write dst b s).RaisesOnly cs := by
  unfold stepBit
  split
  · exact emitSymbol_raisesOnly hbounds write dst _ s
  · dsimp only
    split
    · exact (emitSymbol_raisesOnly hbounds write dst _ _).andThen fun _ _ => raisesOnly_ok _ _
    · exact raisesOnly_ok _ _

theorem unpackLoop_raisesOnly (hbounds : 0x07#8 ∈ cs) (hmalformed : 0x0A#8 ∈ cs) (write : Bool) (iend dst : Nat) :
    ∀ fuel s, (unpackLoop write iend dst fuel s).RaisesOnly cs
  | 0, _ => raisesOnly_ok _ _
  | fuel + 1, s =>
    .ite ((nextBit_raisesOnly hbounds hmalformed iend s).andThen fun b t =>
      (stepBit_raisesOnly hbounds write dst b t).andThen fun _ u =>
        unpackLoop_raisesOnly hbounds hmalformed write iend dst fuel u) (raisesOnly_ok _ _)

theorem unpack_raisesOnly (hbounds : 0x07#8 ∈ cs) (hmalformed : 0x0A#8 ∈ cs) (write : Bool) (src len dst : Nat)
    (s : State) : (unpack write src len dst s).RaisesOnly cs :=
  (checkRange_raisesOnly hbounds _ _ s).andThen fun _ _ => .ite (raisesOnly_ok _ _)
    (.ite (raisesOnly_raised hmalformed _) (unpackLoop_raisesOnly hbounds hmalformed write _ _ _ _))

/-- COMPRESS counts from a cleared table, builds and codes a tree and writes its header without error: what is left to fail
are its range checks and the packing of the data (47_codec.md R240, 43_tree.md R181, 44_codegen.md R193). -/
theorem compress_raisesOnly (hbounds : 0x07#8 ∈ cs) (hcode : 0x09#8 ∈ cs) (s : State) :
    (body .compress s).RaisesOnly cs := by
  by_cases hr : s.src.toNat + s.len.toNat ≤ s.dmemSize
  · obtain ⟨t, u, v, h⟩ := exists_analysisRun hr
    by_cases hs : s.dst.toNat + v.fileBytes ≤ s.dmemSize
    · obtain ⟨w, hw, -⟩ := h.packHeader_ok hs
      rw [h.compress_room hr hs, hw, ok_andThen]
      exact ((packData_raisesOnly hbounds hcode _ _ w).andThen fun _ x => packFlush_raisesOnly hbounds x).onRaise _
    · rw [h.compress_noRoom hr (Nat.lt_of_not_le hs)]
      exact raisesOnly_raised hbounds _
  · rw [compress_bounds (Nat.lt_of_not_le hr)]
    exact raisesOnly_raised hbounds _

theorem decompress_raisesOnly (hbounds : 0x07#8 ∈ cs) (hmalformed : 0x0A#8 ∈ cs) (s : State) :
    (decompress s).RaisesOnly cs := by
  refine RaisesOnly.onRaise ((checkRange_raisesOnly hbounds _ _ s).andThen fun _ t => ?_) _
  refine (hdrParse_raisesOnly hbounds hmalformed _ _ t).andThen fun _ t => ?_
  refine (treeBuild_raisesOnly t).andThen fun _ t => ?_
  refine (unpack_raisesOnly hbounds hmalformed _ _ _ _ t).andThen fun _ t => ?_
  refine (checkRange_raisesOnly hbounds _ _ t).andThen fun _ t => ?_
  exact (unpack_raisesOnly hbounds hmalformed _ _ _ _ t).andThen fun _ _ => raisesOnly_ok _ _

end Parts

/-! Every command -/

/-- R250's column "raised by", of the command's body. -/
theorem body_raisesOnly (i : Instr) (s : State) : (body i s).RaisesOnly (raisable i) := by
  cases i with
  | nop | clear | freqClear | pqClear | pqSize | nodeClear | packInit => exact raisesOnly_ok _ _
  | freqCount => exact freqCount_raisesOnly (by simp [raisable]) (by simp [raisable]) _ _ s
  | pqInsert na => exact pqInsert_raisesOnly (by simp [raisable]) (by simp [raisable]) na s
  | pqExtract => exact (heapExtract_raisesOnly (by simp [raisable]) s).andThen fun _ _ => raisesOnly_ok _ _
  | nodeLeaf sym => exact storeIndex_raisesOnly (newLeaf_raisesOnly (by simp [raisable]) sym s)
  | nodeJoin na nb =>
    exact storeIndex_raisesOnly
      (newJoin_raisesOnly (by simp [raisable]) (by simp [raisable]) (by simp [raisable]) na nb s)
  | treeBuild => exact treeBuild_raisesOnly s
  | treeSetroot na => exact treeSetroot_raisesOnly (by simp [raisable]) na s
  | codeGen => exact codeGen_raisesOnly (by simp [raisable]) (by simp [raisable]) s
  | packHeader => exact packHeader_raisesOnly (by simp [raisable]) (by simp [raisable]) s
  | packSym sym => exact packSymbol_raisesOnly (by simp [raisable]) (by simp [raisable]) sym s
  | packData => exact packData_raisesOnly (by simp [raisable]) (by simp [raisable]) _ _ s
  | packFlush => exact packFlush_raisesOnly (by simp [raisable]) s
  | hdrParse => exact hdrParse_raisesOnly (by simp [raisable]) (by simp [raisable]) _ _ s
  | unpack => exact unpack_raisesOnly (by simp [raisable]) (by simp [raisable]) _ _ _ _ s
  | compress => exact compress_raisesOnly (by simp [raisable]) (by simp [raisable]) s
  | decompress => exact decompress_raisesOnly (by simp [raisable]) (by simp [raisable]) s

/-- Settles O10: a completion's code is OK or one its body raises, and a body raises no code but R250's. -/
theorem errorCodesByCommand : Obligations.ErrorCodesByCommand := by
  intro i s t h
  rw [complete_body_of_exec h]
  exact (body_raisesOnly i s).errcode_complete

end Sys2Proof.Machine
end

section
/-! PROOF. Every command ends with finish, and no step of the machine stops (60_exceptions.md R252, R257;
70_reset_and_hazards.md R281, R291). -/

namespace Sys2Proof.Machine

/-! Completion (R252) -/

/-- No command body writes STATUS: completion alone does. -/
theorem body_status (i : Instr) (s : State) : (body i s).state.status = s.status := by
  cases i with
  | nop | clear | freqClear | pqClear | pqSize | nodeClear | packInit => rfl
  | freqCount => exact freqCount_keeps (fun _ _ _ => rfl) (fun _ _ => rfl) _ _ s
  | pqInsert na => exact pqInsert_keeps (fun _ _ => rfl) na s
  | pqExtract => exact pqExtract_keeps (fun _ _ => rfl) (fun _ _ => rfl) s
  | nodeLeaf sym => exact (storeIndex_keeps (fun _ _ => rfl) _).trans (newLeaf_keeps (fun _ _ => rfl) sym s)
  | nodeJoin na nb => exact (storeIndex_keeps (fun _ _ => rfl) _).trans (newJoin_keeps (fun _ _ => rfl) na nb s)
  | treeBuild => exact treeBuild_keeps (fun _ _ => rfl) (fun _ _ => rfl) (fun _ => rfl) (fun _ _ => rfl) s
  | treeSetroot na => exact treeSetroot_keeps (fun _ _ => rfl) na s
  | codeGen => exact codeGen_keeps (fun _ _ => rfl) (fun _ _ _ _ => rfl) (fun _ => rfl) (fun _ => rfl) s
  | packHeader => exact packHeader_keeps (fun _ _ _ => rfl) (fun _ _ => rfl) s
  | packSym sym => exact packSymbol_keeps (fun _ _ _ => rfl) (fun _ _ => rfl) sym s
  | packData => exact packData_keeps (fun _ _ _ => rfl) (fun _ _ => rfl) (fun _ _ => rfl) _ _ s
  | packFlush => exact packFlush_keeps (fun _ _ _ => rfl) (fun _ _ => rfl) (fun _ _ => rfl) s
  | hdrParse => exact hdrParse_keeps (fun _ _ _ => rfl) (fun _ _ => rfl) (fun _ _ => rfl) _ _ s
  | unpack => exact unpack_keeps (fun _ _ _ => rfl) (fun _ _ => rfl) (fun _ _ => rfl) _ _ _ _ s
  | compress =>
    exact compress_keeps (fun _ _ _ => rfl) (fun _ => rfl) (fun _ _ => rfl) (fun _ _ => rfl) (fun _ => rfl) (fun _ _ => rfl)
      (fun _ _ => rfl) (fun _ _ _ _ => rfl) (fun _ => rfl) (fun _ => rfl) (fun _ _ _ => rfl) (fun _ _ => rfl)
      (fun _ _ => rfl) s
  | decompress =>
    exact decompress_keeps (fun _ _ _ => rfl) (fun _ _ => rfl) (fun _ _ => rfl) (fun _ _ => rfl) (fun _ => rfl)
      (fun _ _ => rfl) (fun _ _ _ => rfl) (fun _ _ => rfl) (fun _ _ => rfl) s

/-- STATUS at the completion is `finish` of STATUS where the pseudocode ended (R252). -/
theorem complete_status (r : Res Unit) :
    (complete r).status = r.state.status.finish (complete r).status.errcode := by
  cases r <;> rfl

/-! The core's step and the machine's -/

/-- A command word's run is a completion, legal word or not (30_encoding.md R108). -/
theorem exists_runCommand_eq_complete (s : State) : ∃ r, runCommand s = .next (complete r) := by
  unfold runCommand
  split
  next i _ => exact ⟨body i s, exec_eq_complete_body i s⟩
  next => exact ⟨_, rfl⟩

/-- The core's turn leaves BUSY 0, INIT's too, unless reset holds the core (R281, R291). -/
theorem exists_coreStep_eq_next (s : State) : ∃ t, coreStep s = .next t ∧ (s.env.rst = false → t.status.busy = false) := by
  unfold coreStep
  split
  next hrst => exact ⟨s, rfl, fun h => absurd hrst (by simp [h])⟩
  next =>
    split
    next hidle => exact ⟨s, rfl, fun _ => by simpa using hidle⟩
    next =>
      split
      next => exact ⟨_, rfl, fun _ => rfl⟩
      next =>
        obtain ⟨r, hr⟩ := exists_runCommand_eq_complete s
        exact ⟨_, hr, fun _ => by rw [complete_status]; rfl⟩

/-- No step of the machine stops (60_exceptions.md R257). -/
theorem exists_step_eq_next (s : State) : ∃ t, step s = .next t := by
  unfold step nextStep
  split
  next => exact (exists_coreStep_eq_next s).imp fun _ h => h.1
  next e es _ =>
    cases e with
    | core => exact (exists_coreStep_eq_next _).imp fun _ h => h.1
    | host _ | resetAssert | resetRelease => exact ⟨_, rfl⟩

/-- Settles O9: every command is its body's completion, and no body writes STATUS; the core's turn ends idle. -/
theorem everyCommandEndsWithFinish : Obligations.EveryCommandEndsWithFinish := by
  refine ⟨fun i s => ⟨complete (body i s), exec_eq_complete_body i s, ?_, (complete_statusOk _).okInfo⟩, fun s => ?_⟩
  · have h := complete_status (body i s)
    rw [body_status] at h
    exact h
  · obtain ⟨t, ht⟩ := exists_step_eq_next s
    refine ⟨t, ht, fun rest hrst hturn => ?_⟩
    obtain ⟨u, hu, hbusy⟩ := exists_coreStep_eq_next (s.withEvents rest)
    rw [step_of_coreTurn hturn, hu] at ht
    obtain rfl := Host.Outcome.next.inj ht
    exact hbusy hrst

/-- Settles O6: past reset and busy in phase INIT, the core's turn is `State.initialise`. -/
theorem initClearsTheDatapath : Obligations.InitClearsTheDatapath := by
  intro s rest hrst hbusy hphase hturn
  have hinit : coreStep (s.withEvents rest) = .next (s.withEvents rest).initialise := by
    simp [coreStep, hrst, hbusy, hphase]
  rw [step_of_coreTurn hturn, hinit]
  rfl

end Sys2Proof.Machine
end

section
/-! PROOF. Idle keeps its state (60_exceptions.md R265). -/

namespace Sys2Proof.Machine

/-! Host reads and writes while idle -/

/-- A host read, served or not, idle or busy, changes the model's own fields alone (20_memory.md R83). -/
theorem step_of_read_frame {s u : State} {rest : List Event} (hrst : s.env.rst = false) {size : Size} {a : Addr}
    (hturn : s.hostTurn (.rd size a) rest) (hstep : step s = .next u) : u = { s with env := u.env } := by
  cases hacc : s.accepts size a with
  | false =>
    obtain rfl := Host.Outcome.next.inj ((step_of_not_accepts (w := 0) hrst (.inl rfl) hturn hacc).symm.trans hstep)
    rfl
  | true =>
    obtain ⟨w, n, -, hread⟩ := readsWithin_word hrst hacc rest hturn
    obtain rfl := Host.Outcome.next.inj (hread.symm.trans hstep)
    rfl

/-- What an address in the register block reaches (R71). -/
theorem State.region_eq_reg {s : State} {n o : Nat} (h : s.region n = .reg o) : o = n := by
  unfold State.region at h
  split_ifs at h
  exact (Region.reg.inj h).symm

/-- Of the registers CMD alone starts a command (10_state.md R24). -/
theorem writeReg_busy (s : State) {o : Nat} (ho : o ≠ 0x010) (w : Word) (p : Phase) :
    (s.writeReg o w p).status.busy = s.status.busy := by
  unfold State.writeReg
  split
  case h_3 => exact absurd rfl ho
  all_goals rfl

theorem writeIdle_busy (s : State) (size : Size) {r : Region} (hr : r ≠ .reg 0x010) (w : Word) (p : Phase) :
    (s.writeIdle size r w p).status.busy = s.status.busy := by
  cases r with
  | reg o => exact writeReg_busy s (fun ho => hr (congrArg Region.reg ho)) w p
  | dmem a => cases size <;> rfl
  | freq _ | code _ _ | node _ _ | heap _ | reserved => rfl

/-- A write to another address than CMD's leaves the machine idle (R265). -/
theorem step_of_write_idle {s u : State} {rest : List Event} (hrst : s.env.rst = false) (hidle : s.status.busy = false)
    {size : Size} {a : Addr} {w : Word} (hcmd : a ≠ 0x000010#24) (hturn : s.hostTurn (.wr size a w) rest)
    (hstep : step s = .next u) : u.status.busy = false := by
  cases hacc : s.accepts size a with
  | false =>
    obtain rfl := Host.Outcome.next.inj ((step_of_not_accepts hrst (.inr rfl) hturn hacc).symm.trans hstep)
    exact hidle
  | true =>
    have hr : s.region a.toNat ≠ .reg 0x010 := fun h => hcmd (BitVec.eq_of_toNat_eq (State.region_eq_reg h).symm)
    obtain rfl := Host.Outcome.next.inj ((step_of_write hrst hturn hacc).symm.trans hstep)
    rw [hidle, if_neg Bool.false_ne_true, State.respond_status]
    exact (writeIdle_busy (s.withEvents rest) size hr w _).trans hidle

/-- Settles O60: the core has no turn to take while BUSY is 0; a read changes no state, and a write starts a command at CMD
alone. -/
theorem idleKeepsItsState : Obligations.IdleKeepsItsState := by
  refine fun s rest hrst hidle => ⟨fun hturn => ?_, fun t u hturn hstep hcmd => ?_, fun _ _ _ => step_of_read_frame hrst⟩
  · rw [step_of_coreTurn hturn]
    simp [coreStep, hidle]
  · cases t with
    | rd size a => rw [step_of_read_frame hrst hturn hstep]; exact hidle
    | wr size a w => exact step_of_write_idle hrst hidle (fun ha => hcmd size w (by rw [ha])) hturn hstep

end Sys2Proof.Machine
end

section
/-! PROOF. No loop is cut short by the bound the model gives it (70_reset_and_hazards.md R291; log 12): for each loop, from
its bound on, one turn more changes nothing. -/

namespace Sys2Proof.Machine

/-- A value that one turn more leaves as it is from n turns on is the same with any number more. -/
theorem turns_eq_of_succ {α : Type} {f : Nat → α} {n : Nat} (h : ∀ m, n ≤ m → f (m + 1) = f m) (more : Nat) :
    f (n + more) = f n := by
  induction more with
  | zero => rfl
  | succ k ih => rw [← Nat.add_assoc, h _ (Nat.le_add_right n k), ih]

theorem Res.andThen_congr {α β : Type} {r : Res α} {f g : α → State → Res β}
    (h : ∀ a s, r = .ok a s → f a s = g a s) : r.andThen f = r.andThen g := by
  cases r with
  | ok a s => exact h a s rfl
  | raised e s => rfl

/-! The sifts (42_heap.md R152, R153) -/

/-- Each turn of the sift up lowers k, and it ends at slot 0. -/
theorem siftUp_succ_eq (lt : NodeIx → NodeIx → Bool) :
    ∀ fuel k h, k ≤ fuel → siftUp lt (fuel + 1) k h = siftUp lt fuel k h
  | 0, k, h, hk => if_pos (Nat.le_zero.mp hk)
  | fuel + 1, k, h, hk => by
    rw [siftUp, siftUp]
    dsimp only
    rw [siftUp_succ_eq lt fuel ((k - 1) / 2) _ (by omega)]

/-- Each turn of the sift down raises k, and it ends at a slot without children. -/
theorem siftDown_succ_eq (lt : NodeIx → NodeIx → Bool) :
    ∀ fuel k h, h.length ≤ k + fuel → siftDown lt (fuel + 1) k h = siftDown lt fuel k h
  | 0, k, h, hk => if_pos (by omega)
  | fuel + 1, k, h, hk => by
    have hc := lt_lesserChild lt h k
    have hturn := siftDown_succ_eq lt fuel (lesserChild lt h k) (h.swap (lesserChild lt h k) k)
      (by rw [List.length_swap]; omega)
    rw [siftDown_succ, hturn, siftDown_succ]

/-! TB_MERGE (43_tree.md R177) -/

theorem heapExtract_pqSize {s t : State} {n : NodeIx} (h : heapExtract s = .ok n t) : t.pqSize = s.pqSize - 1 := by
  unfold heapExtract at h
  split at h
  · cases h
  · rw [← (Res.ok.inj h).2]
    exact popHeap_length s.less s.heap

theorem heapInsert_pqSize {s t : State} {n : NodeIx} (h : heapInsert n s = .ok () t) : t.pqSize = s.pqSize + 1 := by
  rw [heapInsert_eq_ok h]
  exact pushHeap_length s.less s.heap n

theorem newJoin_pqSize {s t : State} {a b n : NodeIx} (h : newJoin a b s = .ok n t) : t.pqSize = s.pqSize := by
  have hkeeps := newJoin_keeps (p := State.pqSize) (fun _ _ => rfl) a b s
  rwa [h] at hkeeps

/-- Each merge lowers PQ_SIZE by one, and the merges end at one tree. -/
theorem mergeLoop_succ_eq : ∀ fuel s, s.pqSize ≤ fuel → mergeLoop (fuel + 1) s = mergeLoop fuel s
  | 0, s, hs => if_neg (by omega)
  | fuel + 1, s, hs => by
    rw [mergeLoop, mergeLoop]
    split
    next hmore =>
      refine Res.andThen_congr fun a t h1 => Res.andThen_congr fun b u h2 => Res.andThen_congr fun k v h3 =>
        Res.andThen_congr fun _ w h4 => mergeLoop_succ_eq fuel w ?_
      have ht := heapExtract_pqSize h1
      have hu := heapExtract_pqSize h2
      have hv := newJoin_pqSize h3
      have hw := heapInsert_pqSize h4
      omega
    next => rfl

/-! The walk (44_codegen.md R191) -/

/-- Each turn of the walk but the last visits a node for the first time, and there are 512 node indices. -/
theorem walkLoop_succ_eq : ∀ fuel s, s.walk.visited.Nodup → 513 ≤ fuel + s.walk.visited.length →
    walkLoop (fuel + 1) s = walkLoop fuel s
  | 0, s, hnodup, hf => absurd (length_le_of_nodup hnodup) (by omega)
  | fuel + 1, s, hnodup, hf => by
    rw [walkLoop, walkLoop]
    split
    next => rfl
    next e rest _ =>
      split
      next => rfl
      next hnew =>
        have hnext (t : State) (ht : t.walk.visited = e.node :: s.walk.visited) :
            walkLoop (fuel + 1) t = walkLoop fuel t :=
          walkLoop_succ_eq fuel t (by rw [ht]; exact hnodup.cons hnew) (by rw [ht, List.length_cons]; omega)
        dsimp only
        split
        next => rw [hnext _ rfl]
        next => rw [hnext _ rfl]

/-! The packer's append (45_pack.md R201) -/

/-- Each turn of the append takes 8 bits. -/
theorem drainBytes_succ_eq : ∀ fuel n acc s, n / 8 ≤ fuel → drainBytes (fuel + 1) n acc s = drainBytes fuel n acc s
  | 0, n, acc, s, hn => if_neg (by omega)
  | fuel + 1, n, acc, s, hn => by
    rw [drainBytes, drainBytes]
    split
    next => exact Res.andThen_congr fun _ t _ => drainBytes_succ_eq fuel _ _ _ (by omega)
    next => rfl

/-! The unpacker (46_unpack.md R222 to R226) -/

/-- What says how much of the stream is left: DMEM's size and the bit pointer (10_state.md R34). -/
def State.bitPointer (s : State) : Fin 12 × Word × BitVec 3 := (s.dmemLog, s.up.iptr, s.up.bitpos)

/-- IPTR and BITPOS stand on bit j from byte `src` on. -/
def State.onBit (s : State) (src j : Nat) : Prop :=
  s.up.iptr = BitVec.ofNat 32 (src + j / 8) ∧ s.up.bitpos = BitVec.ofNat 3 (j % 8)

theorem State.onBit.up_eq {s : State} {src j : Nat} (h : s.onBit src j) :
    s.up = unpackerAt src j s.up.cursor s.up.emit.toNat := by
  obtain ⟨hiptr, hbitpos⟩ := h
  simp [unpackerAt, ← hiptr, ← hbitpos]

theorem emitSymbol_bitPointer (write : Bool) (dst : Nat) (sym : Sym) (s : State) :
    (emitSymbol write dst sym s).state.bitPointer = s.bitPointer := by
  refine Res.keeps_andThen ?_ fun _ _ => rfl
  split
  · exact memWrite_keeps (fun _ _ _ => rfl) _ _ s
  · rfl

/-- A step of the cursor reads no bit (R224). -/
theorem stepBit_bitPointer (write : Bool) (dst : Nat) (b : Bool) (s : State) :
    (stepBit write dst b s).state.bitPointer = s.bitPointer := by
  unfold stepBit
  split
  · exact emitSymbol_bitPointer write dst _ s
  · dsimp only
    split
    · exact Res.keeps_andThen (emitSymbol_bitPointer write dst _ _) fun _ _ => rfl
    · rfl

/-- A bit read well is a bit of the stream, and the pointer stands on the next (R223). -/
theorem nextBit_onBit {s t : State} {src len j : Nat} {b : Bool} (hr : src + len ≤ s.dmemSize) (hs : s.onBit src j)
    (hj : j ≤ 8 * len) (h : nextBit (src + len) s = .ok b t) :
    j < 8 * len ∧ t.onBit src (j + 1) ∧ t.dmemLog = s.dmemLog := by
  have hlt : j < 8 * len := by
    refine lt_of_le_of_ne hj fun hend => ?_
    rw [nextBit_raises hr (hend ▸ hs.up_eq)] at h
    cases h
  rw [nextBit_ok hr hs.up_eq (by simpa using hlt)] at h
  obtain rfl := (Res.ok.inj h).2
  exact ⟨hlt, ⟨rfl, rfl⟩, rfl⟩

/-- Each turn of the unpacker reads a bit of the stream or raises. -/
theorem unpackLoop_succ_eq {write : Bool} {src len dst : Nat} : ∀ fuel s j, src + len ≤ s.dmemSize → s.onBit src j →
    j ≤ 8 * len → 8 * len + 1 ≤ fuel + j →
    unpackLoop write (src + len) dst (fuel + 1) s = unpackLoop write (src + len) dst fuel s
  | 0, s, j, _, _, hj, hf => by omega
  | fuel + 1, s, j, hr, hs, hj, hf => by
    rw [unpackLoop, unpackLoop]
    split
    next =>
      refine Res.andThen_congr fun b t h1 => Res.andThen_congr fun _ u h2 => ?_
      obtain ⟨hlt, ⟨hiptr, hbitpos⟩, hlog⟩ := nextBit_onBit hr hs hj h1
      have hptr := stepBit_bitPointer write dst b t
      rw [h2] at hptr
      simp only [Res.state_ok, State.bitPointer, Prod.mk.injEq] at hptr
      obtain ⟨hlog', hiptr', hbitpos'⟩ := hptr
      refine unpackLoop_succ_eq fuel u (j + 1) ?_ ⟨hiptr'.trans hiptr, hbitpos'.trans hbitpos⟩ hlt (by omega)
      rwa [State.dmemSize, hlog', hlog]
    next => rfl

/-- Settles O13: for each loop, from its bound on, one turn more changes nothing. -/
theorem loopsRunToTheirEnd : Obligations.LoopsRunToTheirEnd := by
  refine ⟨fun lt h n => ?_, fun lt h => ?_, fun s => ?_, fun s stack => ?_, fun s n acc => ?_,
    fun s write src len dst more hr => ?_⟩
  · exact turns_eq_of_succ (f := fun m => siftUp lt m h.length (h ++ [n])) fun m hm => siftUp_succ_eq lt m _ _ hm
  · exact turns_eq_of_succ (f := fun m => siftDown lt m 0 h) fun m hm => siftDown_succ_eq lt m 0 h (by omega)
  · exact turns_eq_of_succ (f := fun m => mergeLoop m s) fun m hm => mergeLoop_succ_eq m s hm
  · exact turns_eq_of_succ (f := fun m => walkLoop m _) fun m hm => walkLoop_succ_eq m _ .nil hm
  · exact turns_eq_of_succ (f := fun m => drainBytes m n acc s) fun m hm => drainBytes_succ_eq m n acc s hm
  · exact turns_eq_of_succ (f := fun m => unpackLoop write (src + len) dst m (s.initUnpacker src))
      (fun m hm => unpackLoop_succ_eq m _ 0 hr ⟨rfl, rfl⟩ (Nat.zero_le _) hm) more

end Sys2Proof.Machine
end
